-- ==== Sys2Proof/Word.lean ====
section
/-! DEFINITION. The widths the spec gives its values (00_scope.md section 5: u8, u16, u32). -/

namespace Sys2Proof

/-- u8: a device byte register, a mask, a boolean carrier, an opcode. -/
abbrev Byte := BitVec 8

/-- u16: a sense-chip register, a transport word. -/
abbrev Half := BitVec 16

/-- u32: a potentiometer pattern, or one i32 field of a command frame. -/
abbrev Word := BitVec 32

end Sys2Proof
end

