-- ==== Sys2Proof/Config.lean ====
section
/-! DEFINITION. What is fixed for the machine: the configuration record of the constants PB gives, with PB's values (rule R8),
the record of the parameters PB does not give (rule R9), and the environment's free values (log 3). -/

namespace Sys2Proof

/-! ## The configuration record of rule R8 -/

/-- R8: every constant PB fixes, as a field of the configuration record. Every definition of the machine reads it here, the sizes
of State's vectors, the loops over cards and channels and the numbering of the device registers among them, so that another
value is given in one place, `Config.pb` (log 33). -/
structure Config where
  /-- `CARD_MIN`. -/
  cardMin : Nat
  /-- `CARD_MAX`. -/
  cardMax : Nat
  /-- `N_CHAN`: channels are `1..nChan`. -/
  nChan : Nat
  /-- `LEVEL_MIN`. -/
  levelMin : Nat
  /-- `LEVEL_MAX`. -/
  levelMax : Nat
  /-- `POT_CHIPS`: potentiometer chips per card. -/
  potChips : Nat
  /-- `POT_CH_PER_CHIP`: channels per potentiometer chip. -/
  potChPerChip : Nat
  /-- `POT_SUBREGS`: 8-bit sub-registers per channel. -/
  potSubregs : Nat
  /-- `POT_SEG`: divisor of the level encoder. -/
  potSeg : Nat
  /-- `POT_MIN_PATTERN`. -/
  potMinPattern : Word
  /-- `POT_MAX_PATTERN`. -/
  potMaxPattern : Word
  /-- `SENSE_N`: samples per public sense read. -/
  senseN : Nat
  /-- `CUR_EPS`: current readings below it become 0. -/
  curEps : Rat
  /-- `BUSV_SHIFT`. -/
  busvShift : Nat
  /-- `SEEK_MAX_ITER`. -/
  seekMaxIter : Nat
  /-- `SEEK_TOL`: converged when `delta < SEEK_TOL`. -/
  seekTol : Rat
  /-- `SEEK_SETTLE`, in milliseconds ("about 60 ms"); recorded in the delay event, no rule depends on it. -/
  seekSettleMs : Rat
  /-- `SEEK_V_MAX`, volts. -/
  seekVMax : Rat
  /-- `SEEK_I_MAX`, mA. -/
  seekIMax : Rat
  /-- `SEEK_STEP_DEFAULT`: the step a host that gives none means (R87); a frame always carries one, so no operation reads it. -/
  seekStepDefault : Int
  /-- `ISO_EN_BIT`. -/
  isoEnBit : Nat
  /-- `ISO_AUX2_BIT`. -/
  isoAux2Bit : Nat
  /-- `ISO_AUX1_BIT`. -/
  isoAux1Bit : Nat
deriving DecidableEq, Repr

/-- R8: the values PB gives, which are this hardware's. -/
abbrev Config.pb : Config where
  cardMin := 1
  cardMax := 18
  nChan := 8
  levelMin := 0
  levelMax := 1023
  potChips := 4
  potChPerChip := 2
  potSubregs := 4
  potSeg := 256
  potMinPattern := 0x00000000#32
  potMaxPattern := 0xFFFFFFFF#32
  senseN := 6
  curEps := 1 / 10
  busvShift := 3
  seekMaxIter := 2048
  seekTol := 1 / 100
  seekSettleMs := 60
  seekVMax := 5
  seekIMax := 200
  seekStepDefault := 1
  isoEnBit := 7
  isoAux2Bit := 6
  isoAux1Bit := 5

/-- How many card addresses there are: `CARD_MIN..CARD_MAX`. -/
abbrev Config.nCards (k : Config) : Nat := k.cardMax - k.cardMin + 1

/-- The index of a card address, `a - CARD_MIN`. -/
abbrev CardIx : Type := Fin Config.pb.nCards

/-- The index of a channel, `ch - 1`. -/
abbrev ChanIx : Type := Fin Config.pb.nChan

/-- The index of a potentiometer chip of a card (R130). -/
abbrev PotIx : Type := Fin Config.pb.potChips

/-- The index of a channel of a potentiometer chip (R130). -/
abbrev SubIx : Type := Fin Config.pb.potChPerChip

/-! ## Widths the spec takes from general knowledge -/

/-- The width of an `addr` operand, the table's "u7 bus address". PRESUMED (rule R40, GK1, log 23): safe, it only bounds
the addresses a frame of a transport primitive can carry. -/
abbrev Config.addrBits : Nat := 7
/-- The width of a register number, the table's "u8 register number". PRESUMED (rule R40, GK1, log 23): safe, it only
bounds register numbers. -/
abbrev Config.regBits : Nat := 8

/-! ## The parameters of rule R9 -/

/-- R9 `ACTIVITY_AUX`: which auxiliary output is the activity indicator. -/
inductive Aux where
  | aux1
  | aux2
deriving DecidableEq, Repr

/-- R9 `NUMERICS`, R157: the representation of the real-valued quantities. Exact rationals, the spec's choice, are the one
the model computes with (log 22). -/
inductive Numerics where
  | exactRationals
deriving DecidableEq, Repr

/-- R22, R210: one record of the persisted configuration. -/
structure CfgEntry where
  output : Bool
  level : Int
deriving DecidableEq, Repr

/-- R211: the record `create_new` starts from. -/
def CfgEntry.off : CfgEntry := { output := false, level := 0 }

/-- R9: every parameter PB does not give. State carries one such record, which no step writes, so that a statement about
every state holds for every binding of the parameters (log 2). -/
structure Params where
  /-- `ISO_BASE`: the switch of card `a` is at `isoBase + a` (R42). -/
  isoBase : Nat
  /-- `XP_ADDR`. -/
  xpAddr : Nat
  /-- `XP_REG`; the test-load mask is at `xpReg + 1` (R120). -/
  xpReg : Nat
  /-- `POT_ADDR[k]`. -/
  potAddr : Vector Nat Config.pb.potChips
  /-- `POT_REG[s]`: first of the sub-registers of sub-channel `s`. -/
  potReg : Vector Nat Config.pb.potChPerChip
  /-- `SNS_ADDR[ch]`, index `ch - 1`. -/
  snsAddr : Vector Nat Config.pb.nChan
  /-- `SNS_REG_CFG`. -/
  snsRegCfg : Nat
  /-- `SNS_REG_SHUNT`. -/
  snsRegShunt : Nat
  /-- `SNS_REG_BUS`. -/
  snsRegBus : Nat
  /-- `SNS_REG_POWER`. -/
  snsRegPower : Nat
  /-- `SNS_REG_CURRENT`. -/
  snsRegCurrent : Nat
  /-- `SNS_REG_CAL`. -/
  snsRegCal : Nat
  /-- `CAL_WORD`. -/
  calWord : Half
  /-- `CFG_WORD`. -/
  cfgWord : Half
  /-- `BUS_LSB`, volts per count. -/
  busLsb : Rat
  /-- `SHUNT_LSB`. -/
  shuntLsb : Rat
  /-- `CURDIV`. -/
  curdiv : Rat
  /-- `PWRMUL`. -/
  pwrmul : Rat
  /-- `SENSE_SAMPLE_DELAY`, in milliseconds; recorded in the delay event, no rule depends on it. -/
  sampleDelayMs : Rat
  /-- `ACTIVITY_AUX`. -/
  activityAux : Aux
  /-- `CFG_INIT`, indexes `a - CARD_MIN`, `ch - 1`: what `CFG` holds before the first save (R22, U16). -/
  cfgInit : Vector (Vector CfgEntry Config.pb.nChan) Config.pb.nCards
  /-- `NUMERICS`. -/
  numerics : Numerics
  /-- `BUS_ADDR_BITS`: the width of a bus device address. -/
  busAddrBits : Nat
deriving DecidableEq, Repr

/-- The 13 device addresses of a card's sub-bus (R44). -/
def Params.subBusAddrs (p : Params) : List Nat :=
  p.xpAddr :: (p.potAddr.toList ++ p.snsAddr.toList)

/-- The six register numbers of a sense chip (R29). -/
def Params.snsRegs (p : Params) : List Nat :=
  [p.snsRegCfg, p.snsRegShunt, p.snsRegBus, p.snsRegPower, p.snsRegCurrent, p.snsRegCal]

/-- The constraints rule R9 and decision D42 put on the parameters: 18 switch addresses and 13 sub-bus addresses valid
and pairwise distinct, six sense registers distinct, the ranges of sub-registers disjoint, `XP_REG + 1` does not wrap,
the scale factors positive. -/
abbrev Params.Valid (p : Params) : Prop :=
  p.isoBase + Config.pb.cardMax < 2 ^ p.busAddrBits ∧
  p.subBusAddrs.Nodup ∧
  (∀ x ∈ p.subBusAddrs, x < 2 ^ p.busAddrBits ∧
    ¬(p.isoBase + Config.pb.cardMin ≤ x ∧ x ≤ p.isoBase + Config.pb.cardMax)) ∧
  p.snsRegs.Nodup ∧ (∀ r ∈ p.snsRegs, r < 2 ^ Config.regBits) ∧
  (∀ s t : SubIx, s ≠ t →
    p.potReg[s] + Config.pb.potSubregs ≤ p.potReg[t] ∨ p.potReg[t] + Config.pb.potSubregs ≤ p.potReg[s]) ∧
  (∀ s : SubIx, p.potReg[s] + Config.pb.potSubregs ≤ 2 ^ Config.regBits) ∧
  p.xpReg + 1 < 2 ^ Config.regBits ∧
  0 < p.busLsb ∧ 0 < p.shuntLsb ∧ 0 < p.curdiv ∧ 0 < p.pwrmul

/-- The example binding EX1 of 95_test_vectors.md. DESIGN CHOICE as the reset value of `State.params` (log 2, unsafe for
statements about the reset state only): the spec gives no value and calls EX1 an example. EX1 names no `CFG_INIT`: all off
with level 0 is the model's (DESIGN CHOICE, log 6). `BUS_ADDR_BITS` is GK1's (PRESUMED, log 23). -/
def Params.ex1 : Params where
  isoBase := 0x60
  xpAddr := 0x20
  xpReg := 0x02
  potAddr := #v[0x2C, 0x2D, 0x2E, 0x2F]
  potReg := #v[0x00, 0x04]
  snsAddr := #v[0x40, 0x41, 0x42, 0x43, 0x44, 0x45, 0x46, 0x47]
  snsRegCfg := 0x00
  snsRegShunt := 0x01
  snsRegBus := 0x02
  snsRegPower := 0x03
  snsRegCurrent := 0x04
  snsRegCal := 0x05
  calWord := 0x1000#16
  cfgWord := 0x399F#16
  busLsb := 4 / 1000
  shuntLsb := 1 / 100
  curdiv := 10
  pwrmul := 2
  sampleDelayMs := 0
  activityAux := .aux1
  cfgInit := Vector.replicate _ (Vector.replicate _ CfgEntry.off)
  numerics := .exactRationals
  busAddrBits := 7

/-! ## The environment's answers (rules R61, R62, R63) -/

/-- What the environment draws for one transaction that reaches a device. -/
structure Answer where
  /-- R61: success, or `BusError` ("I/O fault"). -/
  ok : Bool
  /-- R63: after a failed write, how many of the addressed registers, in order, hold the new value (cut off at their number). -/
  landed : Nat
  /-- R62, U20: the content of a sampled register at the time of a read; its low byte answers a `read_byte`. -/
  word : Half
deriving DecidableEq, Repr, Inhabited

/-- A free value (log 3): the answer to the `n`-th draw for which State's tape holds none. Nothing is known of it. -/
opaque Config.freeAnswer : Nat → Answer

end Sys2Proof
end

