-- ==== Sys2Proof/Syntax.lean ====
section
/-! DEFINITION. The 48 operations of opcode_table.json (rule R72) as one inductive, and the command frame (rule R70). -/

namespace Sys2Proof

/-- One operation of the block (R3, R72). Operands have the types of 92_eei_decisions.md D2: signed integers for card,
channel and integer operands, so that an out-of-domain value can be carried and refused; u8 for a boolean carrier (R73). -/
inductive Instr where
  /-- 0x01 `read_byte(addr)`, R101. -/
  | readByte (addr : Nat)
  /-- 0x02 `write_byte(addr, byte)`, R102. -/
  | writeByte (addr : Nat) (byte : Byte)
  /-- 0x03 `read_word(addr, reg)`, R103. -/
  | readWord (addr reg : Nat)
  /-- 0x04 `write_word(addr, reg, word)`, R104. -/
  | writeWord (addr reg : Nat) (word : Half)
  /-- 0x05 `write_block(addr, reg, bytes)`, R105. -/
  | writeBlock (addr reg : Nat) (bytes : List Byte)
  /-- 0x06 `read_block(addr, reg, len)`, R106. -/
  | readBlock (addr reg len : Nat)
  /-- 0x10 `ISO_SET(a, enable, aux1, aux2)`, R110; the booleans travel in `flag`, `chan`, `ival` (D3). -/
  | isoSet (a : Int) (enable : Byte) (aux1 aux2 : Int)
  /-- 0x11 `OPEN(a)`, R111. -/
  | openCard (a : Int)
  /-- 0x12 `CLOSE(a)`, R112. -/
  | closeCard (a : Int)
  /-- 0x20 `XP_WRITE(a, chen, tsten)`, R121. -/
  | xpWrite (a : Int) (chen tsten : Byte)
  /-- 0x21 `XP_READ(a)`, R122. -/
  | xpRead (a : Int)
  /-- 0x22 `ENABLE_CHANNEL(a, ch, on)`, R123. -/
  | enableChannel (a ch : Int) (on : Byte)
  /-- 0x23 `ENABLE_TEST_LOAD(a, ch, on)`, R124. -/
  | enableTestLoad (a ch : Int) (on : Byte)
  /-- 0x24 `IS_CHANNEL_ENABLED(a, ch)`, R125. -/
  | isChannelEnabled (a ch : Int)
  /-- 0x30 `SET_LEVEL(a, ch, value)`, R133. -/
  | setLevel (a ch value : Int)
  /-- 0x31 `SET_LEVEL_MIN(a, ch)`, R134. -/
  | setLevelMin (a ch : Int)
  /-- 0x32 `SET_LEVEL_MAX(a, ch)`, R135. -/
  | setLevelMax (a ch : Int)
  /-- 0x33 `READ_LEVEL(a, ch)`, R136. -/
  | readLevel (a ch : Int)
  /-- 0x34 `POT_WRITE(a, ch, P)`, R132. -/
  | potWrite (a ch : Int) (pattern : Word)
  /-- 0x40 `SENSE_INIT(a, ch)`, R140. -/
  | senseInit (a ch : Int)
  /-- 0x41 `RAW_SHUNT(a, ch)`, R142. -/
  | rawShunt (a ch : Int)
  /-- 0x42 `RAW_BUS(a, ch)`, R143. -/
  | rawBus (a ch : Int)
  /-- 0x43 `RAW_CURRENT(a, ch)`, R144. -/
  | rawCurrent (a ch : Int)
  /-- 0x44 `RAW_POWER(a, ch)`, R145. -/
  | rawPower (a ch : Int)
  /-- 0x45 `GET_BUS_VOLTAGE(a, ch)`, R152. -/
  | getBusVoltage (a ch : Int)
  /-- 0x46 `GET_SHUNT_VOLTAGE(a, ch)`, R153. -/
  | getShuntVoltage (a ch : Int)
  /-- 0x47 `GET_CURRENT(a, ch)`, R154. -/
  | getCurrent (a ch : Int)
  /-- 0x50 `CARD_CONSTRUCT(a)`, R161. -/
  | cardConstruct (a : Int)
  /-- 0x80 `CRATE_CONSTRUCT`, R180. -/
  | crateConstruct
  /-- 0x81 `SHUTDOWN`, R193. -/
  | shutdown
  /-- 0x82 `GET_AVAILABLE_CARDS`, R192. -/
  | getAvailableCards
  /-- 0x90 `CRATE_ENABLE_CHANNEL(card, chan, flag)`, R184. -/
  | crateEnableChannel (card chan : Int) (flag : Byte)
  /-- 0x91 `CRATE_ENABLE_TEST_LOAD(card, chan, flag)`, R185. -/
  | crateEnableTestLoad (card chan : Int) (flag : Byte)
  /-- 0x92 `CRATE_IS_CHANNEL_ENABLED(card, chan)`, R186. -/
  | crateIsChannelEnabled (card chan : Int)
  /-- 0x93 `CRATE_SET_LEVEL(card, chan, ival)`, R187. -/
  | crateSetLevel (card chan ival : Int)
  /-- 0x94 `CRATE_GET_BUS_VOLTAGE(card, chan)`, R188. -/
  | crateGetBusVoltage (card chan : Int)
  /-- 0x95 `CRATE_GET_SHUNT_VOLTAGE(card, chan)`, R189. -/
  | crateGetShuntVoltage (card chan : Int)
  /-- 0x96 `CRATE_GET_CURRENT(card, chan)`, R190. -/
  | crateGetCurrent (card chan : Int)
  /-- 0x97 `SEEK_VOLTAGE(card, chan, rval = target, ival = step)`, R202. -/
  | seekVoltage (card chan : Int) (target : Rat) (step : Int)
  /-- 0x98 `SEEK_CURRENT(card, chan, rval = target, ival = step)`, R203. -/
  | seekCurrent (card chan : Int) (target : Rat) (step : Int)
  /-- 0xA0 `DISABLE_ALL_OUTPUTS(flag = zero_level)`, R194. -/
  | disableAllOutputs (zeroLevel : Byte)
  /-- 0xA1 `ENABLE_ALL_OUTPUTS`, R195. -/
  | enableAllOutputs
  /-- 0xA2 `MAX_OUTPUT`, R196. -/
  | maxOutput
  /-- 0xA3 `MIN_OUTPUT`, R197. -/
  | minOutput
  /-- 0xA4 `ENABLE_ALL_TEST_LOADS`, R198. -/
  | enableAllTestLoads
  /-- 0xA5 `DISABLE_ALL_TEST_LOADS`, R199. -/
  | disableAllTestLoads
  /-- 0xB0 `SAVE_CONFIG(flag = create_new)`, R211. -/
  | saveConfig (createNew : Byte)
  /-- 0xB1 `LOAD_CONFIG(flag = enable_outputs)`, R212. -/
  | loadConfig (enableOutputs : Byte)
deriving DecidableEq, Repr

/-- R70, format `CMD`: the six fields of a command frame. `data` is the model's own seventh field: it carries the byte
sequence of the internal operation `write_block`, which no field of R70 can hold (log 8); every other operation ignores it. -/
structure Frame where
  op : Byte
  card : Word
  chan : Word
  ival : Word
  flag : Byte
  rval : Rat
  data : List Byte
deriving DecidableEq, Repr

end Sys2Proof
end

