-- ==== Sys2Proof/WellFormed.lean ====
section
/-! DEFINITION. Well-formedness of an operation: its operands lie in the widths of rules R70, R72 and R100 (and of the
frame's carriers, logs 8 and 9), and the card and channel operands of an internal operation lie in the domains the table
gives them. A host command's operands may be any i32 (R70): an out-of-domain one is a command that is refused, not an
ill-formed one. -/

namespace Sys2Proof

/-- R70: the value of an i32 field. -/
abbrev fitsI32 (x : Int) : Prop := -(2 ^ 31) ≤ x ∧ x < 2 ^ 31

/-- Log 9: a rational the byte layout's carrier of `rval` holds (numerator 64 bits signed, denominator up to 2^64). -/
abbrev fitsRval (q : Rat) : Prop := -(2 ^ 63) ≤ q.num ∧ q.num < 2 ^ 63 ∧ q.den ≤ 2 ^ 64

/-- The table's "card 1..18". -/
abbrev isCardNo (a : Int) : Prop := (Config.pb.cardMin : Int) ≤ a ∧ a ≤ Config.pb.cardMax

/-- The table's "channel 1..8". -/
abbrev isChanNo (ch : Int) : Prop := 1 ≤ ch ∧ ch ≤ Config.pb.nChan

/-- "u7 bus address" (R40, log 23). -/
abbrev isBusAddr (addr : Nat) : Prop := addr < 2 ^ Config.addrBits

/-- "u8 register number" (R40, log 23). -/
abbrev isRegNo (reg : Nat) : Prop := reg < 2 ^ Config.regBits

/-- An operation within the widths and domains above. `write_block` and `read_block` need at least one byte (R100). -/
abbrev Instr.WellFormed : Instr → Prop
  | .readByte addr => isBusAddr addr
  | .writeByte addr _ => isBusAddr addr
  | .readWord addr reg => isBusAddr addr ∧ isRegNo reg
  | .writeWord addr reg _ => isBusAddr addr ∧ isRegNo reg
  | .writeBlock addr reg bytes => isBusAddr addr ∧ isRegNo reg ∧ bytes ≠ []
  | .readBlock addr reg len => isBusAddr addr ∧ isRegNo reg ∧ 1 ≤ len ∧ len < 2 ^ 32
  | .isoSet a _ aux1 aux2 => isCardNo a ∧ fitsI32 aux1 ∧ fitsI32 aux2
  | .openCard a => isCardNo a
  | .closeCard a => isCardNo a
  | .xpWrite a _ _ => isCardNo a
  | .xpRead a => isCardNo a
  | .enableChannel a ch _ => isCardNo a ∧ fitsI32 ch
  | .enableTestLoad a ch _ => isCardNo a ∧ fitsI32 ch
  | .isChannelEnabled a ch => isCardNo a ∧ fitsI32 ch
  | .setLevel a ch value => isCardNo a ∧ fitsI32 ch ∧ fitsI32 value
  | .setLevelMin a ch => isCardNo a ∧ fitsI32 ch
  | .setLevelMax a ch => isCardNo a ∧ fitsI32 ch
  | .readLevel a ch => isCardNo a ∧ fitsI32 ch
  | .potWrite a ch _ => isCardNo a ∧ isChanNo ch
  | .senseInit a ch => isCardNo a ∧ isChanNo ch
  | .rawShunt a ch => isCardNo a ∧ isChanNo ch
  | .rawBus a ch => isCardNo a ∧ isChanNo ch
  | .rawCurrent a ch => isCardNo a ∧ isChanNo ch
  | .rawPower a ch => isCardNo a ∧ isChanNo ch
  | .getBusVoltage a ch => isCardNo a ∧ fitsI32 ch
  | .getShuntVoltage a ch => isCardNo a ∧ fitsI32 ch
  | .getCurrent a ch => isCardNo a ∧ fitsI32 ch
  | .cardConstruct a => isCardNo a
  | .crateConstruct => True
  | .shutdown => True
  | .getAvailableCards => True
  | .crateEnableChannel card chan _ => fitsI32 card ∧ fitsI32 chan
  | .crateEnableTestLoad card chan _ => fitsI32 card ∧ fitsI32 chan
  | .crateIsChannelEnabled card chan => fitsI32 card ∧ fitsI32 chan
  | .crateSetLevel card chan ival => fitsI32 card ∧ fitsI32 chan ∧ fitsI32 ival
  | .crateGetBusVoltage card chan => fitsI32 card ∧ fitsI32 chan
  | .crateGetShuntVoltage card chan => fitsI32 card ∧ fitsI32 chan
  | .crateGetCurrent card chan => fitsI32 card ∧ fitsI32 chan
  | .seekVoltage card chan target step => fitsI32 card ∧ fitsI32 chan ∧ fitsRval target ∧ fitsI32 step
  | .seekCurrent card chan target step => fitsI32 card ∧ fitsI32 chan ∧ fitsRval target ∧ fitsI32 step
  | .disableAllOutputs _ => True
  | .enableAllOutputs => True
  | .maxOutput => True
  | .minOutput => True
  | .enableAllTestLoads => True
  | .disableAllTestLoads => True
  | .saveConfig _ => True
  | .loadConfig _ => True

end Sys2Proof
end

