-- ==== Sys2Proof/Decode.lean ====
section
/-! DEFINITION. Decoding a command frame into an operation and encoding an operation as a frame (rules R70, R72, R73),
and the byte layout of a frame (log 9). Decoding is total: what is no operation is rejected by name. -/

namespace Sys2Proof

/-! ## Fields -/

/-- Why a frame or a byte sequence is no operation. -/
inductive DecodeError where
  /-- R74: the opcode is not a number of R72. -/
  | reservedOpcode (op : Nat)
  /-- An operand of an internal operation does not fit its width (u7, u8 or u16; log 8). -/
  | operandTooWide (op : Nat)
  /-- Log 9: fewer bytes than a frame has. -/
  | shortFrame (have_ : Nat)
deriving DecidableEq, Repr

/-- The bytes of a little-endian number. -/
def leNat : List Byte → Nat
  | [] => 0
  | b :: bs => b.toNat + 256 * leNat bs

/-- The `n` low bytes of a number, least significant first. -/
def leBytes : Nat → Nat → List Byte
  | 0, _ => []
  | n + 1, x => BitVec.ofNat 8 x :: leBytes n (x / 256)

/-- An i32 field as the signed number it carries (R70). -/
def i32 (w : Word) : Int := w.toInt

/-- A signed number as an i32 field. -/
def toI32 (x : Int) : Word := BitVec.ofInt 32 x

/-- The opcode of an operation (R72). -/
def Instr.opcode : Instr → Byte
  | .readByte .. => 0x01#8
  | .writeByte .. => 0x02#8
  | .readWord .. => 0x03#8
  | .writeWord .. => 0x04#8
  | .writeBlock .. => 0x05#8
  | .readBlock .. => 0x06#8
  | .isoSet .. => 0x10#8
  | .openCard .. => 0x11#8
  | .closeCard .. => 0x12#8
  | .xpWrite .. => 0x20#8
  | .xpRead .. => 0x21#8
  | .enableChannel .. => 0x22#8
  | .enableTestLoad .. => 0x23#8
  | .isChannelEnabled .. => 0x24#8
  | .setLevel .. => 0x30#8
  | .setLevelMin .. => 0x31#8
  | .setLevelMax .. => 0x32#8
  | .readLevel .. => 0x33#8
  | .potWrite .. => 0x34#8
  | .senseInit .. => 0x40#8
  | .rawShunt .. => 0x41#8
  | .rawBus .. => 0x42#8
  | .rawCurrent .. => 0x43#8
  | .rawPower .. => 0x44#8
  | .getBusVoltage .. => 0x45#8
  | .getShuntVoltage .. => 0x46#8
  | .getCurrent .. => 0x47#8
  | .cardConstruct .. => 0x50#8
  | .crateConstruct => 0x80#8
  | .shutdown => 0x81#8
  | .getAvailableCards => 0x82#8
  | .crateEnableChannel .. => 0x90#8
  | .crateEnableTestLoad .. => 0x91#8
  | .crateIsChannelEnabled .. => 0x92#8
  | .crateSetLevel .. => 0x93#8
  | .crateGetBusVoltage .. => 0x94#8
  | .crateGetShuntVoltage .. => 0x95#8
  | .crateGetCurrent .. => 0x96#8
  | .seekVoltage .. => 0x97#8
  | .seekCurrent .. => 0x98#8
  | .disableAllOutputs .. => 0xA0#8
  | .enableAllOutputs => 0xA1#8
  | .maxOutput => 0xA2#8
  | .minOutput => 0xA3#8
  | .enableAllTestLoads => 0xA4#8
  | .disableAllTestLoads => 0xA5#8
  | .saveConfig .. => 0xB0#8
  | .loadConfig .. => 0xB1#8

/-- R72: "Opcodes 0x80 and above are host commands, the only ones the host may issue." -/
def isHostOpcode (op : Byte) : Bool := 0x80 ≤ op.toNat

/-- R72 for an operation. -/
def Instr.isHost (i : Instr) : Bool := isHostOpcode i.opcode

/-! ## Decoding -/

/-- `k` of the field read as an unsigned number, if it fits `bits` bits. -/
def narrow (op : Byte) (bits : Nat) (w : Word) (k : Nat → Instr) : Except DecodeError Instr :=
  if w.toNat < 2 ^ bits then .ok (k w.toNat) else .error (.operandTooWide op.toNat)

/-- The operation a frame names (R70, R72). The carriers of the internal operations' operands (`addr` in `card`, `reg`
in `chan`, `byte`, `word` or `len` in `ival`, the masks of `XP_WRITE` in `chan` and `ival`) are the model's (log 8); those
of `ISO_SET` are D3's. A field an operation does not use is ignored (R70). -/
def Frame.decode (f : Frame) : Except DecodeError Instr :=
  match f.op.toNat with
  | 0x01 => narrow f.op Config.addrBits f.card fun addr => .readByte addr
  | 0x02 =>
    if f.card.toNat < 2 ^ Config.addrBits then narrow f.op 8 f.ival fun b => .writeByte f.card.toNat (BitVec.ofNat 8 b)
    else .error (.operandTooWide 0x02)
  | 0x03 =>
    if f.card.toNat < 2 ^ Config.addrBits then narrow f.op Config.regBits f.chan fun reg => .readWord f.card.toNat reg
    else .error (.operandTooWide 0x03)
  | 0x04 =>
    if f.card.toNat < 2 ^ Config.addrBits ∧ f.chan.toNat < 2 ^ Config.regBits then
      narrow f.op 16 f.ival fun w => .writeWord f.card.toNat f.chan.toNat (BitVec.ofNat 16 w)
    else .error (.operandTooWide 0x04)
  | 0x05 =>
    if f.card.toNat < 2 ^ Config.addrBits then narrow f.op Config.regBits f.chan fun reg => .writeBlock f.card.toNat reg f.data
    else .error (.operandTooWide 0x05)
  | 0x06 =>
    if f.card.toNat < 2 ^ Config.addrBits then narrow f.op Config.regBits f.chan fun reg => .readBlock f.card.toNat reg f.ival.toNat
    else .error (.operandTooWide 0x06)
  | 0x10 => .ok (.isoSet (i32 f.card) f.flag (i32 f.chan) (i32 f.ival))
  | 0x11 => .ok (.openCard (i32 f.card))
  | 0x12 => .ok (.closeCard (i32 f.card))
  | 0x20 =>
    if f.chan.toNat < 2 ^ 8 then
      narrow f.op 8 f.ival fun t => .xpWrite (i32 f.card) (BitVec.ofNat 8 f.chan.toNat) (BitVec.ofNat 8 t)
    else .error (.operandTooWide 0x20)
  | 0x21 => .ok (.xpRead (i32 f.card))
  | 0x22 => .ok (.enableChannel (i32 f.card) (i32 f.chan) f.flag)
  | 0x23 => .ok (.enableTestLoad (i32 f.card) (i32 f.chan) f.flag)
  | 0x24 => .ok (.isChannelEnabled (i32 f.card) (i32 f.chan))
  | 0x30 => .ok (.setLevel (i32 f.card) (i32 f.chan) (i32 f.ival))
  | 0x31 => .ok (.setLevelMin (i32 f.card) (i32 f.chan))
  | 0x32 => .ok (.setLevelMax (i32 f.card) (i32 f.chan))
  | 0x33 => .ok (.readLevel (i32 f.card) (i32 f.chan))
  | 0x34 => .ok (.potWrite (i32 f.card) (i32 f.chan) f.ival)
  | 0x40 => .ok (.senseInit (i32 f.card) (i32 f.chan))
  | 0x41 => .ok (.rawShunt (i32 f.card) (i32 f.chan))
  | 0x42 => .ok (.rawBus (i32 f.card) (i32 f.chan))
  | 0x43 => .ok (.rawCurrent (i32 f.card) (i32 f.chan))
  | 0x44 => .ok (.rawPower (i32 f.card) (i32 f.chan))
  | 0x45 => .ok (.getBusVoltage (i32 f.card) (i32 f.chan))
  | 0x46 => .ok (.getShuntVoltage (i32 f.card) (i32 f.chan))
  | 0x47 => .ok (.getCurrent (i32 f.card) (i32 f.chan))
  | 0x50 => .ok (.cardConstruct (i32 f.card))
  | 0x80 => .ok .crateConstruct
  | 0x81 => .ok .shutdown
  | 0x82 => .ok .getAvailableCards
  | 0x90 => .ok (.crateEnableChannel (i32 f.card) (i32 f.chan) f.flag)
  | 0x91 => .ok (.crateEnableTestLoad (i32 f.card) (i32 f.chan) f.flag)
  | 0x92 => .ok (.crateIsChannelEnabled (i32 f.card) (i32 f.chan))
  | 0x93 => .ok (.crateSetLevel (i32 f.card) (i32 f.chan) (i32 f.ival))
  | 0x94 => .ok (.crateGetBusVoltage (i32 f.card) (i32 f.chan))
  | 0x95 => .ok (.crateGetShuntVoltage (i32 f.card) (i32 f.chan))
  | 0x96 => .ok (.crateGetCurrent (i32 f.card) (i32 f.chan))
  | 0x97 => .ok (.seekVoltage (i32 f.card) (i32 f.chan) f.rval (i32 f.ival))
  | 0x98 => .ok (.seekCurrent (i32 f.card) (i32 f.chan) f.rval (i32 f.ival))
  | 0xA0 => .ok (.disableAllOutputs f.flag)
  | 0xA1 => .ok .enableAllOutputs
  | 0xA2 => .ok .maxOutput
  | 0xA3 => .ok .minOutput
  | 0xA4 => .ok .enableAllTestLoads
  | 0xA5 => .ok .disableAllTestLoads
  | 0xB0 => .ok (.saveConfig f.flag)
  | 0xB1 => .ok (.loadConfig f.flag)
  | n => .error (.reservedOpcode n)

/-! ## Encoding -/

/-- A frame of opcode `op` with every other field zero. -/
def Frame.blank (op : Byte) : Frame :=
  { op := op, card := 0, chan := 0, ival := 0, flag := 0, rval := 0, data := [] }

/-- The frame of an operation: its opcode, its operands in their carriers, every unused field zero. -/
def Instr.frame (i : Instr) : Frame :=
  let z := Frame.blank i.opcode
  match i with
  | .readByte addr => { z with card := BitVec.ofNat 32 addr }
  | .writeByte addr b => { z with card := BitVec.ofNat 32 addr, ival := b.setWidth 32 }
  | .readWord addr reg => { z with card := BitVec.ofNat 32 addr, chan := BitVec.ofNat 32 reg }
  | .writeWord addr reg w =>
    { z with card := BitVec.ofNat 32 addr, chan := BitVec.ofNat 32 reg, ival := w.setWidth 32 }
  | .writeBlock addr reg bytes =>
    { z with card := BitVec.ofNat 32 addr, chan := BitVec.ofNat 32 reg, data := bytes }
  | .readBlock addr reg len =>
    { z with card := BitVec.ofNat 32 addr, chan := BitVec.ofNat 32 reg, ival := BitVec.ofNat 32 len }
  | .isoSet a en aux1 aux2 => { z with card := toI32 a, flag := en, chan := toI32 aux1, ival := toI32 aux2 }
  | .openCard a => { z with card := toI32 a }
  | .closeCard a => { z with card := toI32 a }
  | .xpWrite a chen tsten => { z with card := toI32 a, chan := chen.setWidth 32, ival := tsten.setWidth 32 }
  | .xpRead a => { z with card := toI32 a }
  | .enableChannel a ch on => { z with card := toI32 a, chan := toI32 ch, flag := on }
  | .enableTestLoad a ch on => { z with card := toI32 a, chan := toI32 ch, flag := on }
  | .isChannelEnabled a ch => { z with card := toI32 a, chan := toI32 ch }
  | .setLevel a ch v => { z with card := toI32 a, chan := toI32 ch, ival := toI32 v }
  | .setLevelMin a ch => { z with card := toI32 a, chan := toI32 ch }
  | .setLevelMax a ch => { z with card := toI32 a, chan := toI32 ch }
  | .readLevel a ch => { z with card := toI32 a, chan := toI32 ch }
  | .potWrite a ch p => { z with card := toI32 a, chan := toI32 ch, ival := p }
  | .senseInit a ch => { z with card := toI32 a, chan := toI32 ch }
  | .rawShunt a ch => { z with card := toI32 a, chan := toI32 ch }
  | .rawBus a ch => { z with card := toI32 a, chan := toI32 ch }
  | .rawCurrent a ch => { z with card := toI32 a, chan := toI32 ch }
  | .rawPower a ch => { z with card := toI32 a, chan := toI32 ch }
  | .getBusVoltage a ch => { z with card := toI32 a, chan := toI32 ch }
  | .getShuntVoltage a ch => { z with card := toI32 a, chan := toI32 ch }
  | .getCurrent a ch => { z with card := toI32 a, chan := toI32 ch }
  | .cardConstruct a => { z with card := toI32 a }
  | .crateConstruct => z
  | .shutdown => z
  | .getAvailableCards => z
  | .crateEnableChannel c ch flag => { z with card := toI32 c, chan := toI32 ch, flag := flag }
  | .crateEnableTestLoad c ch flag => { z with card := toI32 c, chan := toI32 ch, flag := flag }
  | .crateIsChannelEnabled c ch => { z with card := toI32 c, chan := toI32 ch }
  | .crateSetLevel c ch v => { z with card := toI32 c, chan := toI32 ch, ival := toI32 v }
  | .crateGetBusVoltage c ch => { z with card := toI32 c, chan := toI32 ch }
  | .crateGetShuntVoltage c ch => { z with card := toI32 c, chan := toI32 ch }
  | .crateGetCurrent c ch => { z with card := toI32 c, chan := toI32 ch }
  | .seekVoltage c ch t st => { z with card := toI32 c, chan := toI32 ch, rval := t, ival := toI32 st }
  | .seekCurrent c ch t st => { z with card := toI32 c, chan := toI32 ch, rval := t, ival := toI32 st }
  | .disableAllOutputs flag => { z with flag := flag }
  | .enableAllOutputs => z
  | .maxOutput => z
  | .minOutput => z
  | .enableAllTestLoads => z
  | .disableAllTestLoads => z
  | .saveConfig flag => { z with flag := flag }
  | .loadConfig flag => { z with flag := flag }

/-! ## The byte layout of a frame (DESIGN CHOICE, log 9)

R70 gives the fields and their widths and no layout. The model lays them out in R70's order, each little-endian: `op`,
`card`, `chan`, `ival`, `flag` (14 bytes), then `rval` as a signed 64-bit numerator and a 64-bit denominator less one (16
bytes), then the payload. -/

/-- Bytes of a frame before its payload. -/
def frameBytes : Nat := 30

/-- The bytes of a frame. -/
def Frame.toBytes (f : Frame) : List Byte :=
  f.op :: (leBytes 4 f.card.toNat ++ (leBytes 4 f.chan.toNat ++ (leBytes 4 f.ival.toNat ++ (f.flag ::
    (leBytes 8 (BitVec.ofInt 64 f.rval.num).toNat ++ (leBytes 8 (f.rval.den - 1) ++ f.data))))))

/-- The frame a byte sequence spells; too short a sequence is rejected by name. -/
def Frame.ofBytes (bs : List Byte) : Except DecodeError Frame :=
  if bs.length < frameBytes then .error (.shortFrame bs.length)
  else .ok
    { op := bs.headD 0
      card := BitVec.ofNat 32 (leNat ((bs.drop 1).take 4))
      chan := BitVec.ofNat 32 (leNat ((bs.drop 5).take 4))
      ival := BitVec.ofNat 32 (leNat ((bs.drop 9).take 4))
      flag := (bs.drop 13).headD 0
      rval := mkRat (BitVec.ofNat 64 (leNat ((bs.drop 14).take 8))).toInt (leNat ((bs.drop 22).take 8) + 1)
      data := bs.drop 30 }

/-- The operation a byte sequence spells, total on every sequence. -/
def decode (bs : List Byte) : Except DecodeError Instr :=
  match Frame.ofBytes bs with
  | .ok f => f.decode
  | .error e => .error e

/-- The bytes of an operation. -/
def encode (i : Instr) : List Byte := i.frame.toBytes

/-- The frame whose low `nbits` bits are `w`, bit 0 the least significant bit of the first byte, every later bit 0. -/
def tableFrame (nbits w : Nat) : Except DecodeError Frame :=
  Frame.ofBytes (leBytes frameBytes (w % 2 ^ nbits))

/-- The operation the decoder reads from an instruction whose bits are `w`, numbered as opcode_table.json numbers them. -/
def decodeTableWord (nbits w : Nat) : Option Instr :=
  match decode (leBytes frameBytes (w % 2 ^ nbits)) with
  | .ok i => some i
  | .error _ => none

end Sys2Proof
end

