-- ==== Sys2Proof/Machine/State.lean ====
section
/-! DEFINITION. The state of the block and of the devices it drives (10_state.md), the outcomes of an operation
(60_exceptions.md), and the state at reset (rules R33, R250). Plain data throughout. -/

namespace Sys2Proof.Machine

/-! ## Results and failures -/

/-- R220: the four typed failures. None of them stops the machine. -/
inductive Failure where
  /-- R221. -/
  | busError
  /-- R222. -/
  | invalidArgument
  /-- R223. -/
  | cardNotFound
  /-- R224. -/
  | seekNotConverged
deriving DecidableEq, Repr

/-- R71: the value of a response; the last four are results of internal operations only. -/
inductive Value where
  | nothing
  | bool (b : Bool)
  | real (x : Rat)
  | pair (level : Int) (x : Rat)
  | cards (l : List Int)
  | int (n : Int)
  | byte (b : Byte)
  | word (w : Half)
  | bytes (bs : List Byte)
deriving DecidableEq, Repr

/-- R71, R23: `Ok(value)` or one failure, which carries no value. -/
inductive Response where
  | ok (v : Value)
  | failed (f : Failure)
deriving DecidableEq, Repr

/-- Why the machine stops. None of these is a failure of the spec's taxonomy, and no host command reaches any but the first
from a state that `Safety` calls well formed. -/
inductive Fault where
  /-- R239: a transaction to a sub-bus address while two or more present cards are connected (R43). Safe: the spec
  gives the corrupted transfer no value and calls it a fault of the model. -/
  | busContention
  /-- R165, U8: a register-level operation on a card that is not `Open`: not a transition of the model. Safe: the
  spec's own treatment is `stuck`. -/
  | notOpen
  /-- 10_state.md section 2, R33: a cached field that holds no value was read: "reading it is a model fault, not zero". Only an
internal operation run by itself (log 7) on an address that is not live meets it in a state of any run (O9). Safe. -/
  | noValue
  /-- R146 (log 15): a register-level operation that does not check its channel was handed one outside 1..8; the spec gives
  it no effect. Safe. -/
  | channelOutOfDomain
  /-- U12, R262: a host command while another is running: no move of the model. Safe. -/
  | commandOverlap
deriving DecidableEq, Repr

/-- Why an instruction has no meaning. -/
inductive Refusal where
  /-- Raised by `exec` for an instruction without a meaning; none is left. Safe. -/
  | notModelled (mnemonic : String)
deriving DecidableEq, Repr

/-- How an operation ends when it does not return: a failure, which its callers may handle, or a stop of the machine. -/
inductive Stop where
  | failed (f : Failure)
  | fault (r : Fault)
deriving DecidableEq, Repr

/-! ## The block's registers -/

/-- R14, R160: the Card Controller's two states. -/
inductive Iso where
  | closed
  | opened
deriving DecidableEq, Repr

/-- The cached state of one card address (10_state.md section 2). `none` is the spec's "no value". -/
structure Card where
  /-- R13 `LIVE[a]`. -/
  live : Bool
  /-- R14 `ISO[a]`; DEDUCED (log 34): no value while not live (R33), where R14 also writes `Closed` for reset. -/
  iso : Option Iso
  /-- R15 `CHEN[a]`. -/
  chen : Option Byte
  /-- R16 `TSTEN[a]`. -/
  tsten : Option Byte
  /-- R17 `LEVEL[a][ch]`, index `ch - 1`. -/
  level : Vector (Option Nat) Config.pb.nChan
  /-- R18 `CURDIV[a]`. -/
  curdiv : Option Rat
  /-- R18 `PWRMUL[a]`. -/
  pwrmul : Option Rat
deriving DecidableEq, Repr

/-- R33, R193: a card that is not live holds no value. For `ISO[a]`, whose rule R14 writes "Reset and value at construction:
`Closed`", this is the model's choice of R33's reading: DEDUCED, log 34. -/
def Card.blank : Card :=
  { live := false, iso := none, chen := none, tsten := none, level := Vector.replicate _ none, curdiv := none, pwrmul := none }

/-! ## The event history -/

/-- R100: one bus transaction as issued. -/
inductive Txn where
  | readByte (addr : Int)
  | writeByte (addr : Int) (byte : Byte)
  | readWord (addr : Int) (reg : Nat)
  | writeWord (addr : Int) (reg : Nat) (word : Half)
  | writeBlock (addr : Int) (reg : Nat) (bytes : List Byte)
  | readBlock (addr : Int) (reg len : Nat)
deriving DecidableEq, Repr

/-- R234: the two delays. -/
inductive DelayKind where
  /-- `SEEK_SETTLE`. -/
  | settle
  /-- `SENSE_SAMPLE_DELAY`. -/
  | sample
deriving DecidableEq, Repr

/-- R30: one event of `HIST`. R30 and D40 do not say what the event of a command boundary carries: what the constructors below record
there is the model's DESIGN CHOICE, log 35. -/
inductive Event where
  /-- A bus transaction, its outcome, and the bytes a successful read received, in wire order (log 35). -/
  | bus (t : Txn) (ok : Bool) (received : List Byte)
  /-- A delay, with its nominal length. -/
  | delay (kind : DelayKind) (ms : Rat)
  /-- R232: `Warning(CardDiscovered, a)`. -/
  | cardDiscovered (a : Int)
  /-- R30: a command boundary: an accepted command starts (log 10). That it carries the opcode is the model's choice, log 35. -/
  | commandBegins (op : Byte)
  /-- R30: a command boundary: the command ends. That it is a second event, with the opcode and the status (R225), is the model's
  choice, log 35. -/
  | commandEnds (op : Byte) (status : Nat)
deriving DecidableEq, Repr

/-! ## Inputs -/

/-- R72, R74: who issues a frame. The host may issue host opcodes only; the sequencer issues the internal operations (log 7). -/
inductive Issuer where
  | host
  | sequencer
deriving DecidableEq, Repr

/-- What comes from outside the block, one input a step (log 1). -/
inductive Input where
  /-- A frame to run. -/
  | frame (who : Issuer) (f : Frame)
  /-- R31: between commands, the card at address `CARD_MIN + i` is plugged (`true`) or pulled (`false`). -/
  | plug (i : CardIx) (present : Bool)
  /-- R250: between commands, the owning process is started again. -/
  | restart
deriving DecidableEq, Repr

/-! ## The state -/

/-- All of the state. INVENTORY.md's State section lists each field with its rule and its reset value. -/
structure State where
  /-- R9: the parameters; no step writes them (log 2). -/
  params : Params
  /-- R12: the host command that is running. -/
  running : Option Byte
  /-- R13 to R18: the cards, index `a - CARD_MIN`. -/
  cards : Vector Card Config.pb.nCards
  /-- R22: the persisted configuration, indexes `a - CARD_MIN`, `ch - 1`. -/
  cfg : Vector (Vector CfgEntry Config.pb.nChan) Config.pb.nCards
  /-- R24 `ACC`. -/
  acc : Option Rat
  /-- R24 `CNT`. -/
  cnt : Option Nat
  /-- R25 `ITER`. -/
  iter : Option Nat
  /-- R25: the seek's working level `L`. -/
  seekLevel : Option Int
  /-- R26 to R29: the device registers, as cells (log 4). -/
  mem : List Host.Cell
  /-- R31 `PRESENT[a]`, index `a - CARD_MIN`. -/
  present : Vector Bool Config.pb.nCards
  /-- R30 `HIST`, oldest first. -/
  hist : List Event
  /-- Log 1: the inputs still to come. -/
  inbox : List Input
  /-- R23, R71: the response of the last command, or the result of the last operation; nothing reads it (log 1). -/
  response : Option Response
  /-- Log 3: the environment's next answers. -/
  tape : List Answer
  /-- Log 3: how many answers were drawn from the free values after the tape ran out. -/
  draws : Nat
deriving DecidableEq, Repr

/-- R33, R250: the state at the start of the owning process. `params` (log 2, with `CFG_INIT`, log 6), `mem` (log 4) and
`present` (log 5) are DESIGN CHOICES where the spec gives no value; that `ISO[a]` holds none is DEDUCED (log 34);
`cfg` is `CFG_INIT` before the first save (R22). -/
def State.reset : State where
  params := Params.ex1
  running := none
  cards := Vector.replicate _ Card.blank
  cfg := Params.ex1.cfgInit
  acc := none
  cnt := none
  iter := none
  seekLevel := none
  mem := []
  present := Vector.replicate _ false
  hist := []
  inbox := []
  response := none
  tape := []
  draws := 0

/-- How an operation or a command ends. -/
abbrev Result := Host.Outcome State Fault Refusal

end Sys2Proof.Machine
end

