-- ==== Sys2Proof/Machine/Flags.lean ====
section
/-! DEFINITION. PBC has no flags register and no condition codes (rule R23). What stands for flags is here: the status of
a response (R225), the clamp and the epsilon of the sensed quantities (R155, R156), the convergence test and the move of the
seek (R201), and the bounds of the seek's operands (R200). -/

namespace Sys2Proof.Machine

/-- R225: the status code of a response. -/
def Response.status : Response → Nat
  | .ok _ => 0
  | .failed .busError => 1
  | .failed .invalidArgument => 2
  | .failed .cardNotFound => 3
  | .failed .seekNotConverged => 4

/-- R155: a negative mean becomes 0. -/
def clampMean (m : Rat) : Rat := if m < 0 then 0 else m

/-- R156: a clamped current mean below 0.1 is 0; the comparison is strict. -/
def currentEps (m : Rat) : Rat := if m < Config.pb.curEps then 0 else m

/-- R201: `delta = |target - sampled|`. -/
def seekDelta (target x : Rat) : Rat := if target < x then x - target else target - x

/-- R201: converged, a strict comparison. -/
def seekConverged (target x : Rat) : Bool := decide (seekDelta target x < Config.pb.seekTol)

/-- R201: the next level; the floor is the least level, 0 (log 33), and there is no ceiling (R204). -/
def seekMove (target x : Rat) (level step : Int) : Int :=
  if target < x then max (level - step) Config.pb.levelMin else level + step

/-- R200: a voltage target and a step. -/
def seekVoltageArgs (target : Rat) (step : Int) : Bool :=
  decide (0 ≤ target) && decide (target ≤ Config.pb.seekVMax) && decide (1 ≤ step)

/-- R200: a current target and a step. -/
def seekCurrentArgs (target : Rat) (step : Int) : Bool :=
  decide (0 ≤ target) && decide (target ≤ Config.pb.seekIMax) && decide (1 ≤ step)

end Sys2Proof.Machine
end

