-- ==== Sys2Proof/Machine/Operands.lean ====
section
/-! DEFINITION. Operand forms and wire formats (30_encoding.md, 20_memory.md section 2): the boolean carrier, card and
channel numbers, the isolation byte, the expander block, the potentiometer pattern, the sense word, the bus-voltage value,
the numbering of the device registers' cells, and the map from bus addresses to devices. -/

namespace Sys2Proof.Machine

/-! ## Booleans, cards, channels (R73, R86) -/

/-- R73: 0 is false, 1 is true, every other value is no boolean. -/
def boolOfByte (b : Byte) : Option Bool :=
  if b = 0 then some false else if b = 1 then some true else none

/-- D3: the same for a boolean that travels in an i32 field. -/
def boolOfInt (x : Int) : Option Bool :=
  if x = 0 then some false else if x = 1 then some true else none

/-- The carrier of a boolean. -/
def byteOfBool (b : Bool) : Byte := if b then 1 else 0

/-- The index of card address `a`, if `a` is in `CARD_MIN..CARD_MAX`. -/
def cardIx? (a : Int) : Option CardIx :=
  if h : (Config.pb.cardMin : Int) ≤ a ∧ a ≤ Config.pb.cardMax then
    some ⟨(a - Config.pb.cardMin).toNat, by show _ < Config.pb.cardMax - Config.pb.cardMin + 1; omega⟩
  else none

/-- The index of channel `ch`, if `ch` is in `1..N_CHAN`. -/
def chanIx? (ch : Int) : Option ChanIx :=
  if h : 1 ≤ ch ∧ ch ≤ Config.pb.nChan then some ⟨(ch - 1).toNat, by omega⟩ else none

/-- The card address of an index. -/
def cardNo (i : CardIx) : Int := (i.val : Int) + Config.pb.cardMin

/-- The channel number of an index. -/
def chanNo (c : ChanIx) : Int := (c.val : Int) + 1

/-- R163: `ch` is a channel. -/
def isChannel (ch : Int) : Bool := decide (1 ≤ ch) && decide (ch ≤ Config.pb.nChan)

/-- R181: `card` is a card address. -/
def isCard (card : Int) : Bool := decide ((Config.pb.cardMin : Int) ≤ card) && decide (card ≤ Config.pb.cardMax)

/-- R133: `value` is a level. -/
def isLevel (v : Int) : Bool := decide ((Config.pb.levelMin : Int) ≤ v) && decide (v ≤ Config.pb.levelMax)

/-- The card addresses in ascending order. -/
def allCards : List Int := (List.finRange Config.pb.nCards).map cardNo

/-- The channels in ascending order. -/
def allChans : List Int := (List.finRange Config.pb.nChan).map chanNo

/-! ## Integers (R89) -/

/-- `not8` of 00_scope.md section 5. -/
def not8 (v : Byte) : Byte := ~~~v

/-- `bswap16` of 00_scope.md section 5. -/
def bswap16 (w : Half) : Half := w.extractLsb' 0 8 ++ w.extractLsb' 8 8

/-- `sext_16` of 00_scope.md section 5. -/
def sext16 (r : Half) : Int := r.toInt

/-- `asr` of 00_scope.md section 5: `floor(v / 2^n)`. -/
def asr (v : Int) (n : Nat) : Int := v / (2 ^ n)

/-! ## Wire formats -/

/-- R75 `ISOCTL`: bit 7 enable, bit 6 the complement of `aux2`, bit 5 the complement of `aux1`, bits 4..0 zero. -/
def isoCtl (enable aux1 aux2 : Bool) : Byte :=
  ((byteOfBool enable) <<< Config.pb.isoEnBit) ||| ((byteOfBool (!aux2)) <<< Config.pb.isoAux2Bit) |||
    ((byteOfBool (!aux1)) <<< Config.pb.isoAux1Bit)

/-- U5: the bits of the control byte PB gives no meaning. -/
def isoLowBits (b : Byte) : Byte :=
  b &&& ~~~((1#8 <<< Config.pb.isoEnBit) ||| (1#8 <<< Config.pb.isoAux2Bit) ||| (1#8 <<< Config.pb.isoAux1Bit))

/-- R26: bit 7 of the control byte connects the sub-bus. -/
def isoConnects (b : Byte) : Bool := b.getLsbD Config.pb.isoEnBit

/-- R77 `XPBLK`: the physical bytes of two logical masks. -/
def xpBlock (chen tsten : Byte) : List Byte := [not8 chen, not8 tsten]

/-- R123: a mask with the bit of channel index `c` set to `on`. -/
def setMaskBit (m : Byte) (c : ChanIx) (on : Bool) : Byte :=
  if on then m ||| (1#8 <<< c.val) else m &&& ~~~(1#8 <<< c.val)

/-- R125: the bit of channel index `c`. -/
def maskBit (m : Byte) (c : ChanIx) : Bool := m.getLsbD c.val

/-- R78 `P32`: the pattern of level `v`. -/
def potPattern (v : Nat) : Word :=
  let q := v / Config.pb.potSeg
  let r := v % Config.pb.potSeg
  BitVec.ofNat 32 ((2 ^ (8 * q) - 1) ||| (r <<< (8 * q)))

/-- R132, R48: a pattern's bytes, low byte first. -/
def patternBytes (p : Word) : List Byte :=
  (List.range Config.pb.potSubregs).map fun j => p.extractLsb' (8 * j) 8

/-- R78 `B(v)`: the bytes of level `v`. -/
def potBytes (v : Nat) : List Byte :=
  List.replicate (v / Config.pb.potSeg) 0xFF#8 ++ [BitVec.ofNat 8 (v % Config.pb.potSeg)] ++
    List.replicate (Config.pb.potSubregs - 1 - v / Config.pb.potSeg) 0x00#8

/-- R80: the sum of the sub-registers read back. -/
def byteSum : List Byte → Nat
  | [] => 0
  | b :: bs => b.toNat + byteSum bs

/-- R81 `SNSWORD`: a transport word read from a sense chip, as the signed register content. -/
def rawOfWord (w : Half) : Int := sext16 (bswap16 w)

/-- R82 `BUSV`. -/
def busRaw (raw : Int) : Int := asr raw Config.pb.busvShift

/-- R46: the transport word's bytes on the wire, low byte first. -/
def wireBytes (w : Half) : List Byte := [w.extractLsb' 0 8, w.extractLsb' 8 8]

/-- R130: the potentiometer chip of a channel index. -/
def potChip (c : ChanIx) : PotIx := 
  ⟨c.val / Config.pb.potChPerChip, Nat.div_lt_of_lt_mul (Nat.lt_of_lt_of_le c.isLt (by decide))⟩

/-- R130: the sub-channel of a channel index. -/
def potSub (c : ChanIx) : SubIx := ⟨c.val % Config.pb.potChPerChip, Nat.mod_lt _ (by decide)⟩

/-! ## Device registers as cells (log 4)

Of each card in turn: 32 cells for the switch's control byte (the first) and the expander's two bytes (the next two), then the
potentiometer sub-registers, then 8 cells for each sense chip: two bytes, high byte first, of `CFG` and then of `CAL`. -/

/-- The first cell of a card's sense chips, counted from its switch's. -/
abbrev snsBase : Nat := 32 + Config.pb.potChips * Config.pb.potChPerChip * Config.pb.potSubregs

/-- How many cells a card has. -/
abbrev cardCells : Nat := snsBase + 8 * Config.pb.nChan

/-- `DEV.SW[a]` (R26). -/
def swCell (i : CardIx) : Nat := cardCells * i.val

/-- `DEV.XP[a][j]` (R27). -/
def xpCell (i : CardIx) (j : Fin 2) : Nat := cardCells * i.val + 1 + j.val

/-- `DEV.POT[a][k][s][j]` (R28). -/
def potCell (i : CardIx) (k : PotIx) (s : SubIx) (j : Nat) : Nat :=
  cardCells * i.val + 32 + Config.pb.potChPerChip * Config.pb.potSubregs * k.val + Config.pb.potSubregs * s.val + j

/-- The high byte of `DEV.SNS[a][ch].CFG` (R29); the low byte is the next cell. -/
def snsCfgCell (i : CardIx) (c : ChanIx) : Nat := cardCells * i.val + snsBase + 8 * c.val

/-- The high byte of `DEV.SNS[a][ch].CAL` (R29); the low byte is the next cell. -/
def snsCalCell (i : CardIx) (c : ChanIx) : Nat := cardCells * i.val + snsBase + 2 + 8 * c.val

/-- The cells of a 16-bit register whose high byte is at `k`, with its value `v`. -/
def halfCells (k : Nat) (v : Half) : List (Nat × Byte) := [(k, v.extractLsb' 8 8), (k + 1, v.extractLsb' 0 8)]

/-! ## Devices (R42 to R44) -/

/-- A device a transaction can reach. -/
inductive Target where
  /-- The isolation switch of a card. -/
  | switch (i : CardIx)
  /-- The expander of a card. -/
  | expander (i : CardIx)
  /-- A potentiometer chip of a card. -/
  | pot (i : CardIx) (k : PotIx)
  /-- The sense chip of a channel of a card. -/
  | sense (i : CardIx) (c : ChanIx)
deriving DecidableEq, Repr

/-- R29: a sense chip's registers. -/
inductive SnsReg where
  | cfg
  | cal
  | shunt
  | bus
  | power
  | current
deriving DecidableEq, Repr

/-- R42: the bus address of card `a`'s switch; no range check here (R110). -/
def switchAddr (p : Params) (a : Int) : Int := p.isoBase + a

/-- R42: the card whose switch has bus address `addr`. -/
def switchAt (p : Params) (addr : Int) : Option CardIx := cardIx? (addr - p.isoBase)

/-- R43, R44: the device with local address `addr` on a card's sub-bus. -/
def localDevice (p : Params) (i : CardIx) (addr : Int) : Option Target :=
  if addr = p.xpAddr then some (.expander i)
  else match (List.finRange Config.pb.potChips).find? (fun k => decide (addr = ((p.potAddr[k] : Nat) : Int))) with
    | some k => some (.pot i k)
    | none => match (List.finRange Config.pb.nChan).find? (fun c => decide (addr = ((p.snsAddr[c] : Nat) : Int))) with
      | some c => some (.sense i c)
      | none => none

/-- The cell behind byte register `reg` of a device that is accessed by blocks (R120, R131); none if the device has no
such register. -/
def byteCell (p : Params) (t : Target) (reg : Nat) : Option Nat :=
  match t with
  | .expander i =>
    if reg = p.xpReg then some (xpCell i 0) else if reg = p.xpReg + 1 then some (xpCell i 1) else none
  | .pot i k =>
    ((List.finRange Config.pb.potChPerChip).find? fun s =>
      decide (p.potReg[s] ≤ reg ∧ reg < p.potReg[s] + Config.pb.potSubregs)).map fun s =>
        potCell i k s (reg - p.potReg[s])
  | _ => none

/-- R105: the cells of registers `reg`, `reg + 1`, ..., `n` of them, if the device has them all. DESIGN CHOICE (log 32, safe): R27
and R52 name blocks of 2 bytes for the expander and 4 for a potentiometer, R105 any length; every length that fits runs. -/
def blockCells (p : Params) (t : Target) : Nat → Nat → Option (List Nat)
  | _, 0 => some []
  | reg, n + 1 =>
    match byteCell p t reg, blockCells p t (reg + 1) n with
    | some k, some ks => some (k :: ks)
    | _, _ => none

/-- R29: the sense-chip register of number `reg`. -/
def snsReg (p : Params) (reg : Nat) : Option SnsReg :=
  if reg = p.snsRegCfg then some .cfg
  else if reg = p.snsRegShunt then some .shunt
  else if reg = p.snsRegBus then some .bus
  else if reg = p.snsRegPower then some .power
  else if reg = p.snsRegCurrent then some .current
  else if reg = p.snsRegCal then some .cal
  else none

end Sys2Proof.Machine
end

