-- ==== Sys2Proof/Machine/Ops.lean ====
section
/-! DEFINITION. The named operations every meaning is written over: device-register memory, the cached cards, the
environment's answers, one bus transaction (rules R43, R63, R100), raising a failure and what it does (R228, R230), and a
command from its argument checks to its response (R181, R182, R227). -/

namespace Sys2Proof.Machine

/-! ## Device-register memory (log 4) -/

/-- What a cell that memory does not list reads as. DESIGN CHOICE (log 4): the spec leaves the power-on content open. -/
def Memory.unlisted : Byte := 0x00#8

/-- The byte of cell `k`. -/
def Memory.read : List Host.Cell → Nat → Byte
  | [], _ => Memory.unlisted
  | (k', b) :: m, k => if k' = k then b else Memory.read m k

/-- Memory with cell `k` holding `v`; the canonical form is kept. -/
def Memory.write : List Host.Cell → Nat → Byte → List Host.Cell
  | [], k, v => if v = Memory.unlisted then [] else [(k, v)]
  | (k', b) :: m, k, v =>
    if k < k' then (if v = Memory.unlisted then (k', b) :: m else (k, v) :: (k', b) :: m)
    else if k = k' then (if v = Memory.unlisted then m else (k, v) :: m)
    else (k', b) :: Memory.write m k v

/-- Memory after a list of writes, first one first. -/
def Memory.writeAll : List Host.Cell → List (Nat × Byte) → List Host.Cell
  | m, [] => m
  | m, (k, v) :: ws => Memory.writeAll (Memory.write m k v) ws

/-- The canonical form: addresses strictly rising, no entry equal to what an unlisted cell reads as. -/
def Memory.wf : List Host.Cell → Bool
  | [] => true
  | [(_, b)] => decide (b ≠ Memory.unlisted)
  | (k, b) :: (k', b') :: m => decide (b ≠ Memory.unlisted) && decide (k < k') && Memory.wf ((k', b') :: m)

/-! ## Cards, channels, presence -/

/-- The cached state of address `a`; an address outside `CARD_MIN..CARD_MAX` names no card and holds no value. -/
def State.card (s : State) (a : Int) : Card :=
  match cardIx? a with
  | some i => s.cards[i]
  | none => Card.blank

/-- The state with the cached state of address `a` replaced. -/
def State.setCard (s : State) (a : Int) (c : Card) : State :=
  match cardIx? a with
  | some i => { s with cards := s.cards.set i c }
  | none => s

/-- R13 `LIVE[a]`. -/
def State.live (s : State) (a : Int) : Bool := (s.card a).live

/-- The ascending list of live addresses. -/
def State.liveCards (s : State) : List Int := allCards.filter s.live

/-- R26 `DEV.SW[a]`. -/
def State.devSw (s : State) (i : CardIx) : Byte := Memory.read s.mem (swCell i)

/-- R27 `DEV.XP[a][j]`. -/
def State.devXp (s : State) (i : CardIx) (j : Fin 2) : Byte := Memory.read s.mem (xpCell i j)

/-- R28 `DEV.POT[a][k][s][j]` of a channel index. -/
def State.devPot (s : State) (i : CardIx) (c : ChanIx) (j : Nat) : Byte :=
  Memory.read s.mem (potCell i (potChip c) (potSub c) j)

/-- R29 `DEV.SNS[a][ch].CFG`. -/
def State.devSnsCfg (s : State) (i : CardIx) (c : ChanIx) : Half :=
  Memory.read s.mem (snsCfgCell i c) ++ Memory.read s.mem (snsCfgCell i c + 1)

/-- R29 `DEV.SNS[a][ch].CAL`. -/
def State.devSnsCal (s : State) (i : CardIx) (c : ChanIx) : Half :=
  Memory.read s.mem (snsCalCell i c) ++ Memory.read s.mem (snsCalCell i c + 1)

/-- R29, R56, R62: what a read of a sense chip's register finds: the held word of `CFG` and `CAL`, the drawn word of the
four results. -/
def State.snsContent (s : State) (i : CardIx) (c : ChanIx) (drawn : Half) : SnsReg → Half
  | .cfg => s.devSnsCfg i c
  | .cal => s.devSnsCal i c
  | .shunt => drawn
  | .bus => drawn
  | .power => drawn
  | .current => drawn

/-- R43: card `a` is present and its switch's enable bit is 1. -/
def State.connected (s : State) (i : CardIx) : Bool := s.present[i] && isoConnects (s.devSw i)

/-- R43: the set `C`. -/
def State.connectedCards (s : State) : List CardIx := (List.finRange Config.pb.nCards).filter s.connected

/-! ## Operations -/

/-- An operation of the block: from a state to a value and a state, or to a stop and the state it leaves (R229: a
failure rolls nothing back). -/
abbrev Op := EStateM Stop State

/-- R228: end the operation with failure `f`; no later statement of it runs. -/
def raise {α : Type} (f : Failure) : Op α := throw (.failed f)

/-- Stop the machine. -/
def halt {α : Type} (r : Fault) : Op α := throw (.fault r)

/-- Check an argument: `InvalidArgument` if it is not in order. -/
def checkArg (ok : Bool) : Op Unit := if ok then pure () else raise .invalidArgument

/-- R30: append an event to the history. -/
def emit (e : Event) : Op Unit := modify fun s => { s with hist := s.hist ++ [e] }

/-- Change the cached state of address `a`. -/
def modifyCard (a : Int) (f : Card → Card) : Op Unit := modify fun s => s.setCard a (f (s.card a))

/-- The value of a cached field. 10_state.md section 2: the fields of R14 to R18 exist only while the card is live, and a field
that holds no value may not be read: "reading it is a model fault, not zero". R33 lists the fields that hold none at reset. -/
def readField {α : Type} (field : State → Option α) : Op α := do
  match field (← get) with
  | some v => pure v
  | none => halt .noValue

/-- The channel index of a channel that the operation does not check (log 15). -/
def chanIx (ch : Int) : Op ChanIx :=
  match chanIx? ch with
  | some c => pure c
  | none => halt .channelOutOfDomain

/-- A boolean operand (R73). -/
def asBool (b : Option Bool) : Op Bool :=
  match b with
  | some v => pure v
  | none => raise .invalidArgument

/-- R165: `require ISO[a] = Open`. -/
def requireOpen (a : Int) : Op Unit := do
  if ((← get).card a).iso = some .opened then pure () else halt .notOpen

/-- Run `body` for every element, in order. -/
def forEach {α : Type} : List α → (α → Op Unit) → Op Unit
  | [], _ => pure ()
  | x :: xs, body => do
    body x
    forEach xs body

/-- Run `body`; a `BusError` it raises is absorbed and answered with `false` (R161, R230). -/
def attempt (body : Op Unit) : Op Bool := fun s =>
  match body s with
  | .ok _ s' => .ok true s'
  | .error (.failed .busError) s' => .ok false s'
  | .error e s' => .error e s'

/-- R183, R228, R230: run the body, then the release, on every exit path. After a failed body, whatever failure the
release itself raises is dropped and the body's is raised; a release that fails after a successful body is raised and the
body's value is dropped. -/
def releaseAfter {α : Type} (release : Op Unit) (body : Op α) : Op α := fun s =>
  match body s with
  | .ok v s' =>
    match release s' with
    | .ok _ s'' => .ok v s''
    | .error e s'' => .error e s''
  | .error (.failed f) s' =>
    match release s' with
    | .ok _ s'' => .error (.failed f) s''
    | .error (.failed _) s'' => .error (.failed f) s''
    | .error (.fault r) s'' => .error (.fault r) s''
  | .error (.fault r) s' => .error (.fault r) s'

/-- R183: the exclusive-access bracket. A failed acquire ends it: body and release do not run. -/
def bracket {α : Type} (acquire release : Op Unit) (body : Op α) : Op α := do
  acquire
  releaseAfter release body

/-- Run `body`, then drop what holds a value only inside it, on every exit path (R24, R25). -/
def dropAfter {α : Type} (drop : State → State) (body : Op α) : Op α := fun s =>
  match body s with
  | .ok v s' => .ok v (drop s')
  | .error e s' => .error e (drop s')

/-! ## One bus transaction (R43, R61, R63, R100) -/

/-- The answer the environment gives next, without taking it (log 3). -/
def State.nextAnswer (s : State) : Answer :=
  match s.tape with
  | a :: _ => a
  | [] => Config.freeAnswer s.draws

/-- The state after an answer is taken. -/
def State.tookAnswer (s : State) : State :=
  match s.tape with
  | _ :: as => { s with tape := as }
  | [] => { s with draws := s.draws + 1 }

/-- The environment's draw. -/
def draw : Op Answer := fun s => .ok s.nextAnswer s.tookAnswer

/-- What a bus address leads to. -/
inductive Route where
  | device (t : Target)
  | noDevice
  | contention
deriving DecidableEq, Repr

/-- R42, R43: a switch address reaches that card's switch if the card is present; any other address reaches a device of
the one connected card. -/
def State.route (s : State) (addr : Int) : Route :=
  match switchAt s.params addr with
  | some i => if s.present[i] then .device (.switch i) else .noDevice
  | none =>
    match s.connectedCards with
    | [] => .noDevice
    | [i] =>
      match localDevice s.params i addr with
      | some t => .device t
      | none => .noDevice
    | _ :: _ :: _ => .contention

/-- R100 step 1: the device a transaction reaches; no device is a `BusError`, contention a model fault (R239). -/
def reach (t : Txn) (addr : Int) : Op Target := do
  match (← get).route addr with
  | .device d => pure d
  | .noDevice => do
    emit (.bus t false [])
    raise .busError
  | .contention => halt .busContention

/-- R100 steps 2 and 3 of a write. `regs` are the registers addressed, in order, each with the cells and bytes it takes:
on success all take them; on `BusError` a prefix of the registers does (R63). -/
def transferWrite (t : Txn) (regs : List (List (Nat × Byte))) : Op Unit := do
  let ans ← draw
  if ans.ok then
    modify fun s => { s with mem := Memory.writeAll s.mem regs.flatten }
    emit (.bus t true [])
  else
    modify fun s => { s with mem := Memory.writeAll s.mem (regs.take ans.landed).flatten }
    emit (.bus t false [])
    raise .busError

/-- R100 steps 2 and 3 of a read: the bytes received, in wire order; a failed read changes nothing (R63). -/
def transferRead (t : Txn) (bytes : State → Answer → List Byte) : Op (List Byte) := do
  let ans ← draw
  if ans.ok then
    let bs := bytes (← get) ans
    emit (.bus t true bs)
    pure bs
  else
    emit (.bus t false [])
    raise .busError

/-! ## From a command to its response (R181, R182, R222, R227 to R229) -/

/-- The state with the response of the command or operation that just ended (R23). -/
def State.respond (s : State) (r : Response) : State := { s with response := some r }

/-- R30: a command boundary, its event as log 35 says; the command is the one that runs (R12). -/
def State.beginCommand (s : State) (op : Byte) : State :=
  { s with running := some op, hist := s.hist ++ [.commandBegins op] }

/-- R30, R33: the other boundary, its event as log 35 says; nothing that belongs to one command holds a value after it. -/
def State.endCommand (s : State) (op : Byte) (r : Response) : State :=
  { s with running := none, acc := none, cnt := none, iter := none, seekLevel := none,
           hist := s.hist ++ [.commandEnds op r.status], response := some r }

/-- An internal operation run by itself (log 7): its result or its failure is the response. -/
def runInternal (body : Op Value) (s : State) : Result :=
  match body s with
  | .ok v s' => .next (s'.respond (.ok v))
  | .error (.failed f) s' => .next (s'.respond (.failed f))
  | .error (.fault r) _ => .fault r

/-- A host command: its argument checks (R181) and the live-map check (R182), in this order (R227), before anything is
touched; then its body, to a response that holds a value or one failure. -/
def runCommand (op : Byte) (argsOk : Bool) (found : State → Bool) (body : Op Value) (s : State) : Result :=
  match s.running with
  | some _ => .fault .commandOverlap
  | none =>
    if !argsOk then .next (s.respond (.failed .invalidArgument))
    else if !found s then .next (s.respond (.failed .cardNotFound))
    else
      match body (s.beginCommand op) with
      | .ok v s' => .next (s'.endCommand op (.ok v))
      | .error (.failed f) s' => .next (s'.endCommand op (.failed f))
      | .error (.fault r) _ => .fault r

end Sys2Proof.Machine
end

