-- ==== Sys2Proof/Machine/Transport.lean ====
section
/-! DEFINITION. Bus Transport (40_transport.md): the six primitives. Each is one transaction (R53) and none is retried
(R107). An access to a device that no operation of the spec makes (a primitive the device does not take, R52; a register it
does not have, U21; a switch byte with a low bit set, U5; a block of no byte, R100) is refused with `InvalidArgument` and
has no effect (log 11). -/

namespace Sys2Proof.Machine

/-- R103: the transport word whose bytes arrived in this order. -/
def wordOfWire (bs : List Byte) : Half := (bs.getD 1 0) ++ (bs.getD 0 0)

/-- R101 `read_byte(addr)`: what a device returns is a draw (U20). -/
def readByteOp (addr : Int) : Op Byte := do
  let t := Txn.readByte addr
  let _ ← reach t addr
  let bs ← transferRead t fun _ ans => [ans.word.extractLsb' 0 8]
  pure (bs.headD 0)

/-- R102 `write_byte(addr, byte)`: a switch's control register takes the byte. -/
def writeByteOp (addr : Int) (byte : Byte) : Op Unit := do
  let t := Txn.writeByte addr byte
  match ← reach t addr with
  | .switch i => do
    checkArg (decide (isoLowBits byte = 0))
    transferWrite t [[(swCell i, byte)]]
  | _ => raise .invalidArgument

/-- R103 `read_word(addr, reg)`: the register's high byte arrives first (R47, R62); the content of a result register is a
draw (R29, U4), that of `CFG` and `CAL` the word they hold (R56, R62; log 12). -/
def readWordOp (addr : Int) (reg : Nat) : Op Half := do
  let t := Txn.readWord addr reg
  match ← reach t addr with
  | .sense i c => do
    match snsReg (← get).params reg with
    | some r => do
      let bs ← transferRead t fun s ans => wireBytes (bswap16 (s.snsContent i c ans.word r))
      pure (wordOfWire bs)
    | none => raise .invalidArgument
  | _ => raise .invalidArgument

/-- R104 `write_word(addr, reg, word)`: the register takes `bswap16(word)`. -/
def writeWordOp (addr : Int) (reg : Nat) (word : Half) : Op Unit := do
  let t := Txn.writeWord addr reg word
  match ← reach t addr with
  | .sense i c => do
    let p := (← get).params
    match snsReg p reg with
    | some .cfg => transferWrite t [halfCells (snsCfgCell i c) (bswap16 word)]
    | some .cal => transferWrite t [halfCells (snsCalCell i c) (bswap16 word)]
    | _ => raise .invalidArgument
  | _ => raise .invalidArgument

/-- R105 `write_block(addr, reg, bytes)`: consecutive bytes to consecutive registers, of any length within the device's
registers (log 32). -/
def writeBlockOp (addr : Int) (reg : Nat) (bytes : List Byte) : Op Unit := do
  let t := Txn.writeBlock addr reg bytes
  let d ← reach t addr
  checkArg (!bytes.isEmpty)
  match blockCells (← get).params d reg bytes.length with
  | some ks => transferWrite t ((ks.zip bytes).map fun w => [w])
  | none => raise .invalidArgument

/-- R106 `read_block(addr, reg, len)`: the held bytes (R62), in ascending order, of any length within the device's registers
(log 32). -/
def readBlockOp (addr : Int) (reg len : Nat) : Op (List Byte) := do
  let t := Txn.readBlock addr reg len
  let d ← reach t addr
  checkArg (decide (1 ≤ len))
  match blockCells (← get).params d reg len with
  | some ks => transferRead t fun s _ => ks.map (Memory.read s.mem)
  | none => raise .invalidArgument

/-- 0x01 `read_byte`. -/
def execReadByte (addr : Nat) (s : State) : Result :=
  runInternal (do pure (.byte (← readByteOp addr))) s

/-- 0x02 `write_byte`. -/
def execWriteByte (addr : Nat) (byte : Byte) (s : State) : Result :=
  runInternal (do writeByteOp addr byte; pure .nothing) s

/-- 0x03 `read_word`. -/
def execReadWord (addr reg : Nat) (s : State) : Result :=
  runInternal (do pure (.word (← readWordOp addr reg))) s

/-- 0x04 `write_word`. -/
def execWriteWord (addr reg : Nat) (word : Half) (s : State) : Result :=
  runInternal (do writeWordOp addr reg word; pure .nothing) s

/-- 0x05 `write_block`. -/
def execWriteBlock (addr reg : Nat) (bytes : List Byte) (s : State) : Result :=
  runInternal (do writeBlockOp addr reg bytes; pure .nothing) s

/-- 0x06 `read_block`. -/
def execReadBlock (addr reg len : Nat) (s : State) : Result :=
  runInternal (do pure (.bytes (← readBlockOp addr reg len))) s

end Sys2Proof.Machine
end

