-- ==== Sys2Proof/Machine/Isolation.lean ====
section
/-! DEFINITION. Repeater / isolation control (41_isolation.md): the per-card isolation switch. -/

namespace Sys2Proof.Machine

/-- R110 `ISO_SET(a, enable, aux1, aux2)`: the three booleans are checked before any traffic, `a` is not; always exactly
one `write_byte`; `ISO[a]` is not written. -/
def isoSetOp (a : Int) (enable : Byte) (aux1 aux2 : Int) : Op Unit := do
  let en ← asBool (boolOfByte enable)
  let a1 ← asBool (boolOfInt aux1)
  let a2 ← asBool (boolOfInt aux2)
  writeByteOp (switchAddr (← get).params a) (isoCtl en a1 a2)

/-- R14, R160: the record of card `a`'s switch. DESIGN CHOICE (log 31, safe): R111 and R112 write it whether or not the card is
live, so `OPEN` or `CLOSE` run alone (log 7) on an address in 1..18 with no live card gives `ISO[a]` a value there. -/
def setIso (a : Int) (v : Iso) : Op Unit := modifyCard a fun c => { c with iso := some v }

/-- R111 `OPEN(a)`: enable, indicator asserted, the reserved output released; the record only if the write succeeded. -/
def openOp (a : Int) : Op Unit := do
  match (← get).params.activityAux with
  | .aux1 => isoSetOp a 1 1 0
  | .aux2 => isoSetOp a 1 0 1
  setIso a .opened

/-- R112 `CLOSE(a)`: disable, both outputs released; the record only if the write succeeded. -/
def closeOp (a : Int) : Op Unit := do
  isoSetOp a 0 0 0
  setIso a .closed

/-- R183 `with_open(a) { body }`. -/
def withOpen {α : Type} (a : Int) (body : Op α) : Op α := bracket (openOp a) (closeOp a) body

/-- 0x10 `ISO_SET`. -/
def execIsoSet (a : Int) (enable : Byte) (aux1 aux2 : Int) (s : State) : Result :=
  runInternal (do isoSetOp a enable aux1 aux2; pure .nothing) s

/-- 0x11 `OPEN`. -/
def execOpenCard (a : Int) (s : State) : Result := runInternal (do openOp a; pure .nothing) s

/-- 0x12 `CLOSE`. -/
def execCloseCard (a : Int) (s : State) : Result := runInternal (do closeOp a; pure .nothing) s

end Sys2Proof.Machine
end

