-- ==== Sys2Proof/Machine/Expander.lean ====
section
/-! DEFINITION. I/O-expander bit-field serializer (42_expander.md). -/

namespace Sys2Proof.Machine

/-- R15, R16: the cached masks of card `a`. -/
def setMasks (a : Int) (chen tsten : Byte) : Op Unit :=
  modifyCard a fun c => { c with chen := some chen, tsten := some tsten }

/-- R121 `XP_WRITE(a, chen, tsten)`: both masks in one block; the cache only on success. -/
def xpWriteOp (a : Int) (chen tsten : Byte) : Op Unit := do
  requireOpen a
  let p := (← get).params
  writeBlockOp p.xpAddr p.xpReg (xpBlock chen tsten)
  setMasks a chen tsten

/-- R122 `XP_READ(a)`: adopt the device's masks. -/
def xpReadOp (a : Int) : Op Unit := do
  requireOpen a
  let p := (← get).params
  let bs ← readBlockOp p.xpAddr p.xpReg 2
  setMasks a (not8 (bs.getD 0 0)) (not8 (bs.getD 1 0))

/-- R123 `ENABLE_CHANNEL(a, ch, on)`. -/
def enableChannelOp (a ch : Int) (on : Byte) : Op Unit := do
  checkArg (isChannel ch)
  let b ← asBool (boolOfByte on)
  requireOpen a
  let c ← chanIx ch
  let m ← readField fun s => (s.card a).chen
  let t ← readField fun s => (s.card a).tsten
  xpWriteOp a (setMaskBit m c b) t

/-- R124 `ENABLE_TEST_LOAD(a, ch, on)`: the roles of the masks exchanged. -/
def enableTestLoadOp (a ch : Int) (on : Byte) : Op Unit := do
  checkArg (isChannel ch)
  let b ← asBool (boolOfByte on)
  requireOpen a
  let c ← chanIx ch
  let m ← readField fun s => (s.card a).chen
  let t ← readField fun s => (s.card a).tsten
  xpWriteOp a m (setMaskBit t c b)

/-- R125 `IS_CHANNEL_ENABLED(a, ch)`: the cached bit; no transaction, no open card needed. -/
def isChannelEnabledOp (a ch : Int) : Op Bool := do
  checkArg (isChannel ch)
  let c ← chanIx ch
  let m ← readField fun s => (s.card a).chen
  pure (maskBit m c)

/-- 0x20 `XP_WRITE`. -/
def execXpWrite (a : Int) (chen tsten : Byte) (s : State) : Result :=
  runInternal (do xpWriteOp a chen tsten; pure .nothing) s

/-- 0x21 `XP_READ`. -/
def execXpRead (a : Int) (s : State) : Result := runInternal (do xpReadOp a; pure .nothing) s

/-- 0x22 `ENABLE_CHANNEL`. -/
def execEnableChannel (a ch : Int) (on : Byte) (s : State) : Result :=
  runInternal (do enableChannelOp a ch on; pure .nothing) s

/-- 0x23 `ENABLE_TEST_LOAD`. -/
def execEnableTestLoad (a ch : Int) (on : Byte) (s : State) : Result :=
  runInternal (do enableTestLoadOp a ch on; pure .nothing) s

/-- 0x24 `IS_CHANNEL_ENABLED`. -/
def execIsChannelEnabled (a ch : Int) (s : State) : Result :=
  runInternal (do pure (.bool (← isChannelEnabledOp a ch))) s

end Sys2Proof.Machine
end

