-- ==== Sys2Proof/Machine/Potentiometer.lean ====
section
/-! DEFINITION. Digital-potentiometer level register driver (43_potentiometer.md). -/

namespace Sys2Proof.Machine

/-- R17: the cached level of a channel. -/
def setLevelCache (a : Int) (c : ChanIx) (v : Nat) : Op Unit :=
  modifyCard a fun card => { card with level := card.level.set c (some v) }

/-- R17: the cached level of a channel, which must hold a value. -/
def cachedLevel (a : Int) (c : ChanIx) : Op Nat := readField fun s => (s.card a).level[c]

/-- R132 `POT_WRITE(a, ch, P)`: four bytes, low byte first, in one block; the cache is not touched. -/
def potWriteOp (a ch : Int) (pattern : Word) : Op Unit := do
  requireOpen a
  let c ← chanIx ch
  let p := (← get).params
  writeBlockOp p.potAddr[potChip c] p.potReg[potSub c] (patternBytes pattern)

/-- R133 `SET_LEVEL(a, ch, value)`. -/
def setLevelOp (a ch value : Int) : Op Unit := do
  checkArg (isChannel ch)
  checkArg (isLevel value)
  requireOpen a
  potWriteOp a ch (potPattern value.toNat)
  setLevelCache a (← chanIx ch) value.toNat

/-- R134 `SET_LEVEL_MIN(a, ch)`: the level cached, 0, is the least one (log 33). -/
def setLevelMinOp (a ch : Int) : Op Unit := do
  checkArg (isChannel ch)
  requireOpen a
  potWriteOp a ch Config.pb.potMinPattern
  setLevelCache a (← chanIx ch) Config.pb.levelMin

/-- R135 `SET_LEVEL_MAX(a, ch)`: the level cached, 1023, is the greatest one (log 33). -/
def setLevelMaxOp (a ch : Int) : Op Unit := do
  checkArg (isChannel ch)
  requireOpen a
  potWriteOp a ch Config.pb.potMaxPattern
  setLevelCache a (← chanIx ch) Config.pb.levelMax

/-- R136 `READ_LEVEL(a, ch)`: the sum of the four bytes, returned and cached. -/
def readLevelOp (a ch : Int) : Op Nat := do
  checkArg (isChannel ch)
  requireOpen a
  let c ← chanIx ch
  let p := (← get).params
  let bs ← readBlockOp p.potAddr[potChip c] p.potReg[potSub c] Config.pb.potSubregs
  setLevelCache a c (byteSum bs)
  pure (byteSum bs)

/-- 0x34 `POT_WRITE`. -/
def execPotWrite (a ch : Int) (pattern : Word) (s : State) : Result :=
  runInternal (do potWriteOp a ch pattern; pure .nothing) s

/-- 0x30 `SET_LEVEL`. -/
def execSetLevel (a ch value : Int) (s : State) : Result :=
  runInternal (do setLevelOp a ch value; pure .nothing) s

/-- 0x31 `SET_LEVEL_MIN`. -/
def execSetLevelMin (a ch : Int) (s : State) : Result :=
  runInternal (do setLevelMinOp a ch; pure .nothing) s

/-- 0x32 `SET_LEVEL_MAX`. -/
def execSetLevelMax (a ch : Int) (s : State) : Result :=
  runInternal (do setLevelMaxOp a ch; pure .nothing) s

/-- 0x33 `READ_LEVEL`. -/
def execReadLevel (a ch : Int) (s : State) : Result :=
  runInternal (do let v ← readLevelOp a ch; pure (.int v)) s

end Sys2Proof.Machine
end

