-- ==== Sys2Proof/Machine/Sense.lean ====
section
/-! DEFINITION. Current/voltage sense: initialisation, raw reads, scaling, averaging, clamp and epsilon (44_sense.md).
Nothing sensed is cached (R158). -/

namespace Sys2Proof.Machine

/-! ## Initialisation and raw reads -/

/-- R141: the calibration rewrite; also the first transaction of R140. -/
def calibrate (c : ChanIx) : Op Unit := do
  let p := (← get).params
  writeWordOp p.snsAddr[c] p.snsRegCal (bswap16 p.calWord)

/-- A sense register of a channel, as the signed content (R81). -/
def readSense (c : ChanIx) (reg : Params → Nat) : Op Int := do
  let p := (← get).params
  let w ← readWordOp p.snsAddr[c] (reg p)
  pure (rawOfWord w)

/-- R140 `SENSE_INIT(a, ch)`: calibration word, then configuration word. -/
def senseInitOp (a ch : Int) : Op Unit := do
  requireOpen a
  let c ← chanIx ch
  calibrate c
  let p := (← get).params
  writeWordOp p.snsAddr[c] p.snsRegCfg (bswap16 p.cfgWord)

/-- R142 `RAW_SHUNT(a, ch)`: no calibration rewrite. -/
def rawShuntOp (a ch : Int) : Op Int := do
  requireOpen a
  let c ← chanIx ch
  readSense c Params.snsRegShunt

/-- R143 `RAW_BUS(a, ch)`. -/
def rawBusOp (a ch : Int) : Op Int := do
  requireOpen a
  let c ← chanIx ch
  calibrate c
  let raw ← readSense c Params.snsRegBus
  pure (busRaw raw)

/-- R144 `RAW_CURRENT(a, ch)`. -/
def rawCurrentOp (a ch : Int) : Op Int := do
  requireOpen a
  let c ← chanIx ch
  calibrate c
  readSense c Params.snsRegCurrent

/-- R145 `RAW_POWER(a, ch)`. -/
def rawPowerOp (a ch : Int) : Op Int := do
  requireOpen a
  let c ← chanIx ch
  calibrate c
  readSense c Params.snsRegPower

/-! ## Scaling (R147 to R150) -/

/-- R147. -/
def shuntSample (a ch : Int) : Op Rat := do
  let raw ← rawShuntOp a ch
  pure (raw * (← get).params.shuntLsb)

/-- R148, volts. -/
def busSample (a ch : Int) : Op Rat := do
  let raw ← rawBusOp a ch
  pure (raw * (← get).params.busLsb)

/-- R149, mA. -/
def currentSample (a ch : Int) : Op Rat := do
  let raw ← rawCurrentOp a ch
  pure (raw / (← readField fun s => (s.card a).curdiv))

/-- R150; used by no operation of the table. -/
def powerSample (a ch : Int) : Op Rat := do
  let raw ← rawPowerOp a ch
  pure (raw * (← readField fun s => (s.card a).pwrmul))

/-! ## Averaging (R151) -/

/-- R24: the accumulator and the counter hold no value outside a public read. -/
def State.dropAcc (s : State) : State := { s with acc := none, cnt := none }

/-- R151: one sample into the accumulator; the inter-sample delay stands before every sample but the first. -/
def takeSample (sample : Op Rat) (i : Nat) : Op Unit := do
  if 0 < i then emit (.delay .sample (← get).params.sampleDelayMs)
  let x ← sample
  modify fun s => { s with acc := s.acc.map (· + x), cnt := s.cnt.map (· + 1) }

/-- R151 `AVG(sample)`: the mean of six samples; a failing sample ends it and drops `ACC`. -/
def averageOp (sample : Op Rat) : Op Rat :=
  dropAfter State.dropAcc do
    modify fun s => { s with acc := some 0, cnt := some 0 }
    forEach (List.range Config.pb.senseN) (takeSample sample)
    let sum ← readField State.acc
    pure (sum / Config.pb.senseN)

/-! ## Public reads -/

/-- R152 `GET_BUS_VOLTAGE(a, ch)`. -/
def getBusVoltageOp (a ch : Int) : Op Rat := do
  checkArg (isChannel ch)
  requireOpen a
  let m ← averageOp (busSample a ch)
  pure (clampMean m)

/-- R153 `GET_SHUNT_VOLTAGE(a, ch)`. -/
def getShuntVoltageOp (a ch : Int) : Op Rat := do
  checkArg (isChannel ch)
  requireOpen a
  let m ← averageOp (shuntSample a ch)
  pure (clampMean m)

/-- R154 `GET_CURRENT(a, ch)`. -/
def getCurrentOp (a ch : Int) : Op Rat := do
  checkArg (isChannel ch)
  requireOpen a
  let m ← averageOp (currentSample a ch)
  pure (currentEps (clampMean m))

/-- 0x40 `SENSE_INIT`. -/
def execSenseInit (a ch : Int) (s : State) : Result := runInternal (do senseInitOp a ch; pure .nothing) s

/-- 0x41 `RAW_SHUNT`. -/
def execRawShunt (a ch : Int) (s : State) : Result := runInternal (do pure (.int (← rawShuntOp a ch))) s

/-- 0x42 `RAW_BUS`. -/
def execRawBus (a ch : Int) (s : State) : Result := runInternal (do pure (.int (← rawBusOp a ch))) s

/-- 0x43 `RAW_CURRENT`. -/
def execRawCurrent (a ch : Int) (s : State) : Result := runInternal (do pure (.int (← rawCurrentOp a ch))) s

/-- 0x44 `RAW_POWER`. -/
def execRawPower (a ch : Int) (s : State) : Result := runInternal (do pure (.int (← rawPowerOp a ch))) s

/-- 0x45 `GET_BUS_VOLTAGE`. -/
def execGetBusVoltage (a ch : Int) (s : State) : Result := runInternal (do pure (.real (← getBusVoltageOp a ch))) s

/-- 0x46 `GET_SHUNT_VOLTAGE`. -/
def execGetShuntVoltage (a ch : Int) (s : State) : Result :=
  runInternal (do pure (.real (← getShuntVoltageOp a ch))) s

/-- 0x47 `GET_CURRENT`. -/
def execGetCurrent (a ch : Int) (s : State) : Result := runInternal (do pure (.real (← getCurrentOp a ch))) s

end Sys2Proof.Machine
end

