-- ==== Sys2Proof/Machine/Construct.lean ====
section
/-! DEFINITION. Card Controller: construction (45_card.md rules R161, R162). -/

namespace Sys2Proof.Machine

/-- R161: the discovery section: masks, eight levels, eight sense initialisations, the calibration parameters. -/
def discoverOp (a : Int) : Op Unit := do
  xpReadOp a
  forEach allChans fun ch => do
    let _ ← readLevelOp a ch
  forEach allChans fun ch => senseInitOp a ch
  let p := (← get).params
  modifyCard a fun c => { c with curdiv := some p.curdiv, pwrmul := some p.pwrmul }

/-- R161 `ABSENT0`: every field of card `a` returns to "no value". -/
def forgetCard (a : Int) : Op Unit := modify fun s => s.setCard a Card.blank

/-- R161 `CARD_CONSTRUCT(a)`: `true` is `present`. A `BusError` of any of its transactions means `absent` (R162). -/
def cardConstructOp (a : Int) : Op Bool := do
  setIso a .closed
  if ← attempt (openOp a) then
    if ← attempt (discoverOp a) then
      if ← attempt (closeOp a) then
        modifyCard a fun c => { c with live := true }
        pure true
      else
        forgetCard a
        pure false
    else
      let _ ← attempt (closeOp a)
      forgetCard a
      pure false
  else
    forgetCard a
    pure false

/-- 0x50 `CARD_CONSTRUCT`. -/
def execCardConstruct (a : Int) (s : State) : Result :=
  runInternal (do pure (.bool (← cardConstructOp a))) s

end Sys2Proof.Machine
end

