-- ==== Sys2Proof/Machine/Crate.lean ====
section
/-! DEFINITION. Crate Controller (46_crate.md): discovery, the per-card host commands, the bulk commands, the availability
refresh and shutdown. -/

namespace Sys2Proof.Machine

/-- R73: a `flag` field that must be a boolean. -/
def isFlag (flag : Byte) : Bool := (boolOfByte flag).isSome

/-- The boolean a valid `flag` carries. -/
def flagSet (flag : Byte) : Bool := decide (flag = 1)

/-- R181, rows 3 and 4. -/
def cardChanOk (card chan : Int) : Bool := isCard card && isChannel chan

/-- A command that names no card needs none in the live map (R182). -/
def noCardNeeded : State → Bool := fun _ => true

/-- R182: the card is in the live map. -/
def cardFound (card : Int) : State → Bool := fun s => s.live card

/-- R183 to R190: a per-card host command: argument checks, live-map check, the body inside the bracket. -/
def runPerCard (op : Byte) (argsOk : Bool) (card : Int) (body : Op Value) (s : State) : Result :=
  runCommand op argsOk (cardFound card) (withOpen card body) s

/-! ## Discovery, refresh, shutdown -/

/-- R180: probe 1..18 in ascending order. -/
def crateConstructOp : Op Value := do
  forEach allCards fun a => do
    let _ ← cardConstructOp a
  pure (.cards (← get).liveCards)

/-- R192: one ascending pass; known cards are probed, the others constructed. -/
def getAvailableCardsOp : Op Value := do
  let known := (← get).liveCards
  forEach allCards fun a => do
    if known.contains a then withOpen a (pure ())
    else if ← cardConstructOp a then emit (.cardDiscovered a)
  pure (.cards (← get).liveCards)

/-- R193: close every live card and forget it; the first `BusError` is remembered, later ones change nothing. -/
def shutdownLoop : List Int → Bool → Op Bool
  | [], failed => pure failed
  | a :: rest, failed => do
    if (← get).live a then
      let closed ← attempt (closeOp a)
      forgetCard a
      shutdownLoop rest (failed || !closed)
    else shutdownLoop rest failed

/-- R193. -/
def shutdownOp : Op Value := do
  if ← shutdownLoop allCards false then raise .busError else pure .nothing

/-- 0x80 `CRATE_CONSTRUCT`: a second crate is refused. -/
def execCrateConstruct (s : State) : Result :=
  runCommand 0x80#8 s.liveCards.isEmpty noCardNeeded crateConstructOp s

/-- 0x81 `SHUTDOWN`. -/
def execShutdown (s : State) : Result := runCommand 0x81#8 true noCardNeeded shutdownOp s

/-- 0x82 `GET_AVAILABLE_CARDS`. -/
def execGetAvailableCards (s : State) : Result := runCommand 0x82#8 true noCardNeeded getAvailableCardsOp s

/-! ## Per-card commands -/

/-- 0x90 `CRATE_ENABLE_CHANNEL`, R184. -/
def execCrateEnableChannel (card chan : Int) (flag : Byte) (s : State) : Result :=
  runPerCard 0x90#8 (isFlag flag && cardChanOk card chan) card
    (do enableChannelOp card chan flag; pure .nothing) s

/-- 0x91 `CRATE_ENABLE_TEST_LOAD`, R185. -/
def execCrateEnableTestLoad (card chan : Int) (flag : Byte) (s : State) : Result :=
  runPerCard 0x91#8 (isFlag flag && cardChanOk card chan) card
    (do enableTestLoadOp card chan flag; pure .nothing) s

/-- 0x92 `CRATE_IS_CHANNEL_ENABLED`, R186. -/
def execCrateIsChannelEnabled (card chan : Int) (s : State) : Result :=
  runPerCard 0x92#8 (cardChanOk card chan) card (do pure (.bool (← isChannelEnabledOp card chan))) s

/-- 0x93 `CRATE_SET_LEVEL`, R187. -/
def execCrateSetLevel (card chan ival : Int) (s : State) : Result :=
  runPerCard 0x93#8 (cardChanOk card chan && isLevel ival) card (do setLevelOp card chan ival; pure .nothing) s

/-- 0x94 `CRATE_GET_BUS_VOLTAGE`, R188. -/
def execCrateGetBusVoltage (card chan : Int) (s : State) : Result :=
  runPerCard 0x94#8 (cardChanOk card chan) card (do pure (.real (← getBusVoltageOp card chan))) s

/-- 0x95 `CRATE_GET_SHUNT_VOLTAGE`, R189. -/
def execCrateGetShuntVoltage (card chan : Int) (s : State) : Result :=
  runPerCard 0x95#8 (cardChanOk card chan) card (do pure (.real (← getShuntVoltageOp card chan))) s

/-- 0x96 `CRATE_GET_CURRENT`, R190. -/
def execCrateGetCurrent (card chan : Int) (s : State) : Result :=
  runPerCard 0x96#8 (cardChanOk card chan) card (do pure (.real (← getCurrentOp card chan))) s

/-! ## Bulk commands (R191) -/

/-- R191: every live card in ascending order, one bracket each; the first failure ends the command. -/
def forLiveCards (act : Int → Op Unit) : Op Value := do
  forEach allCards fun a => do
    if (← get).live a then withOpen a (act a)
  pure .nothing

/-- R191: a per-channel operation on channels 1..8. -/
def forChans (act : Int → Op Unit) : Op Unit := forEach allChans act

/-- R194: the eight channels off, then, with `zero_level`, the eight levels to the minimum. -/
def disableOutputsAct (zeroLevel : Bool) (a : Int) : Op Unit := do
  forChans fun ch => enableChannelOp a ch 0
  if zeroLevel then forChans fun ch => setLevelMinOp a ch

/-- 0xA0 `DISABLE_ALL_OUTPUTS`, R194. -/
def execDisableAllOutputs (zeroLevel : Byte) (s : State) : Result :=
  runCommand 0xA0#8 (isFlag zeroLevel) noCardNeeded (forLiveCards (disableOutputsAct (flagSet zeroLevel))) s

/-- 0xA1 `ENABLE_ALL_OUTPUTS`, R195. -/
def execEnableAllOutputs (s : State) : Result :=
  runCommand 0xA1#8 true noCardNeeded (forLiveCards fun a => forChans fun ch => enableChannelOp a ch 1) s

/-- 0xA2 `MAX_OUTPUT`, R196. -/
def execMaxOutput (s : State) : Result :=
  runCommand 0xA2#8 true noCardNeeded (forLiveCards fun a => forChans fun ch => setLevelMaxOp a ch) s

/-- 0xA3 `MIN_OUTPUT`, R197. -/
def execMinOutput (s : State) : Result :=
  runCommand 0xA3#8 true noCardNeeded (forLiveCards fun a => forChans fun ch => setLevelMinOp a ch) s

/-- 0xA4 `ENABLE_ALL_TEST_LOADS`, R198. -/
def execEnableAllTestLoads (s : State) : Result :=
  runCommand 0xA4#8 true noCardNeeded (forLiveCards fun a => forChans fun ch => enableTestLoadOp a ch 1) s

/-- 0xA5 `DISABLE_ALL_TEST_LOADS`, R199. -/
def execDisableAllTestLoads (s : State) : Result :=
  runCommand 0xA5#8 true noCardNeeded (forLiveCards fun a => forChans fun ch => enableTestLoadOp a ch 0) s

end Sys2Proof.Machine
end

