-- ==== Sys2Proof/Machine/Persist.lean ====
section
/-! DEFINITION. Configuration persistence (48_config.md). -/

namespace Sys2Proof.Machine

/-- R210 `CFG[a][ch]`; an address or channel out of domain has no record and reads as the off record. -/
def State.cfgEntry (s : State) (a ch : Int) : CfgEntry :=
  match cardIx? a, chanIx? ch with
  | some i, some c => s.cfg[i][c]
  | _, _ => CfgEntry.off

/-- The state with `CFG[a][ch]` replaced. -/
def State.setCfgEntry (s : State) (a ch : Int) (e : CfgEntry) : State :=
  match cardIx? a, chanIx? ch with
  | some i, some c => { s with cfg := s.cfg.set i (s.cfg[i].set c e) }
  | _, _ => s

/-- R211 `create_new`: every record off, at level 0. -/
def State.clearCfg (s : State) : State :=
  { s with cfg := Vector.replicate _ (Vector.replicate _ CfgEntry.off) }

/-- R211: record the cached enable and the cached level of one channel. -/
def saveChannelOp (a ch : Int) : Op Unit := do
  let output ← isChannelEnabledOp a ch
  let level ← cachedLevel a (← chanIx ch)
  modify fun s => s.setCfgEntry a ch { output := output, level := level }

/-- R211: no transaction, no bracket; a card that is not live keeps its records. -/
def saveConfigOp (createNew : Bool) : Op Value := do
  if createNew then modify State.clearCfg
  forEach allCards fun a => do
    if (← get).live a then forEach allChans fun ch => saveChannelOp a ch
  pure .nothing

/-- R212: restore one channel, level before enable; `enable_outputs` can only force a channel off. -/
def loadChannelOp (enableOutputs : Bool) (a ch : Int) : Op Unit := do
  let e := (← get).cfgEntry a ch
  setLevelOp a ch e.level
  enableChannelOp a ch (byteOfBool (e.output && enableOutputs))

/-- 0xB0 `SAVE_CONFIG`, R211. -/
def execSaveConfig (createNew : Byte) (s : State) : Result :=
  runCommand 0xB0#8 (isFlag createNew) noCardNeeded (saveConfigOp (flagSet createNew)) s

/-- 0xB1 `LOAD_CONFIG`, R212. -/
def execLoadConfig (enableOutputs : Byte) (s : State) : Result :=
  runCommand 0xB1#8 (isFlag enableOutputs) noCardNeeded
    (forLiveCards fun a => forChans fun ch => loadChannelOp (flagSet enableOutputs) a ch) s

end Sys2Proof.Machine
end

