-- ==== Sys2Proof/Machine/Seek.lean ====
section
/-! DEFINITION. Closed-loop seek (47_seek.md). -/

namespace Sys2Proof.Machine

/-- R25: `ITER` and `L` hold no value outside a seek. -/
def State.dropSeek (s : State) : State := { s with iter := none, seekLevel := none }

/-- R201: the loop; `fuel` is what is left of the 2048 iterations. -/
def seekLoop (card chan : Int) (target : Rat) (step : Int) (sense : Op Rat) : Nat → Op Value
  | 0 => raise .seekNotConverged
  | fuel + 1 => do
    emit (.delay .settle Config.pb.seekSettleMs)
    let x ← sense
    modify fun s => { s with iter := s.iter.map (· + 1) }
    let level ← readField State.seekLevel
    if seekConverged target x then pure (.pair level x)
    else
      let next := seekMove target x level step
      modify fun s => { s with seekLevel := some next }
      setLevelOp card chan next
      seekLoop card chan target step sense fuel

/-- R201: from the cached level, at most 2048 iterations. -/
def seekOp (card chan : Int) (target : Rat) (step : Int) (sense : Op Rat) : Op Value :=
  dropAfter State.dropSeek do
    let c ← chanIx chan
    let level ← cachedLevel card c
    modify fun s => { s with iter := some 0, seekLevel := some (level : Int) }
    seekLoop card chan target step sense Config.pb.seekMaxIter

/-- 0x97 `SEEK_VOLTAGE`, R202. -/
def execSeekVoltage (card chan : Int) (target : Rat) (step : Int) (s : State) : Result :=
  runPerCard 0x97#8 (cardChanOk card chan && seekVoltageArgs target step) card
    (seekOp card chan target step (getBusVoltageOp card chan)) s

/-- 0x98 `SEEK_CURRENT`, R203. -/
def execSeekCurrent (card chan : Int) (target : Rat) (step : Int) (s : State) : Result :=
  runPerCard 0x98#8 (cardChanOk card chan && seekCurrentArgs target step) card
    (seekOp card chan target step (getCurrentOp card chan)) s

end Sys2Proof.Machine
end

