-- ==== Sys2Proof/Machine/Dispatch.lean ====
section
/-! DEFINITION. One arm per operation of opcode_table.json. -/

namespace Sys2Proof.Machine

def exec (i : Instr) (s : State) : Host.Outcome State Fault Refusal :=
  match i with
  | .readByte addr => Sys2Proof.Machine.execReadByte addr s
  | .writeByte addr byte => Sys2Proof.Machine.execWriteByte addr byte s
  | .readWord addr reg => Sys2Proof.Machine.execReadWord addr reg s
  | .writeWord addr reg word => Sys2Proof.Machine.execWriteWord addr reg word s
  | .writeBlock addr reg bytes => Sys2Proof.Machine.execWriteBlock addr reg bytes s
  | .readBlock addr reg len => Sys2Proof.Machine.execReadBlock addr reg len s
  | .isoSet a enable aux1 aux2 => Sys2Proof.Machine.execIsoSet a enable aux1 aux2 s
  | .openCard a => Sys2Proof.Machine.execOpenCard a s
  | .closeCard a => Sys2Proof.Machine.execCloseCard a s
  | .xpWrite a chen tsten => Sys2Proof.Machine.execXpWrite a chen tsten s
  | .xpRead a => Sys2Proof.Machine.execXpRead a s
  | .enableChannel a ch on => Sys2Proof.Machine.execEnableChannel a ch on s
  | .enableTestLoad a ch on => Sys2Proof.Machine.execEnableTestLoad a ch on s
  | .isChannelEnabled a ch => Sys2Proof.Machine.execIsChannelEnabled a ch s
  | .setLevel a ch value => Sys2Proof.Machine.execSetLevel a ch value s
  | .setLevelMin a ch => Sys2Proof.Machine.execSetLevelMin a ch s
  | .setLevelMax a ch => Sys2Proof.Machine.execSetLevelMax a ch s
  | .readLevel a ch => Sys2Proof.Machine.execReadLevel a ch s
  | .potWrite a ch pattern => Sys2Proof.Machine.execPotWrite a ch pattern s
  | .senseInit a ch => Sys2Proof.Machine.execSenseInit a ch s
  | .rawShunt a ch => Sys2Proof.Machine.execRawShunt a ch s
  | .rawBus a ch => Sys2Proof.Machine.execRawBus a ch s
  | .rawCurrent a ch => Sys2Proof.Machine.execRawCurrent a ch s
  | .rawPower a ch => Sys2Proof.Machine.execRawPower a ch s
  | .getBusVoltage a ch => Sys2Proof.Machine.execGetBusVoltage a ch s
  | .getShuntVoltage a ch => Sys2Proof.Machine.execGetShuntVoltage a ch s
  | .getCurrent a ch => Sys2Proof.Machine.execGetCurrent a ch s
  | .cardConstruct a => Sys2Proof.Machine.execCardConstruct a s
  | .crateConstruct => Sys2Proof.Machine.execCrateConstruct s
  | .shutdown => Sys2Proof.Machine.execShutdown s
  | .getAvailableCards => Sys2Proof.Machine.execGetAvailableCards s
  | .crateEnableChannel card chan flag => Sys2Proof.Machine.execCrateEnableChannel card chan flag s
  | .crateEnableTestLoad card chan flag => Sys2Proof.Machine.execCrateEnableTestLoad card chan flag s
  | .crateIsChannelEnabled card chan => Sys2Proof.Machine.execCrateIsChannelEnabled card chan s
  | .crateSetLevel card chan ival => Sys2Proof.Machine.execCrateSetLevel card chan ival s
  | .crateGetBusVoltage card chan => Sys2Proof.Machine.execCrateGetBusVoltage card chan s
  | .crateGetShuntVoltage card chan => Sys2Proof.Machine.execCrateGetShuntVoltage card chan s
  | .crateGetCurrent card chan => Sys2Proof.Machine.execCrateGetCurrent card chan s
  | .seekVoltage card chan target step => Sys2Proof.Machine.execSeekVoltage card chan target step s
  | .seekCurrent card chan target step => Sys2Proof.Machine.execSeekCurrent card chan target step s
  | .disableAllOutputs zeroLevel => Sys2Proof.Machine.execDisableAllOutputs zeroLevel s
  | .enableAllOutputs => Sys2Proof.Machine.execEnableAllOutputs s
  | .maxOutput => Sys2Proof.Machine.execMaxOutput s
  | .minOutput => Sys2Proof.Machine.execMinOutput s
  | .enableAllTestLoads => Sys2Proof.Machine.execEnableAllTestLoads s
  | .disableAllTestLoads => Sys2Proof.Machine.execDisableAllTestLoads s
  | .saveConfig createNew => Sys2Proof.Machine.execSaveConfig createNew s
  | .loadConfig enableOutputs => Sys2Proof.Machine.execLoadConfig enableOutputs s

end Sys2Proof.Machine
end

