-- ==== Sys2Proof/Machine/Fetch.lean ====
section
/-! DEFINITION. Taking an input (log 1): what `step` calls and what stands outside a repair's reach there. The block fetches
no instruction (R3, R59); the next thing it runs is the first input the host (or, for an internal operation, the sequencer)
has handed it. -/

namespace Sys2Proof.Machine

/-- R74, R181 row 1: a frame the issuer may not issue, or that names no operation, is refused. -/
inductive Accepted where
  | run (i : Instr)
  | refuse
deriving DecidableEq, Repr

/-- R72, R74: the host may issue host opcodes only; the sequencer may issue every operation of the table (log 7). -/
def accept (who : Issuer) (f : Frame) : Accepted :=
  match f.decode with
  | .error _ => .refuse
  | .ok i =>
    match who with
    | .host => if i.isHost then .run i else .refuse
    | .sequencer => .run i

/-- The state with the first input taken away. -/
def State.tail (s : State) (rest : List Input) : State := { s with inbox := rest }

/-- R31: a card is plugged or pulled. -/
def State.plug (s : State) (i : CardIx) (present : Bool) : State :=
  { s with present := s.present.set i present }

/-- R250, R251, R33: the process is started again: the volatile state is cleared; the persisted configuration, the device
registers and what belongs to the environment stay as they are. -/
def State.restart (s : State) : State :=
  { s with running := none, cards := Vector.replicate _ Card.blank, acc := none, cnt := none, iter := none,
           seekLevel := none, hist := [], response := none }

/-- The issuer of an operation handed to the block from outside: the host for a host opcode, else the sequencer. -/
def issuerOf (f : Frame) : Issuer := if isHostOpcode f.op then .host else .sequencer

/-- The state with a frame placed where the next step takes its input. -/
def State.withFrame (s : State) (f : Frame) : State :=
  { s with inbox := .frame (issuerOf f) f :: s.inbox }

end Sys2Proof.Machine
end

