-- ==== Sys2Proof/Machine/Step.lean ====
section
/-! DEFINITION. One step of the block (R10, R12, D1): take the first input and run it to its end. -/

namespace Sys2Proof.Machine

/-- With no input the block waits (log 29). A plug event changes `PRESENT` (R31), a restart
clears the volatile state (R250). A frame is refused with `InvalidArgument`
(R74) or run. -/
def step (s : State) : Host.Outcome State Fault Refusal :=
  match s.inbox with
  | [] => .next s
  | .plug i present :: rest => .next ((s.tail rest).plug i present)
  | .restart :: rest => .next (s.tail rest).restart
  | .frame who f :: rest =>
    match accept who f with
    | .run i => exec i (s.tail rest)
    | .refuse => .next ((s.tail rest).respond (.failed .invalidArgument))

/-- `s` with the instruction whose low bits are `w` as its next input (log 1). -/
def State.withFetchWord (s : State) (nbits w : Nat) : State :=
  match tableFrame nbits w with
  | .ok f => s.withFrame f
  | .error _ => s

end Sys2Proof.Machine
end

