-- ==== Sys2Proof/Safety.lean ====
section
/-! DEFINITION. The terms claims are stated in: the environment's answers to come, the premises of 93_implementation_defined.md
part 3, the safety invariant (R20), the well-formed states, what a command's operands break (R181, R200), what an operation
leaves unchanged, and the readings the answers to come amount to. -/

namespace Sys2Proof

/-! ## The commands by their operands (R181, R182, R200) -/

/-- R73: a byte that is no boolean. -/
abbrev NotBool (b : Byte) : Prop := b ≠ 0 ∧ b ≠ 1

/-- D3: an i32 that is no boolean. -/
abbrev NotBoolInt (x : Int) : Prop := x ≠ 0 ∧ x ≠ 1

/-- The card a per-card host command names (R182). -/
def Instr.cardNamed : Instr → Option Int
  | .crateEnableChannel card _ _ => some card
  | .crateEnableTestLoad card _ _ => some card
  | .crateIsChannelEnabled card _ => some card
  | .crateSetLevel card _ _ => some card
  | .crateGetBusVoltage card _ => some card
  | .crateGetShuntVoltage card _ => some card
  | .crateGetCurrent card _ => some card
  | .seekVoltage card _ _ _ => some card
  | .seekCurrent card _ _ _ => some card
  | _ => none

/-- The two seeks, the per-card host commands whose body can fail otherwise than with `BusError` (R204, R205). -/
def Instr.isSeek : Instr → Bool
  | .seekVoltage .. => true
  | .seekCurrent .. => true
  | _ => false

/-- R181, R200: a host command with an operand out of its domain. -/
abbrev Instr.BadHostArgs : Instr → Prop
  | .crateEnableChannel card chan flag => ¬isCardNo card ∨ ¬isChanNo chan ∨ NotBool flag
  | .crateEnableTestLoad card chan flag => ¬isCardNo card ∨ ¬isChanNo chan ∨ NotBool flag
  | .crateIsChannelEnabled card chan => ¬isCardNo card ∨ ¬isChanNo chan
  | .crateSetLevel card chan v => ¬isCardNo card ∨ ¬isChanNo chan ∨ ¬(0 ≤ v ∧ v ≤ 1023)
  | .crateGetBusVoltage card chan => ¬isCardNo card ∨ ¬isChanNo chan
  | .crateGetShuntVoltage card chan => ¬isCardNo card ∨ ¬isChanNo chan
  | .crateGetCurrent card chan => ¬isCardNo card ∨ ¬isChanNo chan
  | .seekVoltage card chan target step =>
    ¬isCardNo card ∨ ¬isChanNo chan ∨ ¬(0 ≤ target ∧ target ≤ 5) ∨ ¬(1 ≤ step)
  | .seekCurrent card chan target step =>
    ¬isCardNo card ∨ ¬isChanNo chan ∨ ¬(0 ≤ target ∧ target ≤ 200) ∨ ¬(1 ≤ step)
  | .disableAllOutputs flag => NotBool flag
  | .saveConfig flag => NotBool flag
  | .loadConfig flag => NotBool flag
  | _ => False

/-- R73, R110, R123, R133, R163: an internal operation with an operand its own checks refuse. -/
abbrev Instr.BadCardArgs : Instr → Prop
  | .isoSet _ en aux1 aux2 => NotBool en ∨ NotBoolInt aux1 ∨ NotBoolInt aux2
  | .enableChannel _ ch on => ¬isChanNo ch ∨ NotBool on
  | .enableTestLoad _ ch on => ¬isChanNo ch ∨ NotBool on
  | .isChannelEnabled _ ch => ¬isChanNo ch
  | .setLevel _ ch v => ¬isChanNo ch ∨ ¬(0 ≤ v ∧ v ≤ 1023)
  | .setLevelMin _ ch => ¬isChanNo ch
  | .setLevelMax _ ch => ¬isChanNo ch
  | .readLevel _ ch => ¬isChanNo ch
  | .getBusVoltage _ ch => ¬isChanNo ch
  | .getShuntVoltage _ ch => ¬isChanNo ch
  | .getCurrent _ ch => ¬isChanNo ch
  | _ => False

/-- R165: the card whose proof of open an operation needs. -/
def Instr.needsOpen : Instr → Option Int
  | .xpWrite a _ _ => some a
  | .xpRead a => some a
  | .enableChannel a _ _ => some a
  | .enableTestLoad a _ _ => some a
  | .setLevel a _ _ => some a
  | .setLevelMin a _ => some a
  | .setLevelMax a _ => some a
  | .readLevel a _ => some a
  | .potWrite a _ _ => some a
  | .senseInit a _ => some a
  | .rawShunt a _ => some a
  | .rawBus a _ => some a
  | .rawCurrent a _ => some a
  | .rawPower a _ => some a
  | .getBusVoltage a _ => some a
  | .getShuntVoltage a _ => some a
  | .getCurrent a _ => some a
  | _ => none

/-! ## The device registers an operation may write -/

/-- The five kinds of device register (R26 to R29). -/
inductive RegKind where
  | switch
  | expander
  | pot
  | snsCfg
  | snsCal
deriving DecidableEq, Repr

/-- The cells of the registers of one kind, on all 18 cards (log 4). -/
def RegKind.Cell (k : Nat) : RegKind → Prop
  | .switch => ∃ i : CardIx, k = Machine.swCell i
  | .expander => ∃ (i : CardIx) (j : Fin 2), k = Machine.xpCell i j
  | .pot => ∃ (i : CardIx) (c : PotIx) (s : SubIx) (j : Fin Config.pb.potSubregs),
      k = Machine.potCell i c s j.val
  | .snsCfg => ∃ (i : CardIx) (c : ChanIx), k = Machine.snsCfgCell i c ∨ k = Machine.snsCfgCell i c + 1
  | .snsCal => ∃ (i : CardIx) (c : ChanIx), k = Machine.snsCalCell i c ∨ k = Machine.snsCalCell i c + 1

/-- The kinds of device register each operation's rule lets it write. -/
def Instr.writes : Instr → List RegKind
  | .readByte .. => []
  | .writeByte .. => [.switch]
  | .readWord .. => []
  | .writeWord .. => [.snsCfg, .snsCal]
  | .writeBlock .. => [.expander, .pot]
  | .readBlock .. => []
  | .isoSet .. => [.switch]
  | .openCard .. => [.switch]
  | .closeCard .. => [.switch]
  | .xpWrite .. => [.expander]
  | .xpRead .. => []
  | .enableChannel .. => [.expander]
  | .enableTestLoad .. => [.expander]
  | .isChannelEnabled .. => []
  | .setLevel .. => [.pot]
  | .setLevelMin .. => [.pot]
  | .setLevelMax .. => [.pot]
  | .readLevel .. => []
  | .potWrite .. => [.pot]
  | .senseInit .. => [.snsCal, .snsCfg]
  | .rawShunt .. => []
  | .rawBus .. => [.snsCal]
  | .rawCurrent .. => [.snsCal]
  | .rawPower .. => [.snsCal]
  | .getBusVoltage .. => [.snsCal]
  | .getShuntVoltage .. => []
  | .getCurrent .. => [.snsCal]
  | .cardConstruct .. => [.switch, .snsCal, .snsCfg]
  | .crateConstruct => [.switch, .snsCal, .snsCfg]
  | .shutdown => [.switch]
  | .getAvailableCards => [.switch, .snsCal, .snsCfg]
  | .crateEnableChannel .. => [.switch, .expander]
  | .crateEnableTestLoad .. => [.switch, .expander]
  | .crateIsChannelEnabled .. => [.switch]
  | .crateSetLevel .. => [.switch, .pot]
  | .crateGetBusVoltage .. => [.switch, .snsCal]
  | .crateGetShuntVoltage .. => [.switch]
  | .crateGetCurrent .. => [.switch, .snsCal]
  | .seekVoltage .. => [.switch, .pot, .snsCal]
  | .seekCurrent .. => [.switch, .pot, .snsCal]
  | .disableAllOutputs zeroLevel => if zeroLevel = 0 then [.switch, .expander] else [.switch, .expander, .pot]
  | .enableAllOutputs => [.switch, .expander]
  | .maxOutput => [.switch, .pot]
  | .minOutput => [.switch, .pot]
  | .enableAllTestLoads => [.switch, .expander]
  | .disableAllTestLoads => [.switch, .expander]
  | .saveConfig _ => []
  | .loadConfig _ => [.switch, .expander, .pot]

end Sys2Proof

namespace Sys2Proof.Machine

/-! ## The environment's answers to come (log 3) -/

/-- The answer the `k`-th transaction from now that reaches a device will get. -/
def State.answer (s : State) (k : Nat) : Answer :=
  match s.tape[k]? with
  | some a => a
  | none => Config.freeAnswer (s.draws + (k - s.tape.length))

/-- The state after `n` answers are taken. -/
def State.took (s : State) (n : Nat) : State :=
  { s with tape := s.tape.drop n, draws := s.draws + (n - s.tape.length) }

/-- The premise `NoBusError` on the next `n` transactions (R61). -/
abbrev NoBusError (n : Nat) (s : State) : Prop := ∀ k : Fin n, (s.answer k.val).ok = true

/-- The environment's first failure comes after `k` transactions that succeed (R61). -/
abbrev FirstBusError (k : Nat) (s : State) : Prop := NoBusError k s ∧ (s.answer k).ok = false

/-! ## Connection of the sub-buses (R20, R43, R254) -/

/-- R254 `SwitchesDisconnectedAtLaunch`, and between host commands the second half of R20. -/
abbrev NoneConnected (s : State) : Prop := s.connectedCards = []

/-- Card `i`'s sub-bus and no other is connected. -/
abbrev OnlyConnected (s : State) (i : CardIx) : Prop := s.connectedCards = [i]

/-- Every live card is plugged. -/
abbrev LiveCardsPlugged (s : State) : Prop := ∀ i : CardIx, s.cards[i].live = true → s.present[i] = true

/-! ## Well-formed states -/

/-- A card whose every field holds a value (R13 to R18). -/
abbrev Card.Complete (c : Card) : Prop :=
  c.iso.isSome = true ∧ c.chen.isSome = true ∧ c.tsten.isSome = true ∧
    (∀ k : ChanIx, c.level[k].isSome = true) ∧ c.curdiv.isSome = true ∧ c.pwrmul.isSome = true

/-- Every live card holds a value in every field (10_state.md section 2). -/
abbrev LiveCardsComplete (s : State) : Prop := ∀ i : CardIx, s.cards[i].live = true → s.cards[i].Complete

/-- R17: a cached level is in 0..1023. -/
abbrev LevelsInRange (s : State) : Prop :=
  ∀ i : CardIx, ∀ k : ChanIx, ∀ v ∈ s.cards[i].level[k], v ≤ 1023

/-- R12, R24, R25, R33: between commands nothing that belongs to one command holds a value. -/
abbrev BetweenCommands (s : State) : Prop :=
  s.running = none ∧ s.acc = none ∧ s.cnt = none ∧ s.iter = none ∧ s.seekLevel = none

/-- R265: a good final state of a session; it says nothing of the switches, the outputs or the process. -/
abbrev GoodFinal (s : State) : Prop := s.running = none ∧ s.liveCards = []

/-- The precondition of the operations on card `i`'s devices: memory in its canonical form (log 4), valid parameters (R9),
card `i`'s sub-bus the one connected (R55), the proof of open (R165). The card need not be live: an open card that is not is log 31's. -/
abbrev Ready (s : State) (i : CardIx) : Prop :=
  Memory.wf s.mem = true ∧ s.params.Valid ∧ OnlyConnected s i ∧ s.cards[i].iso = some .opened

/-- The state in which the next host command is run: memory in its canonical form, valid parameters, no command running, no
sub-bus connected, every live card complete. A live card need not be plugged (R31). -/
abbrev CommandReady (s : State) : Prop :=
  Memory.wf s.mem = true ∧ s.params.Valid ∧ BetweenCommands s ∧ NoneConnected s ∧ LiveCardsComplete s

/-! ## What is left unchanged -/

/-- Nothing but the cards, the device registers, the history, the answers taken and the response differs. -/
abbrev SameElsewhere (s t : State) : Prop :=
  t.params = s.params ∧ t.running = s.running ∧ t.cfg = s.cfg ∧ t.acc = s.acc ∧ t.cnt = s.cnt ∧ t.iter = s.iter ∧
    t.seekLevel = s.seekLevel ∧ t.present = s.present ∧ t.inbox = s.inbox

/-- No cached field of any card differs, but for card `i`'s. -/
abbrev SameCardsBut (i : CardIx) (s t : State) : Prop := ∀ j : CardIx, j ≠ i → t.cards[j] = s.cards[j]

/-- No device register differs, but for the cells listed. -/
abbrev SameCellsBut (ks : List Nat) (s t : State) : Prop :=
  ∀ k : Nat, k ∉ ks → Memory.read t.mem k = Memory.read s.mem k

/-- The `n` next answers were taken, and no other. -/
abbrev Took (n : Nat) (s t : State) : Prop :=
  t.tape = (s.took n).tape ∧ t.draws = (s.took n).draws

/-- The cells of card `i` (log 4). -/
abbrev CardCell (i : CardIx) (k : Nat) : Prop := cardCells * i.val ≤ k ∧ k < cardCells * i.val + cardCells

/-! ## Events -/

/-- A bus transaction. -/
def Event.isBus : Event → Bool
  | .bus .. => true
  | _ => false

/-- A settle delay. -/
def Event.isSettle : Event → Bool
  | .delay .settle _ => true
  | _ => false

/-- An inter-sample delay. -/
def Event.isSampleDelay : Event → Bool
  | .delay .sample _ => true
  | _ => false

/-- A write of a switch's control byte that failed. -/
def Event.isFailedWriteByte : Event → Bool
  | .bus (.writeByte _ _) ok _ => !ok
  | _ => false

/-- A write of a control byte. -/
def Event.isWriteByte : Event → Bool
  | .bus (.writeByte _ _) _ _ => true
  | _ => false

/-- A bus transaction that failed. -/
def Event.isFailedBus : Event → Bool
  | .bus _ ok _ => !ok
  | _ => false

/-- R111: the control byte `OPEN` writes. -/
def openByte (p : Params) : Byte :=
  match p.activityAux with
  | .aux1 => 0xC0#8
  | .aux2 => 0xA0#8

/-- R112: the control byte `CLOSE` writes. -/
def closeByte : Byte := 0x60#8

/-- The event of a successful write of card `i`'s control byte. -/
def switchEvent (p : Params) (i : CardIx) (b : Byte) : Event :=
  .bus (.writeByte (p.isoBase + cardNo i) b) true []

/-- The event of `CLOSE`'s write of card `i`'s control byte, which succeeded or did not. -/
def closeEvent (p : Params) (i : CardIx) (closed : Bool) : Event :=
  .bus (.writeByte (p.isoBase + cardNo i) closeByte) closed []

/-- R193: whether `SHUTDOWN` closes card `i`: it is plugged, and the environment's answer to its transaction, which comes after
one for every live plugged card of a lower address, is a success. -/
def State.shutdownOk (s : State) (i : CardIx) : Bool :=
  s.present[i] && (s.answer ((List.finRange Config.pb.nCards).countP fun j =>
    decide (j < i) && (s.cards[j].live && s.present[j]))).ok

/-- R30, R183: the history of a successful per-card host command around the events of its body. What the events of the two command
boundaries carry is the model's choice, log 35. -/
def commandTrace (p : Params) (op : Byte) (i : CardIx) (body : List Event) : List Event :=
  .commandBegins op :: switchEvent p i (openByte p) :: (body ++ [switchEvent p i closeByte, .commandEnds op 0])

/-! ## Commands over the live cards, up to their first failure (R191, R212, R229) -/

/-- How many live cards have a lower address than card `i`. -/
def State.liveBelow (s : State) (i : CardIx) : Nat :=
  (List.finRange Config.pb.nCards).countP fun j => decide (j < i) && s.cards[j].live

/-- A command over the live cards, with `n` transactions between the `OPEN` and the `CLOSE` of each, comes to the live card `i`:
every live card of a lower address is plugged, and all their transactions and the first `k` of card `i`'s bracket succeed. -/
abbrev Reaches (s : State) (n : Nat) (i : CardIx) (k : Nat) : Prop :=
  s.cards[i].live = true ∧ (∀ j : CardIx, j < i → s.cards[j].live = true → s.present[j] = true) ∧
    NoBusError ((n + 2) * s.liveBelow i + k) s

/-- The first transaction of such a command to fail is number `k` of card `i`'s bracket: 0 is its `OPEN`, which also fails if the
card is not plugged, 1 to `n` are its body's, `n + 1` is its `CLOSE`. -/
abbrev FailsAt (s : State) (n : Nat) (i : CardIx) (k : Nat) : Prop :=
  Reaches s n i k ∧ k ≤ n + 1 ∧
    if s.present[i] then (s.answer ((n + 2) * s.liveBelow i + k)).ok = false else k = 0

/-- R191, R229, R183, R228: how such a command `op` ends with the failure `f` at card `i` after the first `k` transactions of its
bracket. `card m j` is the cached state of card `j` and `dev m j` what is known of its devices when the first `m` transactions of
its body are done. The live cards below `i` keep what was done, the cards above it and those not live are untouched; card `i` keeps
the part that was done, and is closed unless it was its `OPEN` or its `CLOSE` that failed. -/
def StoppedAt (s t : State) (op : Byte) (f : Failure) (n : Nat) (i : CardIx) (k : Nat) (card : Nat → CardIx → Card)
    (dev : Nat → CardIx → State → Prop) : Prop :=
  ∃ done failed : List Event,
    let reached := (n + 2) * s.liveBelow i + k
    let taken := reached + if s.present[i] then failed.length else 0
    let closing := decide (1 ≤ k ∧ k ≤ n)
    let closed := closing && (s.answer taken).ok
    done.length = reached ∧ (∀ e ∈ done, e.isBus = true ∧ e.isFailedBus = false) ∧
    (if f = .busError then ∃ e : Event, failed = [e] ∧ e.isFailedBus = true else failed = []) ∧
    t.response = some (.failed f) ∧
    t.hist = s.hist ++ .commandBegins op :: (done ++ failed ++
      (if closing then [closeEvent s.params i closed] else []) ++ [.commandEnds op (Response.failed f).status]) ∧
    (∀ j : CardIx, j < i → s.cards[j].live = true →
      t.cards[j] = { card n j with iso := some .closed } ∧ t.devSw j = 0x60#8 ∧ dev n j t) ∧
    (if k = 0 then t.cards[i] = s.cards[i] ∧ ∀ x, CardCell i x → x ≠ swCell i → Memory.read t.mem x = Memory.read s.mem x
      else t.cards[i] = { card (k - 1) i with iso := some (if closed then .closed else .opened) } ∧ dev (k - 1) i t) ∧
    (∀ j : CardIx, s.cards[j].live = false ∨ i < j →
      t.cards[j] = s.cards[j] ∧ ∀ x, CardCell j x → Memory.read t.mem x = Memory.read s.mem x) ∧
    (closed = true → t.devSw i = 0x60#8 ∧ NoneConnected t) ∧
    SameElsewhere s t ∧ Took (taken + if closing then 1 else 0) s t

/-- The byte whose bits are `f`'s. -/
def byteOfBits (f : ChanIx → Bool) : Byte :=
  BitVec.ofNat 8 (((List.finRange Config.pb.nChan).map fun c => if f c then 2 ^ c.val else 0).sum)

/-- R194 to R199, R212: the mask `b` when the bits of the first `n` channels are set as `f` says. -/
def maskUpTo (n : Nat) (f : ChanIx → Bool) (b : Byte) : Byte :=
  byteOfBits fun c => if c.val < n then f c else b.getLsbD c.val

/-- R194, R196, R197, R212: the levels `v` when those of the first `n` channels are set as `f` says. -/
def levelsUpTo (n : Nat) (f : ChanIx → Nat) (v : Vector (Option Nat) Config.pb.nChan) : Vector (Option Nat) Config.pb.nChan :=
  Vector.ofFn fun c => if c.val < n then some (f c) else v[c]

/-! ## The readings the answers to come amount to (R147 to R156) -/

/-- R151: the mean of six samples. -/
def meanOfSix (f : Nat → Rat) : Rat := (f 0 + f 1 + f 2 + f 3 + f 4 + f 5) / 6

/-- R152: the bus voltage read from the transactions `n`, `n + 1`, ...: each sample is a calibration write and a read. -/
def busReading (s : State) (n : Nat) : Rat :=
  max (meanOfSix fun k => (((s.answer (n + 2 * k + 1)).word.toInt / 8 : Int) : Rat) * s.params.busLsb) 0

/-- R153: the shunt voltage read from the transactions `n`, `n + 1`, ...: each sample is one read. -/
def shuntReading (s : State) (n : Nat) : Rat :=
  max (meanOfSix fun k => ((s.answer (n + k)).word.toInt : Rat) * s.params.shuntLsb) 0

/-- R154: the current read from the transactions `n`, `n + 1`, ..., with current divider `d`. -/
def currentReading (s : State) (d : Rat) (n : Nat) : Rat :=
  let m := max (meanOfSix fun k => ((s.answer (n + 2 * k + 1)).word.toInt : Rat) / d) 0
  if m < 1 / 10 then 0 else m

/-- R201: not converged. -/
abbrev FarFrom (target x : Rat) : Prop := ¬(|target - x| < 1 / 100)

/-- R201: the level one step toward the target. -/
def stepToward (target x : Rat) (level step : Int) : Int :=
  if target < x then max (level - step) 0 else level + step

end Sys2Proof.Machine
end

