-- ==== Sys2Proof/Certificates/Slice0/Obligations.lean ====
section
/-! DEFINITION. The statements for the provers. Each docstring names the rules it formalises. `exec i s = .next t` is the
operation run to its end; `cardNo i` and `chanNo c` range over the card addresses 1..18 and the channels 1..8. What
the events of a command's two boundaries carry (`commandBegins`, `commandEnds`) is the model's choice, log 35. -/

open Sys2Proof Sys2Proof.Machine

/-! ## Frames, decoding, stepping -/

/-- R70, R72, D2 (and the carriers of logs 8 and 9): decoding the bytes of a well-formed operation gives it back. -/
def Obligations.DecodeOfEncode : Prop :=
  ∀ i : Instr, i.WellFormed → decode (encode i) = .ok i

/-- R70, R72: frames written out field by field decode to the operations they stand for. Which field carries an internal
operation's operand (`POT_WRITE`'s pattern in `ival`; `write_word`'s address in `card`, register in `chan`, word in `ival`) is the
model's choice, log 8, and so is the layout of the fields in bytes (op, card, chan, ival, flag), log 9. -/
def Obligations.DecodeSampleFrames : Prop :=
  decodeTableWord 112 0x01_00000000_00000002_00000003_90 = some (.crateEnableChannel 3 2 1) ∧
  decodeTableWord 112 0x00_000002BC_00000005_00000001_93 = some (.crateSetLevel 1 5 700) ∧
  decodeTableWord 112 0x00_FFFFFFFF_00000009_00000013_93 = some (.crateSetLevel 19 9 (-1)) ∧
  decodeTableWord 112 0x01_00000000_00000001_00000007_10 = some (.isoSet 7 1 1 0) ∧
  decodeTableWord 112 0x00_00BCFFFF_00000005_00000001_34 = some (.potWrite 1 5 0x00BCFFFF#32) ∧
  decodeTableWord 112 0x00_00001000_00000005_00000040_04 = some (.writeWord 0x40 5 0x1000#16) ∧
  decodeTableWord 112 0x01_00000000_00000000_00000000_B1 = some (.loadConfig 1) ∧
  decodeTableWord 8 0x7F = none

/-- R74: a host frame whose opcode is no host opcode of R72 (reserved or internal) is refused with `InvalidArgument` and
touches nothing but the input taken and the response. -/
def Obligations.HostFrameNeedsHostOpcode : Prop :=
  ∀ (s : State) (f : Frame) (rest : List Input), s.inbox = .frame .host f :: rest →
    f.op.toNat ∉ [0x80, 0x81, 0x82, 0x90, 0x91, 0x92, 0x93, 0x94, 0x95, 0x96, 0x97, 0x98, 0xA0, 0xA1, 0xA2, 0xA3, 0xA4,
      0xA5, 0xB0, 0xB1] →
    step s = .next { s with inbox := rest, response := some (.failed .invalidArgument) }

/-- Log 1 (the model's interface): a step whose first input is a frame of an operation that its issuer may issue is that
operation, run in the state without that input. -/
def Obligations.StepRunsDecodedFrame : Prop :=
  ∀ (s : State) (who : Issuer) (f : Frame) (i : Instr) (rest : List Input),
    s.inbox = .frame who f :: rest → f.decode = .ok i → (who = .sequencer ∨ i.isHost = true) →
    step s = exec i { s with inbox := rest }

/-- R31, R33, R250, R251: what a step does with no input, with a plug event, and with a process restart, which clears the
volatile state and keeps the configuration, the device registers and what belongs to the environment. That inputs come so is the
model's interface, log 1. That a plug event changes `PRESENT` and nothing else, so that a card pulled or plugged again keeps its
device registers, is the model's reading, log 24: U14 leaves what a replugged card holds to the model, which must say so.
That the record `ISO[a]` is without a value after a restart, where R14 writes `Closed` for reset, is the model's reading, log 34. -/
def Obligations.StepOnOtherInputs : Prop :=
  ∀ (s : State) (rest : List Input),
    (s.inbox = [] → step s = .next s) ∧
    (∀ (i : CardIx) (p : Bool), s.inbox = .plug i p :: rest →
      ∃ t, step s = .next t ∧ t.present[i] = p ∧ (∀ j : CardIx, j ≠ i → t.present[j] = s.present[j]) ∧
        t.inbox = rest ∧ { t with present := s.present, inbox := s.inbox } = s) ∧
    (s.inbox = .restart :: rest →
      ∃ t, step s = .next t ∧ (∀ i : CardIx, t.cards[i] = Card.blank) ∧ t.hist = [] ∧ BetweenCommands t ∧
        t.response = none ∧ t.cfg = s.cfg ∧ t.mem = s.mem ∧ t.params = s.params ∧ t.present = s.present ∧
        t.inbox = rest ∧ t.tape = s.tape ∧ t.draws = s.draws)

/-- R33: after reset no command runs, no card is live, no cached field and no field of a command holds a value, and the history
is empty. That `ISO[a]` too holds none then, where R14 writes `Closed` for reset, is the model's reading, log 34. -/
def Obligations.ResetState : Prop :=
  (∀ i : CardIx, State.reset.cards[i].live = false ∧ State.reset.cards[i].iso = none ∧
    State.reset.cards[i].chen = none ∧ State.reset.cards[i].tsten = none ∧
    (∀ c : ChanIx, State.reset.cards[i].level[c] = none) ∧ State.reset.cards[i].curdiv = none ∧
    State.reset.cards[i].pwrmul = none) ∧
  BetweenCommands State.reset ∧ State.reset.hist = [] ∧
  Memory.wf State.reset.mem = true ∧ LevelsInRange State.reset ∧ LiveCardsComplete State.reset

/-! ## Invariants of every step -/

/-- Log 4: every step keeps the canonical form of the device-register memory. -/
def Obligations.StepKeepsMemoryCanonical : Prop :=
  ∀ s t : State, Memory.wf s.mem = true → step s = .next t → Memory.wf t.mem = true

/-- R17: every step keeps every cached level in 0..1023. -/
def Obligations.StepKeepsLevelsInRange : Prop :=
  ∀ s t : State, LevelsInRange s → step s = .next t → LevelsInRange t

/-- R13 to R18, R33: every step keeps it that a live card holds a value in every field. -/
def Obligations.StepKeepsLiveCardsComplete : Prop :=
  ∀ s t : State, LiveCardsComplete s → step s = .next t → LiveCardsComplete t

/-- R12, R24, R25, R33: after every step no command runs and `ACC`, `CNT`, `ITER` and `L` hold no value. -/
def Obligations.StepKeepsBetweenCommands : Prop :=
  ∀ s t : State, BetweenCommands s → step s = .next t → BetweenCommands t

/-- R9, R31, R22, R30, R13: no operation changes the parameters, which cards are plugged, or the inputs to come; only `SAVE_CONFIG`
writes the persisted configuration; every operation appends to the history and rewrites none of it; the live map is written by
`CARD_CONSTRUCT` and the commands that run it, and by `SHUTDOWN`, and by nothing else. -/
def Obligations.OperationsKeepWhatTheyMayNotWrite : Prop :=
  ∀ (i : Instr) (s t : State), exec i s = .next t →
    t.params = s.params ∧ t.present = s.present ∧ t.inbox = s.inbox ∧ ((∀ f, i ≠ .saveConfig f) → t.cfg = s.cfg) ∧
    s.hist <+: t.hist ∧
    ((∀ a, i ≠ .cardConstruct a) → i ≠ .crateConstruct → i ≠ .getAvailableCards → i ≠ .shutdown →
      ∀ j : CardIx, t.cards[j].live = s.cards[j].live)

/-- R54, R62 and the write of each operation's own rule: whatever the environment answers, an operation leaves every device
register as it was but those of the kinds its rule writes; `RAW_SHUNT`, the shunt-voltage reads, the read-backs and
`SAVE_CONFIG` write none but the switch of a bracket. -/
def Obligations.OperationsWriteOnlyTheirDevices : Prop :=
  ∀ (i : Instr) (s t : State) (k : Nat), s.params.Valid → exec i s = .next t →
    (∀ r ∈ i.writes, ¬r.Cell k) → Memory.read t.mem k = Memory.read s.mem k

/-- R20, R183, R255: a host command that starts with no sub-bus connected ends with none connected, unless a write of a
switch's control byte failed on the way (R115). -/
def Obligations.HostCommandLeavesNoneConnected : Prop :=
  ∀ (i : Instr) (s t : State) (es : List Event), i.isHost = true → s.params.Valid → Memory.wf s.mem = true →
    NoneConnected s → exec i s = .next t → t.hist = s.hist ++ es → (∀ e ∈ es, e.isFailedWriteByte = false ∨
      ∃ (k : CardIx) (b : Byte) (r : List Byte), s.present[k] = false ∧
        e = .bus (.writeByte (s.params.isoBase + cardNo k) b) false r) →
    NoneConnected t

/-- R165, R239, R228: from a state with no sub-bus connected and its live cards complete, a per-card host command always ends
with a response, whatever the environment answers: it meets neither contention nor a missing proof of open. -/
def Obligations.PerCardCommandAlwaysResponds : Prop :=
  ∀ (i : Instr) (s : State), i.cardNamed ≠ none → s.running = none → s.params.Valid → Memory.wf s.mem = true →
    NoneConnected s → LiveCardsComplete s →
    ∃ t r, exec i s = .next t ∧ t.response = some r

/-- R44, R183: whatever the environment answers, a per-card host command that starts with no sub-bus connected changes
neither the cached state nor a device register of any other card. -/
def Obligations.PerCardCommandTouchesOneCard : Prop :=
  ∀ (i : Instr) (k : CardIx) (s t : State), i.cardNamed = some (cardNo k) → s.params.Valid → Memory.wf s.mem = true →
    NoneConnected s → exec i s = .next t →
    ∀ j : CardIx, j ≠ k →
      t.cards[j] = s.cards[j] ∧ ∀ x, CardCell j x → Memory.read t.mem x = Memory.read s.mem x

/-! ## Argument checks and failures that touch nothing -/

/-- R181, R200, R222, R180: an out-of-domain operand of a host command ends it with `InvalidArgument`; a second crate is refused
with `InvalidArgument`. Nothing but the response changes. -/
def Obligations.RefusedHostCommandTouchesNothing : Prop :=
  ∀ s : State, s.running = none →
    (∀ i : Instr, i.BadHostArgs → exec i s = .next { s with response := some (.failed .invalidArgument) }) ∧
    (∀ k : CardIx, s.cards[k].live = true →
      exec .crateConstruct s = .next { s with response := some (.failed .invalidArgument) })

/-- R182: a per-card command or a seek, its operands in order, on a card that is not in the live map ends with `CardNotFound`,
plugged or not; nothing but the response changes. -/
def Obligations.CardNotFoundTouchesNothing : Prop :=
  ∀ (s : State) (i : Instr) (k : CardIx), s.running = none → i.cardNamed = some (cardNo k) → ¬i.BadHostArgs →
    s.cards[k].live = false → exec i s = .next { s with response := some (.failed .cardNotFound) }

/-- R73, R110, R123, R133, R163: an operand that an internal operation itself checks and that is out of its domain ends it with
`InvalidArgument` before any bus traffic; nothing but the response changes. -/
def Obligations.BadCardArgumentsTouchNothing : Prop :=
  ∀ (i : Instr) (s : State), i.BadCardArgs →
    exec i s = .next { s with response := some (.failed .invalidArgument) }

/-- R165, U8: an operation that needs the proof of open, its operands in order, is no transition of the model while the card is
not `Open`. -/
def Obligations.NoOperationWithoutProofOfOpen : Prop :=
  ∀ (i : Instr) (k : CardIx) (s : State), i.needsOpen = some (cardNo k) → i.WellFormed → ¬i.BadCardArgs →
    s.cards[k].iso ≠ some .opened → exec i s = .fault .notOpen

/-! ## Transport -/

/-- R100, R43, R239: a transaction that no device answers ends with `BusError`, and one failed event is all it leaves; one that
two or more devices would answer is `BusContention`. U5, U21, R52 and log 11 (the model's choice of `InvalidArgument` for the
spec's `refuse`): an access that the device reached does not take ends with `InvalidArgument` and does nothing. -/
def Obligations.TransactionNeedsDeviceThatTakesIt : Prop :=
  ∀ (s : State) (addr reg n : Nat) (b : Byte) (w : Half) (bs : List Byte),
    let all (out : Txn → Result) : Prop :=
      exec (.readByte addr) s = out (.readByte addr) ∧
      exec (.writeByte addr b) s = out (.writeByte addr b) ∧
      exec (.readWord addr reg) s = out (.readWord addr reg) ∧
      exec (.writeWord addr reg w) s = out (.writeWord addr reg w) ∧
      exec (.writeBlock addr reg bs) s = out (.writeBlock addr reg bs) ∧
      exec (.readBlock addr reg n) s = out (.readBlock addr reg n)
    (s.route addr = .noDevice → all fun txn =>
      .next { s with hist := s.hist ++ [.bus txn false []], response := some (.failed .busError) }) ∧
    (s.route addr = .contention → all fun _ => .fault .busContention) ∧
    (∀ d : Target, s.route addr = .device d →
      let refused (i : Instr) : Prop := exec i s = .next { s with response := some (.failed .invalidArgument) }
      ((∀ i, d ≠ .switch i) ∨ b &&& 0x1F#8 ≠ 0 → refused (.writeByte addr b)) ∧
      ((∀ i c, d ≠ .sense i c) ∨ reg ∉ s.params.snsRegs → refused (.readWord addr reg)) ∧
      ((∀ i c, d ≠ .sense i c) ∨ (reg ≠ s.params.snsRegCfg ∧ reg ≠ s.params.snsRegCal) → refused (.writeWord addr reg w)) ∧
      (bs = [] ∨ blockCells s.params d reg bs.length = none → refused (.writeBlock addr reg bs)) ∧
      (n = 0 ∨ blockCells s.params d reg n = none → refused (.readBlock addr reg n)))

/-- R42, R43, R114: a switch address leads to its card's switch exactly if the card is plugged. Any other address leads to no device
while no card is connected and to contention with two or more connected. With exactly one plugged card whose enable bit is 1,
each device of that card answers at its local address, and every other address that is no switch's leads to no device. A device of
a card is reached only if that card is plugged, its enable bit is 1, and it is the only such card. -/
def Obligations.AddressRouting : Prop :=
  ∀ (s : State) (addr : Int),
    (∀ i : CardIx, addr = s.params.isoBase + cardNo i →
      s.route addr = if s.present[i] then .device (.switch i) else .noDevice) ∧
    ((∀ i : CardIx, addr ≠ s.params.isoBase + cardNo i) →
      (s.connectedCards = [] → s.route addr = .noDevice) ∧
      (2 ≤ s.connectedCards.length → s.route addr = .contention)) ∧
    (∀ i : CardIx, s.params.Valid → s.present[i] = true → (s.devSw i).getLsbD 7 = true →
      (∀ j : CardIx, j ≠ i → s.present[j] = true → (s.devSw j).getLsbD 7 = false) →
      (addr = s.params.xpAddr → s.route addr = .device (.expander i)) ∧
      (∀ k : PotIx, addr = (s.params.potAddr[k] : Nat) → s.route addr = .device (.pot i k)) ∧
      (∀ c : ChanIx, addr = (s.params.snsAddr[c] : Nat) → s.route addr = .device (.sense i c)) ∧
      ((∀ j : CardIx, addr ≠ s.params.isoBase + cardNo j) → (∀ a ∈ s.params.subBusAddrs, addr ≠ (a : Int)) →
        s.route addr = .noDevice)) ∧
    (∀ (i : CardIx) (k : PotIx) (c : ChanIx),
      (s.route addr = .device (.expander i) ∨ s.route addr = .device (.pot i k) ∨ s.route addr = .device (.sense i c)) →
      s.present[i] = true ∧ (s.devSw i).getLsbD 7 = true ∧
        ∀ j : CardIx, s.present[j] = true → (s.devSw j).getLsbD 7 = true → j = i)

/-- R101, R103, R29, R62, U20: `read_byte` from a device that answers returns the drawn byte; `read_word` of one of a sense chip's four
result registers returns the drawn content. R56, R62: `read_word` of its configuration or calibration register returns the word
the register holds (R29: PB defines no read of these two, log 12). The content arrives high byte first, and the
result has the first byte received in its low byte. A read that fails ends with `BusError` and returns nothing. Nothing but the
history, the answer taken and the response changes. -/
def Obligations.ReadByteAndReadWordReturnDraws : Prop :=
  ∀ (s : State) (addr : Nat),
    let lo := (s.answer 0).word.extractLsb' 0 8
    let reads (reg : Nat) (w : Half) : Prop := exec (.readWord addr reg) s = .next { s.took 1 with
      hist := s.hist ++ [.bus (.readWord addr reg) true [w.extractLsb' 8 8, w.extractLsb' 0 8]],
      response := some (.ok (.word (w.extractLsb' 0 8 ++ w.extractLsb' 8 8))) }
    (Instr.readByte addr).opcode = 0x01#8 ∧ (∀ reg, (Instr.readWord addr reg).opcode = 0x03#8) ∧
    (∀ d : Target, s.route addr = .device d →
      ((s.answer 0).ok = true → exec (.readByte addr) s = .next { s.took 1 with
        hist := s.hist ++ [.bus (.readByte addr) true [lo]], response := some (.ok (.byte lo)) }) ∧
      ((s.answer 0).ok = false → exec (.readByte addr) s = .next { s.took 1 with
        hist := s.hist ++ [.bus (.readByte addr) false []], response := some (.failed .busError) })) ∧
    (∀ (i : CardIx) (c : ChanIx), s.route addr = .device (.sense i c) →
      ((s.answer 0).ok = true →
        (∀ reg ∈ s.params.snsRegs, reg ≠ s.params.snsRegCfg → reg ≠ s.params.snsRegCal → reads reg (s.answer 0).word) ∧
        (s.params.Valid → reads s.params.snsRegCfg (s.devSnsCfg i c) ∧ reads s.params.snsRegCal (s.devSnsCal i c))) ∧
      ((s.answer 0).ok = false → ∀ reg ∈ s.params.snsRegs, exec (.readWord addr reg) s = .next { s.took 1 with
        hist := s.hist ++ [.bus (.readWord addr reg) false []], response := some (.failed .busError) }))

/-- R102: `write_byte` (opcode 0x02) to a plugged card's switch, of a byte whose bits 4..0 are 0 (U5): the control register takes the byte, and a card is then connected by exactly
its bit 7; after a failure the register holds the old or the new byte. No other device register and nothing of the block but the
history changes. -/
def Obligations.WriteByteSetsSwitch : Prop :=
  ∀ (s : State) (addr : Nat) (i : CardIx) (b : Byte), Memory.wf s.mem = true → (addr : Int) = s.params.isoBase + cardNo i →
    s.present[i] = true → b &&& 0x1F#8 = 0 →
    let same (ok : Bool) (t : State) : Prop :=
      SameCellsBut [swCell i] s t ∧ t.cards = s.cards ∧ t.hist = s.hist ++ [.bus (.writeByte addr b) ok []] ∧
      SameElsewhere s t ∧ Took 1 s t
    (Instr.writeByte addr b).opcode = 0x02#8 ∧
    ((s.answer 0).ok = true → ∃ t, exec (.writeByte addr b) s = .next t ∧ t.response = some (.ok .nothing) ∧
      t.devSw i = b ∧ t.connected i = b.getLsbD 7 ∧ same true t) ∧
    ((s.answer 0).ok = false → ∃ t, exec (.writeByte addr b) s = .next t ∧ t.response = some (.failed .busError) ∧
      (t.devSw i = s.devSw i ∨ t.devSw i = b) ∧ same false t)

/-- R104: `write_word` to a sense chip's calibration or configuration register: it takes the word with its bytes swapped; after a
failure it holds the old or the new word. No other device register changes. -/
def Obligations.WriteWordSetsSenseRegister : Prop :=
  ∀ (s : State) (addr : Nat) (i : CardIx) (c : ChanIx) (w : Half) (cal : Bool), Memory.wf s.mem = true →
    s.params.Valid → s.route addr = .device (.sense i c) →
    let reg := if cal then s.params.snsRegCal else s.params.snsRegCfg
    let cell := if cal then snsCalCell i c else snsCfgCell i c
    let content (t : State) : Half := if cal then t.devSnsCal i c else t.devSnsCfg i c
    let same (ok : Bool) (t : State) : Prop :=
      SameCellsBut [cell, cell + 1] s t ∧ t.cards = s.cards ∧ t.hist = s.hist ++ [.bus (.writeWord addr reg w) ok []] ∧
      SameElsewhere s t ∧ Took 1 s t
    (Instr.writeWord addr reg w).opcode = 0x04#8 ∧
    ((s.answer 0).ok = true → ∃ t, exec (.writeWord addr reg w) s = .next t ∧ t.response = some (.ok .nothing) ∧
      content t = w.extractLsb' 0 8 ++ w.extractLsb' 8 8 ∧ same true t) ∧
    ((s.answer 0).ok = false → ∃ t, exec (.writeWord addr reg w) s = .next t ∧ t.response = some (.failed .busError) ∧
      (content t = content s ∨ content t = w.extractLsb' 0 8 ++ w.extractLsb' 8 8) ∧ same false t)

/-- R105: `write_block` to registers that the device reached has sets each of them in one transaction; after a failure the registers
that took their new bytes are a leading run of the block, the rest hold the old ones. Nothing else of the devices or the cache
changes. That a block of another length than R27 and R52 name (2 bytes to the expander, 4 to a potentiometer) runs is the model's
choice, log 32. -/
def Obligations.WriteBlockSetsRegisters : Prop :=
  ∀ (s : State) (addr reg : Nat) (d : Target) (bs : List Byte) (ks : List Nat), Memory.wf s.mem = true → s.params.Valid →
    s.route addr = .device d → bs ≠ [] → blockCells s.params d reg bs.length = some ks →
    let same (ok : Bool) (t : State) : Prop :=
      SameCellsBut ks s t ∧ t.cards = s.cards ∧ t.hist = s.hist ++ [.bus (.writeBlock addr reg bs) ok []] ∧
      SameElsewhere s t ∧ Took 1 s t
    (Instr.writeBlock addr reg bs).opcode = 0x05#8 ∧
    ((s.answer 0).ok = true → ∃ t, exec (.writeBlock addr reg bs) s = .next t ∧ t.response = some (.ok .nothing) ∧
      ks.map (Memory.read t.mem) = bs ∧ same true t) ∧
    ((s.answer 0).ok = false → ∃ t m, exec (.writeBlock addr reg bs) s = .next t ∧ t.response = some (.failed .busError) ∧
      m ≤ bs.length ∧ ks.map (Memory.read t.mem) = bs.take m ++ (ks.drop m).map (Memory.read s.mem) ∧ same false t)

/-- R106: `read_block` of registers that the device reached has returns the bytes they hold, in ascending order; one that fails ends
with `BusError` and returns nothing. Nothing but the history, the answer taken and the response changes. That a block of another
length than R27 and R52 name (2 bytes of the expander, 4 of a potentiometer) runs is the model's choice, log 32. -/
def Obligations.ReadBlockReturnsHeldBytes : Prop :=
  ∀ (s : State) (addr reg n : Nat) (d : Target) (ks : List Nat), s.route addr = .device d → 1 ≤ n →
    blockCells s.params d reg n = some ks →
    let bs := ks.map (Memory.read s.mem)
    (Instr.readBlock addr reg n).opcode = 0x06#8 ∧
    ((s.answer 0).ok = true → exec (.readBlock addr reg n) s = .next { s.took 1 with
      hist := s.hist ++ [.bus (.readBlock addr reg n) true bs], response := some (.ok (.bytes bs)) }) ∧
    ((s.answer 0).ok = false → exec (.readBlock addr reg n) s = .next { s.took 1 with
      hist := s.hist ++ [.bus (.readBlock addr reg n) false []], response := some (.failed .busError) })

/-! ## Isolation -/

/-- R110, R75: `ISO_SET` writes one control byte, bit 7 `enable`, bit 6 not `aux2`, bit 5 not `aux1`, the rest 0; it does not write
`ISO[a]`. -/
def Obligations.IsoSetWritesControlByte : Prop :=
  ∀ (s : State) (i : CardIx) (en aux1 aux2 : Bool), Memory.wf s.mem = true → s.present[i] = true → NoBusError 1 s →
    ∃ t b, exec (.isoSet (cardNo i) (byteOfBool en) (if aux1 then 1 else 0) (if aux2 then 1 else 0)) s = .next t ∧
      t.response = some (.ok .nothing) ∧ t.devSw i = b ∧
      (∀ j : Fin 8, b.getLsbD j.val = if j.val = 7 then en else if j.val = 6 then !aux2 else if j.val = 5 then !aux1 else false) ∧
      SameCellsBut [swCell i] s t ∧ t.cards = s.cards ∧
      t.hist = s.hist ++ [switchEvent s.params i b] ∧ SameElsewhere s t ∧ Took 1 s t

/-- R111, R112, R160, R115: `OPEN` writes 0xC0 (0xA0 with `ACTIVITY_AUX = 2`) and records `Open`; `CLOSE` writes 0x60 and records
`Closed`, whatever the switch and the record held before. When the write fails, the record is unchanged and the control register
holds the old or the new byte. That the record takes a value on a card that is not live, where 10_state.md section 2 has it hold
none, is the model's choice, log 31. -/
def Obligations.OpenAndCloseWriteAndRecord : Prop :=
  ∀ (s : State) (i : CardIx), Memory.wf s.mem = true → s.present[i] = true →
    let post (v : Iso) (b : Byte) (t : State) : Prop :=
      t.response = some (.ok .nothing) ∧ t.devSw i = b ∧ t.connected i = b.getLsbD 7 ∧
      t.cards[i] = { s.cards[i] with iso := some v } ∧ SameCellsBut [swCell i] s t ∧ SameCardsBut i s t ∧
      t.hist = s.hist ++ [switchEvent s.params i b] ∧ SameElsewhere s t ∧ Took 1 s t
    let failed (b : Byte) (t : State) : Prop :=
      t.response = some (.failed .busError) ∧ t.cards = s.cards ∧ (t.devSw i = s.devSw i ∨ t.devSw i = b) ∧
      SameCellsBut [swCell i] s t ∧ SameElsewhere s t ∧ Took 1 s t
    ((s.answer 0).ok = true →
      (∃ t, exec (.openCard (cardNo i)) s = .next t ∧ post .opened (openByte s.params) t) ∧
      (∃ t, exec (.closeCard (cardNo i)) s = .next t ∧ post .closed 0x60#8 t)) ∧
    ((s.answer 0).ok = false →
      (∃ t, exec (.openCard (cardNo i)) s = .next t ∧ failed (openByte s.params) t) ∧
      (∃ t, exec (.closeCard (cardNo i)) s = .next t ∧ failed 0x60#8 t))

/-! ## Expander -/

/-- R121, R77, R19, R63: `XP_WRITE` writes the complements of both masks in one block and then caches the masks; when the block write
fails, both cached masks keep their values and each device byte is the old or the new one, the second new only if the first is. On an open card that is
not live this is the model's choice, log 31. -/
def Obligations.XpWriteWritesBothMasks : Prop :=
  ∀ (s : State) (i : CardIx) (m l : Byte), Ready s i →
    ((s.answer 0).ok = true →
      ∃ t, exec (.xpWrite (cardNo i) m l) s = .next t ∧ t.response = some (.ok .nothing) ∧
        t.devXp i 0 = ~~~m ∧ t.devXp i 1 = ~~~l ∧ t.cards[i] = { s.cards[i] with chen := some m, tsten := some l } ∧
        SameCellsBut [xpCell i 0, xpCell i 1] s t ∧ SameCardsBut i s t ∧
        t.hist = s.hist ++ [.bus (.writeBlock s.params.xpAddr s.params.xpReg [~~~m, ~~~l]) true []] ∧
        SameElsewhere s t ∧ Took 1 s t) ∧
    ((s.answer 0).ok = false →
      ∃ t, exec (.xpWrite (cardNo i) m l) s = .next t ∧ t.response = some (.failed .busError) ∧ t.cards = s.cards ∧
        ((t.devXp i 0 = s.devXp i 0 ∧ t.devXp i 1 = s.devXp i 1) ∨ (t.devXp i 0 = ~~~m ∧ t.devXp i 1 = s.devXp i 1) ∨
          (t.devXp i 0 = ~~~m ∧ t.devXp i 1 = ~~~l)) ∧
        SameCellsBut [xpCell i 0, xpCell i 1] s t ∧ SameElsewhere s t ∧ Took 1 s t)

/-- R122: `XP_READ` caches the complements of the device's bytes and changes no device register; when its read fails, the cache is
unchanged. On an open card that is
not live this is the model's choice, log 31. -/
def Obligations.XpReadAdoptsDeviceMasks : Prop :=
  ∀ (s : State) (i : CardIx), Ready s i →
    let event (ok : Bool) (bs : List Byte) : Event := .bus (.readBlock s.params.xpAddr s.params.xpReg 2) ok bs
    ((s.answer 0).ok = true → ∃ t, exec (.xpRead (cardNo i)) s = .next t ∧ t.response = some (.ok .nothing) ∧
      t.cards[i] = { s.cards[i] with chen := some (~~~(s.devXp i 0)), tsten := some (~~~(s.devXp i 1)) } ∧
      t.mem = s.mem ∧ SameCardsBut i s t ∧ t.hist = s.hist ++ [event true [s.devXp i 0, s.devXp i 1]] ∧
      SameElsewhere s t ∧ Took 1 s t) ∧
    ((s.answer 0).ok = false → exec (.xpRead (cardNo i)) s = .next { s.took 1 with
      hist := s.hist ++ [event false []], response := some (.failed .busError) })

/-- R123, R124, R126: `ENABLE_CHANNEL` and `ENABLE_TEST_LOAD` set one bit of their mask, leave its other bits and the whole other mask
as they were, and write both masks. R19, R63: when the block write fails, both cached masks keep their values and each device byte
is the old or the new one, the second new only if the first is. On an open card that is not live this is the model's choice,
log 31. -/
def Obligations.EnableSetsOneMaskBit : Prop :=
  ∀ (s : State) (i : CardIx) (c : ChanIx) (on : Bool) (m l : Byte), Ready s i →
    s.cards[i].chen = some m → s.cards[i].tsten = some l →
    let bit (b b' : Byte) : Prop := ∀ d : ChanIx, b'.getLsbD d.val = if d = c then on else b.getLsbD d.val
    let same (ok : Bool) (m' l' : Byte) (t : State) : Prop :=
      SameCellsBut [xpCell i 0, xpCell i 1] s t ∧
      t.hist = s.hist ++ [.bus (.writeBlock s.params.xpAddr s.params.xpReg [~~~m', ~~~l']) ok []] ∧
      SameElsewhere s t ∧ Took 1 s t
    let post (m' l' : Byte) (t : State) : Prop :=
      t.response = some (.ok .nothing) ∧ t.cards[i] = { s.cards[i] with chen := some m', tsten := some l' } ∧
      SameCardsBut i s t ∧ t.devXp i 0 = ~~~m' ∧ t.devXp i 1 = ~~~l' ∧ same true m' l' t
    let failed (m' l' : Byte) (t : State) : Prop :=
      t.response = some (.failed .busError) ∧ t.cards = s.cards ∧
      ((t.devXp i 0 = s.devXp i 0 ∧ t.devXp i 1 = s.devXp i 1) ∨ (t.devXp i 0 = ~~~m' ∧ t.devXp i 1 = s.devXp i 1) ∨
        (t.devXp i 0 = ~~~m' ∧ t.devXp i 1 = ~~~l')) ∧ same false m' l' t
    ((s.answer 0).ok = true →
      (∃ t m', exec (.enableChannel (cardNo i) (chanNo c) (byteOfBool on)) s = .next t ∧ bit m m' ∧ post m' l t) ∧
      (∃ t l', exec (.enableTestLoad (cardNo i) (chanNo c) (byteOfBool on)) s = .next t ∧ bit l l' ∧ post m l' t)) ∧
    ((s.answer 0).ok = false →
      (∃ t m', exec (.enableChannel (cardNo i) (chanNo c) (byteOfBool on)) s = .next t ∧ bit m m' ∧ failed m' l t) ∧
      (∃ t l', exec (.enableTestLoad (cardNo i) (chanNo c) (byteOfBool on)) s = .next t ∧ bit l l' ∧ failed m l' t))

/-- R125: `IS_CHANNEL_ENABLED` answers the cached bit; nothing else changes, no card need be open. -/
def Obligations.IsChannelEnabledAnswersCachedBit : Prop :=
  ∀ (s : State) (i : CardIx) (c : ChanIx) (m : Byte), s.cards[i].chen = some m →
    exec (.isChannelEnabled (cardNo i) (chanNo c)) s = .next { s with response := some (.ok (.bool (m.getLsbD c.val))) }

/-! ## Potentiometer -/

/-- R132, R130: `POT_WRITE` writes the pattern's four bytes, low byte first, to the chip and sub-registers of its channel, and
nothing else. R63: after a failure the sub-registers that took their new bytes are a leading run, the rest hold the old ones. -/
def Obligations.PotWriteWritesFourBytes : Prop :=
  ∀ (s : State) (i : CardIx) (c : ChanIx) (p : Word), Ready s i →
    let byte (j : Nat) : Byte := p.extractLsb' (8 * j) 8
    let same (ok : Bool) (t : State) : Prop :=
      SameCellsBut [potCell i (potChip c) (potSub c) 0, potCell i (potChip c) (potSub c) 1,
        potCell i (potChip c) (potSub c) 2, potCell i (potChip c) (potSub c) 3] s t ∧ t.cards = s.cards ∧
      t.hist = s.hist ++ [.bus (.writeBlock (s.params.potAddr[potChip c] : Nat) s.params.potReg[potSub c]
        [byte 0, byte 1, byte 2, byte 3]) ok []] ∧ SameElsewhere s t ∧ Took 1 s t
    ((s.answer 0).ok = true →
      ∃ t, exec (.potWrite (cardNo i) (chanNo c) p) s = .next t ∧ t.response = some (.ok .nothing) ∧
        (∀ j : Fin 4, t.devPot i c j.val = byte j.val) ∧ same true t) ∧
    ((s.answer 0).ok = false →
      ∃ t, exec (.potWrite (cardNo i) (chanNo c) p) s = .next t ∧ t.response = some (.failed .busError) ∧
        (∃ n ≤ 4, ∀ j : Fin 4, t.devPot i c j.val = if j.val < n then byte j.val else s.devPot i c j.val) ∧ same false t)

/-- R133, R134, R135, R78: `SET_LEVEL(v)` writes `v div 256` bytes 0xFF, then `v mod 256`, then zeros, and caches `v`; `SET_LEVEL_MIN`
writes four bytes 0x00 and caches 0, `SET_LEVEL_MAX` four bytes 0xFF and caches 1023. R19, R63: when the write fails, no cached level
changes, and the sub-registers that took their new bytes are a leading run. On an open card that is not live this is the model's
choice, log 31. -/
def Obligations.SetLevelWritesPattern : Prop :=
  ∀ (s : State) (i : CardIx) (c : ChanIx) (v : Nat), v ≤ 1023 → Ready s i →
    let same (ok : Bool) (byte : Nat → Byte) (t : State) : Prop :=
      SameCellsBut [potCell i (potChip c) (potSub c) 0, potCell i (potChip c) (potSub c) 1,
        potCell i (potChip c) (potSub c) 2, potCell i (potChip c) (potSub c) 3] s t ∧ SameCardsBut i s t ∧
      t.hist = s.hist ++ [.bus (.writeBlock (s.params.potAddr[potChip c] : Nat) s.params.potReg[potSub c]
        [byte 0, byte 1, byte 2, byte 3]) ok []] ∧ SameElsewhere s t ∧ Took 1 s t
    let runs (x : Instr) (u : Nat) (byte : Nat → Byte) : Prop :=
      ((s.answer 0).ok = true → ∃ t, exec x s = .next t ∧ t.response = some (.ok .nothing) ∧
        (∀ j : Fin 4, t.devPot i c j.val = byte j.val) ∧
        t.cards[i] = { s.cards[i] with level := s.cards[i].level.set c (some u) } ∧ same true byte t) ∧
      ((s.answer 0).ok = false → ∃ t, exec x s = .next t ∧ t.response = some (.failed .busError) ∧
        (∃ n ≤ 4, ∀ j : Fin 4, t.devPot i c j.val = if j.val < n then byte j.val else s.devPot i c j.val) ∧
        t.cards[i] = s.cards[i] ∧ same false byte t)
    runs (.setLevel (cardNo i) (chanNo c) v) v (fun j =>
      if j < v / 256 then 0xFF#8 else if j = v / 256 then BitVec.ofNat 8 (v % 256) else 0x00#8) ∧
    runs (.setLevelMin (cardNo i) (chanNo c)) 0 (fun _ => 0x00#8) ∧
    runs (.setLevelMax (cardNo i) (chanNo c)) 1023 (fun _ => 0xFF#8)

/-- R136, R80: `READ_LEVEL` returns and caches the sum of the four bytes the device holds, whatever they are; when its read fails,
the cache is unchanged. On an open card that is not live this is the model's choice, log 31. -/
def Obligations.ReadLevelSumsBytes : Prop :=
  ∀ (s : State) (i : CardIx) (c : ChanIx), Ready s i →
    let v := (s.devPot i c 0).toNat + (s.devPot i c 1).toNat + (s.devPot i c 2).toNat + (s.devPot i c 3).toNat
    let event (ok : Bool) (bs : List Byte) : Event :=
      .bus (.readBlock (s.params.potAddr[potChip c] : Nat) s.params.potReg[potSub c] 4) ok bs
    ((s.answer 0).ok = true →
      ∃ t, exec (.readLevel (cardNo i) (chanNo c)) s = .next t ∧ t.response = some (.ok (.int v)) ∧
        t.cards[i] = { s.cards[i] with level := s.cards[i].level.set c (some v) } ∧
        t.mem = s.mem ∧ SameCardsBut i s t ∧
        t.hist = s.hist ++ [event true [s.devPot i c 0, s.devPot i c 1, s.devPot i c 2, s.devPot i c 3]] ∧
        SameElsewhere s t ∧ Took 1 s t) ∧
    ((s.answer 0).ok = false → exec (.readLevel (cardNo i) (chanNo c)) s = .next { s.took 1 with
      hist := s.hist ++ [event false []], response := some (.failed .busError) })

/-- R137: `READ_LEVEL` right after `SET_LEVEL(v)` returns and caches `v - v div 256`. -/
def Obligations.LevelRoundTripCorrected : Prop :=
  ∀ (s : State) (i : CardIx) (c : ChanIx) (v : Nat), v ≤ 1023 → Ready s i → NoBusError 2 s →
    ∃ t u, exec (.setLevel (cardNo i) (chanNo c) v) s = .next t ∧ t.cards[i].level[c] = some v ∧
      exec (.readLevel (cardNo i) (chanNo c)) t = .next u ∧ u.response = some (.ok (.int (v - v / 256 : Nat))) ∧
      u.cards[i].level[c] = some (v - v / 256)

/-- R79, R138: two different levels have the same four bytes exactly at the three boundaries, and a higher level never has a
smaller byte sum. -/
def Obligations.LevelPatternsCollideOnlyAtBoundaries : Prop :=
  ∀ v w : Nat, v < w → w ≤ 1023 →
    (patternBytes (potPattern v) = patternBytes (potPattern w) ↔
      (v = 255 ∧ w = 256) ∨ (v = 511 ∧ w = 512) ∨ (v = 767 ∧ w = 768)) ∧
    byteSum (patternBytes (potPattern v)) ≤ byteSum (patternBytes (potPattern w)) ∧
    (byteSum (patternBytes (potPattern v)) = byteSum (patternBytes (potPattern w)) ↔
      (v = 255 ∧ w = 256) ∨ (v = 511 ∧ w = 512) ∨ (v = 767 ∧ w = 768))

/-! ## Sense -/

/-- R140, R104: `SENSE_INIT` writes the calibration word and then the configuration word, each with its bytes swapped on the bus.
The first write that fails ends it with `BusError`: its register holds the old or the new word, and the second is not attempted
after the first fails. -/
def Obligations.SenseInitWritesBothWords : Prop :=
  ∀ (s : State) (i : CardIx) (c : ChanIx), Ready s i →
    let cal (ok : Bool) : Event :=
      .bus (.writeWord (s.params.snsAddr[c] : Nat) s.params.snsRegCal (bswap16 s.params.calWord)) ok []
    let cfg (ok : Bool) : Event :=
      .bus (.writeWord (s.params.snsAddr[c] : Nat) s.params.snsRegCfg (bswap16 s.params.cfgWord)) ok []
    let post (r : Response) (n : Nat) (cells : List Nat) (es : List Event) (t : State) : Prop :=
      t.response = some r ∧ t.cards = s.cards ∧ SameCellsBut cells s t ∧ t.hist = s.hist ++ es ∧ SameElsewhere s t ∧ Took n s t
    (NoBusError 2 s → ∃ t, exec (.senseInit (cardNo i) (chanNo c)) s = .next t ∧
      t.devSnsCal i c = s.params.calWord ∧ t.devSnsCfg i c = s.params.cfgWord ∧
      post (.ok .nothing) 2 [snsCalCell i c, snsCalCell i c + 1, snsCfgCell i c, snsCfgCell i c + 1] [cal true, cfg true] t) ∧
    (FirstBusError 0 s → ∃ t, exec (.senseInit (cardNo i) (chanNo c)) s = .next t ∧
      (t.devSnsCal i c = s.devSnsCal i c ∨ t.devSnsCal i c = s.params.calWord) ∧
      post (.failed .busError) 1 [snsCalCell i c, snsCalCell i c + 1] [cal false] t) ∧
    (FirstBusError 1 s → ∃ t, exec (.senseInit (cardNo i) (chanNo c)) s = .next t ∧
      t.devSnsCal i c = s.params.calWord ∧ (t.devSnsCfg i c = s.devSnsCfg i c ∨ t.devSnsCfg i c = s.params.cfgWord) ∧
      post (.failed .busError) 2 [snsCalCell i c, snsCalCell i c + 1, snsCfgCell i c, snsCfgCell i c + 1]
        [cal true, cfg false] t)

/-- R141 to R145, R81, R82: `RAW_SHUNT` is one read, with no calibration rewrite, of the signed content of the shunt register; the other raw
reads first rewrite the calibration word, then read the signed content of their register; the bus-voltage read drops the three
low bits by an arithmetic shift. R146: the first transaction that fails ends the read with `BusError` at once; no value is returned
and nothing is cached. -/
def Obligations.RawReadsReturnSignedRegister : Prop :=
  ∀ (s : State) (i : CardIx) (c : ChanIx), Ready s i →
    let readEvent (r : Half) (reg : Nat) : Event :=
      .bus (.readWord (s.params.snsAddr[c] : Nat) reg) true [r.extractLsb' 8 8, r.extractLsb' 0 8]
    let readFails (reg : Nat) : Event := .bus (.readWord (s.params.snsAddr[c] : Nat) reg) false []
    let cal (ok : Bool) : Event :=
      .bus (.writeWord (s.params.snsAddr[c] : Nat) s.params.snsRegCal (bswap16 s.params.calWord)) ok []
    let post (r : Response) (n : Nat) (es : List Event) (t : State) : Prop :=
      t.response = some r ∧ t.cards = s.cards ∧ SameCellsBut [snsCalCell i c, snsCalCell i c + 1] s t ∧
      t.hist = s.hist ++ es ∧ SameElsewhere s t ∧ Took n s t
    let reads (x : Instr) (reg : Nat) (n : Int) : Prop :=
      (NoBusError 2 s → ∃ t, exec x s = .next t ∧ t.devSnsCal i c = s.params.calWord ∧
        post (.ok (.int n)) 2 [cal true, readEvent (s.answer 1).word reg] t) ∧
      (FirstBusError 0 s → ∃ t, exec x s = .next t ∧
        (t.devSnsCal i c = s.devSnsCal i c ∨ t.devSnsCal i c = s.params.calWord) ∧
        post (.failed .busError) 1 [cal false] t) ∧
      (FirstBusError 1 s → ∃ t, exec x s = .next t ∧ t.devSnsCal i c = s.params.calWord ∧
        post (.failed .busError) 2 [cal true, readFails reg] t)
    (NoBusError 1 s → exec (.rawShunt (cardNo i) (chanNo c)) s = .next { s.took 1 with
      hist := s.hist ++ [readEvent (s.answer 0).word s.params.snsRegShunt],
      response := some (.ok (.int (s.answer 0).word.toInt)) }) ∧
    (FirstBusError 0 s → exec (.rawShunt (cardNo i) (chanNo c)) s = .next { s.took 1 with
      hist := s.hist ++ [readFails s.params.snsRegShunt], response := some (.failed .busError) }) ∧
    reads (.rawBus (cardNo i) (chanNo c)) s.params.snsRegBus ((s.answer 1).word.toInt / 8) ∧
    reads (.rawCurrent (cardNo i) (chanNo c)) s.params.snsRegCurrent (s.answer 1).word.toInt ∧
    reads (.rawPower (cardNo i) (chanNo c)) s.params.snsRegPower (s.answer 1).word.toInt

/-- R151 to R156, R158: `GET_BUS_VOLTAGE` and `GET_CURRENT` return the mean of six scaled samples, clamped at 0 (the current also below
0.1), after 12 transactions and 5 delays, and write only the calibration register; `GET_SHUNT_VOLTAGE` the same after 6
transactions and 5 delays, writing no device register. The first transaction that fails ends the read with `BusError`: no partial
average is returned and `ACC` is dropped. Nothing is cached. -/
def Obligations.PublicReadsAverageSix : Prop :=
  ∀ (s : State) (i : CardIx) (c : ChanIx) (d : Rat), Ready s i → s.cards[i].curdiv = some d →
    let post (r : Response) (n delays : Nat) (t : State) : Prop :=
      t.response = some r ∧ t.cards = s.cards ∧
      t.params = s.params ∧ t.running = s.running ∧ t.cfg = s.cfg ∧ t.iter = s.iter ∧ t.seekLevel = s.seekLevel ∧
      t.present = s.present ∧ t.inbox = s.inbox ∧ t.acc = none ∧ t.cnt = none ∧
      (∃ es, t.hist = s.hist ++ es ∧ es.countP Event.isBus = n ∧ es.countP Event.isSampleDelay = delays ∧
        es.length = n + delays) ∧ Took n s t
    let cal (t : State) : Prop := SameCellsBut [snsCalCell i c, snsCalCell i c + 1] s t
    (NoBusError 12 s →
      (∃ t, exec (.getBusVoltage (cardNo i) (chanNo c)) s = .next t ∧ post (.ok (.real (busReading s 0))) 12 5 t ∧ cal t) ∧
      (∃ t, exec (.getCurrent (cardNo i) (chanNo c)) s = .next t ∧ post (.ok (.real (currentReading s d 0))) 12 5 t ∧ cal t)) ∧
    (NoBusError 6 s → ∃ t, exec (.getShuntVoltage (cardNo i) (chanNo c)) s = .next t ∧
      post (.ok (.real (shuntReading s 0))) 6 5 t ∧ t.mem = s.mem) ∧
    (∀ k < 12, FirstBusError k s →
      (∃ t, exec (.getBusVoltage (cardNo i) (chanNo c)) s = .next t ∧ post (.failed .busError) (k + 1) (k / 2) t ∧ cal t) ∧
      (∃ t, exec (.getCurrent (cardNo i) (chanNo c)) s = .next t ∧ post (.failed .busError) (k + 1) (k / 2) t ∧ cal t)) ∧
    (∀ k < 6, FirstBusError k s → ∃ t, exec (.getShuntVoltage (cardNo i) (chanNo c)) s = .next t ∧
      post (.failed .busError) (k + 1) k t ∧ t.mem = s.mem)

/-! ## Card and crate -/

/-- R161: a successful `CARD_CONSTRUCT` is 27 transactions: the cache holds what the devices hold, every sense chip holds both its
words, the card is live and closed. R161 gives the operation for a card that is not live; that it does the same run alone on a
live card is the model's choice, log 17. -/
def Obligations.CardConstructPresent : Prop :=
  ∀ (s : State) (i : CardIx), Memory.wf s.mem = true → s.params.Valid → NoneConnected s → s.present[i] = true →
    NoBusError 27 s →
    ∃ t, exec (.cardConstruct (cardNo i)) s = .next t ∧ t.response = some (.ok (.bool true)) ∧
      t.cards[i].live = true ∧ t.cards[i].iso = some .closed ∧ t.cards[i].chen = some (~~~(s.devXp i 0)) ∧
      t.cards[i].tsten = some (~~~(s.devXp i 1)) ∧
      (∀ c : ChanIx, t.cards[i].level[c] = some ((s.devPot i c 0).toNat + (s.devPot i c 1).toNat +
        (s.devPot i c 2).toNat + (s.devPot i c 3).toNat)) ∧
      t.cards[i].curdiv = some s.params.curdiv ∧ t.cards[i].pwrmul = some s.params.pwrmul ∧
      (∀ c : ChanIx, t.devSnsCal i c = s.params.calWord ∧ t.devSnsCfg i c = s.params.cfgWord) ∧
      t.devSw i = 0x60#8 ∧ NoneConnected t ∧ SameCardsBut i s t ∧
      (∀ k, ¬CardCell i k → Memory.read t.mem k = Memory.read s.mem k) ∧
      t.devXp i 0 = s.devXp i 0 ∧ t.devXp i 1 = s.devXp i 1 ∧
      (∀ c : ChanIx, ∀ j : Fin 4, t.devPot i c j.val = s.devPot i c j.val) ∧
      (∃ es, t.hist = s.hist ++ es ∧ es.countP Event.isBus = 27 ∧ es.length = 27) ∧ SameElsewhere s t ∧ Took 27 s t

/-- R161, R162, R34: with no card plugged at the address, `CARD_CONSTRUCT` makes one failed write and answers `absent`. On a plugged
card the first transaction to fail, the `k`-th of the 27, ends the construction: past its `OPEN` the card's control byte is then
written with `CLOSE`'s, unless it is that write which failed (`ABSENT1`, its own failure ignored), no later transaction is made, and
the answer is `absent` too. Either way the address holds no value and is not live, and no failure is raised. The masks and
potentiometers of the card, and every other card's devices, keep what they hold. R161 gives the operation for a card that is not
live; that run alone on a live card it takes the card out of the live map is the model's choice, log 17. -/
def Obligations.CardConstructAbsent : Prop :=
  ∀ (s : State) (i : CardIx),
    let post (t : State) : Prop :=
      t.response = some (.ok (.bool false)) ∧ t.cards[i] = Card.blank ∧ SameCardsBut i s t ∧ SameElsewhere s t
    (s.present[i] = false →
      ∃ t, exec (.cardConstruct (cardNo i)) s = .next t ∧ post t ∧ t.mem = s.mem ∧
        t.hist = s.hist ++ [.bus (.writeByte (s.params.isoBase + cardNo i) (openByte s.params)) false []] ∧ Took 0 s t) ∧
    (Memory.wf s.mem = true → s.params.Valid → NoneConnected s → s.present[i] = true → ∀ k < 27, FirstBusError k s →
      let releases := decide (1 ≤ k ∧ k < 26)
      let closed := releases && (s.answer (k + 1)).ok
      ∃ t done e, exec (.cardConstruct (cardNo i)) s = .next t ∧ post t ∧
        done.length = k ∧ (∀ e ∈ done, e.isBus = true ∧ e.isFailedBus = false) ∧ e.isFailedBus = true ∧
        (k = 0 → e = .bus (.writeByte (s.params.isoBase + cardNo i) (openByte s.params)) false []) ∧
        (k = 26 → e = closeEvent s.params i false) ∧
        t.hist = s.hist ++ (done ++ [e] ++ if releases then [closeEvent s.params i closed] else []) ∧
        (closed = true → t.devSw i = 0x60#8 ∧ NoneConnected t) ∧
        (∀ x, ¬CardCell i x → Memory.read t.mem x = Memory.read s.mem x) ∧ (∀ j : Fin 2, t.devXp i j = s.devXp i j) ∧
        (∀ (c : ChanIx) (j : Fin 4), t.devPot i c j.val = s.devPot i c j.val) ∧
        Took (k + 1 + if releases then 1 else 0) s t)

/-- R180, R253: with no card live, no sub-bus connected and no transaction failing, `CRATE_CONSTRUCT` makes live exactly the
plugged cards, each with the masks its devices hold, and returns their addresses in ascending order. -/
def Obligations.CrateConstructFindsPluggedCards : Prop :=
  ∀ s : State, Memory.wf s.mem = true → s.params.Valid → BetweenCommands s → NoneConnected s → s.liveCards = [] →
    NoBusError 486 s →
    ∃ t, exec .crateConstruct s = .next t ∧ t.response = some (.ok (.cards t.liveCards)) ∧
      (∀ i : CardIx, t.cards[i].live = s.present[i]) ∧
      (∀ i : CardIx, s.present[i] = true → t.cards[i].Complete ∧ t.cards[i].iso = some .closed ∧
        t.cards[i].chen = some (~~~(s.devXp i 0)) ∧ t.cards[i].tsten = some (~~~(s.devXp i 1))) ∧
      (∀ i : CardIx, s.present[i] = false → t.cards[i] = Card.blank) ∧ NoneConnected t ∧ SameElsewhere s t

/-- R192, R232: with the live cards plugged and no transaction failing, `GET_AVAILABLE_CARDS` keeps every live card, adds the
other plugged ones, warns of exactly the cards it adds, and returns the live addresses in ascending order. The first probe of a
live card that fails, its `OPEN` (`k` = 0: the card was pulled, or the write failed) or its `CLOSE` (`k` = 1), ends the pass with
`BusError`: the card stays in the live map, the cards found at lower addresses stay added, and no higher address is visited. -/
def Obligations.GetAvailableCardsAddsPluggedCards : Prop :=
  ∀ s : State, CommandReady s →
    let visited (i : CardIx) (t : State) : Prop :=
      (s.cards[i].live = true → t.cards[i] = { s.cards[i] with iso := some .closed }) ∧
      (s.present[i] = true → s.cards[i].live = false → t.cards[i].live = true ∧ t.cards[i].Complete ∧
        t.cards[i].iso = some .closed ∧ t.cards[i].chen = some (~~~(s.devXp i 0)) ∧
        t.cards[i].tsten = some (~~~(s.devXp i 1))) ∧
      (s.present[i] = false → s.cards[i].live = false → t.cards[i] = Card.blank)
    (LiveCardsPlugged s → NoBusError 486 s →
      ∃ t, exec .getAvailableCards s = .next t ∧ t.response = some (.ok (.cards t.liveCards)) ∧
        (∀ i : CardIx, t.cards[i].live = s.present[i]) ∧ (∀ i : CardIx, visited i t) ∧
        (∃ es, t.hist = s.hist ++ es ∧
          ∀ i : CardIx, .cardDiscovered (cardNo i) ∈ es ↔ s.present[i] = true ∧ s.cards[i].live = false) ∧
        NoneConnected t ∧ SameElsewhere s t) ∧
    (∀ (i : CardIx) (k : Nat), s.cards[i].live = true → k ≤ 1 →
      (∀ j : CardIx, j < i → s.cards[j].live = true → s.present[j] = true) →
      let found := (List.finRange Config.pb.nCards).countP fun j =>
        decide (j < i) && (s.present[j] && !s.cards[j].live)
      let reached := 2 * s.liveBelow i + 27 * found + k
      NoBusError reached s → (if s.present[i] then (s.answer reached).ok = false else k = 0) →
      ∃ t es, exec .getAvailableCards s = .next t ∧ t.response = some (.failed .busError) ∧
        (∀ j : CardIx, j < i → visited j t) ∧
        t.cards[i] = (if k = 0 then s.cards[i] else { s.cards[i] with iso := some .opened }) ∧
        (∀ j : CardIx, i < j → t.cards[j] = s.cards[j] ∧ ∀ x, CardCell j x → Memory.read t.mem x = Memory.read s.mem x) ∧
        t.hist = s.hist ++ (es ++ [.bus (.writeByte (s.params.isoBase + cardNo i)
          (if k = 0 then openByte s.params else 0x60#8)) false [], .commandEnds 0x82#8 1]) ∧
        (∀ j : CardIx, .cardDiscovered (cardNo j) ∈ es ↔ j < i ∧ s.present[j] = true ∧ s.cards[j].live = false) ∧
        (∀ x, CardCell i x → x ≠ swCell i → Memory.read t.mem x = Memory.read s.mem x) ∧
        SameElsewhere s t ∧ Took (reached + if s.present[i] then 1 else 0) s t)

/-- R193, R167, R112: whatever the environment answers, `SHUTDOWN` makes one `CLOSE` for each live card, in ascending order, and no
other transaction. The control register of a card whose `CLOSE` succeeded becomes 0x60, that of a live card whose `CLOSE` failed
is the old or the new byte, no other device register changes. No card stays live and every card that was live holds no value. It
answers `Ok` exactly when no `CLOSE` failed, else `BusError`. -/
def Obligations.ShutdownClearsLiveMap : Prop :=
  ∀ s : State, s.running = none → s.params.Valid →
    let closes := (List.finRange Config.pb.nCards).filter fun i => s.cards[i].live
    let r : Response := if closes.all s.shutdownOk then .ok .nothing else .failed .busError
    ∃ t, exec .shutdown s = .next t ∧ GoodFinal t ∧
      (∀ i : CardIx, t.cards[i] = if s.cards[i].live then Card.blank else s.cards[i]) ∧
      t.hist = s.hist ++ .commandBegins 0x81#8 :: ((closes.map fun i =>
        .bus (.writeByte (s.params.isoBase + cardNo i) 0x60#8) (s.shutdownOk i) []) ++ [.commandEnds 0x81#8 r.status]) ∧
      t.response = some r ∧
      (Memory.wf s.mem = true → ∀ i ∈ closes, (s.shutdownOk i = true → t.devSw i = 0x60#8) ∧
        (t.devSw i = s.devSw i ∨ t.devSw i = 0x60#8)) ∧
      (∀ k, (∀ i ∈ closes, k ≠ swCell i) → Memory.read t.mem k = Memory.read s.mem k) ∧
      t.cfg = s.cfg ∧ t.params = s.params ∧ t.present = s.present ∧ t.inbox = s.inbox

/-! ## Per-card commands -/

/-- R183 to R186: `CRATE_ENABLE_CHANNEL` and `CRATE_ENABLE_TEST_LOAD` are three transactions: open, one block with both masks,
close; one bit of one mask changes. `CRATE_IS_CHANNEL_ENABLED` answers the cached bit between an open and a close. -/
def Obligations.CrateEnableCommands : Prop :=
  ∀ (s : State) (i : CardIx) (c : ChanIx) (on : Bool) (m l : Byte), CommandReady s → s.cards[i].live = true →
    s.present[i] = true → NoBusError 3 s → s.cards[i].chen = some m → s.cards[i].tsten = some l →
    let post (op : Byte) (m' l' : Byte) (t : State) : Prop :=
      t.response = some (.ok .nothing) ∧
      t.cards[i] = { s.cards[i] with iso := some .closed, chen := some m', tsten := some l' } ∧
      t.devXp i 0 = ~~~m' ∧ t.devXp i 1 = ~~~l' ∧ t.devSw i = 0x60#8 ∧
      SameCellsBut [swCell i, xpCell i 0, xpCell i 1] s t ∧ SameCardsBut i s t ∧ NoneConnected t ∧
      t.hist = s.hist ++ commandTrace s.params op i
        [.bus (.writeBlock s.params.xpAddr s.params.xpReg [~~~m', ~~~l']) true []] ∧ SameElsewhere s t ∧ Took 3 s t
    (∃ t m', exec (.crateEnableChannel (cardNo i) (chanNo c) (byteOfBool on)) s = .next t ∧
      (∀ d : ChanIx, m'.getLsbD d.val = if d = c then on else m.getLsbD d.val) ∧ post 0x90#8 m' l t) ∧
    (∃ t l', exec (.crateEnableTestLoad (cardNo i) (chanNo c) (byteOfBool on)) s = .next t ∧
      (∀ d : ChanIx, l'.getLsbD d.val = if d = c then on else l.getLsbD d.val) ∧ post 0x91#8 m l' t) ∧
    (∃ t, exec (.crateIsChannelEnabled (cardNo i) (chanNo c)) s = .next t ∧
      t.response = some (.ok (.bool (m.getLsbD c.val))) ∧ t.cards[i] = { s.cards[i] with iso := some .closed } ∧
      t.devSw i = 0x60#8 ∧ SameCellsBut [swCell i] s t ∧ SameCardsBut i s t ∧ NoneConnected t ∧
      t.hist = s.hist ++ commandTrace s.params 0x92#8 i [] ∧ SameElsewhere s t ∧ Took 2 s t)

/-- R187: `CRATE_SET_LEVEL` opens, writes the level's four bytes in one block, closes, and caches the level. -/
def Obligations.CrateSetLevelSetsLevel : Prop :=
  ∀ (s : State) (i : CardIx) (c : ChanIx) (v : Nat), v ≤ 1023 → CommandReady s → s.cards[i].live = true →
    s.present[i] = true → NoBusError 3 s →
    ∃ t, exec (.crateSetLevel (cardNo i) (chanNo c) v) s = .next t ∧ t.response = some (.ok .nothing) ∧
      t.cards[i] = { s.cards[i] with iso := some .closed, level := s.cards[i].level.set c (some v) } ∧
      (∀ j : Fin 4, t.devPot i c j.val =
        if j.val < v / 256 then 0xFF#8 else if j.val = v / 256 then BitVec.ofNat 8 (v % 256) else 0x00#8) ∧
      t.devSw i = 0x60#8 ∧
      SameCellsBut [swCell i, potCell i (potChip c) (potSub c) 0, potCell i (potChip c) (potSub c) 1,
        potCell i (potChip c) (potSub c) 2, potCell i (potChip c) (potSub c) 3] s t ∧ SameCardsBut i s t ∧
      t.hist = s.hist ++ commandTrace s.params 0x93#8 i [.bus (.writeBlock (s.params.potAddr[potChip c] : Nat)
        s.params.potReg[potSub c] [t.devPot i c 0, t.devPot i c 1, t.devPot i c 2, t.devPot i c 3]) true []] ∧
      NoneConnected t ∧ SameElsewhere s t ∧ Took 3 s t

/-- R188, R189, R190: the three read commands return the clamped mean of six samples; fourteen, eight and fourteen transactions;
the cache keeps everything but the record of the switch. -/
def Obligations.CrateReadCommands : Prop :=
  ∀ (s : State) (i : CardIx) (c : ChanIx) (d : Rat), CommandReady s → s.cards[i].live = true →
    s.present[i] = true → NoBusError 14 s → s.cards[i].curdiv = some d →
    let post (n : Nat) (x : Rat) (t : State) : Prop :=
      t.response = some (.ok (.real x)) ∧ t.cards[i] = { s.cards[i] with iso := some .closed } ∧ SameCardsBut i s t ∧
      t.devSw i = 0x60#8 ∧ SameCellsBut [swCell i, snsCalCell i c, snsCalCell i c + 1] s t ∧
      (∃ es, t.hist = s.hist ++ es ∧ es.countP Event.isBus = n) ∧ SameElsewhere s t ∧ Took n s t
    (∃ t, exec (.crateGetBusVoltage (cardNo i) (chanNo c)) s = .next t ∧ post 14 (busReading s 1) t) ∧
    (∃ t, exec (.crateGetShuntVoltage (cardNo i) (chanNo c)) s = .next t ∧ post 8 (shuntReading s 1) t) ∧
    (∃ t, exec (.crateGetCurrent (cardNo i) (chanNo c)) s = .next t ∧ post 14 (currentReading s d 1) t)

/-- R183, R31: a per-card host command whose `OPEN` fails ends with `BusError`, be it that the live card was pulled, when no device
answers, or that the write to the plugged card failed; its body and `CLOSE` do not run: the only transaction is the failed control
write, and no cached field changes. -/
def Obligations.FailedOpenEndsCommand : Prop :=
  ∀ (x : Instr) (i : CardIx) (s : State), x.cardNamed = some (cardNo i) → ¬x.BadHostArgs → CommandReady s →
    s.cards[i].live = true → (s.present[i] = false ∨ (s.answer 0).ok = false) →
    ∃ t, exec x s = .next t ∧ t.response = some (.failed .busError) ∧ t.cards = s.cards ∧
      t.hist = s.hist ++ [.commandBegins x.opcode,
        .bus (.writeByte (s.params.isoBase + cardNo i) (openByte s.params)) false [], .commandEnds x.opcode 1] ∧
      SameCellsBut [swCell i] s t ∧ (t.devSw i = s.devSw i ∨ (s.present[i] = true ∧ t.devSw i = openByte s.params)) ∧
      SameElsewhere s t ∧ Took (if s.present[i] then 1 else 0) s t

/-- R183, R228: a per-card host command whose `OPEN` succeeded ends with its response after a write of `CLOSE`'s control byte,
whatever its body did. The body ends at its first failed transaction, and then `BusError` is reported, whether or not the `CLOSE`
fails too; if no transaction of the body failed, the `CLOSE` alone decides between the body's own answer (a value, but for a
seek that fails with `InvalidArgument` or `SeekNotConverged`) and no value (`BusError`, but for those). A `CLOSE` that fails
leaves the card recorded `Open`. R19: when the block write of `CRATE_ENABLE_CHANNEL` fails, the cached masks are as before. -/
def Obligations.FailedBodyStillCloses : Prop :=
  (∀ (x : Instr) (i : CardIx) (s : State), x.cardNamed = some (cardNo i) → ¬x.BadHostArgs → CommandReady s →
    s.cards[i].live = true → s.present[i] = true → (s.answer 0).ok = true →
    ∃ (t : State) (es : List Event) (closed : Bool) (r : Response), exec x s = .next t ∧ t.response = some r ∧
      t.hist = s.hist ++ .commandBegins x.opcode :: switchEvent s.params i (openByte s.params) ::
        (es ++ [.bus (.writeByte (s.params.isoBase + cardNo i) 0x60#8) closed [], .commandEnds x.opcode r.status]) ∧
      (∀ e ∈ es, e.isWriteByte = false) ∧ (∀ e ∈ es.dropLast, e.isFailedBus = false) ∧
      (es.any Event.isFailedBus = true → r = .failed .busError) ∧
      (es.any Event.isFailedBus = false →
        (closed = true → r ≠ .failed .busError ∧ (x.isSeek = false → ∃ v, r = .ok v)) ∧
        (closed = false → (∀ v, r ≠ .ok v) ∧ (x.isSeek = false → r = .failed .busError))) ∧
      (closed = true → t.cards[i].iso = some .closed ∧ t.devSw i = 0x60#8 ∧ NoneConnected t) ∧
      (closed = false → t.cards[i].iso = some .opened ∧ (t.devSw i = openByte s.params ∨ t.devSw i = 0x60#8)) ∧
      t.cards[i].live = true ∧ SameCardsBut i s t ∧ (∀ k, ¬CardCell i k → Memory.read t.mem k = Memory.read s.mem k) ∧
      SameElsewhere s t) ∧
  (∀ (s : State) (i : CardIx) (c : ChanIx) (on : Bool), CommandReady s → s.cards[i].live = true →
    s.present[i] = true → (s.answer 0).ok = true → (s.answer 1).ok = false →
    ∃ t, exec (.crateEnableChannel (cardNo i) (chanNo c) (byteOfBool on)) s = .next t ∧
      t.response = some (.failed .busError) ∧
      t.cards[i].chen = s.cards[i].chen ∧ t.cards[i].tsten = s.cards[i].tsten ∧ t.cards[i].level = s.cards[i].level ∧
      (∃ e f g h, t.hist = s.hist ++ [e, f, g, .bus (.writeByte (s.params.isoBase + cardNo i) 0x60#8) (s.answer 2).ok [], h]) ∧
      ((s.answer 2).ok = true → t.cards[i].iso = some .closed ∧ t.devSw i = 0x60#8 ∧ NoneConnected t) ∧
      SameCellsBut [swCell i, xpCell i 0, xpCell i 1] s t ∧ SameCardsBut i s t ∧ SameElsewhere s t ∧ Took 3 s t)

/-! ## Bulk commands -/

/-- R194, R195, R191: when no transaction fails, `ENABLE_ALL_OUTPUTS` leaves every live card with all channels enabled, and
`DISABLE_ALL_OUTPUTS` with none and, with `zero_level`, every level 0 and every potentiometer byte 0x00; otherwise the levels and
the potentiometers are unchanged. The expander holds both masks complemented; test loads are unchanged, every card is closed, and
cards that are not live are not touched. The first transaction that fails ends the command as `StoppedAt` says (R229): the channels
before it stay switched, the expander's bytes are those of the last write done or of the one that failed. -/
def Obligations.BulkOutputCommands : Prop :=
  ∀ (s : State) (zero : Bool), CommandReady s →
    let post (m : Byte) (z : Bool) (t : State) : Prop :=
      t.response = some (.ok .nothing) ∧
      (∀ i : CardIx, t.cards[i] = if s.cards[i].live then
        { s.cards[i] with iso := some .closed, chen := some m,
                          level := if z then Vector.replicate _ (some 0) else s.cards[i].level } else s.cards[i]) ∧
      (∀ i : CardIx, s.cards[i].live = true → t.devXp i 0 = ~~~m ∧ t.devSw i = 0x60#8 ∧
        (∀ l, s.cards[i].tsten = some l → t.devXp i 1 = ~~~l) ∧
        (∀ (c : ChanIx) (j : Fin 4), t.devPot i c j.val = if z then 0x00#8 else s.devPot i c j.val)) ∧
      (∀ i : CardIx, s.cards[i].live = false → ∀ k, CardCell i k → Memory.read t.mem k = Memory.read s.mem k) ∧
      NoneConnected t ∧ SameElsewhere s t
    let switched (on : Bool) (m : Nat) (i : CardIx) : Card :=
      { s.cards[i] with chen := s.cards[i].chen.map (maskUpTo m fun _ => on), level := levelsUpTo (m - 8) (fun _ => 0) s.cards[i].level }
    let sent (on z : Bool) (m : Nat) (i : CardIx) (t : State) : Prop :=
      (∀ b ∈ s.cards[i].chen, t.devXp i 0 = (if m = 0 then s.devXp i 0 else ~~~(maskUpTo m (fun _ => on) b)) ∨
        t.devXp i 0 = ~~~(maskUpTo (m + 1) (fun _ => on) b)) ∧
      (∀ l ∈ s.cards[i].tsten, t.devXp i 1 = ~~~l ∨ (m = 0 ∧ t.devXp i 1 = s.devXp i 1)) ∧
      (∀ (c : ChanIx) (j : Fin 4), (c.val + 8 < m → t.devPot i c j.val = 0x00#8) ∧
        (m < c.val + 8 ∨ z = false → t.devPot i c j.val = s.devPot i c j.val))
    (LiveCardsPlugged s → NoBusError 324 s →
      (∃ t, exec .enableAllOutputs s = .next t ∧ post 0xFF#8 false t) ∧
      (∃ t, exec (.disableAllOutputs (byteOfBool zero)) s = .next t ∧ post 0x00#8 zero t)) ∧
    (∀ (i : CardIx) (k : Nat), FailsAt s 8 i k → ∃ t, exec .enableAllOutputs s = .next t ∧
      StoppedAt s t 0xA1#8 .busError 8 i k (switched true) (sent true false)) ∧
    (∀ (i : CardIx) (k : Nat), FailsAt s (if zero then 16 else 8) i k →
      ∃ t, exec (.disableAllOutputs (byteOfBool zero)) s = .next t ∧
        StoppedAt s t 0xA0#8 .busError (if zero then 16 else 8) i k (switched false) (sent false zero))

/-- R196 to R199, each the per-channel operation of R134, R135 or R124 over every live card (R191): when no transaction fails,
`MAX_OUTPUT` leaves every level of every live card 1023 with four bytes 0xFF, `MIN_OUTPUT` 0 with four bytes 0x00, the masks
unchanged; `ENABLE_ALL_TEST_LOADS` leaves every live card with all test loads in, `DISABLE_ALL_TEST_LOADS` with none (R77, D10: the
complement in the expander's second byte), the channel enables and the levels unchanged; cards that are not live are not touched.
The first transaction that fails ends the command as `StoppedAt` says (R229): the channels before it keep what was done, those
after it are as before. -/
def Obligations.BulkLevelAndTestLoadCommands : Prop :=
  ∀ s : State, CommandReady s →
    let post (card : Card → Card) (dev : CardIx → State → Prop) (t : State) : Prop :=
      t.response = some (.ok .nothing) ∧
      (∀ i : CardIx, t.cards[i] = if s.cards[i].live then card s.cards[i] else s.cards[i]) ∧
      (∀ i : CardIx, s.cards[i].live = true → dev i t) ∧
      (∀ i : CardIx, s.cards[i].live = false → ∀ k, CardCell i k → Memory.read t.mem k = Memory.read s.mem k) ∧
      NoneConnected t ∧ SameElsewhere s t
    let levels (v : Nat) (card : Card) : Card := { card with iso := some .closed, level := Vector.replicate _ (some v) }
    let loads (m : Byte) (card : Card) : Card := { card with iso := some .closed, tsten := some m }
    let leveled (v : Nat) (m : Nat) (i : CardIx) : Card :=
      { s.cards[i] with level := levelsUpTo m (fun _ => v) s.cards[i].level }
    let levelsSent (b : Byte) (m : Nat) (i : CardIx) (t : State) : Prop :=
      (∀ (c : ChanIx) (j : Fin 4), (c.val < m → t.devPot i c j.val = b) ∧
        (m < c.val → t.devPot i c j.val = s.devPot i c j.val)) ∧ (∀ j : Fin 2, t.devXp i j = s.devXp i j)
    let loaded (on : Bool) (m : Nat) (i : CardIx) : Card :=
      { s.cards[i] with tsten := s.cards[i].tsten.map (maskUpTo m fun _ => on) }
    let loadsSent (on : Bool) (m : Nat) (i : CardIx) (t : State) : Prop :=
      (∀ l ∈ s.cards[i].tsten, t.devXp i 1 = (if m = 0 then s.devXp i 1 else ~~~(maskUpTo m (fun _ => on) l)) ∨
        t.devXp i 1 = ~~~(maskUpTo (m + 1) (fun _ => on) l)) ∧
      (∀ b ∈ s.cards[i].chen, t.devXp i 0 = ~~~b ∨ (m = 0 ∧ t.devXp i 0 = s.devXp i 0)) ∧
      (∀ (c : ChanIx) (j : Fin 4), t.devPot i c j.val = s.devPot i c j.val)
    [Instr.maxOutput, .minOutput, .enableAllTestLoads, .disableAllTestLoads].map Instr.opcode =
      [0xA2#8, 0xA3#8, 0xA4#8, 0xA5#8] ∧
    (LiveCardsPlugged s → NoBusError 180 s →
      (∃ t, exec .maxOutput s = .next t ∧
        post (levels 1023) (fun i t => ∀ (c : ChanIx) (j : Fin 4), t.devPot i c j.val = 0xFF#8) t) ∧
      (∃ t, exec .minOutput s = .next t ∧
        post (levels 0) (fun i t => ∀ (c : ChanIx) (j : Fin 4), t.devPot i c j.val = 0x00#8) t) ∧
      (∃ t, exec .enableAllTestLoads s = .next t ∧ post (loads 0xFF#8) (fun i t => t.devXp i 1 = 0x00#8) t) ∧
      (∃ t, exec .disableAllTestLoads s = .next t ∧ post (loads 0x00#8) (fun i t => t.devXp i 1 = 0xFF#8) t)) ∧
    (∀ (i : CardIx) (k : Nat), FailsAt s 8 i k →
      (∃ t, exec .maxOutput s = .next t ∧ StoppedAt s t 0xA2#8 .busError 8 i k (leveled 1023) (levelsSent 0xFF#8)) ∧
      (∃ t, exec .minOutput s = .next t ∧ StoppedAt s t 0xA3#8 .busError 8 i k (leveled 0) (levelsSent 0x00#8)) ∧
      (∃ t, exec .enableAllTestLoads s = .next t ∧ StoppedAt s t 0xA4#8 .busError 8 i k (loaded true) (loadsSent true)) ∧
      (∃ t, exec .disableAllTestLoads s = .next t ∧ StoppedAt s t 0xA5#8 .busError 8 i k (loaded false) (loadsSent false)))

/-! ## Seek -/

/-- R201, R202, R203, R206: a seek whose first sample is within 0.01 of the target converges at once: it returns the cached level and
the sample, writes no level, and closes the card. -/
def Obligations.SeekConvergesOnFirstSample : Prop :=
  ∀ (s : State) (i : CardIx) (c : ChanIx) (level : Nat) (d target : Rat) (step : Int), CommandReady s →
    s.cards[i].live = true → s.present[i] = true → NoBusError 14 s → s.cards[i].level[c] = some level → s.cards[i].curdiv = some d →
    0 ≤ target → 1 ≤ step →
    let post (x : Rat) (t : State) : Prop :=
      t.response = some (.ok (.pair level x)) ∧ t.cards[i] = { s.cards[i] with iso := some .closed } ∧ SameCardsBut i s t ∧
      t.devSw i = 0x60#8 ∧ SameCellsBut [swCell i, snsCalCell i c, snsCalCell i c + 1] s t ∧ SameElsewhere s t ∧ Took 14 s t
    (target ≤ 5 → |target - busReading s 1| < 1 / 100 →
      ∃ t, exec (.seekVoltage (cardNo i) (chanNo c) target step) s = .next t ∧ post (busReading s 1) t) ∧
    (target ≤ 200 → |target - currentReading s d 1| < 1 / 100 →
      ∃ t, exec (.seekCurrent (cardNo i) (chanNo c) target step) s = .next t ∧ post (currentReading s d 1) t)

/-- R201, R202, R203: a seek whose first sample is not within 0.01 of the target and whose second is: it moves the level one step
toward the target (never below 0), writes and caches it, and returns it with the second sample. The samples are bus voltages for a
voltage seek, currents for a current seek. -/
def Obligations.SeekMovesOneStepTowardTarget : Prop :=
  ∀ (s : State) (i : CardIx) (c : ChanIx) (level next : Nat) (target : Rat) (step : Int), CommandReady s →
    s.cards[i].live = true → s.present[i] = true → NoBusError 27 s → s.cards[i].level[c] = some level → 0 ≤ target → 1 ≤ step → next ≤ 1023 →
    let moves (reading : Nat → Rat) : Prop :=
      FarFrom target (reading 1) ∧ (next : Int) = stepToward target (reading 1) level step ∧ |target - reading 14| < 1 / 100
    let post (x : Rat) (t : State) : Prop :=
      t.response = some (.ok (.pair next x)) ∧
      t.cards[i] = { s.cards[i] with iso := some .closed, level := s.cards[i].level.set c (some next) } ∧
      SameCardsBut i s t ∧ (∀ j : Fin 4, t.devPot i c j.val =
        if j.val < next / 256 then 0xFF#8 else if j.val = next / 256 then BitVec.ofNat 8 (next % 256) else 0x00#8) ∧
      t.devSw i = 0x60#8 ∧
      SameCellsBut ([swCell i, snsCalCell i c, snsCalCell i c + 1, potCell i (potChip c) (potSub c) 0] ++
        [potCell i (potChip c) (potSub c) 1, potCell i (potChip c) (potSub c) 2, potCell i (potChip c) (potSub c) 3]) s t ∧
      SameElsewhere s t ∧ Took 27 s t
    (target ≤ 5 → moves (busReading s) →
      ∃ t, exec (.seekVoltage (cardNo i) (chanNo c) target step) s = .next t ∧ post (busReading s 14) t) ∧
    (∀ d, s.cards[i].curdiv = some d → target ≤ 200 → moves (currentReading s d) →
      ∃ t, exec (.seekCurrent (cardNo i) (chanNo c) target step) s = .next t ∧ post (currentReading s d 14) t)

/-- R204: a seek, of voltage or of current, whose sample lies below the target by 0.01 or more and whose next level exceeds 1023
ends with `InvalidArgument`: no level is written and the cached level stays. R183, R228: the card is closed; if the `CLOSE` fails,
it stays recorded `Open`, and the failure reported is the same. -/
def Obligations.SeekPastCeilingIsInvalidArgument : Prop :=
  ∀ (s : State) (i : CardIx) (c : ChanIx) (level : Nat) (target : Rat) (step : Int), CommandReady s →
    s.cards[i].live = true → s.present[i] = true → NoBusError 13 s → s.cards[i].level[c] = some level → 0 ≤ target → 1 ≤ step →
    1023 < level + step →
    let post (t : State) : Prop :=
      t.response = some (.failed .invalidArgument) ∧
      t.cards[i] = { s.cards[i] with iso := some (if (s.answer 13).ok then .closed else .opened) } ∧
      ((s.answer 13).ok = true → t.devSw i = 0x60#8 ∧ NoneConnected t) ∧
      SameCardsBut i s t ∧ SameCellsBut [swCell i, snsCalCell i c, snsCalCell i c + 1] s t ∧
      SameElsewhere s t ∧ Took 14 s t
    (target ≤ 5 → 1 / 100 ≤ target - busReading s 1 →
      ∃ t, exec (.seekVoltage (cardNo i) (chanNo c) target step) s = .next t ∧ post t) ∧
    (∀ d, s.cards[i].curdiv = some d → target ≤ 200 → 1 / 100 ≤ target - currentReading s d 1 →
      ∃ t, exec (.seekCurrent (cardNo i) (chanNo c) target step) s = .next t ∧ post t)

/-- R205, R207: a seek makes at most 2048 iterations, and `SeekNotConverged` comes after exactly 2048. -/
def Obligations.SeekIterationsAreBounded : Prop :=
  ∀ (i : Instr) (s t : State) (es : List Event) (card chan : Int) (target : Rat) (step : Int),
    (i = .seekVoltage card chan target step ∨ i = .seekCurrent card chan target step) →
    exec i s = .next t → t.hist = s.hist ++ es →
    es.countP Event.isSettle ≤ 2048 ∧
      (t.response = some (.failed .seekNotConverged) → es.countP Event.isSettle = 2048)

/-- R201, R206, R203, R156: a seek that succeeds returns a sample within 0.01 of its target and the level that is then cached for the
channel; a current seek whose target lies in 0.01..0.09 never succeeds. -/
def Obligations.SeekSuccessIsWithinTolerance : Prop :=
  ∀ (i : Instr) (s t : State) (k : CardIx) (c : ChanIx) (target : Rat) (step : Int) (v : Value),
    (i = .seekVoltage (cardNo k) (chanNo c) target step ∨ i = .seekCurrent (cardNo k) (chanNo c) target step) →
    exec i s = .next t → t.response = some (.ok v) →
    ∃ (level : Nat) (x : Rat), v = .pair level x ∧ |target - x| < 1 / 100 ∧ t.cards[k].level[c] = some level ∧
      ¬(i = .seekCurrent (cardNo k) (chanNo c) target step ∧ 1 / 100 ≤ target ∧ target ≤ 9 / 100)

/-! ## Configuration -/

/-- R211, R214: `SAVE_CONFIG` records the cached enable and level of every channel of every live card; a card that is not live keeps
its records, or has them reset by `create_new`; no transaction is issued and nothing else changes. -/
def Obligations.SaveConfigRecordsLiveCards : Prop :=
  ∀ (s : State) (create : Bool), BetweenCommands s → LiveCardsComplete s →
    ∃ t, exec (.saveConfig (byteOfBool create)) s = .next t ∧ t.response = some (.ok .nothing) ∧
      (∀ (i : CardIx) (c : ChanIx), s.cards[i].live = true →
        (∃ m, s.cards[i].chen = some m ∧ t.cfg[i][c].output = m.getLsbD c.val) ∧
        (∃ v : Nat, s.cards[i].level[c] = some v ∧ t.cfg[i][c].level = v)) ∧
      (∀ (i : CardIx) (c : ChanIx), s.cards[i].live = false →
        t.cfg[i][c] = if create then { output := false, level := 0 } else s.cfg[i][c]) ∧
      t.hist = s.hist ++ [.commandBegins 0xB0#8, .commandEnds 0xB0#8 0] ∧ t.cards = s.cards ∧ t.mem = s.mem ∧
      { t with cfg := s.cfg, hist := s.hist, response := s.response } = s

/-- R212: when no transaction fails and every record's level is in range, `LOAD_CONFIG` gives every live card the recorded
levels and enables exactly the channels recorded on, if `enable_outputs`. The potentiometers hold the levels' patterns (R78), the
expander both masks complemented (R77); test loads are unchanged, every live card is closed, and cards that are not live are not
touched. The first transaction that fails ends the command with `BusError`, and the first stored level outside 0..1023 with
`InvalidArgument` (R222, U17), its card opened and closed again, as `StoppedAt` says (R229): of a card's 16 transactions, channel
`c`'s level is the `2c`-th and its mask the one after. -/
def Obligations.LoadConfigRestoresLiveCards : Prop :=
  ∀ (s : State) (en : Bool), CommandReady s →
    let inRange (i : CardIx) (c : ChanIx) : Prop := 0 ≤ s.cfg[i][c].level ∧ s.cfg[i][c].level ≤ 1023
    let pattern (i : CardIx) (c : ChanIx) (j : Nat) : Byte :=
      let v := (s.cfg[i][c].level).toNat
      if j < v / 256 then 0xFF#8 else if j = v / 256 then BitVec.ofNat 8 (v % 256) else 0x00#8
    let on (i : CardIx) (c : ChanIx) : Bool := s.cfg[i][c].output && en
    let restored (m : Nat) (i : CardIx) : Card :=
      { s.cards[i] with chen := s.cards[i].chen.map (maskUpTo (m / 2) (on i))
                        level := levelsUpTo ((m + 1) / 2) (fun c => (s.cfg[i][c].level).toNat) s.cards[i].level }
    let sent (m : Nat) (i : CardIx) (t : State) : Prop :=
      (∀ b ∈ s.cards[i].chen, t.devXp i 0 = (if m < 2 then s.devXp i 0 else ~~~(maskUpTo (m / 2) (on i) b)) ∨
        (m % 2 = 1 ∧ t.devXp i 0 = ~~~(maskUpTo (m / 2 + 1) (on i) b))) ∧
      (∀ l ∈ s.cards[i].tsten, t.devXp i 1 = ~~~l ∨ (m < 2 ∧ t.devXp i 1 = s.devXp i 1)) ∧
      (∀ (c : ChanIx) (j : Fin 4), (2 * c.val < m → t.devPot i c j.val = pattern i c j.val) ∧
        (m < 2 * c.val → t.devPot i c j.val = s.devPot i c j.val))
    (LiveCardsPlugged s → NoBusError 324 s → (∀ (i : CardIx) (c : ChanIx), s.cards[i].live = true → inRange i c) →
      ∃ t, exec (.loadConfig (byteOfBool en)) s = .next t ∧ t.response = some (.ok .nothing) ∧
        (∀ i : CardIx, s.cards[i].live = true →
          ∃ m l, t.cards[i].chen = some m ∧ (∀ c : ChanIx, m.getLsbD c.val = on i c) ∧
            (∀ c : ChanIx, t.cards[i].level[c] = some (s.cfg[i][c].level).toNat) ∧
            s.cards[i].tsten = some l ∧ t.cards[i].tsten = some l ∧ t.cards[i].live = true ∧ t.cards[i].iso = some .closed ∧
            t.devXp i 0 = ~~~m ∧ t.devXp i 1 = ~~~l ∧ t.devSw i = 0x60#8 ∧
            (∀ (c : ChanIx) (j : Fin 4), t.devPot i c j.val = pattern i c j.val)) ∧
        (∀ i : CardIx, s.cards[i].live = false → t.cards[i] = s.cards[i] ∧
          ∀ k, CardCell i k → Memory.read t.mem k = Memory.read s.mem k) ∧
        NoneConnected t ∧ SameElsewhere s t) ∧
    (∀ (i : CardIx) (k : Nat), FailsAt s 16 i k →
      (∀ j : CardIx, j < i → s.cards[j].live = true → ∀ c, inRange j c) → (∀ c : ChanIx, 2 * c.val + 1 ≤ k → inRange i c) →
      ∃ t, exec (.loadConfig (byteOfBool en)) s = .next t ∧ StoppedAt s t 0xB1#8 .busError 16 i k restored sent) ∧
    (∀ (i : CardIx) (c : ChanIx), Reaches s 16 i (2 * c.val + 1) → s.present[i] = true →
      (∀ j : CardIx, j < i → s.cards[j].live = true → ∀ c, inRange j c) → (∀ d : ChanIx, d < c → inRange i d) → ¬inRange i c →
      ∃ t, exec (.loadConfig (byteOfBool en)) s = .next t ∧
        StoppedAt s t 0xB1#8 .invalidArgument 16 i (2 * c.val + 1) restored fun m j t =>
          sent m j t ∧ (j = i → ∀ x : Fin 4, t.devPot i c x.val = s.devPot i c x.val))

/-- R213: what `SAVE_CONFIG` recorded, with or without `create_new`, a later `LOAD_CONFIG` that answers `Ok` restores on every card
live at both times: the levels always, the enables with `enable_outputs`, else all off. -/
def Obligations.SaveThenLoadRestores : Prop :=
  ∀ (s t u v : State) (create en : Bool), BetweenCommands s → LiveCardsComplete s → LevelsInRange s →
    exec (.saveConfig (byteOfBool create)) s = .next t → u.cfg = t.cfg → CommandReady u →
    exec (.loadConfig (byteOfBool en)) u = .next v → v.response = some (.ok .nothing) →
    ∀ i : CardIx, s.cards[i].live = true → u.cards[i].live = true →
      v.cards[i].level = s.cards[i].level ∧ v.cards[i].chen = if en then s.cards[i].chen else some 0x00#8
end

