-- ==== Sys2Proof/Laws/Config.lean ====
section
/-! SUPPORT. The configuration record in numbers (rule R8): PB's value of each constant, the bounds of the indexes, and the cells
of the device registers. -/

namespace Sys2Proof

/-! ## PB's values -/

@[simp] theorem Config.pb_cardMin : Config.pb.cardMin = 1 := rfl
@[simp] theorem Config.pb_cardMax : Config.pb.cardMax = 18 := rfl
@[simp] theorem Config.pb_levelMin : Config.pb.levelMin = 0 := rfl
@[simp] theorem Config.pb_levelMax : Config.pb.levelMax = 1023 := rfl
@[simp] theorem Config.pb_potSubregs : Config.pb.potSubregs = 4 := rfl
@[simp] theorem Config.pb_potSeg : Config.pb.potSeg = 256 := rfl
@[simp] theorem Config.pb_potMinPattern : Config.pb.potMinPattern = 0x00000000#32 := rfl
@[simp] theorem Config.pb_potMaxPattern : Config.pb.potMaxPattern = 0xFFFFFFFF#32 := rfl
@[simp] theorem Config.pb_senseN : Config.pb.senseN = 6 := rfl
@[simp] theorem Config.pb_curEps : Config.pb.curEps = 1 / 10 := rfl
@[simp] theorem Config.pb_busvShift : Config.pb.busvShift = 3 := rfl
@[simp] theorem Config.pb_seekMaxIter : Config.pb.seekMaxIter = 2048 := rfl
@[simp] theorem Config.pb_seekTol : Config.pb.seekTol = 1 / 100 := rfl
@[simp] theorem Config.pb_seekSettleMs : Config.pb.seekSettleMs = 60 := rfl
@[simp] theorem Config.pb_seekVMax : Config.pb.seekVMax = 5 := rfl
@[simp] theorem Config.pb_seekIMax : Config.pb.seekIMax = 200 := rfl
@[simp] theorem Config.pb_seekStepDefault : Config.pb.seekStepDefault = 1 := rfl
@[simp] theorem Config.pb_isoEnBit : Config.pb.isoEnBit = 7 := rfl
@[simp] theorem Config.pb_isoAux2Bit : Config.pb.isoAux2Bit = 6 := rfl
@[simp] theorem Config.pb_isoAux1Bit : Config.pb.isoAux1Bit = 5 := rfl

/-! The sizes stand in types, so they are no rewriting rules of `simp`. -/

theorem Config.pb_nCards : Config.pb.nCards = 18 := rfl
theorem Config.pb_nChan : Config.pb.nChan = 8 := rfl
theorem Config.pb_potChips : Config.pb.potChips = 4 := rfl
theorem Config.pb_potChPerChip : Config.pb.potChPerChip = 2 := rfl

/-! ## The bounds of the indexes -/

theorem CardIx.lt (i : CardIx) : i.val < 18 := i.isLt
theorem ChanIx.lt (c : ChanIx) : c.val < 8 := c.isLt
theorem PotIx.lt (k : PotIx) : k.val < 4 := k.isLt
theorem SubIx.lt (s : SubIx) : s.val < 2 := s.isLt

namespace Machine

/-! ## The cells of the device registers (log 4) -/

theorem swCell_val (i : CardIx) : swCell i = 128 * i.val := rfl

theorem xpCell_val (i : CardIx) (j : Fin 2) : xpCell i j = 128 * i.val + 1 + j.val := rfl

theorem potCell_val (i : CardIx) (k : PotIx) (s : SubIx) (j : Nat) :
    potCell i k s j = 128 * i.val + 32 + 8 * k.val + 4 * s.val + j := rfl

theorem snsCfgCell_val (i : CardIx) (c : ChanIx) : snsCfgCell i c = 128 * i.val + 64 + 8 * c.val := rfl

theorem snsCalCell_val (i : CardIx) (c : ChanIx) : snsCalCell i c = 128 * i.val + 66 + 8 * c.val := rfl

theorem cardCell_iff {i : CardIx} {k : Nat} : CardCell i k ↔ 128 * i.val ≤ k ∧ k < 128 * i.val + 128 := Iff.rfl

end Machine
end Sys2Proof
end

