-- ==== Sys2Proof/Laws/State.lean ====
section
/-! SUPPORT. One lemma per field per update of State. -/

namespace Sys2Proof.Machine

/-! ## respond -/

@[simp] theorem State.respond_params (s : State) (r : Response) : (s.respond r).params = s.params := rfl
@[simp] theorem State.respond_running (s : State) (r : Response) : (s.respond r).running = s.running := rfl
@[simp] theorem State.respond_cards (s : State) (r : Response) : (s.respond r).cards = s.cards := rfl
@[simp] theorem State.respond_cfg (s : State) (r : Response) : (s.respond r).cfg = s.cfg := rfl
@[simp] theorem State.respond_acc (s : State) (r : Response) : (s.respond r).acc = s.acc := rfl
@[simp] theorem State.respond_cnt (s : State) (r : Response) : (s.respond r).cnt = s.cnt := rfl
@[simp] theorem State.respond_iter (s : State) (r : Response) : (s.respond r).iter = s.iter := rfl
@[simp] theorem State.respond_seekLevel (s : State) (r : Response) : (s.respond r).seekLevel = s.seekLevel := rfl
@[simp] theorem State.respond_mem (s : State) (r : Response) : (s.respond r).mem = s.mem := rfl
@[simp] theorem State.respond_present (s : State) (r : Response) : (s.respond r).present = s.present := rfl
@[simp] theorem State.respond_hist (s : State) (r : Response) : (s.respond r).hist = s.hist := rfl
@[simp] theorem State.respond_inbox (s : State) (r : Response) : (s.respond r).inbox = s.inbox := rfl
@[simp] theorem State.respond_response (s : State) (r : Response) : (s.respond r).response = some r := rfl
@[simp] theorem State.respond_tape (s : State) (r : Response) : (s.respond r).tape = s.tape := rfl
@[simp] theorem State.respond_draws (s : State) (r : Response) : (s.respond r).draws = s.draws := rfl

/-! ## beginCommand -/

@[simp] theorem State.beginCommand_params (s : State) (op : Byte) : (s.beginCommand op).params = s.params := rfl
@[simp] theorem State.beginCommand_running (s : State) (op : Byte) : (s.beginCommand op).running = some op := rfl
@[simp] theorem State.beginCommand_cards (s : State) (op : Byte) : (s.beginCommand op).cards = s.cards := rfl
@[simp] theorem State.beginCommand_cfg (s : State) (op : Byte) : (s.beginCommand op).cfg = s.cfg := rfl
@[simp] theorem State.beginCommand_acc (s : State) (op : Byte) : (s.beginCommand op).acc = s.acc := rfl
@[simp] theorem State.beginCommand_cnt (s : State) (op : Byte) : (s.beginCommand op).cnt = s.cnt := rfl
@[simp] theorem State.beginCommand_iter (s : State) (op : Byte) : (s.beginCommand op).iter = s.iter := rfl
@[simp] theorem State.beginCommand_seekLevel (s : State) (op : Byte) : (s.beginCommand op).seekLevel = s.seekLevel := rfl
@[simp] theorem State.beginCommand_mem (s : State) (op : Byte) : (s.beginCommand op).mem = s.mem := rfl
@[simp] theorem State.beginCommand_present (s : State) (op : Byte) : (s.beginCommand op).present = s.present := rfl
@[simp] theorem State.beginCommand_hist (s : State) (op : Byte) : (s.beginCommand op).hist = s.hist ++ [.commandBegins op] := rfl
@[simp] theorem State.beginCommand_inbox (s : State) (op : Byte) : (s.beginCommand op).inbox = s.inbox := rfl
@[simp] theorem State.beginCommand_response (s : State) (op : Byte) : (s.beginCommand op).response = s.response := rfl
@[simp] theorem State.beginCommand_tape (s : State) (op : Byte) : (s.beginCommand op).tape = s.tape := rfl
@[simp] theorem State.beginCommand_draws (s : State) (op : Byte) : (s.beginCommand op).draws = s.draws := rfl

/-! ## endCommand -/

@[simp] theorem State.endCommand_params (s : State) (op : Byte) (r : Response) : (s.endCommand op r).params = s.params := rfl
@[simp] theorem State.endCommand_running (s : State) (op : Byte) (r : Response) : (s.endCommand op r).running = none := rfl
@[simp] theorem State.endCommand_cards (s : State) (op : Byte) (r : Response) : (s.endCommand op r).cards = s.cards := rfl
@[simp] theorem State.endCommand_cfg (s : State) (op : Byte) (r : Response) : (s.endCommand op r).cfg = s.cfg := rfl
@[simp] theorem State.endCommand_acc (s : State) (op : Byte) (r : Response) : (s.endCommand op r).acc = none := rfl
@[simp] theorem State.endCommand_cnt (s : State) (op : Byte) (r : Response) : (s.endCommand op r).cnt = none := rfl
@[simp] theorem State.endCommand_iter (s : State) (op : Byte) (r : Response) : (s.endCommand op r).iter = none := rfl
@[simp] theorem State.endCommand_seekLevel (s : State) (op : Byte) (r : Response) : (s.endCommand op r).seekLevel = none := rfl
@[simp] theorem State.endCommand_mem (s : State) (op : Byte) (r : Response) : (s.endCommand op r).mem = s.mem := rfl
@[simp] theorem State.endCommand_present (s : State) (op : Byte) (r : Response) : (s.endCommand op r).present = s.present := rfl
@[simp] theorem State.endCommand_hist (s : State) (op : Byte) (r : Response) : (s.endCommand op r).hist = s.hist ++ [.commandEnds op r.status] := rfl
@[simp] theorem State.endCommand_inbox (s : State) (op : Byte) (r : Response) : (s.endCommand op r).inbox = s.inbox := rfl
@[simp] theorem State.endCommand_response (s : State) (op : Byte) (r : Response) : (s.endCommand op r).response = some r := rfl
@[simp] theorem State.endCommand_tape (s : State) (op : Byte) (r : Response) : (s.endCommand op r).tape = s.tape := rfl
@[simp] theorem State.endCommand_draws (s : State) (op : Byte) (r : Response) : (s.endCommand op r).draws = s.draws := rfl

/-! ## dropAcc -/

@[simp] theorem State.dropAcc_params (s : State) : (s.dropAcc).params = s.params := rfl
@[simp] theorem State.dropAcc_running (s : State) : (s.dropAcc).running = s.running := rfl
@[simp] theorem State.dropAcc_cards (s : State) : (s.dropAcc).cards = s.cards := rfl
@[simp] theorem State.dropAcc_cfg (s : State) : (s.dropAcc).cfg = s.cfg := rfl
@[simp] theorem State.dropAcc_acc (s : State) : (s.dropAcc).acc = none := rfl
@[simp] theorem State.dropAcc_cnt (s : State) : (s.dropAcc).cnt = none := rfl
@[simp] theorem State.dropAcc_iter (s : State) : (s.dropAcc).iter = s.iter := rfl
@[simp] theorem State.dropAcc_seekLevel (s : State) : (s.dropAcc).seekLevel = s.seekLevel := rfl
@[simp] theorem State.dropAcc_mem (s : State) : (s.dropAcc).mem = s.mem := rfl
@[simp] theorem State.dropAcc_present (s : State) : (s.dropAcc).present = s.present := rfl
@[simp] theorem State.dropAcc_hist (s : State) : (s.dropAcc).hist = s.hist := rfl
@[simp] theorem State.dropAcc_inbox (s : State) : (s.dropAcc).inbox = s.inbox := rfl
@[simp] theorem State.dropAcc_response (s : State) : (s.dropAcc).response = s.response := rfl
@[simp] theorem State.dropAcc_tape (s : State) : (s.dropAcc).tape = s.tape := rfl
@[simp] theorem State.dropAcc_draws (s : State) : (s.dropAcc).draws = s.draws := rfl

/-! ## dropSeek -/

@[simp] theorem State.dropSeek_params (s : State) : (s.dropSeek).params = s.params := rfl
@[simp] theorem State.dropSeek_running (s : State) : (s.dropSeek).running = s.running := rfl
@[simp] theorem State.dropSeek_cards (s : State) : (s.dropSeek).cards = s.cards := rfl
@[simp] theorem State.dropSeek_cfg (s : State) : (s.dropSeek).cfg = s.cfg := rfl
@[simp] theorem State.dropSeek_acc (s : State) : (s.dropSeek).acc = s.acc := rfl
@[simp] theorem State.dropSeek_cnt (s : State) : (s.dropSeek).cnt = s.cnt := rfl
@[simp] theorem State.dropSeek_iter (s : State) : (s.dropSeek).iter = none := rfl
@[simp] theorem State.dropSeek_seekLevel (s : State) : (s.dropSeek).seekLevel = none := rfl
@[simp] theorem State.dropSeek_mem (s : State) : (s.dropSeek).mem = s.mem := rfl
@[simp] theorem State.dropSeek_present (s : State) : (s.dropSeek).present = s.present := rfl
@[simp] theorem State.dropSeek_hist (s : State) : (s.dropSeek).hist = s.hist := rfl
@[simp] theorem State.dropSeek_inbox (s : State) : (s.dropSeek).inbox = s.inbox := rfl
@[simp] theorem State.dropSeek_response (s : State) : (s.dropSeek).response = s.response := rfl
@[simp] theorem State.dropSeek_tape (s : State) : (s.dropSeek).tape = s.tape := rfl
@[simp] theorem State.dropSeek_draws (s : State) : (s.dropSeek).draws = s.draws := rfl

/-! ## tail -/

@[simp] theorem State.tail_params (s : State) (rest : List Input) : (s.tail rest).params = s.params := rfl
@[simp] theorem State.tail_running (s : State) (rest : List Input) : (s.tail rest).running = s.running := rfl
@[simp] theorem State.tail_cards (s : State) (rest : List Input) : (s.tail rest).cards = s.cards := rfl
@[simp] theorem State.tail_cfg (s : State) (rest : List Input) : (s.tail rest).cfg = s.cfg := rfl
@[simp] theorem State.tail_acc (s : State) (rest : List Input) : (s.tail rest).acc = s.acc := rfl
@[simp] theorem State.tail_cnt (s : State) (rest : List Input) : (s.tail rest).cnt = s.cnt := rfl
@[simp] theorem State.tail_iter (s : State) (rest : List Input) : (s.tail rest).iter = s.iter := rfl
@[simp] theorem State.tail_seekLevel (s : State) (rest : List Input) : (s.tail rest).seekLevel = s.seekLevel := rfl
@[simp] theorem State.tail_mem (s : State) (rest : List Input) : (s.tail rest).mem = s.mem := rfl
@[simp] theorem State.tail_present (s : State) (rest : List Input) : (s.tail rest).present = s.present := rfl
@[simp] theorem State.tail_hist (s : State) (rest : List Input) : (s.tail rest).hist = s.hist := rfl
@[simp] theorem State.tail_inbox (s : State) (rest : List Input) : (s.tail rest).inbox = rest := rfl
@[simp] theorem State.tail_response (s : State) (rest : List Input) : (s.tail rest).response = s.response := rfl
@[simp] theorem State.tail_tape (s : State) (rest : List Input) : (s.tail rest).tape = s.tape := rfl
@[simp] theorem State.tail_draws (s : State) (rest : List Input) : (s.tail rest).draws = s.draws := rfl

/-! ## plug -/

@[simp] theorem State.plug_params (s : State) (i : CardIx) (p : Bool) : (s.plug i p).params = s.params := rfl
@[simp] theorem State.plug_running (s : State) (i : CardIx) (p : Bool) : (s.plug i p).running = s.running := rfl
@[simp] theorem State.plug_cards (s : State) (i : CardIx) (p : Bool) : (s.plug i p).cards = s.cards := rfl
@[simp] theorem State.plug_cfg (s : State) (i : CardIx) (p : Bool) : (s.plug i p).cfg = s.cfg := rfl
@[simp] theorem State.plug_acc (s : State) (i : CardIx) (p : Bool) : (s.plug i p).acc = s.acc := rfl
@[simp] theorem State.plug_cnt (s : State) (i : CardIx) (p : Bool) : (s.plug i p).cnt = s.cnt := rfl
@[simp] theorem State.plug_iter (s : State) (i : CardIx) (p : Bool) : (s.plug i p).iter = s.iter := rfl
@[simp] theorem State.plug_seekLevel (s : State) (i : CardIx) (p : Bool) : (s.plug i p).seekLevel = s.seekLevel := rfl
@[simp] theorem State.plug_mem (s : State) (i : CardIx) (p : Bool) : (s.plug i p).mem = s.mem := rfl
@[simp] theorem State.plug_present (s : State) (i : CardIx) (p : Bool) : (s.plug i p).present = s.present.set i p := rfl
@[simp] theorem State.plug_hist (s : State) (i : CardIx) (p : Bool) : (s.plug i p).hist = s.hist := rfl
@[simp] theorem State.plug_inbox (s : State) (i : CardIx) (p : Bool) : (s.plug i p).inbox = s.inbox := rfl
@[simp] theorem State.plug_response (s : State) (i : CardIx) (p : Bool) : (s.plug i p).response = s.response := rfl
@[simp] theorem State.plug_tape (s : State) (i : CardIx) (p : Bool) : (s.plug i p).tape = s.tape := rfl
@[simp] theorem State.plug_draws (s : State) (i : CardIx) (p : Bool) : (s.plug i p).draws = s.draws := rfl

/-! ## restart -/

@[simp] theorem State.restart_params (s : State) : (s.restart).params = s.params := rfl
@[simp] theorem State.restart_running (s : State) : (s.restart).running = none := rfl
@[simp] theorem State.restart_cards (s : State) : (s.restart).cards = Vector.replicate _ Card.blank := rfl
@[simp] theorem State.restart_cfg (s : State) : (s.restart).cfg = s.cfg := rfl
@[simp] theorem State.restart_acc (s : State) : (s.restart).acc = none := rfl
@[simp] theorem State.restart_cnt (s : State) : (s.restart).cnt = none := rfl
@[simp] theorem State.restart_iter (s : State) : (s.restart).iter = none := rfl
@[simp] theorem State.restart_seekLevel (s : State) : (s.restart).seekLevel = none := rfl
@[simp] theorem State.restart_mem (s : State) : (s.restart).mem = s.mem := rfl
@[simp] theorem State.restart_present (s : State) : (s.restart).present = s.present := rfl
@[simp] theorem State.restart_hist (s : State) : (s.restart).hist = [] := rfl
@[simp] theorem State.restart_inbox (s : State) : (s.restart).inbox = s.inbox := rfl
@[simp] theorem State.restart_response (s : State) : (s.restart).response = none := rfl
@[simp] theorem State.restart_tape (s : State) : (s.restart).tape = s.tape := rfl
@[simp] theorem State.restart_draws (s : State) : (s.restart).draws = s.draws := rfl

/-! ## withFrame -/

@[simp] theorem State.withFrame_params (s : State) (f : Frame) : (s.withFrame f).params = s.params := rfl
@[simp] theorem State.withFrame_running (s : State) (f : Frame) : (s.withFrame f).running = s.running := rfl
@[simp] theorem State.withFrame_cards (s : State) (f : Frame) : (s.withFrame f).cards = s.cards := rfl
@[simp] theorem State.withFrame_cfg (s : State) (f : Frame) : (s.withFrame f).cfg = s.cfg := rfl
@[simp] theorem State.withFrame_acc (s : State) (f : Frame) : (s.withFrame f).acc = s.acc := rfl
@[simp] theorem State.withFrame_cnt (s : State) (f : Frame) : (s.withFrame f).cnt = s.cnt := rfl
@[simp] theorem State.withFrame_iter (s : State) (f : Frame) : (s.withFrame f).iter = s.iter := rfl
@[simp] theorem State.withFrame_seekLevel (s : State) (f : Frame) : (s.withFrame f).seekLevel = s.seekLevel := rfl
@[simp] theorem State.withFrame_mem (s : State) (f : Frame) : (s.withFrame f).mem = s.mem := rfl
@[simp] theorem State.withFrame_present (s : State) (f : Frame) : (s.withFrame f).present = s.present := rfl
@[simp] theorem State.withFrame_hist (s : State) (f : Frame) : (s.withFrame f).hist = s.hist := rfl
@[simp] theorem State.withFrame_inbox (s : State) (f : Frame) : (s.withFrame f).inbox = .frame (issuerOf f) f :: s.inbox := rfl
@[simp] theorem State.withFrame_response (s : State) (f : Frame) : (s.withFrame f).response = s.response := rfl
@[simp] theorem State.withFrame_tape (s : State) (f : Frame) : (s.withFrame f).tape = s.tape := rfl
@[simp] theorem State.withFrame_draws (s : State) (f : Frame) : (s.withFrame f).draws = s.draws := rfl

/-! ## clearCfg -/

@[simp] theorem State.clearCfg_params (s : State) : (s.clearCfg).params = s.params := rfl
@[simp] theorem State.clearCfg_running (s : State) : (s.clearCfg).running = s.running := rfl
@[simp] theorem State.clearCfg_cards (s : State) : (s.clearCfg).cards = s.cards := rfl
@[simp] theorem State.clearCfg_cfg (s : State) : (s.clearCfg).cfg = Vector.replicate _ (Vector.replicate _ CfgEntry.off) := rfl
@[simp] theorem State.clearCfg_acc (s : State) : (s.clearCfg).acc = s.acc := rfl
@[simp] theorem State.clearCfg_cnt (s : State) : (s.clearCfg).cnt = s.cnt := rfl
@[simp] theorem State.clearCfg_iter (s : State) : (s.clearCfg).iter = s.iter := rfl
@[simp] theorem State.clearCfg_seekLevel (s : State) : (s.clearCfg).seekLevel = s.seekLevel := rfl
@[simp] theorem State.clearCfg_mem (s : State) : (s.clearCfg).mem = s.mem := rfl
@[simp] theorem State.clearCfg_present (s : State) : (s.clearCfg).present = s.present := rfl
@[simp] theorem State.clearCfg_hist (s : State) : (s.clearCfg).hist = s.hist := rfl
@[simp] theorem State.clearCfg_inbox (s : State) : (s.clearCfg).inbox = s.inbox := rfl
@[simp] theorem State.clearCfg_response (s : State) : (s.clearCfg).response = s.response := rfl
@[simp] theorem State.clearCfg_tape (s : State) : (s.clearCfg).tape = s.tape := rfl
@[simp] theorem State.clearCfg_draws (s : State) : (s.clearCfg).draws = s.draws := rfl

/-! ## took -/

@[simp] theorem State.took_params (s : State) (n : Nat) : (s.took n).params = s.params := rfl
@[simp] theorem State.took_running (s : State) (n : Nat) : (s.took n).running = s.running := rfl
@[simp] theorem State.took_cards (s : State) (n : Nat) : (s.took n).cards = s.cards := rfl
@[simp] theorem State.took_cfg (s : State) (n : Nat) : (s.took n).cfg = s.cfg := rfl
@[simp] theorem State.took_acc (s : State) (n : Nat) : (s.took n).acc = s.acc := rfl
@[simp] theorem State.took_cnt (s : State) (n : Nat) : (s.took n).cnt = s.cnt := rfl
@[simp] theorem State.took_iter (s : State) (n : Nat) : (s.took n).iter = s.iter := rfl
@[simp] theorem State.took_seekLevel (s : State) (n : Nat) : (s.took n).seekLevel = s.seekLevel := rfl
@[simp] theorem State.took_mem (s : State) (n : Nat) : (s.took n).mem = s.mem := rfl
@[simp] theorem State.took_present (s : State) (n : Nat) : (s.took n).present = s.present := rfl
@[simp] theorem State.took_hist (s : State) (n : Nat) : (s.took n).hist = s.hist := rfl
@[simp] theorem State.took_inbox (s : State) (n : Nat) : (s.took n).inbox = s.inbox := rfl
@[simp] theorem State.took_response (s : State) (n : Nat) : (s.took n).response = s.response := rfl
@[simp] theorem State.took_tape (s : State) (n : Nat) : (s.took n).tape = s.tape.drop n := rfl
@[simp] theorem State.took_draws (s : State) (n : Nat) : (s.took n).draws = s.draws + (n - s.tape.length) := rfl

/-! ## setCard -/

@[simp] theorem State.setCard_params (s : State) (a : Int) (c : Card) : (s.setCard a c).params = s.params := by unfold State.setCard; split <;> rfl
@[simp] theorem State.setCard_running (s : State) (a : Int) (c : Card) : (s.setCard a c).running = s.running := by unfold State.setCard; split <;> rfl
@[simp] theorem State.setCard_cfg (s : State) (a : Int) (c : Card) : (s.setCard a c).cfg = s.cfg := by unfold State.setCard; split <;> rfl
@[simp] theorem State.setCard_acc (s : State) (a : Int) (c : Card) : (s.setCard a c).acc = s.acc := by unfold State.setCard; split <;> rfl
@[simp] theorem State.setCard_cnt (s : State) (a : Int) (c : Card) : (s.setCard a c).cnt = s.cnt := by unfold State.setCard; split <;> rfl
@[simp] theorem State.setCard_iter (s : State) (a : Int) (c : Card) : (s.setCard a c).iter = s.iter := by unfold State.setCard; split <;> rfl
@[simp] theorem State.setCard_seekLevel (s : State) (a : Int) (c : Card) : (s.setCard a c).seekLevel = s.seekLevel := by unfold State.setCard; split <;> rfl
@[simp] theorem State.setCard_mem (s : State) (a : Int) (c : Card) : (s.setCard a c).mem = s.mem := by unfold State.setCard; split <;> rfl
@[simp] theorem State.setCard_present (s : State) (a : Int) (c : Card) : (s.setCard a c).present = s.present := by unfold State.setCard; split <;> rfl
@[simp] theorem State.setCard_hist (s : State) (a : Int) (c : Card) : (s.setCard a c).hist = s.hist := by unfold State.setCard; split <;> rfl
@[simp] theorem State.setCard_inbox (s : State) (a : Int) (c : Card) : (s.setCard a c).inbox = s.inbox := by unfold State.setCard; split <;> rfl
@[simp] theorem State.setCard_response (s : State) (a : Int) (c : Card) : (s.setCard a c).response = s.response := by unfold State.setCard; split <;> rfl
@[simp] theorem State.setCard_tape (s : State) (a : Int) (c : Card) : (s.setCard a c).tape = s.tape := by unfold State.setCard; split <;> rfl
@[simp] theorem State.setCard_draws (s : State) (a : Int) (c : Card) : (s.setCard a c).draws = s.draws := by unfold State.setCard; split <;> rfl

/-! ## setCfgEntry -/

@[simp] theorem State.setCfgEntry_params (s : State) (a ch : Int) (e : CfgEntry) : (s.setCfgEntry a ch e).params = s.params := by unfold State.setCfgEntry; split <;> rfl
@[simp] theorem State.setCfgEntry_running (s : State) (a ch : Int) (e : CfgEntry) : (s.setCfgEntry a ch e).running = s.running := by unfold State.setCfgEntry; split <;> rfl
@[simp] theorem State.setCfgEntry_cards (s : State) (a ch : Int) (e : CfgEntry) : (s.setCfgEntry a ch e).cards = s.cards := by unfold State.setCfgEntry; split <;> rfl
@[simp] theorem State.setCfgEntry_acc (s : State) (a ch : Int) (e : CfgEntry) : (s.setCfgEntry a ch e).acc = s.acc := by unfold State.setCfgEntry; split <;> rfl
@[simp] theorem State.setCfgEntry_cnt (s : State) (a ch : Int) (e : CfgEntry) : (s.setCfgEntry a ch e).cnt = s.cnt := by unfold State.setCfgEntry; split <;> rfl
@[simp] theorem State.setCfgEntry_iter (s : State) (a ch : Int) (e : CfgEntry) : (s.setCfgEntry a ch e).iter = s.iter := by unfold State.setCfgEntry; split <;> rfl
@[simp] theorem State.setCfgEntry_seekLevel (s : State) (a ch : Int) (e : CfgEntry) : (s.setCfgEntry a ch e).seekLevel = s.seekLevel := by unfold State.setCfgEntry; split <;> rfl
@[simp] theorem State.setCfgEntry_mem (s : State) (a ch : Int) (e : CfgEntry) : (s.setCfgEntry a ch e).mem = s.mem := by unfold State.setCfgEntry; split <;> rfl
@[simp] theorem State.setCfgEntry_present (s : State) (a ch : Int) (e : CfgEntry) : (s.setCfgEntry a ch e).present = s.present := by unfold State.setCfgEntry; split <;> rfl
@[simp] theorem State.setCfgEntry_hist (s : State) (a ch : Int) (e : CfgEntry) : (s.setCfgEntry a ch e).hist = s.hist := by unfold State.setCfgEntry; split <;> rfl
@[simp] theorem State.setCfgEntry_inbox (s : State) (a ch : Int) (e : CfgEntry) : (s.setCfgEntry a ch e).inbox = s.inbox := by unfold State.setCfgEntry; split <;> rfl
@[simp] theorem State.setCfgEntry_response (s : State) (a ch : Int) (e : CfgEntry) : (s.setCfgEntry a ch e).response = s.response := by unfold State.setCfgEntry; split <;> rfl
@[simp] theorem State.setCfgEntry_tape (s : State) (a ch : Int) (e : CfgEntry) : (s.setCfgEntry a ch e).tape = s.tape := by unfold State.setCfgEntry; split <;> rfl
@[simp] theorem State.setCfgEntry_draws (s : State) (a ch : Int) (e : CfgEntry) : (s.setCfgEntry a ch e).draws = s.draws := by unfold State.setCfgEntry; split <;> rfl

/-! ## tookAnswer -/

@[simp] theorem State.tookAnswer_params (s : State) : (s.tookAnswer).params = s.params := by unfold State.tookAnswer; split <;> rfl
@[simp] theorem State.tookAnswer_running (s : State) : (s.tookAnswer).running = s.running := by unfold State.tookAnswer; split <;> rfl
@[simp] theorem State.tookAnswer_cards (s : State) : (s.tookAnswer).cards = s.cards := by unfold State.tookAnswer; split <;> rfl
@[simp] theorem State.tookAnswer_cfg (s : State) : (s.tookAnswer).cfg = s.cfg := by unfold State.tookAnswer; split <;> rfl
@[simp] theorem State.tookAnswer_acc (s : State) : (s.tookAnswer).acc = s.acc := by unfold State.tookAnswer; split <;> rfl
@[simp] theorem State.tookAnswer_cnt (s : State) : (s.tookAnswer).cnt = s.cnt := by unfold State.tookAnswer; split <;> rfl
@[simp] theorem State.tookAnswer_iter (s : State) : (s.tookAnswer).iter = s.iter := by unfold State.tookAnswer; split <;> rfl
@[simp] theorem State.tookAnswer_seekLevel (s : State) : (s.tookAnswer).seekLevel = s.seekLevel := by unfold State.tookAnswer; split <;> rfl
@[simp] theorem State.tookAnswer_mem (s : State) : (s.tookAnswer).mem = s.mem := by unfold State.tookAnswer; split <;> rfl
@[simp] theorem State.tookAnswer_present (s : State) : (s.tookAnswer).present = s.present := by unfold State.tookAnswer; split <;> rfl
@[simp] theorem State.tookAnswer_hist (s : State) : (s.tookAnswer).hist = s.hist := by unfold State.tookAnswer; split <;> rfl
@[simp] theorem State.tookAnswer_inbox (s : State) : (s.tookAnswer).inbox = s.inbox := by unfold State.tookAnswer; split <;> rfl
@[simp] theorem State.tookAnswer_response (s : State) : (s.tookAnswer).response = s.response := by unfold State.tookAnswer; split <;> rfl

end Sys2Proof.Machine
end

