-- ==== Sys2Proof/Laws/Memory.lean ====
section
/-! SUPPORT. Device-register memory: a write is read back and leaves every other cell alone, every operation keeps the
canonical form, and the cells of different registers differ. -/

namespace Sys2Proof.Machine

/-- Every listed cell lies above `k`. -/
theorem Memory.wf_tail {k : Nat} {b : Byte} {m : List Host.Cell} (h : Memory.wf ((k, b) :: m) = true) :
    Memory.wf m = true := by
  cases m with
  | nil => rfl
  | cons c m => obtain ⟨k', b'⟩ := c; simp [Memory.wf] at h ⊢; exact h.2

theorem Memory.wf_head_ne {k : Nat} {b : Byte} {m : List Host.Cell} (h : Memory.wf ((k, b) :: m) = true) :
    b ≠ Memory.unlisted := by
  cases m with
  | nil => simpa [Memory.wf] using h
  | cons c m => obtain ⟨k', b'⟩ := c; simp [Memory.wf] at h; exact h.1.1

theorem Memory.wf_cons_iff {k : Nat} {b : Byte} {m : List Host.Cell} :
    Memory.wf ((k, b) :: m) = true ↔
      b ≠ Memory.unlisted ∧ (∀ c, m.head? = some c → k < c.1) ∧ Memory.wf m = true := by
  cases m with
  | nil => simp [Memory.wf]
  | cons c m => obtain ⟨k', b'⟩ := c; simp [Memory.wf, and_assoc]

theorem Memory.read_below {m : List Host.Cell} {k : Nat} (h : Memory.wf m = true)
    (hk : ∀ c, m.head? = some c → k < c.1) : Memory.read m k = Memory.unlisted := by
  induction m with
  | nil => rfl
  | cons c m ih =>
    obtain ⟨k', b⟩ := c
    have h' := Memory.wf_cons_iff.mp h
    have hlt : k < k' := hk _ rfl
    have : k' ≠ k := by omega
    simp only [Memory.read, this, if_false]
    exact ih h'.2.2 fun c hc => lt_trans hlt (h'.2.1 c hc)

theorem Memory.head_write {m : List Host.Cell} {k j : Nat} {v : Byte} (h : Memory.wf m = true)
    (hm : ∀ c, m.head? = some c → j < c.1) (hj : j < k) :
    ∀ c, (Memory.write m k v).head? = some c → j < c.1 := by
  cases m with
  | nil =>
    intro c hc
    simp only [Memory.write] at hc
    split at hc
    · cases hc
    · cases hc; exact hj
  | cons c' m =>
    obtain ⟨k', b⟩ := c'
    have hj' : j < k' := hm _ rfl
    intro c hc
    simp only [Memory.write] at hc
    have htail := (Memory.wf_cons_iff.mp h).2.1
    split at hc
    · split at hc <;> simp only [List.head?_cons, Option.some.injEq] at hc <;> subst hc <;> simpa
    · split at hc
      · split at hc
        · exact lt_trans hj' (htail c hc)
        · simp only [List.head?_cons, Option.some.injEq] at hc; subst hc; simpa
      · simp only [List.head?_cons, Option.some.injEq] at hc; subst hc; simpa

/-- A write keeps the canonical form. -/
theorem Memory.wf_write {m : List Host.Cell} (k : Nat) (v : Byte) (h : Memory.wf m = true) :
    Memory.wf (Memory.write m k v) = true := by
  induction m with
  | nil => unfold Memory.write; split <;> simp_all [Memory.wf]
  | cons c m ih =>
    obtain ⟨k', b⟩ := c
    have h' := Memory.wf_cons_iff.mp h
    unfold Memory.write
    split
    · split
      · exact h
      · next hlt hv => exact Memory.wf_cons_iff.mpr ⟨hv, by simpa using hlt, h⟩
    · split
      · split
        · exact h'.2.2
        · next heq hv =>
          subst heq
          exact Memory.wf_cons_iff.mpr ⟨hv, h'.2.1, h'.2.2⟩
      · next hlt hne =>
        exact Memory.wf_cons_iff.mpr
          ⟨h'.1, Memory.head_write h'.2.2 h'.2.1 (by omega), ih h'.2.2⟩

/-- A list of writes keeps the canonical form. -/
theorem Memory.wf_writeAll {m : List Host.Cell} (ws : List (Nat × Byte)) (h : Memory.wf m = true) :
    Memory.wf (Memory.writeAll m ws) = true := by
  induction ws generalizing m with
  | nil => exact h
  | cons w ws ih => obtain ⟨k, v⟩ := w; exact ih (Memory.wf_write k v h)

/-- Read after write, the same cell. -/
theorem Memory.read_write_same {m : List Host.Cell} (k : Nat) (v : Byte) (h : Memory.wf m = true) :
    Memory.read (Memory.write m k v) k = v := by
  induction m with
  | nil => unfold Memory.write; split <;> simp_all [Memory.read]
  | cons c m ih =>
    obtain ⟨k', b⟩ := c
    have h' := Memory.wf_cons_iff.mp h
    unfold Memory.write
    split
    · next hlt =>
      split
      · next hv =>
        rw [hv]
        exact Memory.read_below h (by simpa using hlt)
      · simp [Memory.read]
    · split
      · next heq =>
        subst heq
        split
        · next hv => rw [hv]; exact Memory.read_below h'.2.2 h'.2.1
        · simp [Memory.read]
      · next hne =>
        have : k' ≠ k := fun e => hne e.symm
        simp only [Memory.read, this, if_false]
        exact ih h'.2.2

/-- Read after write, another cell. -/
theorem Memory.read_write_other (m : List Host.Cell) {k j : Nat} (v : Byte) (hne : j ≠ k) :
    Memory.read (Memory.write m k v) j = Memory.read m j := by
  induction m with
  | nil => unfold Memory.write; split <;> simp [Memory.read, hne.symm]
  | cons c m ih =>
    obtain ⟨k', b⟩ := c
    unfold Memory.write
    split
    · split <;> simp [Memory.read, hne.symm]
    · split
      · next heq => subst heq; split <;> simp [Memory.read, hne.symm]
      · simp only [Memory.read, ih]

/-- A list of writes leaves a cell it does not name alone. -/
theorem Memory.read_writeAll_other {ws : List (Nat × Byte)} (m : List Host.Cell) {j : Nat}
    (hj : j ∉ ws.map Prod.fst) : Memory.read (Memory.writeAll m ws) j = Memory.read m j := by
  induction ws generalizing m with
  | nil => rfl
  | cons w ws ih =>
    obtain ⟨k, v⟩ := w
    simp only [List.map_cons, List.mem_cons, not_or] at hj
    simp only [Memory.writeAll]
    rw [ih _ hj.2, Memory.read_write_other m v hj.1]

/-- A list of writes to different cells is read back. -/
theorem Memory.read_writeAll_mem {ws : List (Nat × Byte)} {m : List Host.Cell} (h : Memory.wf m = true)
    (hnd : (ws.map Prod.fst).Nodup) {k : Nat} {v : Byte} (hkv : (k, v) ∈ ws) :
    Memory.read (Memory.writeAll m ws) k = v := by
  induction ws generalizing m with
  | nil => cases hkv
  | cons w ws ih =>
    obtain ⟨k', v'⟩ := w
    simp only [List.map_cons, List.nodup_cons] at hnd
    simp only [Memory.writeAll]
    rcases List.mem_cons.mp hkv with heq | hin
    · cases heq
      rw [Memory.read_writeAll_other _ hnd.1, Memory.read_write_same _ _ h]
    · exact ih (Memory.wf_write _ _ h) hnd.2 hin

/-- What a cell reads as after a list of writes depends on what it read as before, and on the writes. -/
theorem Memory.read_writeAll_congr {m m' : List Host.Cell} {x : Nat} (hx : ∀ k, k ≠ x → Memory.read m' k = Memory.read m k)
    (hm : Memory.wf m = true) (hm' : Memory.wf m' = true) (ws : List (Nat × Byte)) {k : Nat} (hk : k ≠ x) :
    Memory.read (Memory.writeAll m' ws) k = Memory.read (Memory.writeAll m ws) k := by
  induction ws generalizing m m' with
  | nil => exact hx k hk
  | cons w ws ih =>
    obtain ⟨j, v⟩ := w
    refine ih (fun k' hk' => ?_) (Memory.wf_write _ _ hm) (Memory.wf_write _ _ hm')
    by_cases e : k' = j
    · subst e; rw [Memory.read_write_same _ _ hm', Memory.read_write_same _ _ hm]
    · rw [Memory.read_write_other _ _ e, Memory.read_write_other _ _ e, hx k' hk']

@[simp] theorem State.reset_mem_wf : Memory.wf State.reset.mem = true := rfl

end Sys2Proof.Machine
end

