-- ==== Sys2Proof/Laws/Operands.lean ====
section
/-! SUPPORT. The operand forms and wire formats, and the cached cards by address. -/

namespace Sys2Proof.Machine

/-! ## Cards and channels by number -/

theorem cardIx?_eq_some {a : Int} {i : CardIx} : cardIx? a = some i ↔ cardNo i = a := by
  unfold cardIx? cardNo
  constructor
  · intro h
    split at h
    · next hh => cases h; simp at hh ⊢; omega
    · cases h
  · intro h
    have hi := i.lt
    have h1 : (Config.pb.cardMin : Int) ≤ a ∧ a ≤ Config.pb.cardMax := by simp at h ⊢; omega
    rw [dif_pos h1]
    congr 1
    ext
    simp at h ⊢
    omega

@[simp] theorem cardIx?_cardNo (i : CardIx) : cardIx? (cardNo i) = some i := cardIx?_eq_some.mpr rfl

theorem cardIx?_inj {a b : Int} {i : CardIx} (ha : cardIx? a = some i) (hb : cardIx? b = some i) : a = b := by
  rw [← cardIx?_eq_some.mp ha, ← cardIx?_eq_some.mp hb]

theorem cardIx?_isSome {a : Int} (h : isCardNo a) : ∃ i, cardIx? a = some i := by
  unfold cardIx?
  exact ⟨_, dif_pos h⟩

theorem chanIx?_isSome {ch : Int} (h : isChanNo ch) : ∃ c, chanIx? ch = some c := by
  unfold chanIx?
  exact ⟨_, dif_pos h⟩

theorem isChannel_iff {ch : Int} : isChannel ch = true ↔ isChanNo ch := by
  simp [isChannel, isChanNo]

theorem isChannel_of_chanIx {ch : Int} {c : ChanIx} (h : chanIx? ch = some c) : isChannel ch = true := by
  unfold chanIx? at h
  split at h
  · next hh => simp only [isChannel, Bool.and_eq_true, decide_eq_true_eq]; exact hh
  · cases h

theorem isCard_iff {a : Int} : isCard a = true ↔ isCardNo a := by
  simp [isCard, isCardNo]

theorem isLevel_iff {v : Int} : isLevel v = true ↔ 0 ≤ v ∧ v ≤ 1023 := by
  simp only [isLevel, Bool.and_eq_true, decide_eq_true_eq]; rfl

/-! ## The cached cards -/

theorem State.card_of_ix (s : State) {a : Int} {i : CardIx} (h : cardIx? a = some i) : s.card a = s.cards[i] := by
  simp [State.card, h]

@[simp] theorem State.card_setCard_same (s : State) {a : Int} {i : CardIx} (c : Card) (h : cardIx? a = some i) :
    (s.setCard a c).card a = c := by
  simp [State.setCard, State.card, h]

@[simp] theorem State.card_setCard_other (s : State) {a b : Int} (c : Card) (h : b ≠ a) :
    (s.setCard a c).card b = s.card b := by
  unfold State.setCard
  split
  · next i hi =>
    unfold State.card
    split
    · next j hj =>
      have hij : i ≠ j := fun e => h (cardIx?_inj hj (e ▸ hi))
      have hij' : i.val ≠ j.val := fun e => hij (Fin.ext e)
      simp [hij']
    · rfl
  · rfl

/-- Two states with the same cards answer `card` alike. -/
theorem State.card_congr {s t : State} (h : t.cards = s.cards) (a : Int) : t.card a = s.card a := by
  simp [State.card, h]

/-! ## Cells of different registers differ -/

theorem swCell_ne_xpCell (i i' : CardIx) (j : Fin 2) : swCell i ≠ xpCell i' j := by
  rw [swCell_val, xpCell_val]; omega

theorem swCell_inj {i i' : CardIx} (h : swCell i = swCell i') : i = i' := by
  rw [swCell_val, swCell_val] at h; exact Fin.ext (by omega)

theorem swCell_ne_potCell (i i' : CardIx) (k : PotIx) (s : SubIx) {j : Nat} (hj : j < 4) :
    swCell i ≠ potCell i' k s j := by
  have := k.lt; have := s.lt
  rw [potCell_val, swCell_val]; omega

theorem swCell_ne_snsCfgCell (i i' : CardIx) (c : ChanIx) (b : Fin 2) : swCell i ≠ snsCfgCell i' c + b.val := by
  have := c.lt
  rw [swCell_val, snsCfgCell_val]; omega

theorem swCell_ne_snsCalCell (i i' : CardIx) (c : ChanIx) (b : Fin 2) : swCell i ≠ snsCalCell i' c + b.val := by
  have := c.lt
  rw [swCell_val, snsCalCell_val]; omega

/-! ## Wire formats -/

/-- R78: the four bytes written are `B(v)`, for every level. -/
theorem patternBytes_potPattern : ∀ v : Fin 1024, patternBytes (potPattern v.val) = potBytes v.val := by
  decide +kernel

/-- R80: the sum of the bytes written. -/
theorem byteSum_patternBytes_potPattern :
    ∀ v : Fin 1024, byteSum (patternBytes (potPattern v.val)) = v.val - v.val / 256 := by
  decide +kernel

@[simp] theorem patternBytes_length (p : Word) : (patternBytes p).length = 4 := rfl

@[simp] theorem xpBlock_length (m t : Byte) : (xpBlock m t).length = 2 := rfl

@[simp] theorem not8_not8 (b : Byte) : not8 (not8 b) = b := by simp [not8]

@[simp] theorem bswap16_bswap16 (w : Half) : bswap16 (bswap16 w) = w := by
  unfold bswap16
  ext i hi
  simp only [BitVec.getElem_append, BitVec.getElem_extractLsb', BitVec.getLsbD_append, BitVec.getLsbD_extractLsb']
  split <;> split <;> simp_all
  all_goals omega

/-- The low byte of two bytes put together. -/
theorem extract_lo_append (a b : Byte) : (a ++ b).extractLsb' 0 8 = b := by
  ext k hk
  simp only [BitVec.getElem_extractLsb', BitVec.getLsbD_append]
  simp [hk]

/-- The high byte of two bytes put together. -/
theorem extract_hi_append (a b : Byte) : (a ++ b).extractLsb' 8 8 = a := by
  ext k hk
  simp only [BitVec.getElem_extractLsb', BitVec.getLsbD_append]
  simp [hk]

/-- A 16-bit value from its two bytes. -/
theorem append_extract (w : Half) : w.extractLsb' 8 8 ++ w.extractLsb' 0 8 = w := by
  ext i hi
  simp only [BitVec.getElem_append, BitVec.getElem_extractLsb']
  split <;> simp_all

theorem bswap16_lo (w : Half) : (bswap16 w).extractLsb' 0 8 = w.extractLsb' 8 8 := extract_lo_append _ _

theorem bswap16_hi (w : Half) : (bswap16 w).extractLsb' 8 8 = w.extractLsb' 0 8 := extract_hi_append _ _

/-- R75: bit 7 of the control byte is the `enable` operand. -/
theorem isoConnects_isoCtl (en a1 a2 : Bool) : isoConnects (isoCtl en a1 a2) = en := by
  cases en <;> cases a1 <;> cases a2 <;> decide

theorem isoLowBits_isoCtl (en a1 a2 : Bool) : isoLowBits (isoCtl en a1 a2) = 0 := by
  cases en <;> cases a1 <;> cases a2 <;> decide

end Sys2Proof.Machine
end

