-- ==== Sys2Proof/Laws/Ops.lean ====
section
/-! SUPPORT. What each shared operation answers: sequencing, the small operations, routing, one bus transaction, the
bracket, and a command from its checks to its response. -/

namespace Sys2Proof.Machine

variable {α β : Type}

/-! ## Sequencing -/

theorem Op.bind_apply (x : Op α) (f : α → Op β) (s : State) :
    (x >>= f) s = match x s with
      | .ok v s' => f v s'
      | .error e s' => .error e s' := by
  change EStateM.bind x f s = _
  unfold EStateM.bind
  cases x s <;> rfl

theorem Op.bind_ok {x : Op α} {f : α → Op β} {s s' : State} {v : α} (h : x s = .ok v s') :
    (x >>= f) s = f v s' := by
  rw [Op.bind_apply, h]

theorem Op.bind_error {x : Op α} {f : α → Op β} {s s' : State} {e : Stop} (h : x s = .error e s') :
    (x >>= f) s = .error e s' := by
  rw [Op.bind_apply, h]

@[simp] theorem Op.map_apply (g : α → β) (x : Op α) (s : State) :
    (g <$> x) s = match x s with
      | .ok v s' => .ok (g v) s'
      | .error e s' => .error e s' := by
  change EStateM.map g x s = _
  unfold EStateM.map
  cases x s <;> rfl

@[simp] theorem Op.pure_apply (v : α) (s : State) : (pure v : Op α) s = .ok v s := rfl

@[simp] theorem Op.pure_bind (v : α) (f : α → Op β) : ((pure v : Op α) >>= f) = f v := rfl

@[simp] theorem Op.get_apply (s : State) : (get : Op State) s = .ok s s := rfl

@[simp] theorem Op.get_bind (f : State → Op β) (s : State) : ((get : Op State) >>= f) s = f s s := rfl

@[simp] theorem Op.modify_apply (g : State → State) (s : State) :
    (modify g : Op PUnit) s = .ok ⟨⟩ (g s) := rfl

@[simp] theorem Op.modify_bind (g : State → State) (f : PUnit → Op β) (s : State) :
    ((modify g : Op PUnit) >>= f) s = f ⟨⟩ (g s) := rfl

@[simp] theorem raise_apply (f : Failure) (s : State) : (raise f : Op α) s = .error (.failed f) s := rfl

@[simp] theorem halt_apply (r : Fault) (s : State) : (halt r : Op α) s = .error (.fault r) s := rfl

@[simp] theorem emit_apply (e : Event) (s : State) : emit e s = .ok ⟨⟩ { s with hist := s.hist ++ [e] } := rfl

@[simp] theorem modifyCard_apply (a : Int) (f : Card → Card) (s : State) :
    modifyCard a f s = .ok ⟨⟩ (s.setCard a (f (s.card a))) := rfl

@[simp] theorem draw_apply (s : State) : draw s = .ok s.nextAnswer s.tookAnswer := rfl

@[simp] theorem checkArg_true : checkArg true = pure () := rfl

@[simp] theorem checkArg_false : checkArg false = raise .invalidArgument := rfl

@[simp] theorem asBool_some (b : Bool) : asBool (some b) = pure b := rfl

@[simp] theorem asBool_none : asBool none = raise .invalidArgument := rfl

theorem chanIx_of_ix {ch : Int} {c : ChanIx} (h : chanIx? ch = some c) : chanIx ch = pure c := by
  simp [chanIx, h]

theorem readField_of_some {field : State → Option α} {s : State} {v : α} (h : field s = some v) :
    readField field s = .ok v s := by
  simp [readField, h]

theorem readField_of_none {field : State → Option α} {s : State} (h : field s = none) :
    readField field s = .error (.fault .noValue) s := by
  simp [readField, h]

theorem requireOpen_of_open {a : Int} {s : State} (h : (s.card a).iso = some .opened) :
    requireOpen a s = .ok ⟨⟩ s := by
  simp [requireOpen, h]

theorem requireOpen_of_not_open {a : Int} {s : State} (h : (s.card a).iso ≠ some .opened) :
    requireOpen a s = .error (.fault .notOpen) s := by
  simp [requireOpen, h]

@[simp] theorem forEach_nil (body : α → Op Unit) : forEach [] body = pure () := rfl

@[simp] theorem forEach_cons (x : α) (xs : List α) (body : α → Op Unit) :
    forEach (x :: xs) body = (do body x; forEach xs body) := rfl

/-! ## The environment's answers -/

theorem State.answer_zero (s : State) : s.answer 0 = s.nextAnswer := by
  unfold State.answer State.nextAnswer
  cases s.tape <;> simp

theorem State.answer_tookAnswer (s : State) (k : Nat) : s.tookAnswer.answer k = s.answer (k + 1) := by
  unfold State.answer State.tookAnswer
  cases h : s.tape with
  | nil => simp; congr 1; omega
  | cons a as => simp

theorem State.took_zero (s : State) : s.took 0 = s := by simp [State.took]

theorem State.took_succ (s : State) (n : Nat) : s.took (n + 1) = s.tookAnswer.took n := by
  unfold State.took State.tookAnswer
  cases h : s.tape with
  | nil => simp; omega
  | cons a as => simp

theorem State.tookAnswer_eq_took (s : State) : s.tookAnswer = s.took 1 := by
  rw [State.took_succ, State.took_zero]

theorem State.took_took (s : State) (m n : Nat) : (s.took m).took n = s.took (m + n) := by
  induction m generalizing s with
  | zero => simp [State.took_zero]
  | succ m ih => rw [State.took_succ, ih, Nat.succ_add, State.took_succ]

theorem State.answer_took (s : State) (m k : Nat) : (s.took m).answer k = s.answer (m + k) := by
  induction m generalizing s with
  | zero => simp [State.took_zero]
  | succ m ih => rw [State.took_succ, ih, State.answer_tookAnswer]; congr 1; omega

theorem State.nextAnswer_took (s : State) (m : Nat) : (s.took m).nextAnswer = s.answer m := by
  rw [← State.answer_zero, State.answer_took, Nat.add_zero]

/-- The answers to come depend on the tape and the counter alone. -/
theorem State.answer_congr {s t : State} (h1 : t.tape = s.tape) (h2 : t.draws = s.draws) (k : Nat) :
    t.answer k = s.answer k := by
  simp [State.answer, h1, h2]

theorem State.nextAnswer_congr {s t : State} (h1 : t.tape = s.tape) (h2 : t.draws = s.draws) :
    t.nextAnswer = s.nextAnswer := by
  simp [State.nextAnswer, h1, h2]

/-! ## Routing (R42, R43) -/

theorem State.connectedCards_congr {s t : State} (h1 : t.present = s.present)
    (h2 : ∀ i : CardIx, Memory.read t.mem (swCell i) = Memory.read s.mem (swCell i)) :
    t.connectedCards = s.connectedCards := by
  have h : t.connected = s.connected := by
    funext i
    simp [State.connected, State.devSw, h1, h2]
  simp [State.connectedCards, h]

theorem mem_connectedCards {s : State} {i : CardIx} : i ∈ s.connectedCards ↔ s.connected i = true := by
  simp [State.connectedCards]

theorem connectedCards_nodup (s : State) : s.connectedCards.Nodup :=
  (List.nodup_finRange _).filter _

/-- R42: the route of a switch address. -/
theorem route_switch (s : State) {a : Int} {i : CardIx} (h : cardIx? a = some i) :
    s.route (switchAddr s.params a) = if s.present[i] then .device (.switch i) else .noDevice := by
  simp [State.route, switchAt, switchAddr, h]

theorem switchAt_subBus {p : Params} (hv : p.Valid) {x : Nat} (hx : x ∈ p.subBusAddrs) :
    switchAt p (x : Int) = none := by
  have h := hv.2.2.1 x hx
  unfold switchAt cardIx?
  rw [dif_neg]
  intro hh
  apply h.2
  omega

theorem xpAddr_mem (p : Params) : p.xpAddr ∈ p.subBusAddrs := by simp [Params.subBusAddrs]

theorem potAddr_mem (p : Params) (k : PotIx) : p.potAddr[k] ∈ p.subBusAddrs := by
  simp [Params.subBusAddrs]

theorem snsAddr_mem (p : Params) (c : ChanIx) : p.snsAddr[c] ∈ p.subBusAddrs := by
  simp [Params.subBusAddrs]

/-- R43, |C| = 1: the route of a sub-bus address. -/
theorem route_local {s : State} {i : CardIx} {x : Nat} {d : Target} (hv : s.params.Valid)
    (hx : x ∈ s.params.subBusAddrs) (hc : s.connectedCards = [i]) (hd : localDevice s.params i x = some d) :
    s.route (x : Int) = .device d := by
  simp only [State.route, switchAt_subBus hv hx, hc, hd]

theorem localDevice_xp (p : Params) (i : CardIx) : localDevice p i (p.xpAddr : Int) = some (.expander i) := by
  simp [localDevice]

theorem pot_ne_xp {p : Params} (hv : p.Valid) (k : PotIx) : p.potAddr[k] ≠ p.xpAddr := by
  have h := hv.2.1
  simp only [Params.subBusAddrs, List.nodup_cons, List.mem_append, not_or] at h
  intro he
  exact h.1.1 (he ▸ by simp)

theorem sns_ne_xp {p : Params} (hv : p.Valid) (c : ChanIx) : p.snsAddr[c] ≠ p.xpAddr := by
  have h := hv.2.1
  simp only [Params.subBusAddrs, List.nodup_cons, List.mem_append, not_or] at h
  intro he
  exact h.1.2 (he ▸ by simp)

theorem sns_ne_pot {p : Params} (hv : p.Valid) (c : ChanIx) (k : PotIx) : p.snsAddr[c] ≠ p.potAddr[k] := by
  have h := (List.nodup_append.mp (List.nodup_cons.mp hv.2.1).2).2.2
  exact (h p.potAddr[k] (by simp) p.snsAddr[c] (by simp)).symm

theorem vector_inj_of_nodup {n : Nat} {v : Vector Nat n} (h : v.toList.Nodup) {i j : Fin n} (he : v[i] = v[j]) : i = j := by
  have := (List.nodup_iff_injective_get.mp h) (a₁ := ⟨i.val, by simp⟩) (a₂ := ⟨j.val, by simp⟩) (by simpa using he)
  exact Fin.ext (by simpa using this)

theorem potAddr_inj {p : Params} (hv : p.Valid) {k k' : PotIx} (h : p.potAddr[k] = p.potAddr[k']) : k = k' :=
  vector_inj_of_nodup (List.nodup_append.mp (List.nodup_cons.mp hv.2.1).2).1 h

theorem snsAddr_inj {p : Params} (hv : p.Valid) {c c' : ChanIx} (h : p.snsAddr[c] = p.snsAddr[c']) : c = c' :=
  vector_inj_of_nodup (List.nodup_append.mp (List.nodup_cons.mp hv.2.1).2).2.1 h

theorem find?_finRange_eq {n : Nat} (q : Fin n → Bool) (k : Fin n) (hk : q k = true) (hu : ∀ j, q j = true → j = k) :
    (List.finRange n).find? q = some k := by
  cases h : (List.finRange n).find? q with
  | none =>
    rw [List.find?_eq_none] at h
    exact absurd hk (h k (List.mem_finRange k))
  | some j => rw [hu j (List.find?_some h)]

theorem localDevice_pot {p : Params} (hv : p.Valid) (i : CardIx) (k : PotIx) :
    localDevice p i ((p.potAddr[k] : Nat) : Int) = some (.pot i k) := by
  unfold localDevice
  rw [if_neg (by exact_mod_cast pot_ne_xp hv k)]
  rw [find?_finRange_eq _ k (by simp) (fun j hj => (potAddr_inj hv (by simpa using hj)).symm)]

theorem localDevice_sns {p : Params} (hv : p.Valid) (i : CardIx) (c : ChanIx) :
    localDevice p i ((p.snsAddr[c] : Nat) : Int) = some (.sense i c) := by
  unfold localDevice
  rw [if_neg (by exact_mod_cast sns_ne_xp hv c)]
  have h1 : (List.finRange 4).find? (fun k => decide (((p.snsAddr[c] : Nat) : Int) = ((p.potAddr[k] : Nat) : Int))) = none := by
    rw [List.find?_eq_none]
    intro k _
    simpa using sns_ne_pot hv c k
  rw [h1, find?_finRange_eq _ c (by simp) (fun j hj => (snsAddr_inj hv (by simpa using hj)).symm)]

/-- R43: on the one connected card, the expander answers at its address. -/
theorem route_xp {s : State} {i : CardIx} (hv : s.params.Valid) (hc : s.connectedCards = [i]) :
    s.route (s.params.xpAddr : Int) = .device (.expander i) := by
  exact route_local hv (xpAddr_mem _) hc (localDevice_xp _ _)

/-- R43: on the one connected card, each potentiometer chip answers at its address. -/
theorem route_pot {s : State} {i : CardIx} (hv : s.params.Valid) (hc : s.connectedCards = [i]) (k : PotIx) :
    s.route ((s.params.potAddr[k] : Nat) : Int) = .device (.pot i k) := by
  exact route_local hv (potAddr_mem _ k) hc (localDevice_pot hv i k)

/-- R43: on the one connected card, each sense chip answers at its address. -/
theorem route_sns {s : State} {i : CardIx} (hv : s.params.Valid) (hc : s.connectedCards = [i]) (c : ChanIx) :
    s.route ((s.params.snsAddr[c] : Nat) : Int) = .device (.sense i c) := by
  exact route_local hv (snsAddr_mem _ c) hc (localDevice_sns hv i c)

/-! ## One bus transaction -/

theorem reach_device {s : State} {t : Txn} {addr : Int} {d : Target} (h : s.route addr = .device d) :
    reach t addr s = .ok d s := by
  simp [reach, h]

theorem reach_noDevice {s : State} {t : Txn} {addr : Int} (h : s.route addr = .noDevice) :
    reach t addr s = .error (.failed .busError) { s with hist := s.hist ++ [.bus t false []] } := by
  simp [reach, h, Op.bind_apply]

theorem reach_contention {s : State} {t : Txn} {addr : Int} (h : s.route addr = .contention) :
    reach t addr s = .error (.fault .busContention) s := by
  simp [reach, h]

/-- The state after a write transaction of `ws` with outcome `ok`. -/
def State.wrote (s : State) (t : Txn) (ok : Bool) (ws : List (Nat × Byte)) : State :=
  { s.tookAnswer with mem := Memory.writeAll s.mem ws, hist := s.hist ++ [.bus t ok []] }

/-- The state after a read transaction that received `bs`. -/
def State.received (s : State) (t : Txn) (ok : Bool) (bs : List Byte) : State :=
  { s.tookAnswer with hist := s.hist ++ [.bus t ok bs] }

theorem transferWrite_ok {s : State} (t : Txn) (regs : List (List (Nat × Byte))) (h : s.nextAnswer.ok = true) :
    transferWrite t regs s = .ok ⟨⟩ (s.wrote t true regs.flatten) := by
  simp [transferWrite, Op.bind_apply, h, State.wrote]

theorem transferWrite_fail {s : State} (t : Txn) (regs : List (List (Nat × Byte))) (h : s.nextAnswer.ok = false) :
    transferWrite t regs s = .error (.failed .busError)
      (s.wrote t false (regs.take s.nextAnswer.landed).flatten) := by
  simp [transferWrite, Op.bind_apply, h, State.wrote]

theorem transferRead_ok {s : State} (t : Txn) (f : State → Answer → List Byte) (h : s.nextAnswer.ok = true) :
    transferRead t f s = .ok (f s.tookAnswer s.nextAnswer) (s.received t true (f s.tookAnswer s.nextAnswer)) := by
  simp [transferRead, Op.bind_apply, h, State.received]

theorem transferRead_fail {s : State} (t : Txn) (f : State → Answer → List Byte) (h : s.nextAnswer.ok = false) :
    transferRead t f s = .error (.failed .busError) (s.received t false []) := by
  simp [transferRead, Op.bind_apply, h, State.received]

/-! ## The bracket (R183, R230) -/

theorem bracket_acquire_fails {acquire release : Op Unit} {body : Op α} {s s1 : State} {e : Stop}
    (h : acquire s = .error e s1) : bracket acquire release body s = .error e s1 := by
  simp [bracket, Op.bind_apply, h]

theorem bracket_ok {acquire release : Op Unit} {body : Op α} {s s1 s2 s3 : State} {v : α}
    (h1 : acquire s = .ok ⟨⟩ s1) (h2 : body s1 = .ok v s2) (h3 : release s2 = .ok ⟨⟩ s3) :
    bracket acquire release body s = .ok v s3 := by
  simp [bracket, releaseAfter, Op.bind_apply, h1, h2, h3]

theorem bracket_release_fails {acquire release : Op Unit} {body : Op α} {s s1 s2 s3 : State} {v : α} {e : Stop}
    (h1 : acquire s = .ok ⟨⟩ s1) (h2 : body s1 = .ok v s2) (h3 : release s2 = .error e s3) :
    bracket acquire release body s = .error e s3 := by
  simp [bracket, releaseAfter, Op.bind_apply, h1, h2, h3]

theorem bracket_body_fails {acquire release : Op Unit} {body : Op α} {s s1 s2 s3 : State} {f : Failure}
    (h1 : acquire s = .ok ⟨⟩ s1) (h2 : body s1 = .error (.failed f) s2) (h3 : release s2 = .ok ⟨⟩ s3) :
    bracket acquire release body s = .error (.failed f) s3 := by
  simp [bracket, releaseAfter, Op.bind_apply, h1, h2, h3]

/-- R228: the body's failure stands, the release's is dropped. -/
theorem bracket_both_fail {acquire release : Op Unit} {body : Op α} {s s1 s2 s3 : State} {f g : Failure}
    (h1 : acquire s = .ok ⟨⟩ s1) (h2 : body s1 = .error (.failed f) s2) (h3 : release s2 = .error (.failed g) s3) :
    bracket acquire release body s = .error (.failed f) s3 := by
  simp [bracket, releaseAfter, Op.bind_apply, h1, h2, h3]

theorem attempt_ok {body : Op Unit} {s s' : State} (h : body s = .ok ⟨⟩ s') : attempt body s = .ok true s' := by
  simp [attempt, h]

theorem attempt_busError {body : Op Unit} {s s' : State} (h : body s = .error (.failed .busError) s') :
    attempt body s = .ok false s' := by
  simp [attempt, h]

/-! ## From a command to its response -/

theorem runInternal_ok {body : Op Value} {s s' : State} {v : Value} (h : body s = .ok v s') :
    runInternal body s = .next (s'.respond (.ok v)) := by
  simp [runInternal, h]

theorem runInternal_failed {body : Op Value} {s s' : State} {f : Failure} (h : body s = .error (.failed f) s') :
    runInternal body s = .next (s'.respond (.failed f)) := by
  simp [runInternal, h]

theorem runInternal_fault {body : Op Value} {s s' : State} {r : Fault} (h : body s = .error (.fault r) s') :
    runInternal body s = .fault r := by
  simp [runInternal, h]

theorem runCommand_badArgs {op : Byte} {found : State → Bool} {body : Op Value} {s : State} (hr : s.running = none) :
    runCommand op false found body s = .next (s.respond (.failed .invalidArgument)) := by
  simp [runCommand, hr]

theorem runCommand_notFound {op : Byte} {found : State → Bool} {body : Op Value} {s : State} (hr : s.running = none)
    (hf : found s = false) : runCommand op true found body s = .next (s.respond (.failed .cardNotFound)) := by
  simp [runCommand, hr, hf]

theorem runCommand_ok {op : Byte} {found : State → Bool} {body : Op Value} {s s' : State} {v : Value}
    (hr : s.running = none) (hf : found s = true) (h : body (s.beginCommand op) = .ok v s') :
    runCommand op true found body s = .next (s'.endCommand op (.ok v)) := by
  simp [runCommand, hr, hf, h]

theorem runCommand_failed {op : Byte} {found : State → Bool} {body : Op Value} {s s' : State} {f : Failure}
    (hr : s.running = none) (hf : found s = true) (h : body (s.beginCommand op) = .error (.failed f) s') :
    runCommand op true found body s = .next (s'.endCommand op (.failed f)) := by
  simp [runCommand, hr, hf, h]

end Sys2Proof.Machine
end

