-- ==== Sys2Proof/Laws/Transport.lean ====
section
/-! SUPPORT. What a run of bus transactions does, said once (`Effect`), and what each of the six primitives answers. -/

namespace Sys2Proof.Machine

/-! ## What a run of transactions does -/

/-- From `s` to `t`: `n` answers taken, the cell writes `ws`, the events `es`; the fields no transaction touches are kept. The
cached cards and the fields of one command are spoken of apart. -/
structure Effect (s t : State) (n : Nat) (ws : List (Nat × Byte)) (es : List Event) : Prop where
  params : t.params = s.params
  running : t.running = s.running
  cfg : t.cfg = s.cfg
  present : t.present = s.present
  inbox : t.inbox = s.inbox
  mem : t.mem = Memory.writeAll s.mem ws
  hist : t.hist = s.hist ++ es
  tape : t.tape = (s.took n).tape
  draws : t.draws = (s.took n).draws

/-- The fields that belong to one command are kept. -/
structure SameScratch (s t : State) : Prop where
  acc : t.acc = s.acc
  cnt : t.cnt = s.cnt
  iter : t.iter = s.iter
  seekLevel : t.seekLevel = s.seekLevel

theorem Memory.writeAll_append (m : List Host.Cell) (ws ws' : List (Nat × Byte)) :
    Memory.writeAll m (ws ++ ws') = Memory.writeAll (Memory.writeAll m ws) ws' := by
  induction ws generalizing m with
  | nil => rfl
  | cons w ws ih => obtain ⟨k, v⟩ := w; simpa [Memory.writeAll] using ih _

theorem Effect.refl (s : State) : Effect s s 0 [] [] :=
  ⟨rfl, rfl, rfl, rfl, rfl, rfl, by simp, by rw [State.took_zero], by rw [State.took_zero]⟩

theorem SameScratch.refl (s : State) : SameScratch s s := ⟨rfl, rfl, rfl, rfl⟩

theorem SameScratch.trans {s t u : State} (h : SameScratch s t) (h' : SameScratch t u) : SameScratch s u :=
  ⟨h'.acc.trans h.acc, h'.cnt.trans h.cnt, h'.iter.trans h.iter, h'.seekLevel.trans h.seekLevel⟩

theorem State.took_tape_congr {s t : State} (h1 : t.tape = s.tape) (n : Nat) : (t.took n).tape = (s.took n).tape := by
  simp [State.took, h1]

theorem State.took_draws_congr {s t : State} (h1 : t.tape = s.tape) (h2 : t.draws = s.draws) (n : Nat) :
    (t.took n).draws = (s.took n).draws := by
  simp [State.took, h1, h2]

theorem Effect.trans {s t u : State} {m n : Nat} {ws ws' : List (Nat × Byte)} {es es' : List Event}
    (h : Effect s t m ws es) (h' : Effect t u n ws' es') : Effect s u (m + n) (ws ++ ws') (es ++ es') where
  params := h'.params.trans h.params
  running := h'.running.trans h.running
  cfg := h'.cfg.trans h.cfg
  present := h'.present.trans h.present
  inbox := h'.inbox.trans h.inbox
  mem := by rw [h'.mem, h.mem, Memory.writeAll_append]
  hist := by rw [h'.hist, h.hist, List.append_assoc]
  tape := by rw [h'.tape, ← State.took_took, State.took_tape_congr h.tape]
  draws := by rw [h'.draws, ← State.took_took, State.took_draws_congr h.tape h.draws]

/-- The answers to come after a run are the later ones. -/
theorem Effect.answer {s t : State} {n : Nat} {ws : List (Nat × Byte)} {es : List Event} (h : Effect s t n ws es)
    (k : Nat) : t.answer k = s.answer (n + k) := by
  rw [State.answer_congr h.tape h.draws, State.answer_took]

theorem Effect.nextAnswer {s t : State} {n : Nat} {ws : List (Nat × Byte)} {es : List Event} (h : Effect s t n ws es) :
    t.nextAnswer = s.answer n := by
  rw [← State.answer_zero, h.answer, Nat.add_zero]

theorem Effect.took {s t : State} {n : Nat} {ws : List (Nat × Byte)} {es : List Event} (h : Effect s t n ws es) :
    Took n s t := ⟨h.tape, h.draws⟩

/-- A run that writes no switch leaves the connections as they are. -/
theorem Effect.connectedCards {s t : State} {n : Nat} {ws : List (Nat × Byte)} {es : List Event}
    (h : Effect s t n ws es) (hw : ∀ i : CardIx, swCell i ∉ ws.map Prod.fst) :
    t.connectedCards = s.connectedCards :=
  State.connectedCards_congr h.present fun i => by rw [h.mem, Memory.read_writeAll_other _ (hw i)]

theorem Effect.wf {s t : State} {n : Nat} {ws : List (Nat × Byte)} {es : List Event} (h : Effect s t n ws es)
    (hm : Memory.wf s.mem = true) : Memory.wf t.mem = true := by
  rw [h.mem]; exact Memory.wf_writeAll _ hm

theorem Effect.read_other {s t : State} {n : Nat} {ws : List (Nat × Byte)} {es : List Event} (h : Effect s t n ws es)
    {k : Nat} (hk : k ∉ ws.map Prod.fst) : Memory.read t.mem k = Memory.read s.mem k := by
  rw [h.mem, Memory.read_writeAll_other _ hk]

theorem Effect.read_mem {s t : State} {n : Nat} {ws : List (Nat × Byte)} {es : List Event} (h : Effect s t n ws es)
    (hm : Memory.wf s.mem = true) (hnd : (ws.map Prod.fst).Nodup) {k : Nat} {v : Byte} (hk : (k, v) ∈ ws) :
    Memory.read t.mem k = v := by
  rw [h.mem, Memory.read_writeAll_mem hm hnd hk]

/-- The frame of a run and of its command's fields together. -/
theorem Effect.sameElsewhere {s t : State} {n : Nat} {ws : List (Nat × Byte)} {es : List Event} (h : Effect s t n ws es)
    (hs : SameScratch s t) : SameElsewhere s t :=
  ⟨h.params, h.running, h.cfg, hs.acc, hs.cnt, hs.iter, hs.seekLevel, h.present, h.inbox⟩

/-- The response does not belong to a run. -/
theorem Effect.respond {s t : State} {n : Nat} {ws : List (Nat × Byte)} {es : List Event} (h : Effect s t n ws es)
    (r : Response) : Effect s (t.respond r) n ws es :=
  ⟨h.params, h.running, h.cfg, h.present, h.inbox, h.mem, h.hist, h.tape, h.draws⟩

theorem SameScratch.respond {s t : State} (h : SameScratch s t) (r : Response) : SameScratch s (t.respond r) :=
  ⟨h.acc, h.cnt, h.iter, h.seekLevel⟩

/-- A run that writes no register and no cached field, and then the response. -/
theorem Effect.respond_eq {s t : State} {n : Nat} {es : List Event} (h : Effect s t n [] es) (hs : SameScratch s t)
    (hc : t.cards = s.cards) (r : Response) :
    t.respond r = { s.took n with hist := s.hist ++ es, response := some r } := by
  obtain ⟨h1, h2, h3, h4, h5, h6, h7, h8, h9⟩ := h
  obtain ⟨g1, g2, g3, g4⟩ := hs
  cases t
  simp only at *
  subst_vars
  rfl

theorem NoBusError.mono {m n : Nat} {s : State} (h : NoBusError n s) (hmn : m ≤ n) : NoBusError m s :=
  fun k => h ⟨k.val, by omega⟩

theorem NoBusError.after {m n : Nat} {s t : State} {ws : List (Nat × Byte)} {es : List Event} (h : NoBusError n s)
    (he : Effect s t m ws es) (hmn : m ≤ n) : NoBusError (n - m) t := fun k => by
  rw [he.answer]
  exact h ⟨m + k.val, by omega⟩

theorem NoBusError.next {n : Nat} {s : State} (h : NoBusError n s) (hn : 0 < n) : s.nextAnswer.ok = true := by
  rw [← State.answer_zero]; exact h ⟨0, hn⟩

/-! ## Single updates as runs -/

theorem effect_wrote (s : State) (t : Txn) (ok : Bool) (ws : List (Nat × Byte)) :
    Effect s (s.wrote t ok ws) 1 ws [.bus t ok []] := by
  refine ⟨?_, ?_, ?_, ?_, ?_, rfl, rfl, ?_, ?_⟩ <;> simp only [State.wrote, State.tookAnswer_eq_took] <;> rfl

theorem scratch_wrote (s : State) (t : Txn) (ok : Bool) (ws : List (Nat × Byte)) : SameScratch s (s.wrote t ok ws) := by
  refine ⟨?_, ?_, ?_, ?_⟩ <;> simp only [State.wrote, State.tookAnswer_eq_took] <;> rfl

@[simp] theorem wrote_cards (s : State) (t : Txn) (ok : Bool) (ws : List (Nat × Byte)) :
    (s.wrote t ok ws).cards = s.cards := by
  simp only [State.wrote, State.tookAnswer_eq_took]; rfl

theorem effect_received (s : State) (t : Txn) (ok : Bool) (bs : List Byte) :
    Effect s (s.received t ok bs) 1 [] [.bus t ok bs] := by
  refine ⟨?_, ?_, ?_, ?_, ?_, ?_, rfl, ?_, ?_⟩ <;> simp only [State.received, State.tookAnswer_eq_took] <;> rfl

theorem scratch_received (s : State) (t : Txn) (ok : Bool) (bs : List Byte) :
    SameScratch s (s.received t ok bs) := by
  refine ⟨?_, ?_, ?_, ?_⟩ <;> simp only [State.received, State.tookAnswer_eq_took] <;> rfl

@[simp] theorem received_cards (s : State) (t : Txn) (ok : Bool) (bs : List Byte) :
    (s.received t ok bs).cards = s.cards := by
  simp only [State.received, State.tookAnswer_eq_took]; rfl

theorem effect_event (s : State) (e : Event) : Effect s { s with hist := s.hist ++ [e] } 0 [] [e] := by
  refine ⟨rfl, rfl, rfl, rfl, rfl, rfl, rfl, ?_, ?_⟩ <;> rw [State.took_zero]

theorem effect_setCard (s : State) (a : Int) (c : Card) : Effect s (s.setCard a c) 0 [] [] := by
  unfold State.setCard
  split
  · refine ⟨rfl, rfl, rfl, rfl, rfl, rfl, by simp, ?_, ?_⟩ <;> rw [State.took_zero]
  · exact Effect.refl s

theorem scratch_setCard (s : State) (a : Int) (c : Card) : SameScratch s (s.setCard a c) := by
  unfold State.setCard
  split
  · exact ⟨rfl, rfl, rfl, rfl⟩
  · exact SameScratch.refl s

/-- The cached cards after card `i`'s is replaced. -/
theorem setCard_cards (s : State) {a : Int} {i : CardIx} (h : cardIx? a = some i) (c : Card) :
    (s.setCard a c).cards = s.cards.set i c := by
  simp [State.setCard, h]

/-! ## The six primitives -/

/-- R101. -/
theorem readByteOp_ok {s : State} {addr : Int} {d : Target} (hr : s.route addr = .device d)
    (ho : s.nextAnswer.ok = true) :
    readByteOp addr s = .ok (s.nextAnswer.word.extractLsb' 0 8)
      (s.received (.readByte addr) true [s.nextAnswer.word.extractLsb' 0 8]) := by
  simp [readByteOp, Op.bind_apply, reach_device hr, transferRead_ok _ _ ho]

/-- R102. -/
theorem writeByteOp_ok {s : State} {addr : Int} {i : CardIx} {b : Byte} (hr : s.route addr = .device (.switch i))
    (hb : isoLowBits b = 0) (ho : s.nextAnswer.ok = true) :
    writeByteOp addr b s = .ok ⟨⟩ (s.wrote (.writeByte addr b) true [(swCell i, b)]) := by
  simp [writeByteOp, Op.bind_apply, reach_device hr, hb, transferWrite_ok _ _ ho]

/-- R102, R63. -/
theorem writeByteOp_fail {s : State} {addr : Int} {i : CardIx} {b : Byte} (hr : s.route addr = .device (.switch i))
    (hb : isoLowBits b = 0) (ho : s.nextAnswer.ok = false) :
    writeByteOp addr b s = .error (.failed .busError) (s.wrote (.writeByte addr b) false
      (([[(swCell i, b)]].take s.nextAnswer.landed).flatten)) := by
  simp [writeByteOp, Op.bind_apply, reach_device hr, hb, transferWrite_fail _ _ ho]

/-- Taking an answer changes no register's content. -/
@[simp] theorem snsContent_tookAnswer (s : State) (i : CardIx) (c : ChanIx) (w : Half) (r : SnsReg) :
    s.tookAnswer.snsContent i c w r = s.snsContent i c w r := by
  cases r <;> simp [State.snsContent, State.devSnsCfg, State.devSnsCal]

/-- R29: the content of a result register is what is drawn. -/
theorem snsContent_result {r : SnsReg} (h : r ≠ .cfg ∧ r ≠ .cal) (s : State) (i : CardIx) (c : ChanIx) (w : Half) :
    s.snsContent i c w r = w := by
  cases r <;> simp_all [State.snsContent]

/-- R103: the transport word is the register's content with its bytes swapped. -/
theorem readWordOp_ok {s : State} {addr : Int} {reg : Nat} {i : CardIx} {c : ChanIx} {r : SnsReg}
    (hr : s.route addr = .device (.sense i c)) (hg : snsReg s.params reg = some r) (ho : s.nextAnswer.ok = true) :
    let w := s.snsContent i c s.nextAnswer.word r
    readWordOp addr reg s = .ok (bswap16 w)
      (s.received (.readWord addr reg) true [w.extractLsb' 8 8, w.extractLsb' 0 8]) := by
  simp [readWordOp, Op.bind_apply, reach_device hr, hg, transferRead_ok _ _ ho, wireBytes, wordOfWire, bswap16_lo,
    bswap16_hi]
  rfl

/-- R104, to the calibration register. -/
theorem writeWordOp_cal_ok {s : State} {addr : Int} {reg : Nat} {i : CardIx} {c : ChanIx} {w : Half}
    (hr : s.route addr = .device (.sense i c)) (hg : snsReg s.params reg = some .cal) (ho : s.nextAnswer.ok = true) :
    writeWordOp addr reg w s = .ok ⟨⟩
      (s.wrote (.writeWord addr reg w) true (halfCells (snsCalCell i c) (bswap16 w))) := by
  simp [writeWordOp, Op.bind_apply, reach_device hr, hg, transferWrite_ok _ _ ho]

/-- R104, to the configuration register. -/
theorem writeWordOp_cfg_ok {s : State} {addr : Int} {reg : Nat} {i : CardIx} {c : ChanIx} {w : Half}
    (hr : s.route addr = .device (.sense i c)) (hg : snsReg s.params reg = some .cfg) (ho : s.nextAnswer.ok = true) :
    writeWordOp addr reg w s = .ok ⟨⟩
      (s.wrote (.writeWord addr reg w) true (halfCells (snsCfgCell i c) (bswap16 w))) := by
  simp [writeWordOp, Op.bind_apply, reach_device hr, hg, transferWrite_ok _ _ ho]

theorem flatten_map_singleton {α : Type} (l : List α) : (l.map fun w => [w]).flatten = l := by
  induction l with
  | nil => rfl
  | cons x xs ih => simp [ih]

theorem isEmpty_false_of_ne {α : Type} {l : List α} (h : l ≠ []) : l.isEmpty = false := by
  cases l with
  | nil => exact absurd rfl h
  | cons => rfl

/-- R105. -/
theorem writeBlockOp_ok {s : State} {addr : Int} {reg : Nat} {d : Target} {bs : List Byte} {ks : List Nat}
    (hr : s.route addr = .device d) (hb : bs ≠ []) (hk : blockCells s.params d reg bs.length = some ks)
    (ho : s.nextAnswer.ok = true) :
    writeBlockOp addr reg bs s = .ok ⟨⟩ (s.wrote (.writeBlock addr reg bs) true (ks.zip bs)) := by
  simp [writeBlockOp, Op.bind_apply, reach_device hr, isEmpty_false_of_ne hb, hk, transferWrite_ok _ _ ho,
    flatten_map_singleton]

/-- R105, R63. -/
theorem writeBlockOp_fail {s : State} {addr : Int} {reg : Nat} {d : Target} {bs : List Byte} {ks : List Nat}
    (hr : s.route addr = .device d) (hb : bs ≠ []) (hk : blockCells s.params d reg bs.length = some ks)
    (ho : s.nextAnswer.ok = false) :
    writeBlockOp addr reg bs s = .error (.failed .busError)
      (s.wrote (.writeBlock addr reg bs) false ((ks.zip bs).take s.nextAnswer.landed)) := by
  simp [writeBlockOp, Op.bind_apply, reach_device hr, isEmpty_false_of_ne hb, hk, transferWrite_fail _ _ ho,
    ← List.map_take, flatten_map_singleton]

/-- R106. -/
theorem readBlockOp_ok {s : State} {addr : Int} {reg n : Nat} {d : Target} {ks : List Nat}
    (hr : s.route addr = .device d) (hn : 1 ≤ n) (hk : blockCells s.params d reg n = some ks)
    (ho : s.nextAnswer.ok = true) :
    readBlockOp addr reg n s = .ok (ks.map (Memory.read s.mem))
      (s.received (.readBlock addr reg n) true (ks.map (Memory.read s.mem))) := by
  simp [readBlockOp, Op.bind_apply, reach_device hr, hn, hk, transferRead_ok _ _ ho]

theorem blockCells_length {p : Params} {d : Target} {n : Nat} : ∀ {reg : Nat} {ks : List Nat},
    blockCells p d reg n = some ks → ks.length = n := by
  induction n with
  | zero => intro reg ks h; simp only [blockCells, Option.some.injEq] at h; subst h; rfl
  | succ n ih =>
    intro reg ks h
    simp only [blockCells] at h
    split at h
    · next k ks' h1 h2 =>
      simp only [Option.some.injEq] at h
      subst h
      simp [ih h2]
    · cases h

end Sys2Proof.Machine
end

