-- ==== Sys2Proof/Laws/Devices.lean ====
section
/-! SUPPORT. The operations on one card's switch, expander, potentiometer chips and sense chips when no transaction fails:
answer, transactions, cell writes, events and cached fields, each said once. -/

namespace Sys2Proof.Machine

variable {α : Type}

/-- `x` run from `s` answers `v` after `n` transactions, with the cell writes `ws`, the events `es`, the cached cards `cards`, and
the fields of one command kept. -/
def Op.Runs (x : Op α) (s : State) (v : α) (n : Nat) (ws : List (Nat × Byte)) (es : List Event)
    (cards : Vector Card Config.pb.nCards) : Prop :=
  ∃ t, x s = .ok v t ∧ Effect s t n ws es ∧ SameScratch s t ∧ t.cards = cards

/-! ## Vectors of cards -/

theorem cards_set_same (v : Vector Card Config.pb.nCards) (i : CardIx) (c : Card) : (v.set i c)[i] = c := by simp

theorem cards_set_other (v : Vector Card Config.pb.nCards) {i j : CardIx} (c : Card) (h : j ≠ i) : (v.set i c)[j] = v[j] := by
  have : i.val ≠ j.val := fun e => h (Fin.ext e.symm)
  simp [this]

theorem cards_set_set (v : Vector Card Config.pb.nCards) (i : CardIx) (c d : Card) : (v.set i c).set i d = v.set i d := by
  simp

theorem cards_ext {v w : Vector Card Config.pb.nCards} (h : ∀ i : CardIx, v[i] = w[i]) : v = w := by
  apply Vector.ext
  intro k hk
  exact h ⟨k, hk⟩

theorem State.card_cardNo (s : State) (i : CardIx) : s.card (cardNo i) = s.cards[i] :=
  State.card_of_ix s (cardIx?_cardNo i)

/-! ## The connections (R43) -/

theorem filter_eq_singleton {n : Nat} {q : Fin n → Bool} {i : Fin n} (h : ∀ j, q j = true ↔ j = i) :
    (List.finRange n).filter q = [i] := by
  have hq : q = fun j => decide (j = i) := by
    funext j
    by_cases e : j = i
    · simp [e, (h i).mpr rfl]
    · simp only [e, decide_false]
      exact Bool.eq_false_iff.mpr fun hj => e ((h j).mp hj)
  rw [hq]
  have hp : ((List.finRange n).filter fun j => decide (j = i)).Perm [i] :=
    (List.perm_ext_iff_of_nodup ((List.nodup_finRange n).filter _) (List.nodup_singleton i)).mpr (by simp)
  exact List.perm_singleton.mp hp

theorem connectedCards_eq_singleton {s : State} {i : CardIx} (h : ∀ j, s.connected j = true ↔ j = i) :
    s.connectedCards = [i] := filter_eq_singleton h

theorem connectedCards_eq_nil {s : State} : s.connectedCards = [] ↔ ∀ j, s.connected j = false := by
  simp [State.connectedCards, List.filter_eq_nil_iff]

/-- A card's connection after a run that wrote one control byte. -/
theorem Effect.connected_switch {s t : State} {n : Nat} {es : List Event} {i : CardIx} {b : Byte}
    (h : Effect s t n [(swCell i, b)] es) (hm : Memory.wf s.mem = true) (j : CardIx) :
    t.connected j = if j = i then s.present[i] && isoConnects b else s.connected j := by
  unfold State.connected State.devSw
  rw [h.present]
  split
  · next e =>
    subst e
    rw [h.read_mem hm (by simp) (List.mem_singleton.mpr rfl)]
  · next e =>
    rw [h.read_other (by simpa using fun he => e (swCell_inj he))]

/-- R111: after a control byte with bit 7 set, from no connection, card `i` is the one connected. -/
theorem Effect.connected_open {s t : State} {n : Nat} {es : List Event} {i : CardIx} {b : Byte}
    (h : Effect s t n [(swCell i, b)] es) (hm : Memory.wf s.mem = true) (hn : NoneConnected s) (hp : s.present[i] = true)
    (hb : isoConnects b = true) : t.connectedCards = [i] := by
  refine connectedCards_eq_singleton fun j => ?_
  rw [h.connected_switch hm]
  split
  · next e => simp [e, hp, hb]
  · next e => simp [e, connectedCards_eq_nil.mp hn j]

/-- R112: after a control byte with bit 7 clear, from no connection but card `i`'s, none is connected. -/
theorem Effect.connected_close {s t : State} {n : Nat} {es : List Event} {i : CardIx} {b : Byte}
    (h : Effect s t n [(swCell i, b)] es) (hm : Memory.wf s.mem = true) (hn : ∀ j, s.connected j = true → j = i)
    (hb : isoConnects b = false) : t.connectedCards = [] := by
  refine connectedCards_eq_nil.mpr fun j => ?_
  rw [h.connected_switch hm]
  split
  · simp [hb]
  · next e => exact Bool.eq_false_iff.mpr fun hj => e (hn j hj)

theorem OnlyConnected.eq {s : State} {i : CardIx} (h : OnlyConnected s i) (j : CardIx) (hj : s.connected j = true) :
    j = i := by
  have := mem_connectedCards.mpr hj
  rw [h] at this
  simpa using this

/-! ## The switch -/

theorem isoConnects_openByte (p : Params) : isoConnects (openByte p) = true := by
  unfold openByte; split <;> decide

theorem isoLowBits_openByte (p : Params) : isoLowBits (openByte p) = 0 := by
  unfold openByte; split <;> decide

theorem route_cardNo {s : State} {i : CardIx} (hp : s.present[i] = true) :
    s.route (switchAddr s.params (cardNo i)) = .device (.switch i) := by
  rw [route_switch s (cardIx?_cardNo i), hp]; rfl

theorem route_cardNo_absent {s : State} {i : CardIx} (hp : s.present[i] = false) :
    s.route (switchAddr s.params (cardNo i)) = .noDevice := by
  rw [route_switch s (cardIx?_cardNo i), hp]; rfl

@[simp] theorem boolOfByte_byteOfBool (b : Bool) : boolOfByte (byteOfBool b) = some b := by
  cases b <;> rfl

theorem boolOfInt_ite (b : Bool) : boolOfInt (if b then 1 else 0) = some b := by
  cases b <;> rfl

/-- R110: `ISO_SET` with three booleans is one control write. -/
theorem isoSetOp_eq {a : Int} {en : Byte} {x y : Int} {b b1 b2 : Bool} (h : boolOfByte en = some b)
    (h1 : boolOfInt x = some b1) (h2 : boolOfInt y = some b2) (s : State) :
    isoSetOp a en x y s = writeByteOp (switchAddr s.params a) (isoCtl b b1 b2) s := by
  simp [isoSetOp, h, h1, h2]

/-- R111: `OPEN` is one control write and then the record. -/
theorem openOp_eq (a : Int) (s : State) :
    openOp a s = match writeByteOp (switchAddr s.params a) (openByte s.params) s with
      | .ok _ t => .ok ⟨⟩ (t.setCard a { t.card a with iso := some .opened })
      | .error e t => .error e t := by
  simp only [openOp, Op.get_bind, openByte]
  cases hx : s.params.activityAux
  · simp only [Op.bind_apply]
    rw [isoSetOp_eq (b := true) (b1 := true) (b2 := false) rfl rfl rfl]
    rw [show isoCtl true true false = 0xC0#8 by decide]
    cases writeByteOp (switchAddr s.params a) 0xC0#8 s <;> rfl
  · simp only [Op.bind_apply]
    rw [isoSetOp_eq (b := true) (b1 := false) (b2 := true) rfl rfl rfl]
    rw [show isoCtl true false true = 0xA0#8 by decide]
    cases writeByteOp (switchAddr s.params a) 0xA0#8 s <;> rfl

/-- R112: `CLOSE` is one control write and then the record. -/
theorem closeOp_eq (a : Int) (s : State) :
    closeOp a s = match writeByteOp (switchAddr s.params a) closeByte s with
      | .ok _ t => .ok ⟨⟩ (t.setCard a { t.card a with iso := some .closed })
      | .error e t => .error e t := by
  simp only [closeOp, Op.bind_apply]
  rw [isoSetOp_eq (b := false) (b1 := false) (b2 := false) rfl rfl rfl]
  rw [show isoCtl false false false = closeByte by decide]
  cases writeByteOp (switchAddr s.params a) closeByte s <;> rfl

/-- R102 at a plugged card's switch. -/
theorem switchWrite_runs {s : State} {i : CardIx} {b : Byte} (hp : s.present[i] = true) (hb : isoLowBits b = 0)
    (ho : s.nextAnswer.ok = true) :
    (writeByteOp (switchAddr s.params (cardNo i)) b).Runs s ⟨⟩ 1 [(swCell i, b)] [switchEvent s.params i b] s.cards :=
  ⟨_, writeByteOp_ok (route_cardNo hp) hb ho, effect_wrote _ _ _ _, scratch_wrote _ _ _ _, wrote_cards _ _ _ _⟩

theorem setIso_runs {s t : State} {i : CardIx} {n : Nat} {ws : List (Nat × Byte)} {es : List Event}
    (he : Effect s t n ws es) (hs : SameScratch s t) (hc : t.cards = s.cards) (v : Iso) :
    Effect s (t.setCard (cardNo i) { t.card (cardNo i) with iso := some v }) n ws es ∧
      SameScratch s (t.setCard (cardNo i) { t.card (cardNo i) with iso := some v }) ∧
      (t.setCard (cardNo i) { t.card (cardNo i) with iso := some v }).cards =
        s.cards.set i { s.cards[i] with iso := some v } := by
  refine ⟨by simpa using he.trans (effect_setCard t _ _), hs.trans (scratch_setCard _ _ _), ?_⟩
  rw [setCard_cards _ (cardIx?_cardNo i), State.card_cardNo, hc]

/-- R111. -/
theorem openOp_runs {s : State} {i : CardIx} (hp : s.present[i] = true) (ho : s.nextAnswer.ok = true) :
    (openOp (cardNo i)).Runs s ⟨⟩ 1 [(swCell i, openByte s.params)] [switchEvent s.params i (openByte s.params)]
      (s.cards.set i { s.cards[i] with iso := some .opened }) := by
  obtain ⟨t, h, he, hs, hc⟩ := switchWrite_runs hp (isoLowBits_openByte s.params) ho
  exact ⟨_, by rw [openOp_eq, h], setIso_runs he hs hc .opened⟩

/-- R112. -/
theorem closeOp_runs {s : State} {i : CardIx} (hp : s.present[i] = true) (ho : s.nextAnswer.ok = true) :
    (closeOp (cardNo i)).Runs s ⟨⟩ 1 [(swCell i, closeByte)] [switchEvent s.params i closeByte]
      (s.cards.set i { s.cards[i] with iso := some .closed }) := by
  obtain ⟨t, h, he, hs, hc⟩ := switchWrite_runs (b := closeByte) hp (by decide) ho
  exact ⟨_, by rw [closeOp_eq, h], setIso_runs he hs hc .closed⟩

/-- R115, R63: a control write that fails. -/
theorem switchWrite_fails {s : State} {i : CardIx} {b : Byte} (hp : s.present[i] = true) (hb : isoLowBits b = 0)
    (ho : s.nextAnswer.ok = false) :
    ∃ t ws, writeByteOp (switchAddr s.params (cardNo i)) b s = .error (.failed .busError) t ∧
      (ws = [] ∨ ws = [(swCell i, b)]) ∧
      Effect s t 1 ws [.bus (.writeByte (s.params.isoBase + cardNo i) b) false []] ∧ SameScratch s t ∧ t.cards = s.cards := by
  refine ⟨_, _, writeByteOp_fail (route_cardNo hp) hb ho, ?_, effect_wrote _ _ _ _, scratch_wrote _ _ _ _,
    wrote_cards _ _ _ _⟩
  cases s.nextAnswer.landed with
  | zero => left; rfl
  | succ n => right; simp

theorem openOp_fails {s : State} {i : CardIx} (hp : s.present[i] = true) (ho : s.nextAnswer.ok = false) :
    ∃ t ws, openOp (cardNo i) s = .error (.failed .busError) t ∧ (ws = [] ∨ ws = [(swCell i, openByte s.params)]) ∧
      Effect s t 1 ws [.bus (.writeByte (s.params.isoBase + cardNo i) (openByte s.params)) false []] ∧ SameScratch s t ∧
      t.cards = s.cards := by
  obtain ⟨t, ws, h, hw, he⟩ := switchWrite_fails hp (isoLowBits_openByte s.params) ho
  exact ⟨t, ws, by rw [openOp_eq, h], hw, he⟩

theorem closeOp_fails {s : State} {i : CardIx} (hp : s.present[i] = true) (ho : s.nextAnswer.ok = false) :
    ∃ t ws, closeOp (cardNo i) s = .error (.failed .busError) t ∧ (ws = [] ∨ ws = [(swCell i, closeByte)]) ∧
      Effect s t 1 ws [.bus (.writeByte (s.params.isoBase + cardNo i) closeByte) false []] ∧ SameScratch s t ∧
      t.cards = s.cards := by
  obtain ⟨t, ws, h, hw, he⟩ := switchWrite_fails (b := closeByte) hp (by decide) ho
  exact ⟨t, ws, by rw [closeOp_eq, h], hw, he⟩

/-- R42, R43: no card plugged at the address. -/
theorem openOp_absent {s : State} {i : CardIx} (hp : s.present[i] = false) :
    ∃ t, openOp (cardNo i) s = .error (.failed .busError) t ∧
      Effect s t 0 [] [.bus (.writeByte (s.params.isoBase + cardNo i) (openByte s.params)) false []] ∧ SameScratch s t ∧
      t.cards = s.cards := by
  refine ⟨_, ?_, effect_event s _, ⟨rfl, rfl, rfl, rfl⟩, rfl⟩
  rw [openOp_eq]
  simp only [writeByteOp]
  rw [Op.bind_error (reach_noDevice (route_cardNo_absent hp))]
  rfl

theorem closeOp_absent {s : State} {i : CardIx} (hp : s.present[i] = false) :
    ∃ t, closeOp (cardNo i) s = .error (.failed .busError) t ∧
      Effect s t 0 [] [.bus (.writeByte (s.params.isoBase + cardNo i) closeByte) false []] ∧ SameScratch s t ∧
      t.cards = s.cards := by
  refine ⟨_, ?_, effect_event s _, ⟨rfl, rfl, rfl, rfl⟩, rfl⟩
  rw [closeOp_eq]
  simp only [writeByteOp]
  rw [Op.bind_error (reach_noDevice (route_cardNo_absent hp))]
  rfl

/-! ## An open card -/

/-- A run that writes no switch and keeps card `i`'s record keeps it ready. -/
theorem Ready.step {s t : State} {i : CardIx} {n : Nat} {ws : List (Nat × Byte)} {es : List Event} (h : Ready s i)
    (he : Effect s t n ws es) (hw : ∀ j : CardIx, swCell j ∉ ws.map Prod.fst) (hi : t.cards[i].iso = s.cards[i].iso) :
    Ready t i :=
  ⟨he.wf h.1, by rw [he.params]; exact h.2.1, by rw [OnlyConnected, he.connectedCards hw]; exact h.2.2.1,
    by rw [hi]; exact h.2.2.2⟩

theorem Ready.requireOpen {s : State} {i : CardIx} (h : Ready s i) : requireOpen (cardNo i) s = .ok ⟨⟩ s :=
  requireOpen_of_open (by rw [State.card_cardNo]; exact h.2.2.2)

/-- R111: the state after a successful `OPEN` from no connection. -/
theorem ready_of_open {s t : State} {i : CardIx} {n : Nat} {es : List Event} (hm : Memory.wf s.mem = true)
    (hv : s.params.Valid) (hn : NoneConnected s) (hp : s.present[i] = true)
    (he : Effect s t n [(swCell i, openByte s.params)] es)
    (hc : t.cards = s.cards.set i { s.cards[i] with iso := some .opened }) : Ready t i :=
  ⟨he.wf hm, by rw [he.params]; exact hv, he.connected_open hm hn hp (isoConnects_openByte _),
    by rw [hc, cards_set_same]⟩

/-! ## The expander -/

theorem blockCells_xp (p : Params) (i : CardIx) :
    blockCells p (.expander i) p.xpReg 2 = some [xpCell i 0, xpCell i 1] := by
  simp [blockCells, byteCell]

theorem setMasks_runs {s t : State} {i : CardIx} {n : Nat} {ws : List (Nat × Byte)} {es : List Event}
    (he : Effect s t n ws es) (hs : SameScratch s t) (hc : t.cards = s.cards) (m l : Byte) :
    ∃ u, setMasks (cardNo i) m l t = .ok ⟨⟩ u ∧ Effect s u n ws es ∧ SameScratch s u ∧
      u.cards = s.cards.set i { s.cards[i] with chen := some m, tsten := some l } := by
  refine ⟨_, rfl, by simpa using he.trans (effect_setCard t _ _), hs.trans (scratch_setCard _ _ _), ?_⟩
  rw [setCard_cards _ (cardIx?_cardNo i), State.card_cardNo, hc]

/-- R121. -/
theorem xpWriteOp_runs {s : State} {i : CardIx} (m l : Byte) (h : Ready s i) (ho : s.nextAnswer.ok = true) :
    (xpWriteOp (cardNo i) m l).Runs s ⟨⟩ 1 [(xpCell i 0, ~~~m), (xpCell i 1, ~~~l)]
      [.bus (.writeBlock s.params.xpAddr s.params.xpReg [~~~m, ~~~l]) true []]
      (s.cards.set i { s.cards[i] with chen := some m, tsten := some l }) := by
  have hb := writeBlockOp_ok (bs := xpBlock m l) (route_xp h.2.1 h.2.2.1) (by simp [xpBlock])
    (blockCells_xp s.params i) ho
  obtain ⟨u, hu, hrest⟩ := setMasks_runs (i := i) (effect_wrote s _ true _) (scratch_wrote _ _ _ _) (wrote_cards _ _ _ _) m l
  refine ⟨u, ?_, hrest⟩
  simp only [xpWriteOp]
  rw [Op.bind_ok h.requireOpen, Op.get_bind, Op.bind_ok hb]
  exact hu

/-- R121, R63: a block write that fails. -/
theorem xpWriteOp_fails {s : State} {i : CardIx} (m l : Byte) (h : Ready s i) (ho : s.nextAnswer.ok = false) :
    ∃ t ws, xpWriteOp (cardNo i) m l s = .error (.failed .busError) t ∧
      (ws = [] ∨ ws = [(xpCell i 0, ~~~m)] ∨ ws = [(xpCell i 0, ~~~m), (xpCell i 1, ~~~l)]) ∧
      Effect s t 1 ws [.bus (.writeBlock s.params.xpAddr s.params.xpReg [~~~m, ~~~l]) false []] ∧ SameScratch s t ∧
      t.cards = s.cards := by
  have hb := writeBlockOp_fail (bs := xpBlock m l) (route_xp h.2.1 h.2.2.1) (by simp [xpBlock])
    (blockCells_xp s.params i) ho
  refine ⟨_, _, ?_, ?_, effect_wrote s _ false (([xpCell i 0, xpCell i 1].zip (xpBlock m l)).take s.nextAnswer.landed),
    scratch_wrote _ _ _ _, wrote_cards _ _ _ _⟩
  · simp only [xpWriteOp]
    rw [Op.bind_ok h.requireOpen, Op.get_bind, Op.bind_error hb]
    rfl
  · match s.nextAnswer.landed with
    | 0 => left; rfl
    | 1 => right; left; rfl
    | n + 2 => right; right; simp [xpBlock, not8]

/-- R122. -/
theorem xpReadOp_runs {s : State} {i : CardIx} (h : Ready s i) (ho : s.nextAnswer.ok = true) :
    (xpReadOp (cardNo i)).Runs s ⟨⟩ 1 []
      [.bus (.readBlock s.params.xpAddr s.params.xpReg 2) true [s.devXp i 0, s.devXp i 1]]
      (s.cards.set i { s.cards[i] with chen := some (~~~(s.devXp i 0)), tsten := some (~~~(s.devXp i 1)) }) := by
  have hb := readBlockOp_ok (n := 2) (route_xp h.2.1 h.2.2.1) (by omega) (blockCells_xp s.params i) ho
  obtain ⟨u, hu, hrest⟩ := setMasks_runs (i := i) (effect_received s _ true _) (scratch_received _ _ _ _)
    (received_cards _ _ _ _) (~~~(s.devXp i 0)) (~~~(s.devXp i 1))
  refine ⟨u, ?_, hrest⟩
  simp only [xpReadOp]
  rw [Op.bind_ok h.requireOpen, Op.get_bind, Op.bind_ok hb]
  exact hu

@[simp] theorem chanIx?_chanNo (c : ChanIx) : chanIx? (chanNo c) = some c := by
  unfold chanIx? chanNo
  have hc := c.isLt
  rw [dif_pos (by omega)]
  congr 1
  ext
  simp

@[simp] theorem isChannel_chanNo (c : ChanIx) : isChannel (chanNo c) = true :=
  isChannel_of_chanIx (chanIx?_chanNo c)

@[simp] theorem chanIx_chanNo (c : ChanIx) : chanIx (chanNo c) = pure c := chanIx_of_ix (chanIx?_chanNo c)

/-- R123: every bit of a mask with one bit set. -/
theorem getLsbD_setMaskBit (m : Byte) (c d : ChanIx) (on : Bool) :
    (setMaskBit m c on).getLsbD d.val = if d = c then on else m.getLsbD d.val := by
  have hd := d.isLt
  have hc := c.isLt
  have key : (1#8 <<< c.val).getLsbD d.val = decide (d = c) := by
    rw [BitVec.getLsbD_shiftLeft, BitVec.getLsbD_one]
    by_cases e : d = c
    · subst e; simp
    · have : d.val ≠ c.val := fun h => e (Fin.ext h)
      simp only [e, decide_false]
      by_cases hlt : d.val < c.val
      · simp [hlt]
      · have : d.val - c.val ≠ 0 := by omega
        simp [this]
  unfold setMaskBit
  cases on with
  | true =>
    rw [if_pos rfl, BitVec.getLsbD_or, key]
    by_cases e : d = c <;> simp [e]
  | false =>
    rw [if_neg (by simp), BitVec.getLsbD_and, BitVec.getLsbD_not, key]
    by_cases e : d = c <;> simp [e]

/-- R123. -/
theorem enableChannelOp_runs {s : State} {i : CardIx} (c : ChanIx) (on : Bool) {m l : Byte} (h : Ready s i)
    (ho : s.nextAnswer.ok = true) (hm : s.cards[i].chen = some m) (hl : s.cards[i].tsten = some l) :
    (enableChannelOp (cardNo i) (chanNo c) (byteOfBool on)).Runs s ⟨⟩ 1
      [(xpCell i 0, ~~~(setMaskBit m c on)), (xpCell i 1, ~~~l)]
      [.bus (.writeBlock s.params.xpAddr s.params.xpReg [~~~(setMaskBit m c on), ~~~l]) true []]
      (s.cards.set i { s.cards[i] with chen := some (setMaskBit m c on), tsten := some l }) := by
  obtain ⟨t, ht, hrest⟩ := xpWriteOp_runs (setMaskBit m c on) l h ho
  refine ⟨t, ?_, hrest⟩
  simp only [enableChannelOp, isChannel_chanNo, checkArg_true, Op.pure_bind, boolOfByte_byteOfBool, asBool_some,
    chanIx_chanNo]
  rw [Op.bind_ok h.requireOpen, Op.bind_ok (readField_of_some (by rw [State.card_cardNo, hm])),
    Op.bind_ok (readField_of_some (by rw [State.card_cardNo, hl])), ht]

/-- R124. -/
theorem enableTestLoadOp_runs {s : State} {i : CardIx} (c : ChanIx) (on : Bool) {m l : Byte} (h : Ready s i)
    (ho : s.nextAnswer.ok = true) (hm : s.cards[i].chen = some m) (hl : s.cards[i].tsten = some l) :
    (enableTestLoadOp (cardNo i) (chanNo c) (byteOfBool on)).Runs s ⟨⟩ 1
      [(xpCell i 0, ~~~m), (xpCell i 1, ~~~(setMaskBit l c on))]
      [.bus (.writeBlock s.params.xpAddr s.params.xpReg [~~~m, ~~~(setMaskBit l c on)]) true []]
      (s.cards.set i { s.cards[i] with chen := some m, tsten := some (setMaskBit l c on) }) := by
  obtain ⟨t, ht, hrest⟩ := xpWriteOp_runs m (setMaskBit l c on) h ho
  refine ⟨t, ?_, hrest⟩
  simp only [enableTestLoadOp, isChannel_chanNo, checkArg_true, Op.pure_bind, boolOfByte_byteOfBool, asBool_some,
    chanIx_chanNo]
  rw [Op.bind_ok h.requireOpen, Op.bind_ok (readField_of_some (by rw [State.card_cardNo, hm])),
    Op.bind_ok (readField_of_some (by rw [State.card_cardNo, hl])), ht]

/-- R125. -/
theorem isChannelEnabledOp_ok {s : State} {i : CardIx} (c : ChanIx) {m : Byte} (hm : s.cards[i].chen = some m) :
    isChannelEnabledOp (cardNo i) (chanNo c) s = .ok (m.getLsbD c.val) s := by
  simp only [isChannelEnabledOp, isChannel_chanNo, checkArg_true, Op.pure_bind, chanIx_chanNo]
  rw [Op.bind_ok (readField_of_some (by rw [State.card_cardNo, hm]))]
  rfl

/-! ## The potentiometer chips -/

/-- The four cells of a channel's sub-registers. -/
def potCells (i : CardIx) (c : ChanIx) : List Nat :=
  [potCell i (potChip c) (potSub c) 0, potCell i (potChip c) (potSub c) 1, potCell i (potChip c) (potSub c) 2,
    potCell i (potChip c) (potSub c) 3]

/-- A register a potentiometer chip has is a sub-register of one of its channels. -/
theorem byteCell_pot_some {p : Params} {i : CardIx} {k : PotIx} {reg x : Nat} (h : byteCell p (.pot i k) reg = some x) :
    ∃ (s : SubIx) (j : Nat), j < 4 ∧ reg = p.potReg[s] + j ∧ x = potCell i k s j := by
  obtain ⟨s, hs, rfl⟩ := Option.map_eq_some_iff.mp h
  have hr : p.potReg[s] ≤ reg ∧ reg < p.potReg[s] + 4 := of_decide_eq_true (List.find?_some hs :)
  exact ⟨s, reg - p.potReg[s], by omega, by omega, rfl⟩

/-- R131: the sub-registers of a channel, which no other channel of the chip has (R9). -/
theorem byteCell_pot {p : Params} (hv : p.Valid) (i : CardIx) (k : PotIx) (s : SubIx) {j : Nat} (hj : j < 4) :
    byteCell p (.pot i k) (p.potReg[s] + j) = some (potCell i k s j) := by
  cases h : byteCell p (.pot i k) (p.potReg[s] + j) with
  | none =>
    have := List.find?_eq_none.mp (Option.map_eq_none_iff.mp h) s (List.mem_finRange s)
    simp at this
    omega
  | some x =>
    obtain ⟨s', j', hj', hr, rfl⟩ := byteCell_pot_some h
    have hs : s' = s := by
      by_contra e
      have : p.potReg[s'] + 4 ≤ p.potReg[s] ∨ p.potReg[s] + 4 ≤ p.potReg[s'] := hv.2.2.2.2.2.1 s' s e
      omega
    subst hs
    rw [show j' = j by omega]

theorem blockCells_pot {p : Params} (hv : p.Valid) (i : CardIx) (k : PotIx) (s : SubIx) :
    blockCells p (.pot i k) p.potReg[s] 4 =
      some [potCell i k s 0, potCell i k s 1, potCell i k s 2, potCell i k s 3] := by
  have e0 := byteCell_pot hv i k s (j := 0) (by omega)
  have e1 := byteCell_pot hv i k s (j := 1) (by omega)
  have e2 := byteCell_pot hv i k s (j := 2) (by omega)
  have e3 := byteCell_pot hv i k s (j := 3) (by omega)
  simp_all [blockCells, Nat.add_assoc]

/-- R132. -/
theorem potWriteOp_runs {s : State} {i : CardIx} (c : ChanIx) (p : Word) (h : Ready s i) (ho : s.nextAnswer.ok = true) :
    (potWriteOp (cardNo i) (chanNo c) p).Runs s ⟨⟩ 1 ((potCells i c).zip (patternBytes p))
      [.bus (.writeBlock (s.params.potAddr[potChip c] : Nat) s.params.potReg[potSub c] (patternBytes p)) true []]
      s.cards := by
  have hb := writeBlockOp_ok (bs := patternBytes p) (route_pot h.2.1 h.2.2.1 (potChip c)) (by simp [patternBytes])
    (blockCells_pot h.2.1 i (potChip c) (potSub c)) ho
  refine ⟨_, ?_, effect_wrote _ _ _ _, scratch_wrote _ _ _ _, wrote_cards _ _ _ _⟩
  simp only [potWriteOp, chanIx_chanNo]
  rw [Op.bind_ok h.requireOpen, Op.pure_bind, Op.get_bind, hb]
  rfl

theorem setLevelCache_runs {s t : State} {i : CardIx} {n : Nat} {ws : List (Nat × Byte)} {es : List Event}
    (he : Effect s t n ws es) (hs : SameScratch s t) (hc : t.cards = s.cards) (c : ChanIx) (v : Nat) :
    ∃ u, setLevelCache (cardNo i) c v t = .ok ⟨⟩ u ∧ Effect s u n ws es ∧ SameScratch s u ∧
      u.cards = s.cards.set i { s.cards[i] with level := s.cards[i].level.set c (some v) } := by
  refine ⟨_, rfl, by simpa using he.trans (effect_setCard t _ _), hs.trans (scratch_setCard _ _ _), ?_⟩
  rw [setCard_cards _ (cardIx?_cardNo i), State.card_cardNo, hc]

/-- R133. -/
theorem setLevelOp_runs {s : State} {i : CardIx} (c : ChanIx) {v : Int} (hv : 0 ≤ v ∧ v ≤ 1023) (h : Ready s i)
    (ho : s.nextAnswer.ok = true) :
    (setLevelOp (cardNo i) (chanNo c) v).Runs s ⟨⟩ 1 ((potCells i c).zip (potBytes v.toNat))
      [.bus (.writeBlock (s.params.potAddr[potChip c] : Nat) s.params.potReg[potSub c] (potBytes v.toNat)) true []]
      (s.cards.set i { s.cards[i] with level := s.cards[i].level.set c (some v.toNat) }) := by
  obtain ⟨t, ht, he, hs, hc⟩ := potWriteOp_runs c (potPattern v.toNat) h ho
  rw [patternBytes_potPattern ⟨v.toNat, by omega⟩] at he
  obtain ⟨u, hu, hrest⟩ := setLevelCache_runs (i := i) he hs hc c v.toNat
  refine ⟨u, ?_, hrest⟩
  simp only [setLevelOp, isChannel_chanNo, checkArg_true, Op.pure_bind, isLevel_iff.mpr hv, chanIx_chanNo]
  rw [Op.bind_ok h.requireOpen, Op.bind_ok ht, hu]

/-- R134. -/
theorem setLevelMinOp_runs {s : State} {i : CardIx} (c : ChanIx) (h : Ready s i) (ho : s.nextAnswer.ok = true) :
    (setLevelMinOp (cardNo i) (chanNo c)).Runs s ⟨⟩ 1 ((potCells i c).zip [0x00#8, 0x00#8, 0x00#8, 0x00#8])
      [.bus (.writeBlock (s.params.potAddr[potChip c] : Nat) s.params.potReg[potSub c]
        [0x00#8, 0x00#8, 0x00#8, 0x00#8]) true []]
      (s.cards.set i { s.cards[i] with level := s.cards[i].level.set c (some 0) }) := by
  obtain ⟨t, ht, he, hs, hc⟩ := potWriteOp_runs c Config.pb.potMinPattern h ho
  rw [show patternBytes Config.pb.potMinPattern = [0x00#8, 0x00#8, 0x00#8, 0x00#8] by decide] at he
  obtain ⟨u, hu, hrest⟩ := setLevelCache_runs (i := i) he hs hc c 0
  refine ⟨u, ?_, hrest⟩
  simp only [setLevelMinOp, isChannel_chanNo, checkArg_true, Op.pure_bind, chanIx_chanNo]
  rw [Op.bind_ok h.requireOpen, Op.bind_ok ht, hu]

/-- R135. -/
theorem setLevelMaxOp_runs {s : State} {i : CardIx} (c : ChanIx) (h : Ready s i) (ho : s.nextAnswer.ok = true) :
    (setLevelMaxOp (cardNo i) (chanNo c)).Runs s ⟨⟩ 1 ((potCells i c).zip [0xFF#8, 0xFF#8, 0xFF#8, 0xFF#8])
      [.bus (.writeBlock (s.params.potAddr[potChip c] : Nat) s.params.potReg[potSub c]
        [0xFF#8, 0xFF#8, 0xFF#8, 0xFF#8]) true []]
      (s.cards.set i { s.cards[i] with level := s.cards[i].level.set c (some 1023) }) := by
  obtain ⟨t, ht, he, hs, hc⟩ := potWriteOp_runs c Config.pb.potMaxPattern h ho
  rw [show patternBytes Config.pb.potMaxPattern = [0xFF#8, 0xFF#8, 0xFF#8, 0xFF#8] by decide] at he
  obtain ⟨u, hu, hrest⟩ := setLevelCache_runs (i := i) he hs hc c 1023
  refine ⟨u, ?_, hrest⟩
  simp only [setLevelMaxOp, isChannel_chanNo, checkArg_true, Op.pure_bind, chanIx_chanNo]
  rw [Op.bind_ok h.requireOpen, Op.bind_ok ht, hu]

/-- R80: the sum of the four bytes a channel's sub-registers hold. -/
def State.potSum (s : State) (i : CardIx) (c : ChanIx) : Nat :=
  (s.devPot i c 0).toNat + (s.devPot i c 1).toNat + (s.devPot i c 2).toNat + (s.devPot i c 3).toNat

/-- R136. -/
theorem readLevelOp_runs {s : State} {i : CardIx} (c : ChanIx) (h : Ready s i) (ho : s.nextAnswer.ok = true) :
    (readLevelOp (cardNo i) (chanNo c)).Runs s (s.potSum i c) 1 []
      [.bus (.readBlock (s.params.potAddr[potChip c] : Nat) s.params.potReg[potSub c] 4) true
        [s.devPot i c 0, s.devPot i c 1, s.devPot i c 2, s.devPot i c 3]]
      (s.cards.set i { s.cards[i] with level := s.cards[i].level.set c (some (s.potSum i c)) }) := by
  have hb := readBlockOp_ok (n := 4) (route_pot h.2.1 h.2.2.1 (potChip c)) (by omega)
    (blockCells_pot h.2.1 i (potChip c) (potSub c)) ho
  obtain ⟨u, hu, hrest⟩ := setLevelCache_runs (i := i) (effect_received s _ true _) (scratch_received _ _ _ _)
    (received_cards _ _ _ _) c (s.potSum i c)
  refine ⟨u, ?_, hrest⟩
  simp only [readLevelOp, isChannel_chanNo, checkArg_true, Op.pure_bind, chanIx_chanNo]
  rw [Op.bind_ok h.requireOpen, Op.get_bind]
  rw [Op.bind_ok hb]
  have hsum : byteSum ([potCell i (potChip c) (potSub c) 0, potCell i (potChip c) (potSub c) 1,
      potCell i (potChip c) (potSub c) 2, potCell i (potChip c) (potSub c) 3].map (Memory.read s.mem)) =
      s.potSum i c := by
    simp [byteSum, State.potSum, State.devPot, Nat.add_assoc]
  rw [hsum]
  exact Op.bind_ok (f := fun _ => pure (s.potSum i c)) hu

/-! ## The sense chips -/

theorem snsReg_cfg {p : Params} : snsReg p p.snsRegCfg = some .cfg := by simp [snsReg]

theorem snsReg_isSome_iff {p : Params} {r : Nat} : (snsReg p r).isSome = true ↔ r ∈ p.snsRegs := by
  simp only [snsReg, Params.snsRegs, List.mem_cons, List.not_mem_nil, or_false]
  split_ifs <;> simp_all

theorem snsReg_cal {p : Params} (hv : p.Valid) : snsReg p p.snsRegCal = some .cal := by
  have h := hv.2.2.2.1
  simp only [Params.snsRegs, List.nodup_cons, List.mem_cons, List.not_mem_nil, or_false, not_or] at h
  unfold snsReg
  rw [if_neg (fun e => h.1.2.2.2.2 e.symm), if_neg (fun e => h.2.1.2.2.2 e.symm), if_neg (fun e => h.2.2.1.2.2 e.symm),
    if_neg (fun e => h.2.2.2.1.2 e.symm), if_neg (fun e => h.2.2.2.2.1 e.symm), if_pos rfl]

/-- R29: the number of one of the four result registers. -/
def ResultReg (p : Params) (reg : Nat) : Prop := ∃ r, snsReg p reg = some r ∧ r ≠ .cfg ∧ r ≠ .cal

theorem resultReg_of {p : Params} {reg : Nat} (h : reg ∈ p.snsRegs) (h1 : reg ≠ p.snsRegCfg) (h2 : reg ≠ p.snsRegCal) :
    ResultReg p reg := by
  simp only [Params.snsRegs, List.mem_cons, List.not_mem_nil, or_false] at h
  unfold ResultReg snsReg
  split_ifs <;> simp_all

theorem snsRegs_distinct {p : Params} (hv : p.Valid) :
    ResultReg p p.snsRegShunt ∧ ResultReg p p.snsRegBus ∧ ResultReg p p.snsRegPower ∧ ResultReg p p.snsRegCurrent := by
  have h := hv.2.2.2.1
  simp only [Params.snsRegs, List.nodup_cons, List.mem_cons, List.not_mem_nil, or_false, not_or] at h
  refine ⟨?_, ?_, ?_, ?_⟩ <;> refine resultReg_of (by simp [Params.snsRegs]) ?_ ?_ <;> intro e <;> simp_all

/-- R141: the cells of the calibration rewrite. -/
def calWrites (p : Params) (i : CardIx) (c : ChanIx) : List (Nat × Byte) := halfCells (snsCalCell i c) p.calWord

/-- The cells of the configuration write of R140. -/
def cfgWrites (p : Params) (i : CardIx) (c : ChanIx) : List (Nat × Byte) := halfCells (snsCfgCell i c) p.cfgWord

/-- The event of a calibration rewrite. -/
def calEvent (p : Params) (c : ChanIx) : Event :=
  .bus (.writeWord (p.snsAddr[c] : Nat) p.snsRegCal (bswap16 p.calWord)) true []

/-- The event of a configuration write. -/
def cfgEvent (p : Params) (c : ChanIx) : Event :=
  .bus (.writeWord (p.snsAddr[c] : Nat) p.snsRegCfg (bswap16 p.cfgWord)) true []

/-- The event of a successful read of a sense register whose content is `r`. -/
def senseEvent (p : Params) (c : ChanIx) (reg : Nat) (r : Half) : Event :=
  .bus (.readWord (p.snsAddr[c] : Nat) reg) true [r.extractLsb' 8 8, r.extractLsb' 0 8]

/-- R141. -/
theorem calibrate_runs {s : State} {i : CardIx} (c : ChanIx) (h : Ready s i) (ho : s.nextAnswer.ok = true) :
    (calibrate c).Runs s ⟨⟩ 1 (calWrites s.params i c) [calEvent s.params c] s.cards := by
  have hb := writeWordOp_cal_ok (w := bswap16 s.params.calWord) (route_sns h.2.1 h.2.2.1 c) (snsReg_cal h.2.1) ho
  rw [bswap16_bswap16] at hb
  refine ⟨_, ?_, effect_wrote _ _ _ _, scratch_wrote _ _ _ _, wrote_cards _ _ _ _⟩
  simp only [calibrate]
  rw [Op.get_bind, hb]
  rfl

/-- R142 to R145: one read of a sense register. -/
theorem readSense_runs {s : State} {i : CardIx} (c : ChanIx) {reg : Params → Nat} (hg : ResultReg s.params (reg s.params))
    (h : Ready s i) (ho : s.nextAnswer.ok = true) :
    (readSense c reg).Runs s s.nextAnswer.word.toInt 1 []
      [senseEvent s.params c (reg s.params) s.nextAnswer.word] s.cards := by
  obtain ⟨r, hg, hr⟩ := hg
  have hb := readWordOp_ok (route_sns h.2.1 h.2.2.1 c) hg ho
  rw [snsContent_result hr] at hb
  refine ⟨_, ?_, effect_received _ _ _ _, scratch_received _ _ _ _, received_cards _ _ _ _⟩
  simp only [readSense]
  rw [Op.get_bind, Op.bind_ok hb]
  simp [rawOfWord, sext16]

theorem calWrites_no_switch (p : Params) (i : CardIx) (c : ChanIx) (j : CardIx) :
    swCell j ∉ (calWrites p i c).map Prod.fst := by
  simp [calWrites, halfCells, swCell_val, snsCalCell_val]; omega

theorem cfgWrites_no_switch (p : Params) (i : CardIx) (c : ChanIx) (j : CardIx) :
    swCell j ∉ (cfgWrites p i c).map Prod.fst := by
  simp [cfgWrites, halfCells, swCell_val, snsCfgCell_val]; omega

/-- R141, R143 to R145: a calibration rewrite and then one read. -/
theorem calRead_runs {s : State} {i : CardIx} (c : ChanIx) {reg : Params → Nat} (hg : ResultReg s.params (reg s.params))
    (h : Ready s i) (ho : NoBusError 2 s) :
    (do calibrate c; readSense c reg : Op Int).Runs s (s.answer 1).word.toInt 2 (calWrites s.params i c)
      [calEvent s.params c, senseEvent s.params c (reg s.params) (s.answer 1).word] s.cards := by
  obtain ⟨t, ht, he, hs, hc⟩ := calibrate_runs c h (ho.next (by omega))
  have hr : Ready t i := h.step he (calWrites_no_switch _ _ _) (by rw [hc])
  obtain ⟨u, hu, he', hs', hc'⟩ := readSense_runs c (reg := reg) (by rw [he.params]; exact hg) hr
    ((ho.after he (by omega)).next (by omega))
  rw [he.nextAnswer] at hu he'
  refine ⟨u, by rw [Op.bind_ok ht, hu], ?_, hs.trans hs', hc'.trans hc⟩
  have := he.trans he'
  rw [he.params] at this
  simpa using this

/-- R142. -/
theorem rawShuntOp_runs {s : State} {i : CardIx} (c : ChanIx) (h : Ready s i) (ho : s.nextAnswer.ok = true) :
    (rawShuntOp (cardNo i) (chanNo c)).Runs s s.nextAnswer.word.toInt 1 []
      [senseEvent s.params c s.params.snsRegShunt s.nextAnswer.word] s.cards := by
  obtain ⟨t, ht, hrest⟩ := readSense_runs c (reg := Params.snsRegShunt) (snsRegs_distinct h.2.1).1 h ho
  refine ⟨t, ?_, hrest⟩
  simp only [rawShuntOp, chanIx_chanNo]
  rw [Op.bind_ok h.requireOpen, Op.pure_bind, ht]

theorem raw_runs {s : State} {i : CardIx} {x : Op α} {y : ChanIx → Op α} {c : ChanIx} {v : α} {n : Nat}
    {ws : List (Nat × Byte)} {es : List Event} {cards : Vector Card Config.pb.nCards} (h : Ready s i)
    (hx : x = (do requireOpen (cardNo i); let k ← chanIx (chanNo c); y k)) (hy : (y c).Runs s v n ws es cards) :
    x.Runs s v n ws es cards := by
  obtain ⟨t, ht, hrest⟩ := hy
  refine ⟨t, ?_, hrest⟩
  rw [hx, chanIx_chanNo, Op.bind_ok h.requireOpen, Op.pure_bind, ht]

/-- R143. -/
theorem rawBusOp_runs {s : State} {i : CardIx} (c : ChanIx) (h : Ready s i) (ho : NoBusError 2 s) :
    (rawBusOp (cardNo i) (chanNo c)).Runs s ((s.answer 1).word.toInt / 8) 2 (calWrites s.params i c)
      [calEvent s.params c, senseEvent s.params c s.params.snsRegBus (s.answer 1).word] s.cards := by
  obtain ⟨t, ht, hrest⟩ := calRead_runs c (reg := Params.snsRegBus) (snsRegs_distinct h.2.1).2.1 h ho
  refine raw_runs (y := fun k => do calibrate k; let raw ← readSense k Params.snsRegBus; pure (busRaw raw)) h rfl
    ⟨t, ?_, hrest⟩
  rw [Op.bind_apply] at ht ⊢
  cases hcal : calibrate c s with
  | error e u => rw [hcal] at ht; cases ht
  | ok v u =>
    rw [hcal] at ht
    simp only at ht ⊢
    rw [Op.bind_ok ht]
    rfl

/-- R144. -/
theorem rawCurrentOp_runs {s : State} {i : CardIx} (c : ChanIx) (h : Ready s i) (ho : NoBusError 2 s) :
    (rawCurrentOp (cardNo i) (chanNo c)).Runs s (s.answer 1).word.toInt 2 (calWrites s.params i c)
      [calEvent s.params c, senseEvent s.params c s.params.snsRegCurrent (s.answer 1).word] s.cards :=
  raw_runs (y := fun k => do calibrate k; readSense k Params.snsRegCurrent) h rfl
    (calRead_runs c (reg := Params.snsRegCurrent) (snsRegs_distinct h.2.1).2.2.2 h ho)

/-- R145. -/
theorem rawPowerOp_runs {s : State} {i : CardIx} (c : ChanIx) (h : Ready s i) (ho : NoBusError 2 s) :
    (rawPowerOp (cardNo i) (chanNo c)).Runs s (s.answer 1).word.toInt 2 (calWrites s.params i c)
      [calEvent s.params c, senseEvent s.params c s.params.snsRegPower (s.answer 1).word] s.cards :=
  raw_runs (y := fun k => do calibrate k; readSense k Params.snsRegPower) h rfl
    (calRead_runs c (reg := Params.snsRegPower) (snsRegs_distinct h.2.1).2.2.1 h ho)

/-- R140. -/
theorem senseInitOp_runs {s : State} {i : CardIx} (c : ChanIx) (h : Ready s i) (ho : NoBusError 2 s) :
    (senseInitOp (cardNo i) (chanNo c)).Runs s ⟨⟩ 2 (calWrites s.params i c ++ cfgWrites s.params i c)
      [calEvent s.params c, cfgEvent s.params c] s.cards := by
  obtain ⟨t, ht, he, hs, hc⟩ := calibrate_runs c h (ho.next (by omega))
  have hr : Ready t i := h.step he (calWrites_no_switch _ _ _) (by rw [hc])
  have hb := writeWordOp_cfg_ok (w := bswap16 t.params.cfgWord) (route_sns hr.2.1 hr.2.2.1 c) snsReg_cfg
    ((ho.after he (by omega)).next (by omega))
  rw [bswap16_bswap16] at hb
  refine raw_runs (y := fun k => do
    calibrate k
    let p := (← get).params
    writeWordOp p.snsAddr[k] p.snsRegCfg (bswap16 p.cfgWord)) h rfl
    ⟨_, by rw [Op.bind_ok ht, Op.get_bind, hb], ?_, hs.trans (scratch_wrote _ _ _ _), by rw [wrote_cards, hc]⟩
  have := he.trans (effect_wrote t (.writeWord (t.params.snsAddr[c] : Nat) t.params.snsRegCfg (bswap16 t.params.cfgWord))
    true (halfCells (snsCfgCell i c) t.params.cfgWord))
  rw [he.params] at this ⊢
  exact this

end Sys2Proof.Machine
end

