-- ==== Sys2Proof/Laws/Reads.lean ====
section
/-! SUPPORT. The averaged reads of 44_sense.md when no transaction fails. -/

namespace Sys2Proof.Machine

/-! ## The arithmetic -/

theorem clampMean_eq (m : Rat) : clampMean m = max m 0 := by
  unfold clampMean
  split
  · next h => exact (max_eq_right (le_of_lt h)).symm
  · next h => exact (max_eq_left (not_lt.mp h)).symm

theorem currentEps_eq (m : Rat) : currentEps m = if m < 1 / 10 then 0 else m := rfl

/-- The sum of the first `n` values, in the order the accumulator takes them. -/
def partialSum (f : Nat → Rat) : Nat → Rat
  | 0 => 0
  | n + 1 => partialSum f n + f n

/-- R151: the mean of `SENSE_N` samples, which PB gives as six (R8). -/
theorem partialSum_six (f : Nat → Rat) : partialSum f 6 / ((6 : Nat) : Rat) = meanOfSix f := by
  simp [partialSum, meanOfSix]

theorem partialSum_congr {f g : Nat → Rat} (h : ∀ k, f k = g k) (n : Nat) : partialSum f n = partialSum g n := by
  induction n with
  | zero => rfl
  | succ n ih => simp [partialSum, ih, h]

theorem busReading_effect {s t : State} {n : Nat} {ws : List (Nat × Byte)} {es : List Event} (h : Effect s t n ws es)
    (m : Nat) : busReading t m = busReading s (n + m) := by
  unfold busReading
  rw [h.params]
  congr 2
  funext k
  rw [h.answer, show n + (m + 2 * k + 1) = n + m + 2 * k + 1 by omega]

theorem shuntReading_effect {s t : State} {n : Nat} {ws : List (Nat × Byte)} {es : List Event} (h : Effect s t n ws es)
    (m : Nat) : shuntReading t m = shuntReading s (n + m) := by
  unfold shuntReading
  rw [h.params]
  congr 2
  funext k
  rw [h.answer, Nat.add_assoc]

theorem currentReading_effect {s t : State} {n : Nat} {ws : List (Nat × Byte)} {es : List Event} (h : Effect s t n ws es)
    (d : Rat) (m : Nat) : currentReading t d m = currentReading s d (n + m) := by
  have hf : (fun k => ((t.answer (m + 2 * k + 1)).word.toInt : Rat) / d) =
      fun k => ((s.answer (n + m + 2 * k + 1)).word.toInt : Rat) / d := by
    funext k
    rw [h.answer, show n + (m + 2 * k + 1) = n + m + 2 * k + 1 by omega]
  unfold currentReading
  rw [hf]

/-! ## One sample -/

/-- What the events of `k` samples of `m` transactions each are: `m * k` transactions, and a delay before each sample but the
first. -/
structure SampleEvents (m k : Nat) (es : List Event) : Prop where
  bus : es.countP Event.isBus = m * k
  delays : es.countP Event.isSampleDelay = k - 1
  length : es.length = m * k + (k - 1)
  settles : es.countP Event.isSettle = 0

/-- From a ready card, `sample` makes `m` transactions, writes cells among `ws`, and answers `g` of the `p`-th answer to come. -/
def Sampler (sample : Op Rat) (i : CardIx) (s : State) (m p : Nat) (ws : List (Nat × Byte)) (g : Answer → Rat) : Prop :=
  ∀ t : State, Ready t i → t.params = s.params → t.cards = s.cards → NoBusError m t →
    ∃ es, sample.Runs t (g (t.answer p)) m ws es t.cards ∧ es.countP Event.isBus = m ∧
      es.countP Event.isSampleDelay = 0 ∧ es.length = m ∧ es.countP Event.isSettle = 0

/-- R147. -/
theorem shuntSample_sampler (s : State) (i : CardIx) (c : ChanIx) :
    Sampler (shuntSample (cardNo i) (chanNo c)) i s 1 0 [] fun a => (a.word.toInt : Rat) * s.params.shuntLsb := by
  intro t hr hp _ hb
  obtain ⟨u, hu, hrest⟩ := rawShuntOp_runs c hr (hb.next (by omega))
  refine ⟨_, ⟨u, ?_, hrest⟩, ?_⟩
  · simp only [shuntSample]
    rw [Op.bind_ok hu, Op.get_bind, hrest.1.params, hp, State.answer_zero]
    rfl
  · simp [senseEvent, Event.isBus, Event.isSampleDelay, Event.isSettle]

/-- R148. -/
theorem busSample_sampler (s : State) (i : CardIx) (c : ChanIx) :
    Sampler (busSample (cardNo i) (chanNo c)) i s 2 1 (calWrites s.params i c)
      fun a => ((a.word.toInt / 8 : Int) : Rat) * s.params.busLsb := by
  intro t hr hp _ hb
  obtain ⟨u, hu, hrest⟩ := rawBusOp_runs c hr hb
  refine ⟨_, ⟨u, ?_, hp ▸ hrest⟩, rfl, rfl, rfl, rfl⟩
  simp only [busSample]
  rw [Op.bind_ok hu, Op.get_bind, hrest.1.params, hp]
  rfl

/-- R149. -/
theorem currentSample_sampler (s : State) (i : CardIx) (c : ChanIx) {d : Rat} (hd : s.cards[i].curdiv = some d) :
    Sampler (currentSample (cardNo i) (chanNo c)) i s 2 1 (calWrites s.params i c)
      fun a => (a.word.toInt : Rat) / d := by
  intro t hr hp hc hb
  obtain ⟨u, hu, hrest⟩ := rawCurrentOp_runs c hr hb
  refine ⟨_, ⟨u, ?_, hp ▸ hrest⟩, rfl, rfl, rfl, rfl⟩
  simp only [currentSample]
  rw [Op.bind_ok hu, Op.bind_ok (readField_of_some (v := d) (by rw [State.card_cardNo, hrest.2.2, hc, hd]))]
  rfl

/-! ## Six samples (R151) -/

/-- Where the loop stands after `k` samples. -/
structure Sampled (s : State) (m p : Nat) (ws : List (Nat × Byte)) (g : Answer → Rat) (k : Nat) (t : State) : Prop where
  run : ∃ W es, Effect s t (m * k) W es ∧ (∀ w ∈ W, w ∈ ws) ∧ SampleEvents m k es
  cards : t.cards = s.cards
  iter : t.iter = s.iter
  seekLevel : t.seekLevel = s.seekLevel
  acc : t.acc = some (partialSum (fun j => g (s.answer (m * j + p))) k)
  cnt : t.cnt = some k

theorem takeSample_runs {sample : Op Rat} {i : CardIx} {s t : State} {m p k : Nat} {ws : List (Nat × Byte)}
    {g : Answer → Rat} (hs : Sampler sample i s m p ws g) (hr : Ready s i) (hw : ∀ j : CardIx, swCell j ∉ ws.map Prod.fst)
    (hb : NoBusError (m * (k + 1)) s) (ht : Sampled s m p ws g k t) :
    ∃ u, takeSample sample k t = .ok ⟨⟩ u ∧ Sampled s m p ws g (k + 1) u := by
  obtain ⟨W, es, he, hW, hev⟩ := ht.run
  have key : ∀ t' es', Effect t t' 0 [] es' → t'.cards = t.cards → t'.iter = t.iter → t'.seekLevel = t.seekLevel →
      t'.acc = t.acc → t'.cnt = t.cnt →
      es'.countP Event.isBus = 0 ∧ es'.countP Event.isSettle = 0 ∧ es'.countP Event.isSampleDelay = k + 1 - 1 - (k - 1) ∧
        es'.length = k + 1 - 1 - (k - 1) →
      ∃ u, (do
        let x ← sample
        modify fun s => { s with acc := s.acc.map (· + x), cnt := s.cnt.map (· + 1) } : Op Unit) t' = .ok ⟨⟩ u ∧
        Sampled s m p ws g (k + 1) u := by
    intro t' es' he' hc' hi' hl' ha' hn' hcnt
    have hse : Effect s t' (m * k) W (es ++ es') := by simpa using he.trans he'
    have hswW : ∀ j : CardIx, swCell j ∉ W.map Prod.fst := fun j hj => by
      obtain ⟨w, hw1, hw2⟩ := List.mem_map.mp hj
      exact hw j (List.mem_map.mpr ⟨w, hW w hw1, hw2⟩)
    have hrt : Ready t' i := hr.step hse hswW (by rw [hc', ht.cards])
    obtain ⟨ev, ⟨v, hv, hev', hsc, hcv⟩, hcb, hcd, hcl, hcs⟩ := hs t' hrt hse.params (hc'.trans ht.cards)
      ((hb.after hse (by rw [Nat.mul_succ]; omega)).mono (by rw [Nat.mul_succ]; omega))
    rw [hse.answer] at hv
    refine ⟨{ v with acc := v.acc.map (· + g (s.answer (m * k + p))), cnt := v.cnt.map (· + 1) }, ?_, ?_, ?_, ?_, ?_, ?_, ?_⟩
    · rw [Op.bind_ok hv]; rfl
    · have hfull := hse.trans hev'
      refine ⟨W ++ ws, es ++ es' ++ ev, ⟨hfull.params, hfull.running, hfull.cfg, hfull.present, hfull.inbox, hfull.mem,
        hfull.hist, ?_, ?_⟩, ?_, ?_⟩
      · rw [Nat.mul_succ]; exact hfull.tape
      · rw [Nat.mul_succ]; exact hfull.draws
      · intro w hw'
        rcases List.mem_append.mp hw' with h | h
        · exact hW w h
        · exact h
      · obtain ⟨h1, h2, h3, h4⟩ := hev
        obtain ⟨g1, g2, g3, g4⟩ := hcnt
        refine ⟨?_, ?_, ?_, ?_⟩
        · rw [List.countP_append, List.countP_append, h1, g1, hcb, Nat.mul_succ]; omega
        · rw [List.countP_append, List.countP_append, h2, g3, hcd]; omega
        · rw [List.length_append, List.length_append, h3, g4, hcl, Nat.mul_succ]; omega
        · rw [List.countP_append, List.countP_append, h4, g2, hcs]
    · exact hcv.trans (hc'.trans ht.cards)
    · exact hsc.iter.trans (hi'.trans ht.iter)
    · exact hsc.seekLevel.trans (hl'.trans ht.seekLevel)
    · simp only [hsc.acc, ha', ht.acc, Option.map_some, partialSum]
    · simp only [hsc.cnt, hn', ht.cnt, Option.map_some]
  unfold takeSample
  by_cases hk : 0 < k
  · rw [if_pos hk]
    rw [Op.get_bind, Op.bind_ok (emit_apply _ _)]
    refine key _ [.delay .sample t.params.sampleDelayMs] (effect_event t _) rfl rfl rfl rfl rfl ?_
    · simp [Event.isBus, Event.isSettle, Event.isSampleDelay]; omega
  · rw [if_neg hk]
    have : k = 0 := by omega
    subst this
    exact key t [] (Effect.refl t) rfl rfl rfl rfl rfl (by simp)

/-- What a public read does: `n` transactions in six samples, cell writes among `ws`, nothing cached, `ACC` and `CNT` dropped. -/
structure PublicRead (s t : State) (n : Nat) (ws : List (Nat × Byte)) : Prop where
  run : ∃ W es, Effect s t n W es ∧ (∀ w ∈ W, w ∈ ws) ∧ es.countP Event.isBus = n ∧
    es.countP Event.isSampleDelay = 5 ∧ es.length = n + 5 ∧ es.countP Event.isSettle = 0
  cards : t.cards = s.cards
  iter : t.iter = s.iter
  seekLevel : t.seekLevel = s.seekLevel
  acc : t.acc = none
  cnt : t.cnt = none

/-- R151. -/
theorem averageOp_runs {sample : Op Rat} {i : CardIx} {s : State} {m p : Nat} {ws : List (Nat × Byte)}
    {g : Answer → Rat} (hs : Sampler sample i s m p ws g) (hr : Ready s i) (hw : ∀ j : CardIx, swCell j ∉ ws.map Prod.fst)
    (hb : NoBusError (m * 6) s) :
    ∃ t, averageOp sample s = .ok (meanOfSix fun k => g (s.answer (m * k + p))) t ∧ PublicRead s t (m * 6) ws := by
  have h0 : Sampled { s with acc := some 0, cnt := some 0 } m p ws g 0 { s with acc := some 0, cnt := some 0 } :=
    ⟨⟨[], [], by simpa using Effect.refl _, by simp, ⟨rfl, rfl, rfl, rfl⟩⟩, rfl, rfl, rfl, rfl, rfl⟩
  have hs' : Sampler sample i { s with acc := some 0, cnt := some 0 } m p ws g := hs
  have hr' : Ready { s with acc := some 0, cnt := some 0 } i := hr
  have hb' : NoBusError (m * 6) { s with acc := some 0, cnt := some 0 } := hb
  obtain ⟨t1, e1, h1⟩ := takeSample_runs hs' hr' hw (hb'.mono (Nat.mul_le_mul_left m (by omega))) h0
  obtain ⟨t2, e2, h2⟩ := takeSample_runs hs' hr' hw (hb'.mono (Nat.mul_le_mul_left m (by omega))) h1
  obtain ⟨t3, e3, h3⟩ := takeSample_runs hs' hr' hw (hb'.mono (Nat.mul_le_mul_left m (by omega))) h2
  obtain ⟨t4, e4, h4⟩ := takeSample_runs hs' hr' hw (hb'.mono (Nat.mul_le_mul_left m (by omega))) h3
  obtain ⟨t5, e5, h5⟩ := takeSample_runs hs' hr' hw (hb'.mono (Nat.mul_le_mul_left m (by omega))) h4
  obtain ⟨t6, e6, h6⟩ := takeSample_runs hs' hr' hw (hb'.mono (Nat.mul_le_mul_left m (by omega))) h5
  have hrun : averageOp sample s = .ok (meanOfSix fun k => g (s.answer (m * k + p))) t6.dropAcc := by
    unfold averageOp dropAfter
    rw [Op.modify_bind]
    have hl : forEach (List.range Config.pb.senseN) (takeSample sample) { s with acc := some 0, cnt := some 0 } =
        .ok ⟨⟩ t6 := by
      rw [show List.range Config.pb.senseN = [0, 1, 2, 3, 4, 5] from rfl]
      simp only [forEach_cons, forEach_nil]
      rw [Op.bind_ok e1, Op.bind_ok e2, Op.bind_ok e3, Op.bind_ok e4, Op.bind_ok e5, Op.bind_ok e6]
      rfl
    have hacc : t6.acc = some (partialSum (fun j => g (s.answer (m * j + p))) 6) := h6.acc
    rw [Op.bind_ok hl, Op.bind_ok (readField_of_some hacc)]
    simp only [Op.pure_apply, partialSum_six]
  refine ⟨_, hrun, ?_, h6.cards, h6.iter, h6.seekLevel, rfl, rfl⟩
  obtain ⟨W, es, he, hW, hev⟩ := h6.run
  exact ⟨W, es, ⟨he.params, he.running, he.cfg, he.present, he.inbox, he.mem, he.hist, he.tape, he.draws⟩, hW,
    hev.bus, hev.delays, hev.length, hev.settles⟩

/-- R152. -/
theorem getBusVoltageOp_runs {s : State} {i : CardIx} (c : ChanIx) (h : Ready s i) (ho : NoBusError 12 s) :
    ∃ t, getBusVoltageOp (cardNo i) (chanNo c) s = .ok (busReading s 0) t ∧
      PublicRead s t 12 (calWrites s.params i c) := by
  obtain ⟨t, ht, hp⟩ := averageOp_runs (busSample_sampler s i c) h (calWrites_no_switch _ _ _) ho
  refine ⟨t, ?_, hp⟩
  simp only [getBusVoltageOp, isChannel_chanNo, checkArg_true, Op.pure_bind]
  rw [Op.bind_ok h.requireOpen, Op.bind_ok ht, clampMean_eq]
  simp only [busReading, Nat.zero_add]
  rfl

/-- R153. -/
theorem getShuntVoltageOp_runs {s : State} {i : CardIx} (c : ChanIx) (h : Ready s i) (ho : NoBusError 6 s) :
    ∃ t, getShuntVoltageOp (cardNo i) (chanNo c) s = .ok (shuntReading s 0) t ∧ PublicRead s t 6 [] := by
  obtain ⟨t, ht, hp⟩ := averageOp_runs (shuntSample_sampler s i c) h (by simp) ho
  refine ⟨t, ?_, hp⟩
  simp only [getShuntVoltageOp, isChannel_chanNo, checkArg_true, Op.pure_bind]
  rw [Op.bind_ok h.requireOpen, Op.bind_ok ht, clampMean_eq]
  simp only [shuntReading, Nat.zero_add, Nat.one_mul, Nat.add_zero]
  rfl

/-- R154. -/
theorem getCurrentOp_runs {s : State} {i : CardIx} (c : ChanIx) {d : Rat} (h : Ready s i) (ho : NoBusError 12 s)
    (hd : s.cards[i].curdiv = some d) :
    ∃ t, getCurrentOp (cardNo i) (chanNo c) s = .ok (currentReading s d 0) t ∧
      PublicRead s t 12 (calWrites s.params i c) := by
  obtain ⟨t, ht, hp⟩ := averageOp_runs (currentSample_sampler s i c hd) h (calWrites_no_switch _ _ _) ho
  refine ⟨t, ?_, hp⟩
  simp only [getCurrentOp, isChannel_chanNo, checkArg_true, Op.pure_bind]
  rw [Op.bind_ok h.requireOpen, Op.bind_ok ht, clampMean_eq, currentEps_eq]
  simp only [currentReading, Nat.zero_add]
  rfl

end Sys2Proof.Machine
end

