-- ==== Sys2Proof/Laws/Card.lean ====
section
/-! SUPPORT. Loops, the exclusive-access bracket, the construction of a card, and a per-card host command, when no transaction
fails. -/

namespace Sys2Proof.Machine

variable {α β : Type}

/-! ## Loops -/

/-- A loop whose every round runs and carries `P` from the rounds done to one more. -/
theorem forEach_runs {body : α → Op Unit} {all : List α} (P : List α → State → Prop)
    (step : ∀ done x rest s, done ++ x :: rest = all → P done s → ∃ t, body x s = .ok ⟨⟩ t ∧ P (done ++ [x]) t) :
    ∀ {s : State}, P [] s → ∃ t, forEach all body s = .ok ⟨⟩ t ∧ P all t := by
  suffices h : ∀ rest done s, done ++ rest = all → P done s → ∃ t, forEach rest body s = .ok ⟨⟩ t ∧ P all t by
    intro s h0
    exact h all [] s rfl h0
  intro rest
  induction rest with
  | nil =>
    intro done s hd hP
    rw [List.append_nil] at hd
    exact ⟨s, rfl, hd ▸ hP⟩
  | cons x rest ih =>
    intro done s hd hP
    obtain ⟨t, ht, hPt⟩ := step done x rest s hd hP
    obtain ⟨u, hu, hPu⟩ := ih (done ++ [x]) t (by simpa using hd) hPt
    exact ⟨u, by rw [forEach_cons, Op.bind_ok ht, hu], hPu⟩

theorem forEach_map (f : β → α) (xs : List β) (body : α → Op Unit) :
    forEach (xs.map f) body = forEach xs fun x => body (f x) := by
  induction xs with
  | nil => rfl
  | cons x xs ih => simp only [List.map_cons, forEach_cons, ih]

/-- A loop over the eight channels. -/
theorem forEach_allChans (body : Int → Op Unit) :
    forEach allChans body = forEach (List.finRange Config.pb.nChan) fun c => body (chanNo c) := by
  rw [allChans, forEach_map]

/-- A loop over the 18 addresses. -/
theorem forEach_allCards (body : Int → Op Unit) :
    forEach allCards body = forEach (List.finRange Config.pb.nCards) fun i => body (cardNo i) := by
  rw [allCards, forEach_map]

theorem not_mem_done {n : Nat} {done rest : List (Fin n)} {x : Fin n} (h : done ++ x :: rest = List.finRange n) :
    x ∉ done := by
  have hn : (done ++ x :: rest).Nodup := h ▸ List.nodup_finRange n
  intro hx
  exact (List.nodup_append.mp hn).2.2 x hx x (by simp) rfl

theorem length_done {n : Nat} {done rest : List (Fin n)} {x : Fin n} (h : done ++ x :: rest = List.finRange n) :
    done.length < n := by
  have := congrArg List.length h
  simp at this
  omega

/-! ## The bracket (R183) -/

/-- A bracket whose open, body and close all succeed. -/
theorem withOpen_ok {body : Op α} {s t u : State} {i : CardIx} {v : α} (ho : openOp (cardNo i) s = .ok ⟨⟩ t)
    (hb : body t = .ok v u) (hp : u.present[i] = true) (hc : u.nextAnswer.ok = true) :
    ∃ w, withOpen (cardNo i) body s = .ok v w ∧ Effect u w 1 [(swCell i, closeByte)] [switchEvent u.params i closeByte] ∧
      SameScratch u w ∧ w.cards = u.cards.set i { u.cards[i] with iso := some .closed } := by
  obtain ⟨w, hw, hrest⟩ := closeOp_runs hp hc
  exact ⟨w, bracket_ok ho hb hw, hrest⟩

/-- A bracket whose open succeeds, whose body makes `n` transactions with cell writes that name no switch, and whose close
succeeds. `Q` is whatever else is known of the body's answer, writes, events and cached card. -/
theorem withOpen_runs {body : Op α} {s : State} {i : CardIx} {n : Nat}
    (Q : α → List (Nat × Byte) → List Event → Card → Prop) (hm : Memory.wf s.mem = true) (hv : s.params.Valid)
    (hn : NoneConnected s) (hp : s.present[i] = true) (hb : NoBusError (n + 2) s)
    (hbody : ∀ t, Ready t i → Effect s t 1 [(swCell i, openByte s.params)] [switchEvent s.params i (openByte s.params)] →
      SameScratch s t → t.cards = s.cards.set i { s.cards[i] with iso := some .opened } →
      ∃ u v W es card, body t = .ok v u ∧ Effect t u n W es ∧ u.cards = s.cards.set i card ∧
        (∀ j : CardIx, swCell j ∉ W.map Prod.fst) ∧ Q v W es card) :
    ∃ w v W es card, withOpen (cardNo i) body s = .ok v w ∧
      Effect s w (n + 2) ((swCell i, openByte s.params) :: (W ++ [(swCell i, closeByte)]))
        (switchEvent s.params i (openByte s.params) :: (es ++ [switchEvent s.params i closeByte])) ∧
      w.cards = s.cards.set i { card with iso := some .closed } ∧ NoneConnected w ∧ Q v W es card := by
  obtain ⟨t, ht, he, hs, hc⟩ := openOp_runs hp (hb.next (by omega))
  have hr := ready_of_open hm hv hn hp he hc
  obtain ⟨u, v, W, es, card, hu, he', hc', hW, hQ⟩ := hbody t hr he hs hc
  have hsu := he.trans he'
  have hok : u.nextAnswer.ok = true := by
    rw [hsu.nextAnswer]
    exact hb ⟨1 + n, by omega⟩
  obtain ⟨w, hw, he'', _, hc''⟩ := withOpen_ok ht hu (by rw [hsu.present]; exact hp) hok
  rw [hsu.params] at he''
  have hfull := hsu.trans he''
  refine ⟨w, v, W, es, card, hw, ?_, ?_, ?_, hQ⟩
  · rw [show n + 2 = 1 + n + 1 by omega]
    simpa using hfull
  · rw [hc'', hc', cards_set_same, cards_set_set]
  · refine he''.connected_close (hsu.wf hm) (fun j hj => ?_) (by decide)
    have : u.connectedCards = [i] := (he'.connectedCards hW).trans hr.2.2.1
    exact OnlyConnected.eq this j hj

/-- What the switch's cell reads as after a bracket's writes. -/
theorem bracket_read_switch {i : CardIx} {W : List (Nat × Byte)} {a b : Byte} {m m' : List Host.Cell}
    (hm : Memory.wf m = true) (h : m' = Memory.writeAll m ((swCell i, a) :: (W ++ [(swCell i, b)]))) :
    Memory.read m' (swCell i) = b := by
  rw [h, Memory.writeAll, Memory.writeAll_append]
  exact Memory.read_write_same _ _ (Memory.wf_writeAll _ (Memory.wf_write _ _ hm))

/-- What any other cell reads as after a bracket's writes: what its body wrote. -/
theorem bracket_read_other {i : CardIx} {W : List (Nat × Byte)} {a b : Byte} {m m' : List Host.Cell} {k : Nat}
    (hm : Memory.wf m = true) (hk : k ≠ swCell i)
    (h : m' = Memory.writeAll m ((swCell i, a) :: (W ++ [(swCell i, b)]))) :
    Memory.read m' k = Memory.read (Memory.writeAll m W) k := by
  rw [h, Memory.writeAll, Memory.writeAll_append]
  change Memory.read (Memory.write _ _ _) k = _
  rw [Memory.read_write_other _ _ hk]
  exact Memory.read_writeAll_congr (fun k' hk' => Memory.read_write_other _ _ hk') hm (Memory.wf_write _ _ hm) W hk

/-- A bracket writes the switch's cell and the cells its body writes. -/
theorem bracket_cells {i : CardIx} {W : List (Nat × Byte)} {a b : Byte} {k : Nat}
    (h : k ∈ ((swCell i, a) :: (W ++ [(swCell i, b)])).map Prod.fst) : k = swCell i ∨ k ∈ W.map Prod.fst := by
  simp only [List.map_cons, List.map_append, List.map_nil, List.mem_cons, List.mem_append, List.not_mem_nil,
    or_false] at h
  tauto

/-! ## Construction (R161) -/

/-- The cached state a successful discovery leaves (R161): what the devices hold, and the calibration parameters. -/
def discovered (s : State) (i : CardIx) (c : Card) : Card :=
  { c with
    chen := some (~~~(s.devXp i 0)), tsten := some (~~~(s.devXp i 1))
    level := Vector.ofFn fun k => some (s.potSum i k)
    curdiv := some s.params.curdiv, pwrmul := some s.params.pwrmul }

theorem potSum_congr {s t : State} {i : CardIx} {c : ChanIx}
    (h : ∀ j, j < 4 → Memory.read t.mem (potCell i (potChip c) (potSub c) j) =
      Memory.read s.mem (potCell i (potChip c) (potSub c) j)) : t.potSum i c = s.potSum i c := by
  simp only [State.potSum, State.devPot]
  rw [h 0 (by omega), h 1 (by omega), h 2 (by omega), h 3 (by omega)]

/-- R161: reading the eight levels. -/
theorem readLevels_runs {s : State} {i : CardIx} (h : Ready s i) (hb : NoBusError 8 s) :
    ∃ t es, forEach allChans (fun ch => do let _ ← readLevelOp (cardNo i) ch) s = .ok ⟨⟩ t ∧ Effect s t 8 [] es ∧
      es.countP Event.isBus = 8 ∧ es.length = 8 ∧ SameScratch s t ∧
      t.cards = s.cards.set i { s.cards[i] with level := Vector.ofFn fun k => some (s.potSum i k) } := by
  rw [forEach_allChans]
  have := forEach_runs (all := List.finRange Config.pb.nChan) (body := fun c => do let _ ← readLevelOp (cardNo i) (chanNo c))
    (P := fun done t => ∃ es L, Effect s t done.length [] es ∧ es.countP Event.isBus = done.length ∧
      es.length = done.length ∧ SameScratch s t ∧ t.cards = s.cards.set i { s.cards[i] with level := L } ∧
      ∀ k : ChanIx, L[k] = if k ∈ done then some (s.potSum i k) else s.cards[i].level[k]) ?_ (s := s) ?_
  · obtain ⟨t, ht, es, L, he, h1, h2, hs, hc, hL⟩ := this
    refine ⟨t, es, ht, by simpa using he, by simpa using h1, by simpa using h2, hs, ?_⟩
    have hLe : L = Vector.ofFn fun k => some (s.potSum i k) := by
      apply Vector.ext
      intro k hk
      have := hL ⟨k, hk⟩
      simp only [List.mem_finRange, if_true] at this
      simpa using this
    rw [hc, hLe]
  · rintro done c rest t hd ⟨es, L, he, h1, h2, hs, hc, hL⟩
    have hr : Ready t i := h.step he (by simp) (by rw [hc, cards_set_same])
    have hlen : done.length < 8 := length_done hd
    obtain ⟨u, hu, he', hs', hc'⟩ := readLevelOp_runs c hr ((hb.after he (by omega)).next (by omega))
    have hsum : t.potSum i c = s.potSum i c := potSum_congr fun j _ => he.read_other (by simp)
    refine ⟨u, by rw [Op.bind_ok hu]; rfl, _, L.set c (some (s.potSum i c)), by simpa using he.trans he', ?_, ?_,
      hs.trans hs', ?_, ?_⟩
    · simp [h1, Event.isBus]
    · simp [h2]
    · rw [hc', hc, cards_set_same, cards_set_set, hsum]
    · intro k
      by_cases hk : k = c
      · subst hk; simp
      · have : c.val ≠ k.val := fun e => hk (Fin.ext e.symm)
        have hL' := hL k
        simp only [Fin.getElem_fin] at hL'
        simp [this, hk, hL']
  · refine ⟨[], s.cards[i].level, Effect.refl s, rfl, rfl, SameScratch.refl s, ?_, by simp⟩
    exact cards_ext fun j => by
      by_cases e : j = i
      · subst e; rw [cards_set_same]
      · rw [cards_set_other _ _ e]

/-- The cells of the sense chips' stored registers of card `i` that a list of channels names. -/
def senseWrites (p : Params) (i : CardIx) (cs : List ChanIx) : List (Nat × Byte) :=
  (cs.map fun c => calWrites p i c ++ cfgWrites p i c).flatten

theorem senseWrites_no_switch (p : Params) (i : CardIx) (cs : List ChanIx) (j : CardIx) :
    swCell j ∉ (senseWrites p i cs).map Prod.fst := by
  intro h
  obtain ⟨w, hw, hj⟩ := List.mem_map.mp h
  obtain ⟨l, hl, hwl⟩ := List.mem_flatten.mp hw
  obtain ⟨c, _, rfl⟩ := List.mem_map.mp hl
  rcases List.mem_append.mp hwl with h1 | h1
  · exact calWrites_no_switch p i c j (hj ▸ List.mem_map_of_mem h1)
  · exact cfgWrites_no_switch p i c j (hj ▸ List.mem_map_of_mem h1)

/-- R161: the eight sense initialisations. -/
theorem senseInits_runs {s : State} {i : CardIx} (h : Ready s i) (hb : NoBusError 16 s) :
    ∃ t es, forEach allChans (fun ch => senseInitOp (cardNo i) ch) s = .ok ⟨⟩ t ∧
      Effect s t 16 (senseWrites s.params i (List.finRange Config.pb.nChan)) es ∧ es.countP Event.isBus = 16 ∧
      es.length = 16 ∧ SameScratch s t ∧ t.cards = s.cards := by
  rw [forEach_allChans]
  have := forEach_runs (all := List.finRange Config.pb.nChan) (body := fun c => senseInitOp (cardNo i) (chanNo c))
    (P := fun done t => ∃ es, Effect s t (2 * done.length) (senseWrites s.params i done) es ∧
      es.countP Event.isBus = 2 * done.length ∧ es.length = 2 * done.length ∧ SameScratch s t ∧ t.cards = s.cards)
    ?_ (s := s) ?_
  · obtain ⟨t, ht, es, he, h1, h2, hs, hc⟩ := this
    exact ⟨t, es, ht, by simpa using he, by simpa using h1, by simpa using h2, hs, hc⟩
  · rintro done c rest t hd ⟨es, he, h1, h2, hs, hc⟩
    have hr : Ready t i := h.step he (senseWrites_no_switch _ _ _) (by rw [hc])
    have hlen : done.length < 8 := length_done hd
    obtain ⟨u, hu, he', hs', hc'⟩ := senseInitOp_runs c hr ((hb.after he (by omega)).mono (by omega))
    rw [he.params] at he'
    refine ⟨u, hu, es ++ [calEvent s.params c, cfgEvent s.params c], ?_, ?_, ?_, hs.trans hs', hc'.trans hc⟩
    · have := he.trans he'
      rw [show 2 * done.length + 2 = 2 * (done ++ [c]).length by simp; omega] at this
      rw [show senseWrites s.params i (done ++ [c]) =
        senseWrites s.params i done ++ (calWrites s.params i c ++ cfgWrites s.params i c) by simp [senseWrites]]
      exact this
    · simp [h1, calEvent, cfgEvent, List.countP_cons, Event.isBus]; omega
    · simp [h2]; omega
  · exact ⟨[], Effect.refl s, rfl, rfl, SameScratch.refl s, rfl⟩

/-- R161: the discovery section, 25 transactions. -/
theorem discoverOp_runs {s : State} {i : CardIx} (h : Ready s i) (hb : NoBusError 25 s) :
    ∃ t es, discoverOp (cardNo i) s = .ok ⟨⟩ t ∧
      Effect s t 25 (senseWrites s.params i (List.finRange Config.pb.nChan)) es ∧
      es.countP Event.isBus = 25 ∧ es.length = 25 ∧ SameScratch s t ∧
      t.cards = s.cards.set i (discovered s i s.cards[i]) := by
  obtain ⟨t1, e1, he1, hs1, hc1⟩ := xpReadOp_runs h (hb.next (by omega))
  have hr1 : Ready t1 i := h.step he1 (by simp) (by rw [hc1, cards_set_same])
  obtain ⟨t2, es2, e2, he2, hb2, hl2, hs2, hc2⟩ := readLevels_runs hr1 ((hb.after he1 (by omega)).mono (by omega))
  have hr2 : Ready t2 i := hr1.step he2 (by simp) (by rw [hc2, cards_set_same])
  have he12 := he1.trans he2
  obtain ⟨t3, es3, e3, he3, hb3, hl3, hs3, hc3⟩ := senseInits_runs hr2 ((hb.after he12 (by omega)).mono (by omega))
  have he13 := he12.trans he3
  refine ⟨t3.setCard (cardNo i) { t3.card (cardNo i) with
      curdiv := some t3.params.curdiv, pwrmul := some t3.params.pwrmul },
    .bus (.readBlock s.params.xpAddr s.params.xpReg 2) true [s.devXp i 0, s.devXp i 1] :: (es2 ++ es3), ?_, ?_, ?_, ?_,
    (hs1.trans hs2).trans (hs3.trans (scratch_setCard t3 (cardNo i) _)), ?_⟩
  · simp only [discoverOp]
    rw [Op.bind_ok e1, Op.bind_ok e2, Op.bind_ok e3, Op.get_bind, modifyCard_apply]
  · have := he13.trans (effect_setCard t3 (cardNo i) { t3.card (cardNo i) with
      curdiv := some t3.params.curdiv, pwrmul := some t3.params.pwrmul })
    rw [he12.params] at this
    simpa using this
  · simp [List.countP_cons, hb2, hb3, Event.isBus]
  · simp [hl2, hl3]
  · rw [setCard_cards _ (cardIx?_cardNo i), State.card_cardNo, hc3, hc2, cards_set_same, cards_set_set, hc1,
      cards_set_same, cards_set_set, he13.params]
    have : (fun k => some (t1.potSum i k)) = fun k => some (s.potSum i k) := by
      funext k
      rw [potSum_congr fun j _ => he1.read_other (by simp)]
    rw [this]
    rfl

/-- R161 `present`: 27 transactions. -/
theorem cardConstructOp_present {s : State} {i : CardIx} (hm : Memory.wf s.mem = true) (hv : s.params.Valid)
    (hn : NoneConnected s) (hp : s.present[i] = true) (hb : NoBusError 27 s) :
    ∃ t es, cardConstructOp (cardNo i) s = .ok true t ∧
      Effect s t 27 ((swCell i, openByte s.params) :: (senseWrites s.params i (List.finRange Config.pb.nChan) ++
        [(swCell i, closeByte)])) es ∧ es.countP Event.isBus = 27 ∧ es.length = 27 ∧ SameScratch s t ∧
      t.cards = s.cards.set i { discovered s i s.cards[i] with live := true, iso := some .closed } ∧ NoneConnected t := by
  let s0 := s.setCard (cardNo i) { s.card (cardNo i) with iso := some .closed }
  have he0 : Effect s s0 0 [] [] := effect_setCard _ _ _
  have hs0 : SameScratch s s0 := scratch_setCard _ _ _
  have hc0 : s0.cards = s.cards.set i { s.cards[i] with iso := some .closed } := by
    rw [setCard_cards _ (cardIx?_cardNo i), State.card_cardNo]
  have hn0 : NoneConnected s0 := (he0.connectedCards (by simp)).trans hn
  have hb0 : NoBusError 27 s0 := hb.after he0 (by omega)
  have hp0 : s0.present[i] = true := by rw [he0.present]; exact hp
  obtain ⟨t1, e1, he1, hs1, hc1⟩ := openOp_runs hp0 (hb0.next (by omega))
  have hr1 := ready_of_open (he0.wf hm) (by rw [he0.params]; exact hv) hn0 hp0 he1 hc1
  obtain ⟨t2, es2, e2, he2, hb2, hl2, hs2, hc2⟩ := discoverOp_runs hr1 ((hb0.after he1 (by omega)).mono (by omega))
  have he12 := he1.trans he2
  obtain ⟨t3, e3, he3, hs3, hc3⟩ := closeOp_runs (s := t2) (i := i) (by rw [he12.present]; exact hp0)
    ((hb0.after he12 (by omega)).next (by omega))
  have hfull := he0.trans (he12.trans he3)
  have hd : discovered t1 i t1.cards[i] = discovered s i { s.cards[i] with iso := some .opened } := by
    have hc1i : t1.cards[i] = { s.cards[i] with iso := some .opened } := by
      rw [hc1, cards_set_same, hc0, cards_set_same]
    have hxp : ∀ j : Fin 2, t1.devXp i j = s.devXp i j := fun j =>
      (he0.trans he1).read_other (by simpa using fun e => swCell_ne_xpCell i i j e.symm)
    have hpot : ∀ c, t1.potSum i c = s.potSum i c := fun c => potSum_congr fun j hj =>
      (he0.trans he1).read_other (by simpa using fun e => swCell_ne_potCell i i _ _ hj e.symm)
    unfold discovered
    rw [hc1i, hxp, hxp, (he0.trans he1).params]
    simp only [hpot]
  have hcards : t3.cards = s.cards.set i { discovered s i s.cards[i] with iso := some .closed } := by
    rw [hc3, hc2, cards_set_same, cards_set_set, hd, hc1, cards_set_set, hc0, cards_set_set]
    rfl
  refine ⟨t3.setCard (cardNo i) { t3.card (cardNo i) with live := true },
    switchEvent s.params i (openByte s.params) :: (es2 ++ [switchEvent s.params i closeByte]), ?_, ?_, ?_, ?_, ?_, ?_, ?_⟩
  · unfold cardConstructOp setIso
    rw [Op.bind_ok (modifyCard_apply _ _ _), Op.bind_ok (attempt_ok e1), if_pos rfl, Op.bind_ok (attempt_ok e2),
      if_pos rfl, Op.bind_ok (attempt_ok e3), if_pos rfl, Op.bind_ok (modifyCard_apply _ _ _)]
    rfl
  · have := hfull.trans (effect_setCard t3 (cardNo i) { t3.card (cardNo i) with live := true })
    rw [he12.params, he1.params, he0.params] at this
    simpa using this
  · simp [hb2, switchEvent, List.countP_cons, Event.isBus]
  · simp [hl2]
  · exact (hs0.trans hs1).trans ((hs2.trans hs3).trans (scratch_setCard _ _ _))
  · rw [setCard_cards _ (cardIx?_cardNo i), State.card_cardNo, hcards, cards_set_same, cards_set_set]
  · refine ((effect_setCard t3 (cardNo i) _).connectedCards (by simp)).trans ?_
    refine he3.connected_close ((he0.trans he12).wf hm) (fun j hj => ?_) (by decide)
    have : t2.connectedCards = [i] := (he2.connectedCards (senseWrites_no_switch _ _ _)).trans hr1.2.2.1
    exact OnlyConnected.eq this j hj

/-- R161 `absent`, no card plugged: one failed control write. -/
theorem cardConstructOp_absent {s : State} {i : CardIx} (hp : s.present[i] = false) :
    ∃ t, cardConstructOp (cardNo i) s = .ok false t ∧
      Effect s t 0 [] [.bus (.writeByte (s.params.isoBase + cardNo i) (openByte s.params)) false []] ∧ SameScratch s t ∧
      t.cards = s.cards.set i Card.blank := by
  let s0 := s.setCard (cardNo i) { s.card (cardNo i) with iso := some .closed }
  have he0 : Effect s s0 0 [] [] := effect_setCard _ _ _
  have hs0 : SameScratch s s0 := scratch_setCard _ _ _
  have hc0 : s0.cards = s.cards.set i { s.cards[i] with iso := some .closed } := by
    rw [setCard_cards _ (cardIx?_cardNo i), State.card_cardNo]
  obtain ⟨t1, e1, he1, hs1, hc1⟩ := openOp_absent (s := s0) (i := i) (by rw [he0.present]; exact hp)
  refine ⟨t1.setCard (cardNo i) Card.blank, ?_, ?_, hs0.trans (hs1.trans (scratch_setCard _ _ _)), ?_⟩
  · unfold cardConstructOp setIso forgetCard
    rw [Op.bind_ok (modifyCard_apply _ _ _), Op.bind_ok (attempt_busError e1), if_neg (by simp), Op.modify_bind]
    rfl
  · have := (he0.trans he1).trans (effect_setCard t1 (cardNo i) Card.blank)
    rw [he0.params] at this
    simpa using this
  · rw [setCard_cards _ (cardIx?_cardNo i), hc1, hc0, cards_set_set]

/-! ## A per-card host command (R181 to R183) -/

theorem effect_beginCommand (s : State) (op : Byte) :
    Effect { s with running := some op } (s.beginCommand op) 0 [] [.commandBegins op] :=
  effect_event { s with running := some op } _

/-- What a per-card command leaves, from the effect of its bracket. -/
theorem endCommand_effect {s w : State} {op : Byte} {n : Nat} {W : List (Nat × Byte)} {es : List Event}
    (hb : BetweenCommands s) (he : Effect (s.beginCommand op) w n W es) (r : Response) :
    Effect s (w.endCommand op r) n W (.commandBegins op :: (es ++ [.commandEnds op r.status])) ∧
      SameScratch s (w.endCommand op r) := by
  refine ⟨⟨he.params, hb.1.symm, he.cfg, he.present, he.inbox, he.mem, ?_, he.tape, he.draws⟩,
    ⟨hb.2.1.symm, hb.2.2.1.symm, hb.2.2.2.1.symm, hb.2.2.2.2.symm⟩⟩
  rw [State.endCommand_hist, he.hist]
  simp

theorem runPerCard_ok {op : Byte} {i : CardIx} {body : Op Value} {s w : State} {v : Value} (hr : s.running = none)
    (hl : s.cards[i].live = true) (h : withOpen (cardNo i) body (s.beginCommand op) = .ok v w) :
    runPerCard op true (cardNo i) body s = .next (w.endCommand op (.ok v)) := by
  refine runCommand_ok hr ?_ h
  unfold cardFound State.live
  rw [State.card_cardNo, hl]

theorem runPerCard_failed {op : Byte} {i : CardIx} {body : Op Value} {s w : State} {f : Failure} (hr : s.running = none)
    (hl : s.cards[i].live = true) (h : withOpen (cardNo i) body (s.beginCommand op) = .error (.failed f) w) :
    runPerCard op true (cardNo i) body s = .next (w.endCommand op (.failed f)) := by
  refine runCommand_failed hr ?_ h
  unfold cardFound State.live
  rw [State.card_cardNo, hl]

theorem isFlag_byteOfBool (b : Bool) : isFlag (byteOfBool b) = true := by cases b <;> rfl

theorem flagSet_byteOfBool (b : Bool) : flagSet (byteOfBool b) = b := by cases b <;> rfl

theorem cardChanOk_numbers (i : CardIx) (c : ChanIx) : cardChanOk (cardNo i) (chanNo c) = true := by
  have := i.lt
  simp only [cardChanOk, isChannel_chanNo, Bool.and_true, isCard_iff, isCardNo, cardNo]
  omega

/-- A per-card host command whose `n + 2` transactions succeed. `Q` is whatever else is known of the body's answer, writes,
events and cached card. -/
theorem runPerCard_runs {op : Byte} {i : CardIx} {body : Op Value} {s : State} {n : Nat}
    (Q : Value → List (Nat × Byte) → List Event → Card → Prop) (h : CommandReady s) (hl : s.cards[i].live = true)
    (hp : s.present[i] = true) (hb : NoBusError (n + 2) s)
    (hbody : ∀ t, Ready t i → Effect (s.beginCommand op) t 1 [(swCell i, openByte s.params)]
        [switchEvent s.params i (openByte s.params)] →
      t.cards = s.cards.set i { s.cards[i] with iso := some .opened } →
      ∃ u v W es card, body t = .ok v u ∧ Effect t u n W es ∧ u.cards = s.cards.set i card ∧
        (∀ j : CardIx, swCell j ∉ W.map Prod.fst) ∧ Q v W es card) :
    ∃ t v W es card, runPerCard op true (cardNo i) body s = .next t ∧ t.response = some (.ok v) ∧
      Effect s t (n + 2) ((swCell i, openByte s.params) :: (W ++ [(swCell i, closeByte)]))
        (commandTrace s.params op i es) ∧ SameScratch s t ∧
      t.cards = s.cards.set i { card with iso := some .closed } ∧ NoneConnected t ∧ Q v W es card := by
  have hc : NoneConnected (s.beginCommand op) := h.2.2.2.1
  obtain ⟨w, v, W, es, card, hw, he, hcw, hnw, hQ⟩ := withOpen_runs (s := s.beginCommand op) (i := i) (n := n) (body := body) Q
    h.1 h.2.1 hc hp hb (fun t hr ht _ hct => hbody t hr ht hct)
  obtain ⟨he', hs'⟩ := endCommand_effect h.2.2.1 he (.ok v)
  refine ⟨_, v, W, es, card, runPerCard_ok h.2.2.1.1 hl hw, rfl, ?_, hs', hcw, hnw, hQ⟩
  simpa [commandTrace, Response.status] using he'

end Sys2Proof.Machine
end

