-- ==== Sys2Proof/Laws/Crate.lean ====
section
/-! SUPPORT. The loops over the 18 addresses and over the eight channels of a card, when no transaction fails: discovery, the
availability refresh, the bulk commands, the configuration restore. -/

namespace Sys2Proof.Machine

/-! ## Cells of a card -/

theorem cardCell_swCell (i : CardIx) : CardCell i (swCell i) := by
  rw [cardCell_iff, swCell_val]; omega

theorem cardCell_unique {i j : CardIx} {k : Nat} (hi : CardCell i k) (hj : CardCell j k) : i = j := by
  rw [cardCell_iff] at hi hj
  exact Fin.ext (by omega)

theorem potCell_eq (i : CardIx) (c : ChanIx) (j : Nat) :
    potCell i (potChip c) (potSub c) j = 128 * i.val + 32 + 4 * c.val + j := by
  rw [potCell_val]; simp only [potChip, potSub, Config.pb_potChPerChip]; omega

theorem cardCell_xpCell (i : CardIx) (j : Fin 2) : CardCell i (xpCell i j) := by
  rw [cardCell_iff, xpCell_val]; omega

theorem cardCell_potCell (i : CardIx) (c : ChanIx) {j : Nat} (hj : j < 4) :
    CardCell i (potCell i (potChip c) (potSub c) j) := by
  have := c.lt
  rw [potCell_eq, cardCell_iff]; omega

theorem mem_potCells {i : CardIx} {c : ChanIx} {k : Nat} :
    k ∈ potCells i c ↔ ∃ j, j < 4 ∧ k = potCell i (potChip c) (potSub c) j := by
  simp only [potCells, List.mem_cons, List.not_mem_nil, or_false]
  constructor
  · rintro (h | h | h | h)
    · exact ⟨0, by omega, h⟩
    · exact ⟨1, by omega, h⟩
    · exact ⟨2, by omega, h⟩
    · exact ⟨3, by omega, h⟩
  · rintro ⟨j, hj, rfl⟩
    have : j = 0 ∨ j = 1 ∨ j = 2 ∨ j = 3 := by omega
    rcases this with rfl | rfl | rfl | rfl <;> simp

theorem senseWrites_cells {p : Params} {i : CardIx} {cs : List ChanIx} {k : Nat}
    (hk : k ∈ (senseWrites p i cs).map Prod.fst) : 128 * i.val + 64 ≤ k ∧ k < 128 * i.val + 128 := by
  obtain ⟨w, hw, rfl⟩ := List.mem_map.mp hk
  obtain ⟨l, hl, hwl⟩ := List.mem_flatten.mp hw
  obtain ⟨c, _, rfl⟩ := List.mem_map.mp hl
  simp only [calWrites, cfgWrites, halfCells, snsCalCell_val, snsCfgCell_val, List.cons_append, List.nil_append, List.mem_cons,
    List.not_mem_nil, or_false] at hwl
  have hc := c.lt
  rcases hwl with h | h | h | h <;> rw [h] <;> simp only <;> omega

/-! ## A loop over the addresses -/

/-- One round of a loop over the addresses, at card `i`: at most `N` transactions, cells of card `i` only, its cached state
becomes `F i`, no sub-bus stays connected, and `dev` and `ev` say what its devices hold and which events it made. -/
structure CardRound (N : Nat) (F : CardIx → Card) (dev : CardIx → State → Prop) (ev : CardIx → List Event → Prop)
    (i : CardIx) (t u : State) : Prop where
  run : ∃ n W es, Effect t u n W es ∧ n ≤ N ∧ (∀ k ∈ W.map Prod.fst, CardCell i k) ∧ ev i es
  scratch : SameScratch t u
  cards : u.cards = t.cards.set i (F i)
  closed : NoneConnected u
  dev : dev i u

/-- What a finished loop over the addresses leaves. -/
structure CardLoop (N : Nat) (F : CardIx → Card) (dev : CardIx → State → Prop) (ev : CardIx → List Event → Prop)
    (done : List CardIx) (s t : State) : Prop where
  run : ∃ n W es, Effect s t n W es ∧ n ≤ N * done.length ∧ (∀ k ∈ W.map Prod.fst, ∃ i ∈ done, CardCell i k) ∧
    (∀ i ∈ done, ∃ es', ev i es' ∧ ∀ e ∈ es', e ∈ es) ∧ (∀ e ∈ es, ∃ i ∈ done, ∃ es', ev i es' ∧ e ∈ es')
  scratch : SameScratch s t
  cards : ∀ i : CardIx, t.cards[i] = if i ∈ done then F i else s.cards[i]
  closed : NoneConnected t
  dev : ∀ i ∈ done, dev i t

theorem forCards_runs {body : Int → Op Unit} {s : State} {N : Nat} {F : CardIx → Card} {dev : CardIx → State → Prop}
    {ev : CardIx → List Event → Prop} (hm : Memory.wf s.mem = true) (hn : NoneConnected s)
    (hb : NoBusError (N * 18) s)
    (hstable : ∀ i t u, (∀ k, CardCell i k → Memory.read u.mem k = Memory.read t.mem k) → dev i t → dev i u)
    (hround : ∀ i t, Memory.wf t.mem = true → NoneConnected t → t.params = s.params → t.cfg = s.cfg →
      t.present = s.present → t.cards[i] = s.cards[i] →
      (∀ k, CardCell i k → Memory.read t.mem k = Memory.read s.mem k) → NoBusError N t →
      ∃ u, body (cardNo i) t = .ok ⟨⟩ u ∧ CardRound N F dev ev i t u) :
    ∃ t, forEach allCards body s = .ok ⟨⟩ t ∧ CardLoop N F dev ev (List.finRange Config.pb.nCards) s t := by
  rw [forEach_allCards]
  refine forEach_runs (all := List.finRange Config.pb.nCards) (P := fun done t => CardLoop N F dev ev done s t) ?_ ?_
  · intro done i rest t hd hP
    obtain ⟨n, W, es, he, hle, hW, hev1, hev2⟩ := hP.run
    have hi := not_mem_done hd
    have hlen : done.length < 18 := length_done hd
    have hNle : N * done.length + N ≤ N * 18 := by
      calc N * done.length + N = N * (done.length + 1) := by rw [Nat.mul_succ]
        _ ≤ N * 18 := Nat.mul_le_mul_left N (by omega)
    obtain ⟨u, hu, hr⟩ := hround i t (he.wf hm) hP.closed he.params he.cfg he.present
      (by rw [hP.cards i, if_neg hi])
      (fun k hk => he.read_other fun hmem => by
        obtain ⟨j, hj, hjk⟩ := hW k hmem
        exact hi (cardCell_unique hk hjk ▸ hj))
      ((hb.after he (by omega)).mono (by omega))
    obtain ⟨n', W', es', he', hle', hW', hev'⟩ := hr.run
    refine ⟨u, hu, ⟨n + n', W ++ W', es ++ es', he.trans he', ?_, ?_, ?_, ?_⟩, hP.scratch.trans hr.scratch, ?_,
      hr.closed, ?_⟩
    · rw [List.length_append, List.length_singleton, Nat.mul_succ]; omega
    · intro k hk
      rw [List.map_append, List.mem_append] at hk
      rcases hk with hk | hk
      · obtain ⟨j, hj, hjk⟩ := hW k hk
        exact ⟨j, List.mem_append_left _ hj, hjk⟩
      · exact ⟨i, by simp, hW' k hk⟩
    · intro j hj
      rcases List.mem_append.mp hj with hj | hj
      · obtain ⟨l, h1, h2⟩ := hev1 j hj
        exact ⟨l, h1, fun e he => List.mem_append_left _ (h2 e he)⟩
      · rw [List.mem_singleton.mp hj]
        exact ⟨es', hev', fun e he => List.mem_append_right _ he⟩
    · intro e hee
      rcases List.mem_append.mp hee with h | h
      · obtain ⟨j, hj, l, h1, h2⟩ := hev2 e h
        exact ⟨j, List.mem_append_left _ hj, l, h1, h2⟩
      · exact ⟨i, by simp, es', hev', h⟩
    · intro j
      rw [hr.cards]
      by_cases e : j = i
      · subst e; rw [cards_set_same]; simp
      · rw [cards_set_other _ _ e, hP.cards j]; simp [e]
    · intro j hj
      rcases List.mem_append.mp hj with hj | hj
      · refine hstable j t u (fun k hk => he'.read_other fun hmem => ?_) (hP.dev j hj)
        exact hi (cardCell_unique hk (hW' k hmem) ▸ hj)
      · rw [List.mem_singleton.mp hj]; exact hr.dev
  · exact ⟨⟨0, [], [], Effect.refl s, by simp, by simp, by simp, by simp⟩, SameScratch.refl s, by simp, hn, by simp⟩

/-- A round that does nothing. -/
theorem cardRound_skip {N : Nat} {F : CardIx → Card} {dev : CardIx → State → Prop} {ev : CardIx → List Event → Prop}
    {i : CardIx} {t : State} (hn : NoneConnected t) (hF : F i = t.cards[i]) (hd : dev i t) (hev : ev i []) :
    CardRound N F dev ev i t t := by
  refine ⟨⟨0, [], [], Effect.refl t, by omega, by simp, hev⟩, SameScratch.refl t, ?_, hn, hd⟩
  refine cards_ext fun j => ?_
  by_cases e : j = i
  · subst e; rw [cards_set_same, hF]
  · rw [cards_set_other _ _ e]

/-- A round that is one bracket, its body `n` transactions with the card's other devices. -/
theorem cardRound_withOpen {body : Op Unit} {n : Nat} {F : CardIx → Card} {dev : CardIx → State → Prop}
    {i : CardIx} {t : State} (hm : Memory.wf t.mem = true)
    (hv : t.params.Valid) (hn : NoneConnected t) (hp : t.present[i] = true) (hb : NoBusError (n + 2) t)
    (hbody : ∀ u, Ready u i → Effect t u 1 [(swCell i, openByte t.params)] [switchEvent t.params i (openByte t.params)] →
      u.cards = t.cards.set i { t.cards[i] with iso := some .opened } →
      ∃ v W es card, body u = .ok ⟨⟩ v ∧ Effect u v n W es ∧ SameScratch u v ∧ v.cards = t.cards.set i card ∧
        F i = { card with iso := some .closed } ∧ (∀ k ∈ W.map Prod.fst, CardCell i k ∧ k ≠ swCell i) ∧ (∀ e ∈ es, e.isBus = true) ∧
        ∀ w, (∀ k, k ≠ swCell i → Memory.read w.mem k = Memory.read v.mem k) →
          Memory.read w.mem (swCell i) = closeByte → dev i w) :
    ∃ w, withOpen (cardNo i) body t = .ok ⟨⟩ w ∧
      CardRound (n + 2) F dev (fun _ l => ∀ e ∈ l, e.isBus = true) i t w := by
  obtain ⟨u, hu, heu, hsu, hcu⟩ := openOp_runs hp (hb.next (by omega))
  have hr := ready_of_open hm hv hn hp heu hcu
  obtain ⟨v, W, es, card, h1, h2, h3, h4, hF, hW, hes, hdev⟩ := hbody u hr heu hcu
  have huv := heu.trans h2
  obtain ⟨w, hw, hew, hsw, hcw⟩ := withOpen_ok hu h1 (by rw [huv.present]; exact hp)
    (by rw [huv.nextAnswer]; exact hb ⟨1 + n, by omega⟩)
  have hfull := huv.trans hew
  refine ⟨w, hw, ⟨n + 2, _, _, (show n + 2 = 1 + n + 1 by omega) ▸ hfull, Nat.le_refl _, ?_, ?_⟩,
    hsu.trans (h3.trans hsw), ?_, ?_, ?_⟩
  · intro k hk
    simp only [List.map_cons, List.map_append, List.map_nil, List.mem_cons, List.mem_append, List.not_mem_nil,
      or_false] at hk
    rcases hk with (h | h) | h
    · rw [h]; exact cardCell_swCell i
    · exact (hW k h).1
    · rw [h]; exact cardCell_swCell i
  · intro e hee
    simp only [List.mem_cons, List.mem_append, List.not_mem_nil, or_false] at hee
    rcases hee with (h | h) | h
    · rw [h]; rfl
    · exact hes e h
    · rw [h]; rfl
  · rw [hcw, h4, cards_set_same, cards_set_set, hF]
  · refine hew.connected_close (huv.wf hm) (fun j hj => ?_) (by decide)
    have : v.connectedCards = [i] := (h2.connectedCards fun j hj => by
      obtain ⟨h5, h6⟩ := hW _ hj
      exact h6 (by rw [cardCell_unique (cardCell_swCell j) h5])).trans hr.2.2.1
    exact OnlyConnected.eq this j hj
  · refine hdev w (fun k hk => hew.read_other (by simpa using hk)) ?_
    exact hew.read_mem (huv.wf hm) (by simp) (List.mem_singleton.mpr rfl)

theorem CardRound.ev_mono {N N' : Nat} {F : CardIx → Card} {dev : CardIx → State → Prop}
    {ev ev' : CardIx → List Event → Prop} {i : CardIx} {t u : State} (h : CardRound N F dev ev i t u)
    (hev : ∀ l, ev i l → ev' i l) (hN : N ≤ N') : CardRound N' F dev ev' i t u := by
  obtain ⟨n, W, es, he, hle, hW, h1⟩ := h.run
  exact ⟨⟨n, W, es, he, by omega, hW, hev es h1⟩, h.scratch, h.cards, h.closed, h.dev⟩

/-! ## The eight channels of an open card -/

/-- The events of `n` transactions, none of which failed. -/
abbrev DoneEvents (n : Nat) (es : List Event) : Prop :=
  es.length = n ∧ ∀ e ∈ es, e.isBus = true ∧ e.isFailedBus = false

theorem doneEvents_nil : DoneEvents 0 [] := ⟨rfl, by simp⟩

theorem doneEvents_one (t : Txn) (bs : List Byte) : DoneEvents 1 [.bus t true bs] := ⟨rfl, by simp [Event.isBus, Event.isFailedBus]⟩

theorem DoneEvents.append {m n : Nat} {es es' : List Event} (h : DoneEvents m es) (h' : DoneEvents n es') :
    DoneEvents (m + n) (es ++ es') :=
  ⟨by rw [List.length_append, h.1, h'.1], fun e he => (List.mem_append.mp he).elim (h.2 e) (h'.2 e)⟩

/-- Where a loop over the channels of an open card stands: `n` transactions a channel, none of which failed, cells of the card but not its
switch, card `i`'s cached state `card`. -/
structure ChanLoop (s : State) (i : CardIx) (n : Nat) (card : Card) (t : State) : Prop where
  run : ∃ W es, Effect s t n W es ∧ (∀ k ∈ W.map Prod.fst, CardCell i k ∧ k ≠ swCell i) ∧ DoneEvents n es
  scratch : SameScratch s t
  cards : t.cards = s.cards.set i card

theorem no_switch_of_cells {i : CardIx} {W : List (Nat × Byte)}
    (hW : ∀ k ∈ W.map Prod.fst, CardCell i k ∧ k ≠ swCell i) (j : CardIx) : swCell j ∉ W.map Prod.fst := fun hj => by
  obtain ⟨h1, h2⟩ := hW _ hj
  exact h2 (by rw [cardCell_unique (cardCell_swCell j) h1])

theorem ChanLoop.refl (s : State) (i : CardIx) : ChanLoop s i 0 s.cards[i] s := by
  refine ⟨⟨[], [], Effect.refl s, by simp, doneEvents_nil⟩, SameScratch.refl s, cards_ext fun j => ?_⟩
  by_cases e : j = i
  · subst e; rw [cards_set_same]
  · rw [cards_set_other _ _ e]

theorem ChanLoop.ready {s t : State} {i : CardIx} {n : Nat} {card : Card} (h : ChanLoop s i n card t) (hr : Ready s i)
    (hc : card.iso = s.cards[i].iso) : Ready t i := by
  obtain ⟨W, es, he, hW, _⟩ := h.run
  exact hr.step he (no_switch_of_cells hW) (by rw [h.cards, cards_set_same, hc])

theorem ChanLoop.card {s t : State} {i : CardIx} {n : Nat} {card : Card} (h : ChanLoop s i n card t) :
    t.cards[i] = card := by
  rw [h.cards, cards_set_same]

theorem ChanLoop.after {s t : State} {i : CardIx} {n m : Nat} {card : Card} (h : ChanLoop s i n card t)
    (hb : NoBusError m s) (hn : n ≤ m) : NoBusError (m - n) t := by
  obtain ⟨W, es, he, _⟩ := h.run
  exact hb.after he hn

/-- One more operation on the card. -/
theorem ChanLoop.then {s t u : State} {i : CardIx} {n m : Nat} {card card' : Card} {W : List (Nat × Byte)}
    {es : List Event} (h : ChanLoop s i n card t) (he : Effect t u m W es) (hs : SameScratch t u)
    (hc : u.cards = t.cards.set i card') (hW : ∀ k ∈ W.map Prod.fst, CardCell i k ∧ k ≠ swCell i)
    (hes : DoneEvents m es) : ChanLoop s i (n + m) card' u := by
  obtain ⟨W0, es0, he0, hW0, hes0⟩ := h.run
  refine ⟨⟨W0 ++ W, es0 ++ es, he0.trans he, fun k hk => ?_, hes0.append hes⟩, h.scratch.trans hs,
    by rw [hc, h.cards, cards_set_set]⟩
  rw [List.map_append, List.mem_append] at hk
  exact hk.elim (hW0 k) (hW k)

theorem xp_cells {i : CardIx} {a b : Byte} :
    ∀ k ∈ [(xpCell i 0, a), (xpCell i 1, b)].map Prod.fst, CardCell i k ∧ k ≠ swCell i := by
  intro k hk
  simp only [List.map_cons, List.map_nil, List.mem_cons, List.not_mem_nil, or_false] at hk
  rcases hk with rfl | rfl
  · exact ⟨cardCell_xpCell i 0, (swCell_ne_xpCell i i 0).symm⟩
  · exact ⟨cardCell_xpCell i 1, (swCell_ne_xpCell i i 1).symm⟩

theorem pot_cells {i : CardIx} {c : ChanIx} {bs : List Byte} :
    ∀ k ∈ ((potCells i c).zip bs).map Prod.fst, CardCell i k ∧ k ≠ swCell i := by
  intro k hk
  obtain ⟨w, hw, rfl⟩ := List.mem_map.mp hk
  obtain ⟨j, hj, e⟩ := mem_potCells.mp (List.of_mem_zip hw).1
  rw [e]
  exact ⟨cardCell_potCell i c hj, (swCell_ne_potCell i i _ _ hj).symm⟩

/-- What the device bytes of a channel's potentiometer are after a write of all four. -/
theorem devPot_written {s t : State} {i : CardIx} {c : ChanIx} {n : Nat} {es : List Event} {b0 b1 b2 b3 : Byte}
    (h : Effect s t n ((potCells i c).zip [b0, b1, b2, b3]) es) (hm : Memory.wf s.mem = true) (j : Fin 4) :
    t.devPot i c j.val = [b0, b1, b2, b3].getD j.val 0 := by
  have hnd : (((potCells i c).zip [b0, b1, b2, b3]).map Prod.fst).Nodup := by
    simp only [potCells, List.zip_cons_cons, List.zip_nil_right, List.map_cons, List.map_nil, potCell_eq]
    simp
  refine h.read_mem hm hnd ?_
  have hj := j.isLt
  have : j.val = 0 ∨ j.val = 1 ∨ j.val = 2 ∨ j.val = 3 := by omega
  rcases this with e | e | e | e <;> simp [potCells, e]

/-- A write to one channel's potentiometer leaves the others'. -/
theorem devPot_other {s t : State} {i : CardIx} {c d : ChanIx} {n : Nat} {es : List Event} {bs : List Byte}
    (h : Effect s t n ((potCells i c).zip bs) es) (hd : d ≠ c) {j : Nat} (hj : j < 4) :
    t.devPot i d j = s.devPot i d j := by
  refine h.read_other fun hk => ?_
  obtain ⟨w, hw, e⟩ := List.mem_map.mp hk
  obtain ⟨j', hj', e'⟩ := mem_potCells.mp (List.of_mem_zip hw).1
  rw [e', potCell_eq, potCell_eq] at e
  exact hd (Fin.ext (by omega))

theorem devXp_written {s t : State} {i : CardIx} {n : Nat} {es : List Event} {a b : Byte}
    (h : Effect s t n [(xpCell i 0, a), (xpCell i 1, b)] es) (hm : Memory.wf s.mem = true) :
    t.devXp i 0 = a ∧ t.devXp i 1 = b := by
  have hnd : ([(xpCell i 0, a), (xpCell i 1, b)].map Prod.fst).Nodup := by simp [xpCell_val]
  exact ⟨h.read_mem hm hnd (by simp), h.read_mem hm hnd (by simp)⟩

theorem devXp_pot {s t : State} {i : CardIx} {c : ChanIx} {n : Nat} {es : List Event} {bs : List Byte}
    (h : Effect s t n ((potCells i c).zip bs) es) (j : Fin 2) : t.devXp i j = s.devXp i j := by
  refine h.read_other fun hk => ?_
  obtain ⟨w, hw, e⟩ := List.mem_map.mp hk
  obtain ⟨j', hj', e'⟩ := mem_potCells.mp (List.of_mem_zip hw).1
  rw [e', potCell_eq, xpCell_val] at e
  omega

theorem byte_ext {a b : Byte} (h : ∀ d : ChanIx, a.getLsbD d.val = b.getLsbD d.val) : a = b := by
  apply BitVec.eq_of_getLsbD_eq
  intro k hk
  exact h ⟨k, hk⟩

/-- Every potentiometer byte of card `i` is as it was. -/
abbrev SamePots (i : CardIx) (s t : State) : Prop := ∀ c : ChanIx, ∀ j : Fin 4, t.devPot i c j.val = s.devPot i c j.val

theorem devPot_xp {s t : State} {i : CardIx} {n : Nat} {es : List Event} {a b : Byte}
    (h : Effect s t n [(xpCell i 0, a), (xpCell i 1, b)] es) : SamePots i s t := by
  intro c j
  refine h.read_other ?_
  simp only [List.map_cons, List.map_nil, List.mem_cons, List.not_mem_nil, or_false, potCell_eq, xpCell_val]
  have hj := j.isLt
  have h0 : (0 : Fin 2).val = 0 := rfl
  have h1 : (1 : Fin 2).val = 1 := rfl
  omega

/-- R194, R195: all eight channels of an open card switched. -/
theorem enableChans_runs {s : State} {i : CardIx} (on : Bool) {m l : Byte} (hr : Ready s i) (hb : NoBusError 8 s)
    (hm : s.cards[i].chen = some m) (hl : s.cards[i].tsten = some l) :
    ∃ t, forEach allChans (fun ch => enableChannelOp (cardNo i) ch (byteOfBool on)) s = .ok ⟨⟩ t ∧
      ChanLoop s i 8 { s.cards[i] with chen := some (if on then 0xFF#8 else 0x00#8), tsten := some l } t ∧
      t.devXp i 0 = ~~~(if on then 0xFF#8 else 0x00#8) ∧ t.devXp i 1 = ~~~l ∧ SamePots i s t := by
  rw [forEach_allChans]
  have := forEach_runs (all := List.finRange Config.pb.nChan)
    (body := fun c => enableChannelOp (cardNo i) (chanNo c) (byteOfBool on))
    (P := fun done t => ∃ m', ChanLoop s i done.length { s.cards[i] with chen := some m', tsten := some l } t ∧
      (∀ d : ChanIx, m'.getLsbD d.val = if d ∈ done then on else m.getLsbD d.val) ∧
      (done ≠ [] → t.devXp i 0 = ~~~m' ∧ t.devXp i 1 = ~~~l) ∧ SamePots i s t) ?_ (s := s) ?_
  · obtain ⟨t, ht, m', hloop, hbits, hdev, hpots⟩ := this
    have hm' : m' = if on then 0xFF#8 else 0x00#8 := byte_ext fun d => by
      rw [hbits d, if_pos (List.mem_finRange d)]
      have hd := d.isLt
      cases on
      · simp
      · have : ∀ d : ChanIx, (0xFF#8).getLsbD d.val = true := by decide
        simp [this d]
    subst hm'
    have h1 := hdev (by simp [List.finRange_succ])
    exact ⟨t, ht, by simpa using hloop, h1.1, h1.2, hpots⟩
  · rintro done c rest t hd ⟨m', hloop, hbits, hdev, hpots⟩
    have hlen : done.length < 8 := length_done hd
    have hrt : Ready t i := hloop.ready hr rfl
    obtain ⟨u, hu, he, hs, hc⟩ := enableChannelOp_runs c on hrt ((hloop.after hb (by omega)).next (by omega))
      (m := m') (l := l) (by rw [hloop.card]) (by rw [hloop.card])
    rw [hloop.card] at hc
    refine ⟨u, hu, setMaskBit m' c on, ?_, ?_, ?_, ?_⟩
    · rw [List.length_append, List.length_singleton]
      exact hloop.then he hs hc xp_cells (doneEvents_one _ _)
    · intro d
      rw [getLsbD_setMaskBit, hbits d]
      by_cases e : d = c
      · simp [e]
      · simp [e]
    · intro _
      exact devXp_written he hrt.1
    · intro c' j
      rw [devPot_xp he c' j, hpots c' j]
  · refine ⟨m, ?_, by simp, by simp, fun _ _ => rfl⟩
    have := ChanLoop.refl s i
    rwa [show s.cards[i] = { s.cards[i] with chen := some m, tsten := some l } by rw [← hm, ← hl]] at this

/-- R198, R199: all eight test loads of an open card switched. -/
theorem enableTestLoads_runs {s : State} {i : CardIx} (on : Bool) {m l : Byte} (hr : Ready s i) (hb : NoBusError 8 s)
    (hm : s.cards[i].chen = some m) (hl : s.cards[i].tsten = some l) :
    ∃ t, forEach allChans (fun ch => enableTestLoadOp (cardNo i) ch (byteOfBool on)) s = .ok ⟨⟩ t ∧
      ChanLoop s i 8 { s.cards[i] with chen := some m, tsten := some (if on then 0xFF#8 else 0x00#8) } t ∧
      t.devXp i 0 = ~~~m ∧ t.devXp i 1 = ~~~(if on then 0xFF#8 else 0x00#8) := by
  rw [forEach_allChans]
  have := forEach_runs (all := List.finRange Config.pb.nChan)
    (body := fun c => enableTestLoadOp (cardNo i) (chanNo c) (byteOfBool on))
    (P := fun done t => ∃ l', ChanLoop s i done.length { s.cards[i] with chen := some m, tsten := some l' } t ∧
      (∀ d : ChanIx, l'.getLsbD d.val = if d ∈ done then on else l.getLsbD d.val) ∧
      (done ≠ [] → t.devXp i 0 = ~~~m ∧ t.devXp i 1 = ~~~l')) ?_ (s := s) ?_
  · obtain ⟨t, ht, l', hloop, hbits, hdev⟩ := this
    have hl' : l' = if on then 0xFF#8 else 0x00#8 := byte_ext fun d => by
      rw [hbits d, if_pos (List.mem_finRange d)]
      have hd := d.isLt
      cases on
      · simp
      · have : ∀ d : ChanIx, (0xFF#8).getLsbD d.val = true := by decide
        simp [this d]
    subst hl'
    have h1 := hdev (by simp [List.finRange_succ])
    exact ⟨t, ht, by simpa using hloop, h1.1, h1.2⟩
  · rintro done c rest t hd ⟨l', hloop, hbits, hdev⟩
    have hlen : done.length < 8 := length_done hd
    have hrt : Ready t i := hloop.ready hr rfl
    obtain ⟨u, hu, he, hs, hc⟩ := enableTestLoadOp_runs c on hrt ((hloop.after hb (by omega)).next (by omega))
      (m := m) (l := l') (by rw [hloop.card]) (by rw [hloop.card])
    rw [hloop.card] at hc
    refine ⟨u, hu, setMaskBit l' c on, ?_, ?_, ?_⟩
    · rw [List.length_append, List.length_singleton]
      exact hloop.then he hs hc xp_cells (doneEvents_one _ _)
    · intro d
      rw [getLsbD_setMaskBit, hbits d]
      by_cases e : d = c
      · simp [e]
      · simp [e]
    · intro _
      exact devXp_written he hrt.1
  · refine ⟨l, ?_, by simp, by simp⟩
    have := ChanLoop.refl s i
    rwa [show s.cards[i] = { s.cards[i] with chen := some m, tsten := some l } by rw [← hm, ← hl]] at this

/-- R196, R197: all eight levels of an open card set to one value by an operation `op` that writes four bytes `b`. -/
theorem setLevels_runs {s : State} {i : CardIx} {op : Int → Op Unit} {v : Nat} {b : Byte} (hr : Ready s i)
    (hb : NoBusError 8 s)
    (hop : ∀ (c : ChanIx) (t : State), Ready t i → t.nextAnswer.ok = true →
      ∃ es, (op (chanNo c)).Runs t ⟨⟩ 1 ((potCells i c).zip [b, b, b, b]) es
        (t.cards.set i { t.cards[i] with level := t.cards[i].level.set c (some v) }) ∧ DoneEvents 1 es) :
    ∃ t, forEach allChans op s = .ok ⟨⟩ t ∧
      ChanLoop s i 8 { s.cards[i] with level := Vector.replicate Config.pb.nChan (some v) } t ∧
      (∀ (c : ChanIx) (j : Fin 4), t.devPot i c j.val = b) ∧ (∀ j : Fin 2, t.devXp i j = s.devXp i j) := by
  rw [forEach_allChans]
  have := forEach_runs (all := List.finRange Config.pb.nChan) (body := fun c => op (chanNo c))
    (P := fun done t => ∃ L, ChanLoop s i done.length { s.cards[i] with level := L } t ∧
      (∀ k : ChanIx, L[k] = if k ∈ done then some v else s.cards[i].level[k]) ∧
      (∀ c ∈ done, ∀ j : Fin 4, t.devPot i c j.val = b) ∧ (∀ j : Fin 2, t.devXp i j = s.devXp i j)) ?_ (s := s) ?_
  · obtain ⟨t, ht, L, hloop, hL, hdev, hxp⟩ := this
    have hLe : L = Vector.replicate Config.pb.nChan (some v) := by
      apply Vector.ext
      intro k hk
      have := hL ⟨k, hk⟩
      simp only [List.mem_finRange, if_true] at this
      simpa using this
    subst hLe
    exact ⟨t, ht, by simpa using hloop, fun c j => hdev c (List.mem_finRange c) j, hxp⟩
  · rintro done c rest t hd ⟨L, hloop, hL, hdev, hxp⟩
    have hlen : done.length < 8 := length_done hd
    have hc0 := not_mem_done hd
    have hrt : Ready t i := hloop.ready hr rfl
    obtain ⟨es, ⟨u, hu, he, hs, hc⟩, hes⟩ := hop c t hrt ((hloop.after hb (by omega)).next (by omega))
    rw [hloop.card] at hc
    refine ⟨u, hu, L.set c (some v), ?_, ?_, ?_, ?_⟩
    · rw [List.length_append, List.length_singleton]
      exact hloop.then he hs hc pot_cells hes
    · intro k
      by_cases hk : k = c
      · subst hk; simp
      · have : c.val ≠ k.val := fun e => hk (Fin.ext e.symm)
        have hL' := hL k
        simp only [Fin.getElem_fin] at hL'
        simp [this, hk, hL']
    · intro d hd' j
      rcases List.mem_append.mp hd' with hd' | hd'
      · rw [devPot_other he (fun e => hc0 (e ▸ hd')) j.isLt, hdev d hd' j]
      · rw [List.mem_singleton.mp hd', devPot_written he hrt.1 j]
        have hj := j.isLt
        have : j.val = 0 ∨ j.val = 1 ∨ j.val = 2 ∨ j.val = 3 := by omega
        rcases this with e | e | e | e <;> simp [e]
    · intro j
      rw [devXp_pot he j, hxp j]
  · exact ⟨s.cards[i].level, ChanLoop.refl s i, by simp, by simp, fun _ => rfl⟩

theorem setLevelMins_runs {s : State} {i : CardIx} (hr : Ready s i) (hb : NoBusError 8 s) :
    ∃ t, forEach allChans (fun ch => setLevelMinOp (cardNo i) ch) s = .ok ⟨⟩ t ∧
      ChanLoop s i 8 { s.cards[i] with level := Vector.replicate Config.pb.nChan (some 0) } t ∧
      (∀ (c : ChanIx) (j : Fin 4), t.devPot i c j.val = 0x00#8) ∧ (∀ j : Fin 2, t.devXp i j = s.devXp i j) :=
  setLevels_runs hr hb fun c _ hrt ho => ⟨_, setLevelMinOp_runs c hrt ho, doneEvents_one _ _⟩

theorem setLevelMaxs_runs {s : State} {i : CardIx} (hr : Ready s i) (hb : NoBusError 8 s) :
    ∃ t, forEach allChans (fun ch => setLevelMaxOp (cardNo i) ch) s = .ok ⟨⟩ t ∧
      ChanLoop s i 8 { s.cards[i] with level := Vector.replicate Config.pb.nChan (some 1023) } t ∧
      (∀ (c : ChanIx) (j : Fin 4), t.devPot i c j.val = 0xFF#8) ∧ (∀ j : Fin 2, t.devXp i j = s.devXp i j) :=
  setLevels_runs hr hb fun c _ hrt ho => ⟨_, setLevelMaxOp_runs c hrt ho, doneEvents_one _ _⟩

/-- R78: the byte of each sub-register. -/
theorem getD_potBytes {v : Nat} (hv : v ≤ 1023) (j : Fin 4) : (potBytes v).getD j.val 0 =
    if j.val < v / 256 then 0xFF#8 else if j.val = v / 256 then BitVec.ofNat 8 (v % 256) else 0x00#8 := by
  have : ∀ v : Fin 1024, ∀ j : Fin 4, (potBytes v.val).getD j.val 0 = if j.val < v.val / 256 then 0xFF#8
      else if j.val = v.val / 256 then BitVec.ofNat 8 (v.val % 256) else 0x00#8 := by decide +kernel
  exact this ⟨v, by omega⟩ j

/-- What the device bytes of a channel's potentiometer are after the write of a level's pattern. -/
theorem devPot_level {s t : State} {i : CardIx} {c : ChanIx} {n v : Nat} {es : List Event} (hv : v ≤ 1023)
    (h : Effect s t n ((potCells i c).zip (potBytes v)) es) (hm : Memory.wf s.mem = true) (j : Fin 4) :
    t.devPot i c j.val = (potBytes v).getD j.val 0 := by
  obtain ⟨b0, b1, b2, b3, e⟩ : ∃ b0 b1 b2 b3, potBytes v = [b0, b1, b2, b3] := by
    rw [← patternBytes_potPattern ⟨v, by omega⟩]; exact ⟨_, _, _, _, rfl⟩
  rw [e] at h ⊢
  exact devPot_written h hm j

/-- R212: the eight channels of an open card restored from their records. -/
theorem loadChans_runs {s : State} {i : CardIx} (en : Bool) {m l : Byte} (hr : Ready s i) (hb : NoBusError 16 s)
    (hm : s.cards[i].chen = some m) (hl : s.cards[i].tsten = some l)
    (hrec : ∀ c : ChanIx, 0 ≤ s.cfg[i][c].level ∧ s.cfg[i][c].level ≤ 1023) :
    ∃ t m', forEach allChans (fun ch => loadChannelOp en (cardNo i) ch) s = .ok ⟨⟩ t ∧
      ChanLoop s i 16 { s.cards[i] with
        chen := some m', tsten := some l, level := Vector.ofFn fun c => some (s.cfg[i][c].level).toNat } t ∧
      (∀ c : ChanIx, m'.getLsbD c.val = (s.cfg[i][c].output && en)) ∧ t.devXp i 0 = ~~~m' ∧ t.devXp i 1 = ~~~l ∧
      (∀ (c : ChanIx) (j : Fin 4), t.devPot i c j.val = (potBytes (s.cfg[i][c].level).toNat).getD j.val 0) := by
  rw [forEach_allChans]
  have := forEach_runs (all := List.finRange Config.pb.nChan) (body := fun c => loadChannelOp en (cardNo i) (chanNo c))
    (P := fun done t => ∃ m' L, ChanLoop s i (2 * done.length)
        { s.cards[i] with chen := some m', tsten := some l, level := L } t ∧
      (∀ d : ChanIx, m'.getLsbD d.val = if d ∈ done then (s.cfg[i][d].output && en) else m.getLsbD d.val) ∧
      (∀ k : ChanIx, L[k] = if k ∈ done then some (s.cfg[i][k].level).toNat else s.cards[i].level[k]) ∧
      (done ≠ [] → t.devXp i 0 = ~~~m' ∧ t.devXp i 1 = ~~~l) ∧
      (∀ c ∈ done, ∀ j : Fin 4, t.devPot i c j.val = (potBytes (s.cfg[i][c].level).toNat).getD j.val 0)) ?_ (s := s) ?_
  · obtain ⟨t, ht, m', L, hloop, hbits, hL, hxp, hpot⟩ := this
    have hLe : L = Vector.ofFn fun c => some (s.cfg[i][c].level).toNat := by
      apply Vector.ext
      intro k hk
      have := hL ⟨k, hk⟩
      simp only [List.mem_finRange, if_true] at this
      simpa using this
    subst hLe
    have hx := hxp (by simp [List.finRange_succ])
    exact ⟨t, m', ht, by simpa using hloop, fun c => by rw [hbits c, if_pos (List.mem_finRange c)], hx.1, hx.2,
      fun c => hpot c (List.mem_finRange c)⟩
  · rintro done c rest t hd ⟨m', L, hloop, hbits, hL, hxp, hpot⟩
    have hlen : done.length < 8 := length_done hd
    have hc0 := not_mem_done hd
    have hrt : Ready t i := hloop.ready hr rfl
    have hcfg : t.cfg = s.cfg := by obtain ⟨_, _, he, _⟩ := hloop.run; exact he.cfg
    have hbt := hloop.after hb (by omega)
    obtain ⟨u, hu, he, hs, hc⟩ := setLevelOp_runs c (hrec c) hrt (hbt.next (by omega))
    rw [hloop.card] at hc
    have hloop' := hloop.then he hs hc pot_cells (doneEvents_one _ _)
    have hru : Ready u i := hloop'.ready hr rfl
    obtain ⟨w, hw, he', hs', hc'⟩ := enableChannelOp_runs c (s.cfg[i][c].output && en) hru
      ((hloop'.after hb (by omega)).next (by omega)) (m := m') (l := l) (by rw [hloop'.card]) (by rw [hloop'.card])
    rw [hloop'.card] at hc'
    refine ⟨w, ?_, setMaskBit m' c (s.cfg[i][c].output && en), L.set c (some (s.cfg[i][c].level).toNat), ?_, ?_, ?_,
      fun _ => devXp_written he' hru.1, fun d hd' j => ?_⟩
    · have hent : t.cfgEntry (cardNo i) (chanNo c) = s.cfg[i][c] := by
        unfold State.cfgEntry
        rw [cardIx?_cardNo, chanIx?_chanNo, hcfg]
      simp only [loadChannelOp]
      rw [Op.get_bind, hent, Op.bind_ok hu, hw]
    · have := hloop'.then he' hs' hc' xp_cells (doneEvents_one _ _)
      rw [show 2 * (done ++ [c]).length = 2 * done.length + 1 + 1 by simp; omega]
      exact this
    · intro d
      rw [getLsbD_setMaskBit, hbits d]
      by_cases e : d = c
      · simp [e]
      · simp [e]
    · intro k
      by_cases hk : k = c
      · subst hk; simp
      · have : c.val ≠ k.val := fun e => hk (Fin.ext e.symm)
        have hL' := hL k
        simp only [Fin.getElem_fin] at hL'
        simp [this, hk, hL']
    · rw [devPot_xp he' d j]
      rcases List.mem_append.mp hd' with hd' | hd'
      · rw [devPot_other he (fun e => hc0 (e ▸ hd')) j.isLt, hpot d hd' j]
      · rw [List.mem_singleton.mp hd']
        have := hrec c
        exact devPot_level (by omega) he hrt.1 j
  · refine ⟨m, s.cards[i].level, ?_, by simp, by simp, by simp, by simp⟩
    have := ChanLoop.refl s i
    rwa [show s.cards[i] = { s.cards[i] with chen := some m, tsten := some l, level := s.cards[i].level } by
      rw [← hm, ← hl]] at this

/-! ## Commands over the live cards -/

/-- R191: a bulk command's loop. -/
theorem forLiveCards_runs {act : Int → Op Unit} {s : State} {N : Nat} {F : CardIx → Card} {dev : CardIx → State → Prop}
    (hm : Memory.wf s.mem = true) (hv : s.params.Valid) (hn : NoneConnected s) (hl : LiveCardsPlugged s)
    (hb : NoBusError ((N + 2) * 18) s) (hF : ∀ i : CardIx, s.cards[i].live = false → F i = s.cards[i])
    (hstable : ∀ i t u, (∀ k, CardCell i k → Memory.read u.mem k = Memory.read t.mem k) → dev i t → dev i u)
    (hdev0 : ∀ i t, s.cards[i].live = false → (∀ k, CardCell i k → Memory.read t.mem k = Memory.read s.mem k) → dev i t)
    (hact : ∀ i u, s.cards[i].live = true → Ready u i → u.cards[i] = { s.cards[i] with iso := some .opened } →
      u.cfg = s.cfg → (∀ k, CardCell i k → k ≠ swCell i → Memory.read u.mem k = Memory.read s.mem k) → NoBusError N u →
      ∃ v card, act (cardNo i) u = .ok ⟨⟩ v ∧ ChanLoop u i N card v ∧ F i = { card with iso := some .closed } ∧
        ∀ w, (∀ k, k ≠ swCell i → Memory.read w.mem k = Memory.read v.mem k) →
          Memory.read w.mem (swCell i) = closeByte → dev i w) :
    ∃ t, forLiveCards act s = .ok .nothing t ∧
      CardLoop (N + 2) F dev (fun _ l => ∀ e ∈ l, e.isBus = true) (List.finRange Config.pb.nCards) s t := by
  have := forCards_runs (N := N + 2) (F := F) (dev := dev)
    (ev := fun _ l => ∀ e ∈ l, e.isBus = true)
    (body := fun a => do if (← get).live a then withOpen a (act a)) hm hn hb hstable ?_
  · obtain ⟨t, ht, hloop⟩ := this
    refine ⟨t, ?_, hloop⟩
    unfold forLiveCards
    rw [Op.bind_ok ht]
    rfl
  · intro i t hmt hnt hpt hct hprt hcard hmem hbt
    rw [Op.get_bind]
    by_cases hlive : s.cards[i].live = true
    · rw [if_pos (by unfold State.live; rw [State.card_cardNo, hcard, hlive])]
      have hvt : t.params.Valid := by rw [hpt]; exact hv
      refine cardRound_withOpen hmt hvt hnt (by rw [hprt]; exact hl i hlive) hbt fun u hru heu hcu => ?_
      obtain ⟨v, card, h1, h2, h3, h4⟩ := hact i u hlive hru (by rw [hcu, cards_set_same, hcard])
        (heu.cfg.trans hct) (fun k hk hne => (heu.read_other (by simpa using hne)).trans (hmem k hk))
        ((hbt.after heu (by omega)).mono (by omega))
      obtain ⟨W, es, he, hW, hes⟩ := h2.run
      exact ⟨v, W, es, card, h1, he, h2.scratch, by rw [h2.cards, hcu, cards_set_set], h3, hW, fun e hee => (hes.2 e hee).1, h4⟩
    · have hlive' : s.cards[i].live = false := Bool.eq_false_iff.mpr hlive
      rw [if_neg (by unfold State.live; rw [State.card_cardNo, hcard]; exact hlive)]
      exact ⟨t, rfl, cardRound_skip hnt (by rw [hF i hlive', hcard]) (hdev0 i t hlive' hmem) (by simp)⟩

/-- R191: a bulk command, no transaction failing: what `act` does to each live card, and nothing to the others. -/
theorem runBulk_runs {op : Byte} {act : Int → Op Unit} {s : State} {N : Nat} {F : CardIx → Card}
    {dev : CardIx → State → Prop} (h : CommandReady s) (hp : LiveCardsPlugged s) (hb : NoBusError ((N + 2) * 18) s)
    (hF : ∀ i : CardIx, s.cards[i].live = false → F i = s.cards[i])
    (hstable : ∀ i t u, (∀ k, CardCell i k → Memory.read u.mem k = Memory.read t.mem k) → dev i t → dev i u)
    (hdev0 : ∀ i t, s.cards[i].live = false → (∀ k, CardCell i k → Memory.read t.mem k = Memory.read s.mem k) → dev i t)
    (hact : ∀ i u, s.cards[i].live = true → Ready u i → u.cards[i] = { s.cards[i] with iso := some .opened } →
      u.cfg = s.cfg → (∀ k, CardCell i k → k ≠ swCell i → Memory.read u.mem k = Memory.read s.mem k) → NoBusError N u →
      ∃ v card, act (cardNo i) u = .ok ⟨⟩ v ∧ ChanLoop u i N card v ∧ F i = { card with iso := some .closed } ∧
        ∀ w, (∀ k, k ≠ swCell i → Memory.read w.mem k = Memory.read v.mem k) →
          Memory.read w.mem (swCell i) = closeByte → dev i w) :
    ∃ t, runCommand op true noCardNeeded (forLiveCards act) s = .next t ∧ t.response = some (.ok .nothing) ∧
      (∀ i : CardIx, t.cards[i] = F i) ∧ (∀ i, dev i t) ∧ NoneConnected t ∧ SameElsewhere s t := by
  obtain ⟨w, hw, hloop⟩ := forLiveCards_runs (act := act) (s := s.beginCommand op) (N := N) (F := F) (dev := dev) h.1 h.2.1
    h.2.2.2.1 hp hb hF hstable hdev0 hact
  obtain ⟨n, W, es, he, _⟩ := hloop.run
  obtain ⟨he', hs'⟩ := endCommand_effect h.2.2.1 he (.ok .nothing)
  refine ⟨_, runCommand_ok h.2.2.1.1 rfl hw, rfl, fun i => ?_, fun i => ?_, hloop.closed, he'.sameElsewhere hs'⟩
  · have := hloop.cards i
    rwa [if_pos (List.mem_finRange i)] at this
  · exact hstable i w _ (fun _ _ => rfl) (hloop.dev i (List.mem_finRange i))

/-- R191: a bulk command that does the same to every live card: each becomes `G` of itself, its devices meet `P`, and no cell of
any other card differs. -/
theorem runBulk_each {op : Byte} {act : Int → Op Unit} {s : State} {N : Nat} {G : Card → Card}
    (P : CardIx → State → Prop) (h : CommandReady s) (hp : LiveCardsPlugged s) (hb : NoBusError ((N + 2) * 18) s)
    (hP : ∀ i t u, (∀ k, CardCell i k → Memory.read u.mem k = Memory.read t.mem k) → P i t → P i u)
    (hact : ∀ i u, s.cards[i].live = true → Ready u i → u.cards[i] = { s.cards[i] with iso := some .opened } →
      u.cfg = s.cfg → (∀ k, CardCell i k → k ≠ swCell i → Memory.read u.mem k = Memory.read s.mem k) → NoBusError N u →
      ∃ v card, act (cardNo i) u = .ok ⟨⟩ v ∧ ChanLoop u i N card v ∧ G s.cards[i] = { card with iso := some .closed } ∧
        ∀ w, (∀ k, k ≠ swCell i → Memory.read w.mem k = Memory.read v.mem k) →
          Memory.read w.mem (swCell i) = closeByte → P i w) :
    ∃ t, runCommand op true noCardNeeded (forLiveCards act) s = .next t ∧ t.response = some (.ok .nothing) ∧
      (∀ i : CardIx, t.cards[i] = if s.cards[i].live then G s.cards[i] else s.cards[i]) ∧
      (∀ i : CardIx, s.cards[i].live = true → P i t) ∧
      (∀ i : CardIx, s.cards[i].live = false → ∀ k, CardCell i k → Memory.read t.mem k = Memory.read s.mem k) ∧
      NoneConnected t ∧ SameElsewhere s t := by
  obtain ⟨t, h1, h2, h3, h4, h5, h6⟩ := runBulk_runs (op := op) (act := act) (N := N)
    (F := fun i : CardIx => if s.cards[i].live then G s.cards[i] else s.cards[i])
    (dev := fun i t => (s.cards[i].live = true → P i t) ∧
      (s.cards[i].live = false → ∀ k, CardCell i k → Memory.read t.mem k = Memory.read s.mem k)) h hp hb
    (fun i hl => if_neg (by rw [hl]; exact Bool.false_ne_true))
    (fun i t u hk hd => ⟨fun hl => hP i t u hk (hd.1 hl), fun hl k hc => (hk k hc).trans (hd.2 hl k hc)⟩)
    (fun i t hl hk => ⟨fun h' => absurd (h'.symm.trans hl) (by decide), fun _ => hk⟩)
    (fun i u hl hr hc hcfg hmem hbu => by
      obtain ⟨v, card, g1, g2, g3, g4⟩ := hact i u hl hr hc hcfg hmem hbu
      exact ⟨v, card, g1, g2, (if_pos hl).trans g3,
        fun w hw1 hw2 => ⟨fun _ => g4 w hw1 hw2, fun h' => absurd (hl.symm.trans h') (by decide)⟩⟩)
  exact ⟨t, h1, h2, h3, fun i hl => (h4 i).1 hl, fun i hl => (h4 i).2 hl, h5, h6⟩

/-! ## Discovery and refresh -/

/-- The round of a card that is plugged and not live: it is constructed. -/
theorem cardRound_construct {F : CardIx → Card} {dev : CardIx → State → Prop} {s t : State} {i : CardIx}
    (hm : Memory.wf t.mem = true) (hv : t.params.Valid) (hn : NoneConnected t) (hp : t.present[i] = true)
    (hb : NoBusError 27 t) (hparams : t.params = s.params) (hcard : t.cards[i] = s.cards[i])
    (hmem : ∀ k, CardCell i k → Memory.read t.mem k = Memory.read s.mem k)
    (hF : F i = { discovered s i s.cards[i] with live := true, iso := some .closed })
    (hdev : ∀ u, (∀ k, k < 128 * i.val + 64 → CardCell i k → k ≠ swCell i →
      Memory.read u.mem k = Memory.read s.mem k) → Memory.read u.mem (swCell i) = closeByte → dev i u) :
    ∃ u, cardConstructOp (cardNo i) t = .ok true u ∧
      CardRound 27 F dev (fun _ l => l.countP Event.isBus = 27 ∧ l.length = 27) i t u := by
  obtain ⟨u, es, h, he, h1, h2, hs, hc, hnu⟩ := cardConstructOp_present hm hv hn hp hb
  have hd : discovered t i t.cards[i] = discovered s i s.cards[i] := by
    unfold discovered
    have hxp : ∀ j : Fin 2, t.devXp i j = s.devXp i j := fun j => hmem _ (cardCell_xpCell i j)
    have hpot : ∀ c, t.potSum i c = s.potSum i c := fun c => potSum_congr fun j hj => hmem _ (cardCell_potCell i c hj)
    rw [hcard, hxp, hxp, hparams]
    simp only [hpot]
  refine ⟨u, h, ⟨27, _, es, he, Nat.le_refl _, fun k hk => ?_, h1, h2⟩, hs, ?_, hnu, hdev u (fun k hk hck hne => ?_) ?_⟩
  · rcases bracket_cells hk with e | e
    · rw [e]; exact cardCell_swCell i
    · have := senseWrites_cells e
      rw [cardCell_iff]; omega
  · rw [hc, hd, hF]
  · rw [he.read_other fun hmem' => ?_, hmem k hck]
    rcases bracket_cells hmem' with e | e
    · exact hne e
    · have := senseWrites_cells e
      omega
  · exact bracket_read_switch hm he.mem

/-- The round of an address with no card plugged: it holds no value. -/
theorem cardRound_absent {F : CardIx → Card} {dev : CardIx → State → Prop} {t : State} {i : CardIx} {N : Nat}
    (hn : NoneConnected t) (hp : t.present[i] = false) (hF : F i = Card.blank)
    (hdev : ∀ u, u.mem = t.mem → dev i u) :
    ∃ u, cardConstructOp (cardNo i) t = .ok false u ∧
      CardRound N F dev (fun _ l => ∀ e ∈ l, e.isBus = true) i t u := by
  obtain ⟨u, h, he, hs, hc⟩ := cardConstructOp_absent hp
  exact ⟨u, h, ⟨0, [], _, he, by omega, by simp, by simp [Event.isBus]⟩, hs, by rw [hc, hF],
    (he.connectedCards (by simp)).trans hn, hdev u he.mem⟩

/-! ## Shutdown (R193), whatever the environment answers -/

/-- `CLOSE`, its failure absorbed. -/
theorem attempt_closeOp (s : State) (i : CardIx) :
    ∃ t ok W, attempt (closeOp (cardNo i)) s = .ok ok t ∧ ok = (s.present[i] && s.nextAnswer.ok) ∧
      Effect s t (if s.present[i] then 1 else 0) W [closeEvent s.params i ok] ∧ SameScratch s t ∧
      (W = [] ∨ W = [(swCell i, closeByte)]) ∧ (ok = true → W = [(swCell i, closeByte)]) ∧
      (∀ j : CardIx, j ≠ i → t.cards[j] = s.cards[j]) := by
  cases hp : s.present[i] with
  | false =>
    obtain ⟨t, h, he, hs, hc⟩ := closeOp_absent hp
    exact ⟨t, false, [], attempt_busError h, rfl, he, hs, .inl rfl, nofun, fun j _ => by rw [hc]⟩
  | true =>
    cases ho : s.nextAnswer.ok with
    | true =>
      obtain ⟨t, h, he, hs, hc⟩ := closeOp_runs hp ho
      exact ⟨t, true, _, attempt_ok h, rfl, he, hs, .inr rfl, fun _ => rfl, fun j hj => by
        rw [hc, cards_set_other _ _ hj]⟩
    | false =>
      obtain ⟨t, ws, h, hw, he, hs, hc⟩ := closeOp_fails hp ho
      exact ⟨t, false, ws, attempt_busError h, rfl, he, hs, hw, nofun, fun j _ => by rw [hc]⟩

/-- Where `SHUTDOWN` stands when it has passed the addresses `done`. -/
structure ShutLoop (s : State) (done : List CardIx) (t : State) : Prop where
  run : ∃ W, Effect s t (done.countP fun j => s.cards[j].live && s.present[j]) W
      ((done.filter fun j => s.cards[j].live).map fun j => closeEvent s.params j (s.shutdownOk j)) ∧
    (∀ k ∈ W.map Prod.fst, ∃ j ∈ done, s.cards[j].live = true ∧ k = swCell j)
  scratch : SameScratch s t
  cards : ∀ j : CardIx, t.cards[j] = if j ∈ done ∧ s.cards[j].live = true then Card.blank else s.cards[j]
  switch : Memory.wf s.mem = true → ∀ j ∈ done, s.cards[j].live = true →
    t.devSw j = closeByte ∨ s.shutdownOk j = false ∧ t.devSw j = s.devSw j

/-- The addresses before `i` are those below it. -/
theorem countP_below {done rest : List CardIx} {i : CardIx} (h : done ++ i :: rest = List.finRange Config.pb.nCards)
    (q : CardIx → Bool) : ((List.finRange Config.pb.nCards).countP fun j => decide (j < i) && q j) = done.countP q := by
  have hs : (done ++ i :: rest).Pairwise (· < ·) := h ▸ List.pairwise_lt_finRange _
  obtain ⟨_, h2, h3⟩ := List.pairwise_append.mp hs
  have h4 := List.pairwise_cons.mp h2
  rw [← h, List.countP_append]
  have e1 : done.countP (fun j => decide (j < i) && q j) = done.countP q :=
    List.countP_congr fun j hj => by simp [h3 j hj i (by simp)]
  have e2 : (i :: rest).countP (fun j => decide (j < i) && q j) = 0 := by
    rw [List.countP_eq_zero]
    intro j hj
    rcases List.mem_cons.mp hj with rfl | hj
    · simp
    · have := h4.1 j hj
      simp [not_lt.mpr (le_of_lt this)]
  rw [e1, e2, Nat.add_zero]

theorem shutdownLoop_runs {s : State} : ∀ (rest done : List CardIx) (failed : Bool) (t : State),
    done ++ rest = List.finRange Config.pb.nCards → ShutLoop s done t →
    ∃ u, shutdownLoop (rest.map cardNo) failed t =
        .ok (failed || rest.any fun j => s.cards[j].live && !s.shutdownOk j) u ∧
          ShutLoop s (List.finRange Config.pb.nCards) u := by
  intro rest
  induction rest with
  | nil =>
    intro done failed t hd hP
    rw [List.append_nil] at hd
    exact ⟨t, by simp [shutdownLoop], hd ▸ hP⟩
  | cons i rest ih =>
    intro done failed t hd hP
    have hi := not_mem_done hd
    have hti : t.cards[i] = s.cards[i] := by rw [hP.cards i, if_neg fun h => hi h.1]
    have hd' : (done ++ [i]) ++ rest = List.finRange Config.pb.nCards := by simpa using hd
    simp only [List.map_cons, shutdownLoop]
    rw [Op.get_bind]
    cases hl : s.cards[i].live with
    | false =>
      have hl' : s.cards[i.val].live = false := hl
      rw [if_neg (by unfold State.live; rw [State.card_cardNo, hti, hl]; exact Bool.false_ne_true)]
      obtain ⟨u, hu, hPu⟩ := ih (done ++ [i]) failed t hd' (by
        obtain ⟨W, he, hW⟩ := hP.run
        refine ⟨⟨W, ?_, fun k hk => ?_⟩, hP.scratch, fun j => ?_, fun hm j hj hlj => ?_⟩
        · simpa [List.countP_append, hl'] using he
        · obtain ⟨j, hj, h⟩ := hW k hk
          exact ⟨j, List.mem_append_left _ hj, h⟩
        · rw [hP.cards j]
          by_cases e : j = i
          · subst e; simp [hl']
          · simp [e]
        · rcases List.mem_append.mp hj with hj | hj
          · exact hP.switch hm j hj hlj
          · rw [List.mem_singleton.mp hj, hl] at hlj; cases hlj)
      exact ⟨u, by simpa [hl'] using hu, hPu⟩
    | true =>
      have hl' : s.cards[i.val].live = true := hl
      rw [if_pos (by unfold State.live; rw [State.card_cardNo, hti, hl])]
      obtain ⟨W, he, hW⟩ := hP.run
      obtain ⟨v, ok, W', hv, hok, he', hs', hW1, hW2, hc'⟩ := attempt_closeOp t i
      have hok' : ok = s.shutdownOk i := by
        rw [hok, he.present, he.nextAnswer, State.shutdownOk, countP_below hd]
      subst hok'
      rw [he.params, he.present] at he'
      have hfull := (he.trans he').trans (effect_setCard v (cardNo i) Card.blank)
      rw [Op.bind_ok hv]
      unfold forgetCard
      rw [Op.modify_bind]
      obtain ⟨u, hu, hPu⟩ := ih (done ++ [i]) (failed || !s.shutdownOk i) (v.setCard (cardNo i) Card.blank) hd' (by
        refine ⟨⟨W ++ W', ?_, fun k hk => ?_⟩, (hP.scratch.trans hs').trans (scratch_setCard _ _ _), fun j => ?_,
          fun hm j hj hlj => ?_⟩
        · rw [List.countP_append, List.filter_append, List.map_append]
          simpa [hl', List.countP_cons] using hfull
        · rw [List.map_append, List.mem_append] at hk
          rcases hk with hk | hk
          · obtain ⟨j, hj, h⟩ := hW k hk
            exact ⟨j, List.mem_append_left _ hj, h⟩
          · refine ⟨i, by simp, hl, ?_⟩
            rcases hW1 with rfl | rfl
            · cases hk
            · simpa using hk
        · rw [setCard_cards _ (cardIx?_cardNo i)]
          by_cases e : j = i
          · subst e; rw [cards_set_same]; simp [hl']
          · rw [cards_set_other _ _ e, hc' j e, hP.cards j]; simp [e]
        · have hmem : (v.setCard (cardNo i) Card.blank).devSw j = v.devSw j :=
            congrArg (fun m => Memory.read m (swCell j)) (State.setCard_mem v _ _)
          rw [hmem]
          by_cases e : j = i
          · subst e
            rcases hW1 with rfl | rfl
            · refine .inr ⟨?_, ?_⟩
              · cases hk : s.shutdownOk j with
                | false => rfl
                | true => exact absurd (hW2 hk) (by simp)
              · exact (he'.read_other (by simp)).trans (he.read_other fun hk => by
                  obtain ⟨j', hj', _, e'⟩ := hW _ hk
                  have : j = j' := swCell_inj e'
                  exact hi (this ▸ hj'))
            · exact .inl (he'.read_mem (he.wf hm) (by simp) (List.mem_singleton.mpr rfl))
          · have hj' : j ∈ done := by
              rcases List.mem_append.mp hj with hj | hj
              · exact hj
              · exact absurd (List.mem_singleton.mp hj) e
            have : v.devSw j = t.devSw j := he'.read_other (by
              rcases hW1 with rfl | rfl
              · simp
              · simp only [List.map_cons, List.map_nil, List.mem_singleton]
                exact fun e' => e (swCell_inj e'))
            rw [this]
            exact hP.switch hm j hj' hlj)
      refine ⟨u, ?_, hPu⟩
      rw [hu]
      simp [hl', Bool.or_assoc]

end Sys2Proof.Machine
end

