-- ==== Sys2Proof/Laws/Seek.lean ====
section
/-! SUPPORT. The arithmetic of the seek (R201), one iteration of its loop, the two reads it senses with,
and a loop that never converges. -/

namespace Sys2Proof.Machine

theorem seekDelta_eq (target x : Rat) : seekDelta target x = |target - x| := by
  unfold seekDelta
  split
  · next h => rw [abs_of_nonpos (by linarith)]; ring
  · next h => rw [abs_of_nonneg (by linarith)]

/-- R201: the convergence test. -/
theorem seekConverged_iff (target x : Rat) : seekConverged target x = true ↔ |target - x| < 1 / 100 := by
  unfold seekConverged
  rw [seekDelta_eq, decide_eq_true_eq]

theorem seekMove_eq (target x : Rat) (level step : Int) : seekMove target x level step = stepToward target x level step :=
  rfl

theorem seekVoltageArgs_iff (target : Rat) (step : Int) :
    seekVoltageArgs target step = true ↔ (0 ≤ target ∧ target ≤ 5) ∧ 1 ≤ step := by
  simp only [seekVoltageArgs, Bool.and_eq_true, decide_eq_true_eq]

theorem seekCurrentArgs_iff (target : Rat) (step : Int) :
    seekCurrentArgs target step = true ↔ (0 ≤ target ∧ target ≤ 200) ∧ 1 ≤ step := by
  simp only [seekCurrentArgs, Bool.and_eq_true, decide_eq_true_eq]

/-- The state in which an iteration senses: the settle delay is recorded. -/
def State.settled (s : State) : State := { s with hist := s.hist ++ [.delay .settle Config.pb.seekSettleMs] }

/-- The state after an iteration's sample is counted. -/
def State.counted (s : State) : State := { s with iter := s.iter.map (· + 1) }

/-- The state with the working level replaced. -/
def State.withLevel (s : State) (l : Int) : State := { s with seekLevel := some l }

theorem effect_settled (s : State) : Effect s s.settled 0 [] [.delay .settle Config.pb.seekSettleMs] := effect_event s _

theorem effect_counted (s : State) : Effect s s.counted 0 [] [] := by
  refine ⟨rfl, rfl, rfl, rfl, rfl, rfl, by simp [State.counted], ?_, ?_⟩ <;> rw [State.took_zero] <;> rfl

theorem effect_withLevel (s : State) (l : Int) : Effect s (s.withLevel l) 0 [] [] := by
  refine ⟨rfl, rfl, rfl, rfl, rfl, rfl, by simp [State.withLevel], ?_, ?_⟩ <;> rw [State.took_zero] <;> rfl

variable {card chan : Int} {target : Rat} {step : Int} {sense : Op Rat} {fuel : Nat} {s u v : State} {x : Rat}
  {level : Int}

/-- An iteration whose read fails. -/
theorem seekLoop_senseFails {e : Stop} (h : sense s.settled = .error e u) :
    seekLoop card chan target step sense (fuel + 1) s = .error e u := by
  unfold seekLoop
  rw [Op.bind_ok (emit_apply _ _)]
  exact Op.bind_error h

/-- An iteration that converges (R201, R206). -/
theorem seekLoop_converges (h : sense s.settled = .ok x u) (hl : u.seekLevel = some level)
    (hc : seekConverged target x = true) :
    seekLoop card chan target step sense (fuel + 1) s = .ok (.pair level x) u.counted := by
  unfold seekLoop
  rw [Op.bind_ok (emit_apply _ _)]
  refine (Op.bind_ok h).trans ?_
  refine (Op.bind_ok (readField_of_some (s := u.counted) hl)).trans ?_
  rw [if_pos hc]
  rfl

/-- An iteration that moves the level (R201). -/
theorem seekLoop_moves (h : sense s.settled = .ok x u) (hl : u.seekLevel = some level)
    (hc : seekConverged target x = false)
    (hset : setLevelOp card chan (seekMove target x level step) (u.counted.withLevel (seekMove target x level step)) =
      .ok ⟨⟩ v) :
    seekLoop card chan target step sense (fuel + 1) s = seekLoop card chan target step sense fuel v := by
  conv_lhs => unfold seekLoop
  rw [Op.bind_ok (emit_apply _ _)]
  refine (Op.bind_ok h).trans ?_
  refine (Op.bind_ok (readField_of_some (s := u.counted) hl)).trans ?_
  rw [if_neg (by rw [hc]; exact Bool.false_ne_true)]
  exact Op.bind_ok hset

/-- An iteration whose level write fails (R204, R228). -/
theorem seekLoop_setFails {e : Stop} (h : sense s.settled = .ok x u) (hl : u.seekLevel = some level)
    (hc : seekConverged target x = false)
    (hset : setLevelOp card chan (seekMove target x level step) (u.counted.withLevel (seekMove target x level step)) =
      .error e v) :
    seekLoop card chan target step sense (fuel + 1) s = .error e v := by
  unfold seekLoop
  rw [Op.bind_ok (emit_apply _ _)]
  refine (Op.bind_ok h).trans ?_
  refine (Op.bind_ok (readField_of_some (s := u.counted) hl)).trans ?_
  rw [if_neg (by rw [hc]; exact Bool.false_ne_true)]
  exact (Op.modify_bind _ _ _).trans (Op.bind_error hset)

/-- The state in which a seek's loop starts. -/
def State.seekStart (s : State) (level : Nat) : State := { s with iter := some 0, seekLevel := some (level : Int) }

theorem effect_seekStart (s : State) (level : Nat) : Effect s (s.seekStart level) 0 [] [] := by
  refine ⟨rfl, rfl, rfl, rfl, rfl, rfl, by simp [State.seekStart], ?_, ?_⟩ <;> rw [State.took_zero] <;> rfl

theorem effect_dropSeek (s : State) : Effect s s.dropSeek 0 [] [] := by
  refine ⟨rfl, rfl, rfl, rfl, rfl, rfl, by simp [State.dropSeek], ?_, ?_⟩ <;> rw [State.took_zero] <;> rfl

/-- R201: a seek is its loop from the cached level. -/
theorem seekOp_eq {i : CardIx} {c : ChanIx} {level : Nat} (hl : s.cards[i].level[c] = some level) :
    seekOp (cardNo i) (chanNo c) target step sense s =
      match seekLoop (cardNo i) (chanNo c) target step sense Config.pb.seekMaxIter (s.seekStart level) with
      | .ok v t => .ok v t.dropSeek
      | .error e t => .error e t.dropSeek := by
  have hc : cachedLevel (cardNo i) c s = .ok level s := readField_of_some (by rw [State.card_cardNo]; exact hl)
  simp only [seekOp, dropAfter, chanIx_chanNo, Op.pure_bind]
  rw [Op.bind_ok hc, Op.modify_bind, ← State.seekStart]
  cases seekLoop (cardNo i) (chanNo c) target step sense Config.pb.seekMaxIter (s.seekStart level) <;> rfl

/-! ## The two reads a seek senses with (R202, R203) -/

/-- What a seek's loop needs of its read: on a ready card whose current divider is `d`, 12 transactions answer `reading` of the
state, and only the calibration register is written; `reading` depends on the answers to come alone. -/
structure Senses (sense : Op Rat) (i : CardIx) (c : ChanIx) (d : Option Rat) (reading : State → Nat → Rat) : Prop where
  runs : ∀ t, Ready t i → t.cards[i].curdiv = d → NoBusError 12 t →
    ∃ u, sense t = .ok (reading t 0) u ∧ PublicRead t u 12 (calWrites t.params i c)
  shift : ∀ {s t n W es}, Effect s t n W es → ∀ m, reading t m = reading s (n + m)

theorem senses_getBusVoltageOp (i : CardIx) (c : ChanIx) (d : Option Rat) :
    Senses (getBusVoltageOp (cardNo i) (chanNo c)) i c d busReading :=
  ⟨fun _ hr _ hb => getBusVoltageOp_runs c hr hb, fun he m => busReading_effect he m⟩

theorem senses_getCurrentOp (i : CardIx) (c : ChanIx) (d : Rat) :
    Senses (getCurrentOp (cardNo i) (chanNo c)) i c (some d) fun s => currentReading s d :=
  ⟨fun _ hr hd hb => getCurrentOp_runs c hr hb hd, fun he m => currentReading_effect he d m⟩

/-- The read of one iteration, for either seek. -/
theorem Senses.iterate {i : CardIx} {c : ChanIx} {d : Option Rat} {reading : State → Nat → Rat}
    (h : Senses sense i c d reading) {s : State} (hr : Ready s i) (hd : s.cards[i].curdiv = d) (hb : NoBusError 12 s) :
    ∃ u W es, sense s.settled = .ok (reading s 0) u ∧ Effect s u 12 W es ∧ (∀ j : CardIx, swCell j ∉ W.map Prod.fst) ∧
      (∀ w ∈ W, w ∈ calWrites s.params i c) ∧ u.cards = s.cards ∧ u.seekLevel = s.seekLevel := by
  have e0 := effect_settled s
  obtain ⟨u, hu, hp⟩ := h.runs s.settled (hr.step e0 (by simp) rfl) hd (hb.after e0 (by omega))
  obtain ⟨W, es, he, hW, _⟩ := hp.run
  rw [h.shift e0, Nat.add_zero] at hu
  refine ⟨u, W, _, hu, by simpa using e0.trans he, fun j hj => ?_, hW, hp.cards, hp.seekLevel⟩
  obtain ⟨w, hw, hwj⟩ := List.mem_map.mp hj
  exact calWrites_no_switch _ i c j (List.mem_map.mpr ⟨w, hW w hw, hwj⟩)

/-- R201, R205: a loop of either seek that starts at level 0 and whose every sample lies above the target by 0.01 or more never
converges. -/
theorem seekLoop_exhausts {i : CardIx} {c : ChanIx} {d : Option Rat} {reading : State → Nat → Rat}
    (h : Senses sense i c d reading) (h1 : 1 ≤ step) : ∀ {fuel : Nat} {s : State}, Ready s i → s.cards[i].curdiv = d →
    NoBusError (13 * fuel) s → s.seekLevel = some 0 → (∀ k < fuel, target + 1 / 100 ≤ reading s (13 * k)) →
    ∃ u n W es, seekLoop (cardNo i) (chanNo c) target step sense fuel s = .error (.failed .seekNotConverged) u ∧
      Effect s u n W es := by
  intro fuel
  induction fuel with
  | zero => exact fun {s} _ _ _ _ _ => ⟨s, 0, [], [], rfl, Effect.refl s⟩
  | succ fuel ih =>
    intro s hr hd hb hl hfar
    obtain ⟨u, W, es, hu, he, hW, _, huc, hul⟩ := h.iterate hr hd (hb.mono (by omega))
    have hx : target + 1 / 100 ≤ reading s 0 := hfar 0 (by omega)
    have hc : seekConverged target (reading s 0) = false := by
      rw [Bool.eq_false_iff, Ne, seekConverged_iff]
      intro h
      linarith [(abs_lt.mp h).1]
    have hmove : seekMove target (reading s 0) 0 step = 0 := by
      rw [seekMove_eq, stepToward, if_pos (by linarith)]
      exact max_eq_right (by omega)
    have e1 := he.trans ((effect_counted u).trans (effect_withLevel u.counted 0))
    have huc' : (u.counted.withLevel 0).cards = s.cards := huc
    have hr1 : Ready (u.counted.withLevel 0) i := hr.step e1 (by simpa using hW) (by rw [huc'])
    obtain ⟨v, hv, hev, hsv, hcv⟩ := setLevelOp_runs c (v := 0) (by omega) hr1 ((hb.after e1 (by omega)).next (by omega))
    have e2 := e1.trans hev
    obtain ⟨w, n, Wr, er, hw, her⟩ := ih (hr1.step hev (no_switch_of_cells pot_cells) (by rw [hcv, cards_set_same]))
      (by rw [hcv, cards_set_same, huc']; exact hd) ((hb.after e2 (by omega)).mono (by omega)) hsv.seekLevel
      (fun k hk => by
        rw [h.shift e2]
        have := hfar (k + 1) (by omega)
        rwa [show 13 * (k + 1) = 12 + (0 + 0) + 1 + 13 * k by omega] at this)
    refine ⟨w, _, _, _, ?_, e2.trans her⟩
    rw [seekLoop_moves hu (hul.trans hl) hc (by rw [hmove]; exact hv), hw]

end Sys2Proof.Machine
end

