-- ==== Sys2Proof/Laws/Moves.lean ====
section
/-! SUPPORT. Everything an operation can do to the state, said once (`Touch`, `Moves`), and that every operation of the block does
no more. Invariants of a step follow by induction over `Moves`. -/

namespace Sys2Proof.Machine

variable {α β : Type}

/-! ## The single updates -/

/-- The updates not every operation makes: of the live map, of the persisted configuration, of `ACC` and `CNT` (R24), of
`ITER` and `L` (R25), and of the history by a settle delay (R201). -/
inductive Kind where
  | liveMap
  | config
  | average
  | seek
  | settle
deriving DecidableEq, Repr

/-- One update of the state; `allow` says which of the rarer ones may occur. -/
inductive Touch (allow : Kind → Prop) : State → State → Prop where
  /-- R30. -/
  | event (s : State) (e : Event) (hk : e.isSettle = true → allow .settle) :
    Touch allow s { s with hist := s.hist ++ [e] }
  /-- Log 3. -/
  | answer (s : State) : Touch allow s s.tookAnswer
  /-- R100 step 3. -/
  | write (s : State) (ws : List (Nat × Byte)) : Touch allow s { s with mem := Memory.writeAll s.mem ws }
  /-- R14. -/
  | iso (s : State) (a : Int) (v : Iso) : Touch allow s (s.setCard a { s.card a with iso := some v })
  /-- R15, R16. -/
  | masks (s : State) (a : Int) (m l : Byte) :
    Touch allow s (s.setCard a { s.card a with chen := some m, tsten := some l })
  /-- R17. -/
  | level (s : State) (a : Int) (c : ChanIx) (v : Nat) (h : v ≤ 1023) :
    Touch allow s (s.setCard a { s.card a with level := (s.card a).level.set c (some v) })
  /-- R18. -/
  | factors (s : State) (a : Int) (d p : Rat) :
    Touch allow s (s.setCard a { s.card a with curdiv := some d, pwrmul := some p })
  /-- R24. -/
  | average (s : State) (acc : Option Rat) (cnt : Option Nat) (hk : allow .average) :
    Touch allow s { s with acc := acc, cnt := cnt }
  /-- R25. -/
  | seek (s : State) (iter : Option Nat) (l : Option Int) (hk : allow .seek) :
    Touch allow s { s with iter := iter, seekLevel := l }
  /-- R13: only a card that holds a value in every field becomes live. -/
  | live (s : State) (a : Int) (hk : allow .liveMap) (h : (s.card a).Complete) :
    Touch allow s (s.setCard a { s.card a with live := true })
  /-- R161, R193: a card forgotten. -/
  | forget (s : State) (a : Int) (hk : allow .liveMap) : Touch allow s (s.setCard a Card.blank)
  /-- R22. -/
  | record (s : State) (cfg : Vector (Vector CfgEntry Config.pb.nChan) Config.pb.nCards) (hk : allow .config) :
    Touch allow s { s with cfg := cfg }

/-- Any number of updates. -/
inductive Moves (allow : Kind → Prop) : State → State → Prop where
  | refl (s : State) : Moves allow s s
  | step {s t u : State} (h : Moves allow s t) (h' : Touch allow t u) : Moves allow s u

theorem Moves.one {allow : Kind → Prop} {s t : State} (h : Touch allow s t) : Moves allow s t :=
  .step (.refl s) h

theorem Moves.trans {allow : Kind → Prop} {s t u : State} (h : Moves allow s t) (h' : Moves allow t u) :
    Moves allow s u := by
  induction h' with
  | refl => exact h
  | step _ h2 ih => exact .step ih h2

theorem Moves.mono {allow allow' : Kind → Prop} {s t : State} (hk : ∀ k, allow k → allow' k) (h : Moves allow s t) :
    Moves allow' s t := by
  induction h with
  | refl => exact .refl _
  | step _ h2 ih =>
    refine .step ih ?_
    cases h2 with
    | event _ h1 => exact .event _ _ fun he => hk _ (h1 he)
    | answer => exact .answer _
    | write => exact .write _ _
    | iso => exact .iso _ _ _
    | masks => exact .masks _ _ _ _
    | level _ _ _ h => exact .level _ _ _ _ h
    | factors => exact .factors _ _ _ _
    | average _ _ h1 => exact .average _ _ _ (hk _ h1)
    | seek _ _ h1 => exact .seek _ _ _ (hk _ h1)
    | live _ h1 h2 => exact .live _ _ (hk _ h1) h2
    | forget _ h1 => exact .forget _ _ (hk _ h1)
    | record _ h1 => exact .record _ _ (hk _ h1)

/-- A relation that every update keeps, every run of updates keeps. -/
theorem Moves.induct {allow : Kind → Prop} {R : State → State → Prop} {s t : State} (h : Moves allow s t) (h0 : R s s)
    (hstep : ∀ u v, R s u → Touch allow u v → R s v) : R s t := by
  induction h with
  | refl => exact h0
  | step _ h2 ih => exact hstep _ _ ih h2

/-! ## What an operation does -/

/-- The state an operation ends in, however it ends. -/
def endState (r : EStateM.Result Stop State α) : State :=
  match r with
  | .ok _ t => t
  | .error _ t => t

@[simp] theorem endState_ok (v : α) (t : State) : endState (.ok v t : EStateM.Result Stop State α) = t := rfl

@[simp] theorem endState_error (e : Stop) (t : State) :
    endState (.error e t : EStateM.Result Stop State α) = t := rfl

/-- However it ends, the operation only makes the updates `allow` lets it. -/
def Op.Moves (allow : Kind → Prop) (x : Op α) : Prop := ∀ s, Machine.Moves allow s (endState (x s))

variable {allow : Kind → Prop}

theorem moves_pure (v : α) : (pure v : Op α).Moves allow := fun s => .refl s

theorem moves_get : (get : Op State).Moves allow := fun s => .refl s

theorem moves_raise (f : Failure) : (raise f : Op α).Moves allow := fun s => .refl s

theorem moves_halt (r : Fault) : (halt r : Op α).Moves allow := fun s => .refl s

theorem moves_bind {x : Op α} {f : α → Op β} (hx : x.Moves allow) (hf : ∀ v, (f v).Moves allow) :
    (x >>= f).Moves allow := by
  intro s
  have h := hx s
  rw [Op.bind_apply]
  cases hr : x s with
  | ok v t => rw [hr] at h; exact h.trans (hf v t)
  | error e t => rw [hr] at h; exact h

theorem moves_modify {g : State → State} (h : ∀ s, Machine.Moves allow s (g s)) : (modify g : Op PUnit).Moves allow := h

theorem moves_emit (e : Event) (hk : e.isSettle = true → allow .settle) : (emit e).Moves allow :=
  fun s => .one (.event s e hk)

theorem moves_draw : draw.Moves allow := fun s => .one (.answer s)

theorem moves_checkArg (b : Bool) : (checkArg b).Moves allow := by
  cases b
  · exact moves_raise _
  · exact moves_pure _

theorem moves_readField (field : State → Option α) : (readField field).Moves allow := by
  refine moves_bind moves_get fun s => ?_
  cases field s
  · exact moves_halt _
  · exact moves_pure _

theorem moves_chanIx (ch : Int) : (chanIx ch).Moves allow := by
  unfold chanIx
  split
  · exact moves_pure _
  · exact moves_halt _

theorem moves_asBool (b : Option Bool) : (asBool b).Moves allow := by
  cases b
  · exact moves_raise _
  · exact moves_pure _

theorem moves_requireOpen (a : Int) : (requireOpen a).Moves allow := by
  refine moves_bind moves_get fun s => ?_
  split
  · exact moves_pure _
  · exact moves_halt _

theorem moves_forEach {body : α → Op Unit} (h : ∀ x, (body x).Moves allow) (xs : List α) :
    (forEach xs body).Moves allow := by
  induction xs with
  | nil => exact moves_pure _
  | cons x xs ih => exact moves_bind (h x) fun _ => ih

theorem moves_attempt {body : Op Unit} (h : body.Moves allow) : (attempt body).Moves allow := by
  intro s
  have := h s
  unfold attempt
  cases hr : body s with
  | ok v t => rw [hr] at this; exact this
  | error e t =>
    rw [hr] at this
    cases e with
    | failed f => cases f <;> exact this
    | fault r => exact this

theorem moves_releaseAfter {release : Op Unit} {body : Op α} (hr : release.Moves allow) (hb : body.Moves allow) :
    (releaseAfter release body).Moves allow := by
  intro s
  have h1 := hb s
  unfold releaseAfter
  cases hx : body s with
  | ok v t =>
    rw [hx] at h1
    have h2 := hr t
    cases hy : release t with
    | ok w u => rw [hy] at h2; simpa [hy] using h1.trans h2
    | error e u => rw [hy] at h2; simpa [hy] using h1.trans h2
  | error e t =>
    rw [hx] at h1
    cases e with
    | fault r => exact h1
    | failed f =>
      have h2 := hr t
      cases hy : release t with
      | ok w u => rw [hy] at h2; simpa [hy] using h1.trans h2
      | error e u => cases e <;> (rw [hy] at h2; simpa [hy] using h1.trans h2)

theorem moves_bracket {acquire release : Op Unit} {body : Op α} (ha : acquire.Moves allow) (hr : release.Moves allow)
    (hb : body.Moves allow) : (bracket acquire release body).Moves allow :=
  moves_bind ha fun _ => moves_releaseAfter hr hb

theorem moves_dropAfter {drop : State → State} {body : Op α} (hd : ∀ s, Machine.Moves allow s (drop s))
    (hb : body.Moves allow) : (dropAfter drop body).Moves allow := by
  intro s
  have h := hb s
  unfold dropAfter
  cases hx : body s with
  | ok v t => rw [hx] at h; exact h.trans (hd t)
  | error e t => rw [hx] at h; exact h.trans (hd t)

/-! ## One bus transaction -/

theorem moves_reach (t : Txn) (addr : Int) : (reach t addr).Moves allow := by
  refine moves_bind moves_get fun s => ?_
  split
  · exact moves_pure _
  · exact moves_bind (moves_emit _ nofun) fun _ => moves_raise _
  · exact moves_halt _

theorem moves_transferWrite (t : Txn) (regs : List (List (Nat × Byte))) : (transferWrite t regs).Moves allow := by
  refine moves_bind moves_draw fun ans => ?_
  split
  · exact moves_bind (moves_modify fun s => .one (.write s _)) fun _ => moves_emit _ nofun
  · exact moves_bind (moves_modify fun s => .one (.write s _)) fun _ => moves_bind (moves_emit _ nofun) fun _ => moves_raise _

theorem moves_transferRead (t : Txn) (f : State → Answer → List Byte) : (transferRead t f).Moves allow := by
  refine moves_bind moves_draw fun ans => ?_
  split
  · exact moves_bind moves_get fun s => moves_bind (moves_emit _ nofun) fun _ => moves_pure _
  · exact moves_bind (moves_emit _ nofun) fun _ => moves_raise _

theorem moves_readByteOp (addr : Int) : (readByteOp addr).Moves allow :=
  moves_bind (moves_reach _ _) fun _ => moves_bind (moves_transferRead _ _) fun _ => moves_pure _

theorem moves_writeByteOp (addr : Int) (b : Byte) : (writeByteOp addr b).Moves allow := by
  refine moves_bind (moves_reach _ _) fun d => ?_
  split
  · exact moves_bind (moves_checkArg _) fun _ => moves_transferWrite _ _
  · exact moves_raise _

theorem moves_readWordOp (addr : Int) (reg : Nat) : (readWordOp addr reg).Moves allow := by
  refine moves_bind (moves_reach _ _) fun d => ?_
  split
  · refine moves_bind moves_get fun _ => ?_
    split
    · exact moves_bind (moves_transferRead _ _) fun _ => moves_pure _
    · exact moves_raise _
  · exact moves_raise _

theorem moves_writeWordOp (addr : Int) (reg : Nat) (w : Half) : (writeWordOp addr reg w).Moves allow := by
  refine moves_bind (moves_reach _ _) fun d => ?_
  split
  · refine moves_bind moves_get fun s => ?_
    dsimp only
    split
    · exact moves_transferWrite _ _
    · exact moves_transferWrite _ _
    · exact moves_raise _
  · exact moves_raise _

theorem moves_writeBlockOp (addr : Int) (reg : Nat) (bs : List Byte) : (writeBlockOp addr reg bs).Moves allow := by
  refine moves_bind (moves_reach _ _) fun d => moves_bind (moves_checkArg _) fun _ => moves_bind moves_get fun s => ?_
  split
  · exact moves_transferWrite _ _
  · exact moves_raise _

theorem moves_readBlockOp (addr : Int) (reg n : Nat) : (readBlockOp addr reg n).Moves allow := by
  refine moves_bind (moves_reach _ _) fun d => moves_bind (moves_checkArg _) fun _ => moves_bind moves_get fun s => ?_
  split
  · exact moves_transferRead _ _
  · exact moves_raise _

/-! ## One card -/

theorem moves_isoSetOp (a : Int) (en : Byte) (x y : Int) : (isoSetOp a en x y).Moves allow :=
  moves_bind (moves_asBool _) fun _ => moves_bind (moves_asBool _) fun _ => moves_bind (moves_asBool _) fun _ =>
    moves_bind moves_get fun _ => moves_writeByteOp _ _

theorem moves_setIso (a : Int) (v : Iso) : (setIso a v).Moves allow := fun s => .one (.iso s a v)

theorem moves_openOp (a : Int) : (openOp a).Moves allow := by
  refine moves_bind moves_get fun s => ?_
  split
  · exact moves_bind (moves_isoSetOp _ _ _ _) fun _ => moves_setIso _ _
  · exact moves_bind (moves_isoSetOp _ _ _ _) fun _ => moves_setIso _ _

theorem moves_closeOp (a : Int) : (closeOp a).Moves allow :=
  moves_bind (moves_isoSetOp _ _ _ _) fun _ => moves_setIso _ _

theorem moves_withOpen {body : Op α} (a : Int) (h : body.Moves allow) : (withOpen a body).Moves allow :=
  moves_bracket (moves_openOp a) (moves_closeOp a) h

theorem moves_setMasks (a : Int) (m l : Byte) : (setMasks a m l).Moves allow := fun s => .one (.masks s a m l)

theorem moves_xpWriteOp (a : Int) (m l : Byte) : (xpWriteOp a m l).Moves allow :=
  moves_bind (moves_requireOpen _) fun _ => moves_bind moves_get fun _ => moves_bind (moves_writeBlockOp _ _ _) fun _ =>
    moves_setMasks _ _ _

theorem moves_xpReadOp (a : Int) : (xpReadOp a).Moves allow :=
  moves_bind (moves_requireOpen _) fun _ => moves_bind moves_get fun _ => moves_bind (moves_readBlockOp _ _ _) fun _ =>
    moves_setMasks _ _ _

theorem moves_enableChannelOp (a ch : Int) (on : Byte) : (enableChannelOp a ch on).Moves allow :=
  moves_bind (moves_checkArg _) fun _ => moves_bind (moves_asBool _) fun _ => moves_bind (moves_requireOpen _) fun _ =>
    moves_bind (moves_chanIx _) fun _ => moves_bind (moves_readField _) fun _ => moves_bind (moves_readField _) fun _ =>
      moves_xpWriteOp _ _ _

theorem moves_enableTestLoadOp (a ch : Int) (on : Byte) : (enableTestLoadOp a ch on).Moves allow :=
  moves_bind (moves_checkArg _) fun _ => moves_bind (moves_asBool _) fun _ => moves_bind (moves_requireOpen _) fun _ =>
    moves_bind (moves_chanIx _) fun _ => moves_bind (moves_readField _) fun _ => moves_bind (moves_readField _) fun _ =>
      moves_xpWriteOp _ _ _

theorem moves_isChannelEnabledOp (a ch : Int) : (isChannelEnabledOp a ch).Moves allow :=
  moves_bind (moves_checkArg _) fun _ => moves_bind (moves_chanIx _) fun _ => moves_bind (moves_readField _) fun _ =>
    moves_pure _

theorem moves_setLevelCache (a : Int) (c : ChanIx) {v : Nat} (h : v ≤ 1023) : (setLevelCache a c v).Moves allow :=
  fun s => .one (.level s a c v h)

theorem moves_potWriteOp (a ch : Int) (p : Word) : (potWriteOp a ch p).Moves allow :=
  moves_bind (moves_requireOpen _) fun _ => moves_bind (moves_chanIx _) fun _ => moves_bind moves_get fun _ =>
    moves_writeBlockOp _ _ _

theorem moves_setLevelOp (a ch v : Int) : (setLevelOp a ch v).Moves allow := by
  refine moves_bind (moves_checkArg _) fun _ => ?_
  cases hv : isLevel v with
  | false =>
    intro s
    exact .refl s
  | true =>
    refine moves_bind (moves_checkArg _) fun _ => moves_bind (moves_requireOpen _) fun _ =>
      moves_bind (moves_potWriteOp _ _ _) fun _ => moves_bind (moves_chanIx _) fun _ => moves_setLevelCache _ _ ?_
    have := isLevel_iff.mp hv
    omega

theorem moves_setLevelMinOp (a ch : Int) : (setLevelMinOp a ch).Moves allow :=
  moves_bind (moves_checkArg _) fun _ => moves_bind (moves_requireOpen _) fun _ =>
    moves_bind (moves_potWriteOp _ _ _) fun _ => moves_bind (moves_chanIx _) fun _ =>
      moves_setLevelCache _ _ (by decide)

theorem moves_setLevelMaxOp (a ch : Int) : (setLevelMaxOp a ch).Moves allow :=
  moves_bind (moves_checkArg _) fun _ => moves_bind (moves_requireOpen _) fun _ =>
    moves_bind (moves_potWriteOp _ _ _) fun _ => moves_bind (moves_chanIx _) fun _ =>
      moves_setLevelCache _ _ (by decide)

theorem byteSum_le (bs : List Byte) : byteSum bs ≤ 255 * bs.length := by
  induction bs with
  | nil => simp [byteSum]
  | cons b bs ih => have := b.isLt; simp only [byteSum, List.length_cons]; omega

/-- A block read that succeeds returns as many bytes as it was asked for. -/
theorem readBlockOp_length {addr : Int} {reg n : Nat} {s t : State} {bs : List Byte}
    (h : readBlockOp addr reg n s = .ok bs t) : bs.length = n := by
  simp only [readBlockOp] at h
  rw [Op.bind_apply] at h
  cases h1 : reach (.readBlock addr reg n) addr s with
  | error e s1 => rw [h1] at h; cases h
  | ok d s1 =>
    rw [h1] at h
    dsimp only at h
    rw [Op.bind_apply] at h
    cases h2 : checkArg (decide (1 ≤ n)) s1 with
    | error e s2 => rw [h2] at h; cases h
    | ok u s2 =>
      rw [h2] at h
      dsimp only at h
      rw [Op.get_bind] at h
      cases hk : blockCells s2.params d reg n with
      | none => rw [hk] at h; cases h
      | some ks =>
        rw [hk] at h
        dsimp only at h
        cases ho : s2.nextAnswer.ok with
        | false => rw [transferRead_fail _ _ ho] at h; cases h
        | true =>
          rw [transferRead_ok _ _ ho] at h
          cases h
          rw [List.length_map, blockCells_length hk]

theorem moves_readLevelOp (a ch : Int) : (readLevelOp a ch).Moves allow := by
  refine moves_bind (moves_checkArg _) fun _ => moves_bind (moves_requireOpen _) fun _ =>
    moves_bind (moves_chanIx _) fun c => moves_bind moves_get fun st => ?_
  intro s
  have h1 := moves_readBlockOp (allow := allow) (st.params.potAddr[potChip c] : Nat) st.params.potReg[potSub c]
    Config.pb.potSubregs s
  rw [Op.bind_apply]
  cases hr : readBlockOp (st.params.potAddr[potChip c] : Nat) st.params.potReg[potSub c] Config.pb.potSubregs s with
  | error e t => rw [hr] at h1; exact h1
  | ok bs t =>
    rw [hr] at h1
    have hlen := readBlockOp_length hr
    have hle := byteSum_le bs
    rw [hlen] at hle
    exact h1.trans (moves_bind (moves_setLevelCache a c (by simp only at hle; omega))
      (fun _ => moves_pure _) t)

theorem moves_calibrate (c : ChanIx) : (calibrate c).Moves allow :=
  moves_bind moves_get fun _ => moves_writeWordOp _ _ _

theorem moves_readSense (c : ChanIx) (reg : Params → Nat) : (readSense c reg).Moves allow :=
  moves_bind moves_get fun _ => moves_bind (moves_readWordOp _ _) fun _ => moves_pure _

theorem moves_senseInitOp (a ch : Int) : (senseInitOp a ch).Moves allow :=
  moves_bind (moves_requireOpen _) fun _ => moves_bind (moves_chanIx _) fun _ => moves_bind (moves_calibrate _) fun _ =>
    moves_bind moves_get fun _ => moves_writeWordOp _ _ _

theorem moves_rawShuntOp (a ch : Int) : (rawShuntOp a ch).Moves allow :=
  moves_bind (moves_requireOpen _) fun _ => moves_bind (moves_chanIx _) fun _ => moves_readSense _ _

theorem moves_rawBusOp (a ch : Int) : (rawBusOp a ch).Moves allow :=
  moves_bind (moves_requireOpen _) fun _ => moves_bind (moves_chanIx _) fun _ => moves_bind (moves_calibrate _) fun _ =>
    moves_bind (moves_readSense _ _) fun _ => moves_pure _

theorem moves_rawCurrentOp (a ch : Int) : (rawCurrentOp a ch).Moves allow :=
  moves_bind (moves_requireOpen _) fun _ => moves_bind (moves_chanIx _) fun _ => moves_bind (moves_calibrate _) fun _ =>
    moves_readSense _ _

theorem moves_rawPowerOp (a ch : Int) : (rawPowerOp a ch).Moves allow :=
  moves_bind (moves_requireOpen _) fun _ => moves_bind (moves_chanIx _) fun _ => moves_bind (moves_calibrate _) fun _ =>
    moves_readSense _ _

theorem moves_shuntSample (a ch : Int) : (shuntSample a ch).Moves allow :=
  moves_bind (moves_rawShuntOp _ _) fun _ => moves_bind moves_get fun _ => moves_pure _

theorem moves_busSample (a ch : Int) : (busSample a ch).Moves allow :=
  moves_bind (moves_rawBusOp _ _) fun _ => moves_bind moves_get fun _ => moves_pure _

theorem moves_currentSample (a ch : Int) : (currentSample a ch).Moves allow :=
  moves_bind (moves_rawCurrentOp _ _) fun _ => moves_bind (moves_readField _) fun _ => moves_pure _

theorem moves_takeSample (hk : allow .average) {sample : Op Rat} (h : sample.Moves allow) (k : Nat) : (takeSample sample k).Moves allow := by
  unfold takeSample
  have hrest : (do
      let x ← sample
      modify fun s => { s with acc := s.acc.map (· + x), cnt := s.cnt.map (· + 1) } : Op PUnit).Moves allow :=
    moves_bind h fun x => moves_modify fun s => .one (.average s _ _ hk)
  split
  · exact moves_bind moves_get fun _ => moves_bind (moves_emit _ nofun) fun _ => hrest
  · exact hrest

theorem moves_averageOp (hk : allow .average) {sample : Op Rat} (h : sample.Moves allow) : (averageOp sample).Moves allow := by
  refine moves_dropAfter (fun s => .one (.average s none none hk)) ?_
  exact moves_bind (moves_modify fun s => .one (.average s _ _ hk)) fun _ =>
    moves_bind (moves_forEach (fun k => moves_takeSample hk h k) _) fun _ => moves_bind (moves_readField _) fun _ =>
      moves_pure _

/-- R24: however an averaged read ends, `ACC` and `CNT` hold no value after it. -/
theorem averageOp_drops (sample : Op Rat) (s : State) :
    (endState (averageOp sample s)).acc = none ∧ (endState (averageOp sample s)).cnt = none := by
  unfold averageOp dropAfter
  split <;> exact ⟨rfl, rfl⟩

theorem moves_getBusVoltageOp (hk : allow .average) (a ch : Int) : (getBusVoltageOp a ch).Moves allow :=
  moves_bind (moves_checkArg _) fun _ => moves_bind (moves_requireOpen _) fun _ =>
    moves_bind (moves_averageOp hk (moves_busSample _ _)) fun _ => moves_pure _

theorem moves_getShuntVoltageOp (hk : allow .average) (a ch : Int) : (getShuntVoltageOp a ch).Moves allow :=
  moves_bind (moves_checkArg _) fun _ => moves_bind (moves_requireOpen _) fun _ =>
    moves_bind (moves_averageOp hk (moves_shuntSample _ _)) fun _ => moves_pure _

theorem moves_getCurrentOp (hk : allow .average) (a ch : Int) : (getCurrentOp a ch).Moves allow :=
  moves_bind (moves_checkArg _) fun _ => moves_bind (moves_requireOpen _) fun _ =>
    moves_bind (moves_averageOp hk (moves_currentSample _ _)) fun _ => moves_pure _

/-! ## Commands over the live cards, seeks, configuration -/

theorem moves_forLiveCards {act : Int → Op Unit} (h : ∀ a, (act a).Moves allow) : (forLiveCards act).Moves allow := by
  refine moves_bind (moves_forEach (fun a => moves_bind moves_get fun s => ?_) _) fun _ => moves_pure _
  split
  · exact moves_withOpen _ (h a)
  · exact moves_pure _

theorem moves_disableOutputsAct (z : Bool) (a : Int) : (disableOutputsAct z a).Moves allow := by
  refine moves_bind (moves_forEach (fun _ => moves_enableChannelOp _ _ _) _) fun _ => ?_
  split
  · exact moves_forEach (fun _ => moves_setLevelMinOp _ _) _
  · exact moves_pure _

theorem moves_loadChannelOp (en : Bool) (a ch : Int) : (loadChannelOp en a ch).Moves allow :=
  moves_bind moves_get fun _ => moves_bind (moves_setLevelOp _ _ _) fun _ => moves_enableChannelOp _ _ _

theorem moves_seekLoop (hk : allow .seek) (hs : allow .settle) {sense : Op Rat} (h : sense.Moves allow) (card chan : Int) (target : Rat) (step : Int) (fuel : Nat) :
    (seekLoop card chan target step sense fuel).Moves allow := by
  induction fuel with
  | zero => exact moves_raise _
  | succ fuel ih =>
    unfold seekLoop
    refine moves_bind (moves_emit _ fun _ => hs) fun _ => moves_bind h fun x => ?_
    refine moves_bind (moves_modify fun s => .one (.seek s _ s.seekLevel hk)) fun _ =>
      moves_bind (moves_readField _) fun level => ?_
    split
    · exact moves_pure _
    · exact moves_bind (moves_modify fun s => .one (.seek s s.iter _ hk)) fun _ =>
        moves_bind (moves_setLevelOp _ _ _) fun _ => ih

theorem moves_seekOp (hk : allow .seek) (hs : allow .settle) {sense : Op Rat} (h : sense.Moves allow) (card chan : Int) (target : Rat) (step : Int) :
    (seekOp card chan target step sense).Moves allow := by
  refine moves_dropAfter (fun s => .one (.seek s none none hk)) ?_
  exact moves_bind (moves_chanIx _) fun c => moves_bind (moves_readField _) fun level =>
    moves_bind (moves_modify fun s => .one (.seek s _ _ hk)) fun _ => moves_seekLoop hk hs h _ _ _ _ _

theorem moves_saveChannelOp (hk : allow .config) (a ch : Int) : (saveChannelOp a ch).Moves allow := by
  refine moves_bind (moves_isChannelEnabledOp _ _) fun o => moves_bind (moves_chanIx _) fun c =>
    moves_bind (moves_readField _) fun l => moves_modify fun s => ?_
  unfold State.setCfgEntry
  split
  · exact .one (.record s _ hk)
  · exact .refl s

theorem moves_saveConfigOp (hk : allow .config) (create : Bool) : (saveConfigOp create).Moves allow := by
  have hrest : (do
      forEach allCards fun a => do
        if (← get).live a then forEach allChans fun ch => saveChannelOp a ch
      pure .nothing : Op Value).Moves allow := by
    refine moves_bind (moves_forEach (fun a => moves_bind moves_get fun s => ?_) _) fun _ => moves_pure _
    split
    · exact moves_forEach (fun _ => moves_saveChannelOp hk _ _) _
    · exact moves_pure _
  unfold saveConfigOp
  split
  · exact moves_bind (moves_modify fun s => .one (.record s _ hk)) fun _ => hrest
  · exact hrest

/-! ## Construction and shutdown -/

theorem moves_forgetCard (hk : allow .liveMap) (a : Int) : (forgetCard a).Moves allow := fun s => .one (.forget s a hk)

theorem moves_discoverOp (a : Int) : (discoverOp a).Moves allow :=
  moves_bind (moves_xpReadOp _) fun _ =>
    moves_bind (moves_forEach (fun _ => moves_bind (moves_readLevelOp _ _) fun _ => moves_pure _) _) fun _ =>
      moves_bind (moves_forEach (fun _ => moves_senseInitOp _ _) _) fun _ => moves_bind moves_get fun s0 =>
        fun s => .one (.factors s a s0.params.curdiv s0.params.pwrmul)

theorem moves_shutdownLoop (hk : allow .liveMap) (l : List Int) : ∀ failed, (shutdownLoop l failed).Moves allow := by
  induction l with
  | nil => intro failed; exact moves_pure _
  | cons a l ih =>
    intro failed
    refine moves_bind moves_get fun s => ?_
    split
    · exact moves_bind (moves_attempt (moves_closeOp a)) fun _ => moves_bind (moves_forgetCard hk a) fun _ => ih _
    · exact ih _

theorem moves_shutdownOp (hk : allow .liveMap) : shutdownOp.Moves allow := by
  refine moves_bind (moves_shutdownLoop hk _ _) fun b => ?_
  split
  · exact moves_raise _
  · exact moves_pure _

/-! ## What the updates keep -/

/-- The fields no operation writes. -/
theorem Touch.fixed {s t : State} (h : Touch allow s t) :
    t.params = s.params ∧ t.running = s.running ∧ t.present = s.present ∧ t.inbox = s.inbox := by
  cases h with
  | answer => unfold State.tookAnswer; split <;> exact ⟨rfl, rfl, rfl, rfl⟩
  | iso _ _ => unfold State.setCard; split <;> exact ⟨rfl, rfl, rfl, rfl⟩
  | masks _ _ _ => unfold State.setCard; split <;> exact ⟨rfl, rfl, rfl, rfl⟩
  | level _ _ _ => unfold State.setCard; split <;> exact ⟨rfl, rfl, rfl, rfl⟩
  | factors _ _ _ => unfold State.setCard; split <;> exact ⟨rfl, rfl, rfl, rfl⟩
  | live _ _ => unfold State.setCard; split <;> exact ⟨rfl, rfl, rfl, rfl⟩
  | forget _ => unfold State.setCard; split <;> exact ⟨rfl, rfl, rfl, rfl⟩
  | _ => exact ⟨rfl, rfl, rfl, rfl⟩

theorem setCard_mem (s : State) (a : Int) (c : Card) : (s.setCard a c).mem = s.mem := by
  unfold State.setCard; split <;> rfl

theorem setCard_hist (s : State) (a : Int) (c : Card) : (s.setCard a c).hist = s.hist := by
  unfold State.setCard; split <;> rfl

theorem setCard_cfg (s : State) (a : Int) (c : Card) : (s.setCard a c).cfg = s.cfg := by
  unfold State.setCard; split <;> rfl

theorem tookAnswer_kept (s : State) :
    s.tookAnswer.mem = s.mem ∧ s.tookAnswer.hist = s.hist ∧ s.tookAnswer.cfg = s.cfg ∧ s.tookAnswer.cards = s.cards := by
  unfold State.tookAnswer; split <;> exact ⟨rfl, rfl, rfl, rfl⟩

theorem Touch.wf {s t : State} (h : Touch allow s t) (hm : Memory.wf s.mem = true) : Memory.wf t.mem = true := by
  cases h with
  | write ws => exact Memory.wf_writeAll ws hm
  | answer => rw [(tookAnswer_kept s).1]; exact hm
  | event => exact hm
  | average => exact hm
  | seek => exact hm
  | record => exact hm
  | iso _ _ => rw [setCard_mem]; exact hm
  | masks _ _ _ => rw [setCard_mem]; exact hm
  | level _ _ _ => rw [setCard_mem]; exact hm
  | factors _ _ _ => rw [setCard_mem]; exact hm
  | live _ _ => rw [setCard_mem]; exact hm
  | forget _ => rw [setCard_mem]; exact hm

theorem Touch.hist {s t : State} (h : Touch allow s t) : s.hist <+: t.hist := by
  cases h with
  | event e => exact List.prefix_append _ _
  | answer => rw [(tookAnswer_kept s).2.1]
  | write => exact List.prefix_refl _
  | average => exact List.prefix_refl _
  | seek => exact List.prefix_refl _
  | record => exact List.prefix_refl _
  | iso _ _ => rw [setCard_hist]
  | masks _ _ _ => rw [setCard_hist]
  | level _ _ _ => rw [setCard_hist]
  | factors _ _ _ => rw [setCard_hist]
  | live _ _ => rw [setCard_hist]
  | forget _ => rw [setCard_hist]

theorem Touch.cfg {s t : State} (h : Touch allow s t) (hk : ¬allow .config) : t.cfg = s.cfg := by
  cases h with
  | record _ h1 => exact absurd h1 hk
  | answer => exact (tookAnswer_kept s).2.2.1
  | event => rfl
  | write => rfl
  | average => rfl
  | seek => rfl
  | iso _ _ => rw [setCard_cfg]
  | masks _ _ _ => rw [setCard_cfg]
  | level _ _ _ => rw [setCard_cfg]
  | factors _ _ _ => rw [setCard_cfg]
  | live _ _ => rw [setCard_cfg]
  | forget _ => rw [setCard_cfg]

/-- R24. -/
theorem Touch.average_kept {s t : State} (h : Touch allow s t) (hk : ¬allow .average) : t.acc = s.acc ∧ t.cnt = s.cnt := by
  cases h with
  | average _ _ h1 => exact absurd h1 hk
  | answer => unfold State.tookAnswer; split <;> exact ⟨rfl, rfl⟩
  | iso _ _ => unfold State.setCard; split <;> exact ⟨rfl, rfl⟩
  | masks _ _ _ => unfold State.setCard; split <;> exact ⟨rfl, rfl⟩
  | level _ _ _ => unfold State.setCard; split <;> exact ⟨rfl, rfl⟩
  | factors _ _ _ => unfold State.setCard; split <;> exact ⟨rfl, rfl⟩
  | live _ _ => unfold State.setCard; split <;> exact ⟨rfl, rfl⟩
  | forget _ => unfold State.setCard; split <;> exact ⟨rfl, rfl⟩
  | _ => exact ⟨rfl, rfl⟩

/-- R25. -/
theorem Touch.seek_kept {s t : State} (h : Touch allow s t) (hk : ¬allow .seek) :
    t.iter = s.iter ∧ t.seekLevel = s.seekLevel := by
  cases h with
  | seek _ _ h1 => exact absurd h1 hk
  | answer => unfold State.tookAnswer; split <;> exact ⟨rfl, rfl⟩
  | iso _ _ => unfold State.setCard; split <;> exact ⟨rfl, rfl⟩
  | masks _ _ _ => unfold State.setCard; split <;> exact ⟨rfl, rfl⟩
  | level _ _ _ => unfold State.setCard; split <;> exact ⟨rfl, rfl⟩
  | factors _ _ _ => unfold State.setCard; split <;> exact ⟨rfl, rfl⟩
  | live _ _ => unfold State.setCard; split <;> exact ⟨rfl, rfl⟩
  | forget _ => unfold State.setCard; split <;> exact ⟨rfl, rfl⟩
  | _ => exact ⟨rfl, rfl⟩

/-- R201: the settle delays of a run that makes none. -/
theorem Touch.settles {s t : State} (h : Touch allow s t) (hk : ¬allow .settle) :
    t.hist.countP Event.isSettle = s.hist.countP Event.isSettle := by
  cases h with
  | event e h1 =>
    rw [List.countP_append, List.countP_singleton, if_neg fun he => hk (h1 he), Nat.add_zero]
  | answer => rw [(tookAnswer_kept s).2.1]
  | write => rfl
  | average => rfl
  | seek => rfl
  | record => rfl
  | iso _ _ => rw [setCard_hist]
  | masks _ _ _ => rw [setCard_hist]
  | level _ _ _ => rw [setCard_hist]
  | factors _ _ _ => rw [setCard_hist]
  | live _ _ => rw [setCard_hist]
  | forget _ => rw [setCard_hist]

/-- A card's cached state after one update: itself, or one of the updates of a card. -/
theorem Touch.card {s t : State} (h : Touch allow s t) (i : CardIx) :
    t.cards[i] = s.cards[i] ∨ (∃ v, t.cards[i] = { s.cards[i] with iso := some v }) ∨
      (∃ m l, t.cards[i] = { s.cards[i] with chen := some m, tsten := some l }) ∨
      (∃ (c : ChanIx) (v : Nat), v ≤ 1023 ∧ t.cards[i] = { s.cards[i] with level := s.cards[i].level.set c (some v) }) ∨
      (∃ d p, t.cards[i] = { s.cards[i] with curdiv := some d, pwrmul := some p }) ∨
      (allow .liveMap ∧ s.cards[i].Complete ∧ t.cards[i] = { s.cards[i] with live := true }) ∨
      (allow .liveMap ∧ t.cards[i] = Card.blank) := by
  have key : ∀ (a : Int) (c : Card), (s.setCard a c).cards[i] = s.cards[i] ∨
      (s.card a = s.cards[i] ∧ (s.setCard a c).cards[i] = c) := by
    intro a c
    cases ha : cardIx? a with
    | none => left; unfold State.setCard; rw [ha]
    | some j =>
      rw [setCard_cards _ ha]
      by_cases e : i = j
      · subst e; exact .inr ⟨State.card_of_ix s ha, cards_set_same _ _ _⟩
      · exact .inl (cards_set_other _ _ e)
  cases h with
  | event => exact .inl rfl
  | write => exact .inl rfl
  | average => exact .inl rfl
  | seek => exact .inl rfl
  | record => exact .inl rfl
  | answer => rw [(tookAnswer_kept s).2.2.2]; exact .inl rfl
  | iso a v =>
    rcases key a { s.card a with iso := some v } with e | ⟨e1, e2⟩
    · exact .inl e
    · rw [e2, e1]; exact .inr (.inl ⟨v, rfl⟩)
  | masks a m l =>
    rcases key a { s.card a with chen := some m, tsten := some l } with e | ⟨e1, e2⟩
    · exact .inl e
    · rw [e2, e1]; exact .inr (.inr (.inl ⟨m, l, rfl⟩))
  | level a c v hv =>
    rcases key a { s.card a with level := (s.card a).level.set c (some v) } with e | ⟨e1, e2⟩
    · exact .inl e
    · rw [e2, e1]; exact .inr (.inr (.inr (.inl ⟨c, v, hv, rfl⟩)))
  | factors a d p =>
    rcases key a { s.card a with curdiv := some d, pwrmul := some p } with e | ⟨e1, e2⟩
    · exact .inl e
    · rw [e2, e1]; exact .inr (.inr (.inr (.inr (.inl ⟨d, p, rfl⟩))))
  | live a hk hc =>
    rcases key a { s.card a with live := true } with e | ⟨e1, e2⟩
    · exact .inl e
    · rw [e2]; rw [e1] at hc ⊢; exact .inr (.inr (.inr (.inr (.inr (.inl ⟨hk, hc, rfl⟩)))))
  | forget a hk =>
    rcases key a Card.blank with e | ⟨e1, e2⟩
    · exact .inl e
    · exact .inr (.inr (.inr (.inr (.inr (.inr ⟨hk, e2⟩)))))

/-- A field that holds a value, unless the card is forgotten. -/
structure Card.Grows (c d : Card) : Prop where
  live : d.live = c.live
  iso : c.iso.isSome = true → d.iso.isSome = true
  chen : c.chen.isSome = true → d.chen.isSome = true
  tsten : c.tsten.isSome = true → d.tsten.isSome = true
  level : ∀ k : ChanIx, c.level[k].isSome = true → d.level[k].isSome = true
  curdiv : c.curdiv.isSome = true → d.curdiv.isSome = true
  pwrmul : c.pwrmul.isSome = true → d.pwrmul.isSome = true

theorem Card.Grows.refl (c : Card) : c.Grows c := ⟨rfl, id, id, id, fun _ => id, id, id⟩

theorem Card.Grows.trans {c d e : Card} (h : c.Grows d) (h' : d.Grows e) : c.Grows e :=
  ⟨h'.live.trans h.live, h'.iso ∘ h.iso, h'.chen ∘ h.chen, h'.tsten ∘ h.tsten, fun k => h'.level k ∘ h.level k,
    h'.curdiv ∘ h.curdiv, h'.pwrmul ∘ h.pwrmul⟩

theorem Card.Complete.grows {c d : Card} (hc : c.Complete) (h : c.Grows d) : d.Complete :=
  ⟨h.iso hc.1, h.chen hc.2.1, h.tsten hc.2.2.1, fun k => h.level k (hc.2.2.2.1 k), h.curdiv hc.2.2.2.2.1,
    h.pwrmul hc.2.2.2.2.2⟩

theorem level_set_isSome {l : Vector (Option Nat) 8} {c k : ChanIx} {v : Nat} (h : l[k].isSome = true) :
    (l.set c (some v))[k].isSome = true := by
  by_cases e : k = c
  · subst e; simp
  · have : c.val ≠ k.val := fun e' => e (Fin.ext e'.symm)
    simp only [Fin.getElem_fin] at h ⊢
    rw [Vector.getElem_set_ne _ _ this]
    exact h

/-- Without leave to write the live map, no update takes a value away or changes who is live. -/
theorem Touch.grows {s t : State} (h : Touch allow s t) (hk : ¬allow .liveMap) (i : CardIx) :
    s.cards[i].Grows t.cards[i] := by
  rcases h.card i with e | ⟨v, e⟩ | ⟨m, l, e⟩ | ⟨c, v, _, e⟩ | ⟨d, p, e⟩ | ⟨h1, _⟩ | ⟨h1, _⟩
  · rw [e]; exact .refl _
  · rw [e]; exact ⟨rfl, fun _ => rfl, id, id, fun _ => id, id, id⟩
  · rw [e]; exact ⟨rfl, id, fun _ => rfl, fun _ => rfl, fun _ => id, id, id⟩
  · rw [e]; exact ⟨rfl, id, id, id, fun k => level_set_isSome, id, id⟩
  · rw [e]; exact ⟨rfl, id, id, id, fun _ => id, fun _ => rfl, fun _ => rfl⟩
  · exact absurd h1 hk
  · exact absurd h1 hk

theorem Moves.grows {s t : State} (h : Machine.Moves allow s t) (hk : ¬allow .liveMap) (i : CardIx) :
    s.cards[i].Grows t.cards[i] :=
  h.induct (R := fun s t => s.cards[i].Grows t.cards[i]) (.refl _) fun _ _ h1 h2 => h1.trans (h2.grows hk i)

/-- One update keeps it that live cards hold a value in every field. -/
theorem Touch.complete {s t : State} (h : Touch allow s t) (hc : LiveCardsComplete s) : LiveCardsComplete t := by
  intro i hl
  rcases h.card i with e | ⟨v, e⟩ | ⟨m, l, e⟩ | ⟨c, v, _, e⟩ | ⟨d, p, e⟩ | ⟨_, h2, e⟩ | ⟨_, e⟩
  · rw [e] at hl ⊢; exact hc i hl
  · rw [e] at hl ⊢; exact (hc i hl).grows ⟨rfl, fun _ => rfl, id, id, fun _ => id, id, id⟩
  · rw [e] at hl ⊢; exact (hc i hl).grows ⟨rfl, id, fun _ => rfl, fun _ => rfl, fun _ => id, id, id⟩
  · rw [e] at hl ⊢; exact (hc i hl).grows ⟨rfl, id, id, id, fun k => level_set_isSome, id, id⟩
  · rw [e] at hl ⊢; exact (hc i hl).grows ⟨rfl, id, id, id, fun _ => id, fun _ => rfl, fun _ => rfl⟩
  · rw [e]; exact h2
  · rw [e] at hl; cases hl

/-- One update keeps every cached level in range. -/
theorem Touch.levels {s t : State} (h : Touch allow s t) (hc : LevelsInRange s) : LevelsInRange t := by
  intro i k w hw
  rcases h.card i with e | ⟨v, e⟩ | ⟨m, l, e⟩ | ⟨c, v, hv, e⟩ | ⟨d, p, e⟩ | ⟨_, h2, e⟩ | ⟨_, e⟩
  · rw [e] at hw; exact hc i k w hw
  · rw [e] at hw; exact hc i k w hw
  · rw [e] at hw; exact hc i k w hw
  · rw [e] at hw
    by_cases ek : k = c
    · subst ek; simp at hw; omega
    · have : c.val ≠ k.val := fun e' => ek (Fin.ext e'.symm)
      refine hc i k w ?_
      simp only [Fin.getElem_fin] at hw ⊢
      rwa [Vector.getElem_set_ne _ _ this] at hw
  · rw [e] at hw; exact hc i k w hw
  · rw [e] at hw; exact hc i k w hw
  · rw [e] at hw; simp [Card.blank] at hw

/-! ## Construction makes only complete cards live -/

/-- A run that may not write the live map. -/
abbrev plain : Kind → Prop := fun _ => False

/-- A run that may write the live map. -/
abbrev constructing : Kind → Prop := fun k => k = .liveMap

theorem Op.Moves.ok {x : Op α} {s t : State} {v : α} (h : x.Moves allow) (hx : x s = .ok v t) :
    Machine.Moves allow s t := by
  have := h s
  rwa [hx] at this

/-- A sequence that ends well: both its parts did. -/
theorem bind_ok_inv {x : Op α} {f : α → Op β} {s u : State} {w : β} (h : (x >>= f) s = .ok w u) :
    ∃ v t, x s = .ok v t ∧ f v t = .ok w u := by
  rw [Op.bind_apply] at h
  cases hx : x s with
  | error e t => rw [hx] at h; cases h
  | ok v t => rw [hx] at h; exact ⟨v, t, rfl, h⟩

theorem xpReadOp_some {a : Int} {i : CardIx} {s t : State} {v : PUnit} (ha : cardIx? a = some i)
    (h : xpReadOp a s = .ok v t) : t.cards[i].chen.isSome = true ∧ t.cards[i].tsten.isSome = true := by
  unfold xpReadOp at h
  obtain ⟨_, s1, _, h⟩ := bind_ok_inv h
  obtain ⟨_, s2, _, h⟩ := bind_ok_inv h
  obtain ⟨bs, s3, _, h⟩ := bind_ok_inv h
  cases h
  rw [setCard_cards _ ha, cards_set_same]
  exact ⟨rfl, rfl⟩

theorem readLevelOp_some {a ch : Int} {i : CardIx} {c : ChanIx} {s t : State} {v : Nat} (ha : cardIx? a = some i)
    (hc : chanIx? ch = some c) (h : readLevelOp a ch s = .ok v t) : t.cards[i].level[c].isSome = true := by
  unfold readLevelOp at h
  rw [chanIx_of_ix hc] at h
  obtain ⟨_, s1, _, h⟩ := bind_ok_inv h
  obtain ⟨_, s2, _, h⟩ := bind_ok_inv h
  obtain ⟨_, s3, h3, h⟩ := bind_ok_inv h
  cases h3
  obtain ⟨_, s4, _, h⟩ := bind_ok_inv h
  obtain ⟨bs, s5, _, h⟩ := bind_ok_inv h
  obtain ⟨_, s6, h6, h⟩ := bind_ok_inv h
  cases h6
  cases h
  rw [setCard_cards _ ha, cards_set_same]
  simp

theorem readLevels_some {a : Int} {i : CardIx} (ha : cardIx? a = some i) (cs : List ChanIx) :
    ∀ {s t : State} {v : Unit}, forEach cs (fun c => do let _ ← readLevelOp a (chanNo c)) s = .ok v t →
      ∀ c ∈ cs, t.cards[i].level[c].isSome = true := by
  induction cs with
  | nil => intro s t v h c hc; cases hc
  | cons d cs ih =>
    intro s t v h c hc
    rw [forEach_cons] at h
    obtain ⟨_, s1, h1, hr⟩ := bind_ok_inv h
    rcases List.mem_cons.mp hc with e | e
    · subst e
      obtain ⟨w, s2, h2, h3⟩ := bind_ok_inv h1
      cases h3
      have hm : Machine.Moves plain s1 t := Op.Moves.ok (moves_forEach (fun c => moves_bind (moves_readLevelOp a (chanNo c))
        fun _ => moves_pure ()) cs) hr
      exact (hm.grows (fun hf => hf) i).level c (readLevelOp_some ha (chanIx?_chanNo c) h2)
    · exact ih hr c e

/-- R161: what a discovery section that succeeds has read. -/
theorem discoverOp_some {a : Int} {i : CardIx} {s t : State} {v : PUnit} (ha : cardIx? a = some i)
    (h : discoverOp a s = .ok v t) :
    t.cards[i].chen.isSome = true ∧ t.cards[i].tsten.isSome = true ∧
      (∀ k : ChanIx, t.cards[i].level[k].isSome = true) ∧ t.cards[i].curdiv.isSome = true ∧
      t.cards[i].pwrmul.isSome = true := by
  unfold discoverOp at h
  rw [forEach_allChans] at h
  obtain ⟨_, s1, h1, h⟩ := bind_ok_inv h
  obtain ⟨_, s2, h2, h⟩ := bind_ok_inv h
  obtain ⟨_, s3, h3, h⟩ := bind_ok_inv h
  obtain ⟨_, s4, h4, h⟩ := bind_ok_inv h
  cases h4
  cases h
  have hx := xpReadOp_some ha h1
  have m12 : Machine.Moves plain s1 s2 := (moves_forEach (fun c => moves_bind (moves_readLevelOp a (chanNo c))
    fun _ => moves_pure _) _).ok h2
  have m23 : Machine.Moves plain s2 s3 := (moves_forEach (fun c => moves_senseInitOp a c) _).ok h3
  have g12 := m12.grows (fun hf => hf) i
  have g23 := m23.grows (fun hf => hf) i
  rw [setCard_cards _ ha, cards_set_same, State.card_of_ix _ ha]
  exact ⟨g23.chen (g12.chen hx.1), g23.tsten (g12.tsten hx.2),
    fun k => g23.level k (readLevels_some ha _ h2 k (List.mem_finRange k)), rfl, rfl⟩

theorem closeOp_some {a : Int} {i : CardIx} {s t : State} {v : PUnit} (ha : cardIx? a = some i)
    (h : closeOp a s = .ok v t) : t.cards[i].iso.isSome = true := by
  unfold closeOp at h
  obtain ⟨_, s1, _, h⟩ := bind_ok_inv h
  cases h
  rw [setCard_cards _ ha, cards_set_same]
  rfl

theorem attempt_cases {body : Op Unit} {s t : State} {b : Bool} (h : attempt body s = .ok b t) :
    (b = true ∧ body s = .ok ⟨⟩ t) ∨ (b = false ∧ body s = .error (.failed .busError) t) := by
  unfold attempt at h
  cases hb : body s with
  | ok v u => rw [hb] at h; cases h; exact .inl ⟨rfl, rfl⟩
  | error e u =>
    rw [hb] at h
    cases e with
    | failed f => cases f <;> cases h; exact .inr ⟨rfl, rfl⟩
    | fault r => cases h

/-- R161: whatever the environment answers. -/
theorem moves_cardConstructOp (hk : allow .liveMap) (a : Int) : (cardConstructOp a).Moves allow := by
  unfold cardConstructOp
  refine moves_bind (moves_setIso _ _) fun _ => ?_
  intro s
  rw [Op.bind_apply]
  have h1 := moves_attempt (moves_openOp (allow := allow) a) s
  cases ho : attempt (openOp a) s with
  | error e t => rw [ho] at h1; exact h1
  | ok b s1 =>
    rw [ho] at h1
    cases b with
    | false => exact h1.trans (moves_bind (moves_forgetCard hk a) (fun _ => moves_pure false) s1)
    | true =>
      refine h1.trans ?_
      simp only [if_true]
      rw [Op.bind_apply]
      have h2 := moves_attempt (moves_discoverOp (allow := allow) a) s1
      cases hd : attempt (discoverOp a) s1 with
      | error e t => rw [hd] at h2; exact h2
      | ok b s2 =>
        rw [hd] at h2
        cases b with
        | false =>
          exact h2.trans (moves_bind (moves_attempt (moves_closeOp a)) (fun _ => moves_bind (moves_forgetCard hk a)
            fun _ => moves_pure false) s2)
        | true =>
          refine h2.trans ?_
          simp only [if_true]
          rw [Op.bind_apply]
          have h3 := moves_attempt (moves_closeOp (allow := allow) a) s2
          cases hc : attempt (closeOp a) s2 with
          | error e t => rw [hc] at h3; exact h3
          | ok b s3 =>
            rw [hc] at h3
            cases b with
            | false => exact h3.trans (moves_bind (moves_forgetCard hk a) (fun _ => moves_pure false) s3)
            | true =>
              refine h3.trans ?_
              simp only [if_true]
              rw [Op.bind_ok (modifyCard_apply _ _ _)]
              change Machine.Moves allow s3 (s3.setCard a { s3.card a with live := true })
              cases ha : cardIx? a with
              | none => unfold State.setCard; rw [ha]; exact .refl _
              | some i =>
                refine .one (.live s3 a hk ?_)
                rw [State.card_of_ix _ ha]
                have e2 : discoverOp a s1 = .ok ⟨⟩ s2 := by
                  rcases attempt_cases hd with ⟨_, e⟩ | ⟨e, _⟩
                  · exact e
                  · cases e
                have e3 : closeOp a s2 = .ok ⟨⟩ s3 := by
                  rcases attempt_cases hc with ⟨_, e⟩ | ⟨e, _⟩
                  · exact e
                  · cases e
                obtain ⟨d1, d2, d3, d4, d5⟩ := discoverOp_some ha e2
                have m23 : Machine.Moves plain s2 s3 := (moves_closeOp a).ok e3
                have g := m23.grows (fun hf => hf) i
                exact ⟨closeOp_some ha e3, g.chen d1, g.tsten d2, fun k => g.level k (d3 k), g.curdiv d4, g.pwrmul d5⟩

theorem moves_crateConstructOp (hk : allow .liveMap) : crateConstructOp.Moves allow :=
  moves_bind (moves_forEach (fun a => moves_bind (moves_cardConstructOp hk a) fun _ => moves_pure _) _) fun _ =>
    moves_bind moves_get fun _ => moves_pure _

theorem moves_getAvailableCardsOp (hk : allow .liveMap) : getAvailableCardsOp.Moves allow := by
  refine moves_bind moves_get fun s0 => moves_bind (moves_forEach (fun a => ?_) _) fun _ =>
    moves_bind moves_get fun _ => moves_pure _
  split
  · exact moves_withOpen _ (moves_pure _)
  · refine moves_bind (moves_cardConstructOp hk a) fun b => ?_
    split
    · exact moves_emit _ nofun
    · exact moves_pure _

/-! ## From an operation to the step of the block -/

/-- An internal operation run by itself. -/
theorem runInternal_moves {body : Op Value} {s t : State} (h : body.Moves allow) (ht : runInternal body s = .next t) :
    ∃ u r, Machine.Moves allow s u ∧ t = u.respond r := by
  have hm := h s
  unfold runInternal at ht
  cases hx : body s with
  | ok v u => rw [hx] at ht hm; cases ht; exact ⟨u, _, hm, rfl⟩
  | error e u =>
    rw [hx] at ht hm
    cases e with
    | failed f => cases ht; exact ⟨u, _, hm, rfl⟩
    | fault r => cases ht

/-- A host command: refused before anything is touched, or run between its two boundaries. -/
theorem runCommand_moves {op : Byte} {ok : Bool} {found : State → Bool} {body : Op Value} {s t : State}
    (h : body.Moves allow) (ht : runCommand op ok found body s = .next t) :
    s.running = none ∧ ((∃ r, t = s.respond r) ∨
      ∃ u r, Machine.Moves allow (s.beginCommand op) u ∧ t = u.endCommand op r) := by
  have hm := h (s.beginCommand op)
  unfold runCommand at ht
  cases hr : s.running with
  | some o => rw [hr] at ht; cases ht
  | none =>
    rw [hr] at ht
    refine ⟨rfl, ?_⟩
    dsimp only at ht
    split at ht
    · cases ht; exact .inl ⟨_, rfl⟩
    · split at ht
      · cases ht; exact .inl ⟨_, rfl⟩
      · cases hx : body (s.beginCommand op) with
        | ok v u => rw [hx] at ht hm; cases ht; exact .inr ⟨u, _, hm, rfl⟩
        | error e u =>
          rw [hx] at ht hm
          cases e with
          | failed f => cases ht; exact .inr ⟨u, _, hm, rfl⟩
          | fault r => cases ht

end Sys2Proof.Machine
end

