-- ==== Sys2Proof/Laws/Exec.lean ====
section
/-! SUPPORT. What `exec` and `step` can do, said once for all 48 operations. -/

namespace Sys2Proof.Machine

/-- The rarer updates each operation may make. -/
def mayTouch : Instr → Kind → Prop
  | .cardConstruct _, k => k = .liveMap
  | .crateConstruct, k => k = .liveMap
  | .getAvailableCards, k => k = .liveMap
  | .shutdown, k => k = .liveMap
  | .getBusVoltage .., k => k = .average
  | .getShuntVoltage .., k => k = .average
  | .getCurrent .., k => k = .average
  | .crateGetBusVoltage .., k => k = .average
  | .crateGetShuntVoltage .., k => k = .average
  | .crateGetCurrent .., k => k = .average
  | .seekVoltage .., k => k = .average ∨ k = .seek ∨ k = .settle
  | .seekCurrent .., k => k = .average ∨ k = .seek ∨ k = .settle
  | .saveConfig _, k => k = .config
  | _, _ => False

/-- An operation that ends in a next state: an internal operation, or a command refused before anything is touched, made
updates and left a response; a command that ran did so between its two boundaries, from a state with none running. -/
def ExecMoves (i : Instr) (s t : State) : Prop :=
  (i.isHost = false ∧ ∃ u r, Moves (mayTouch i) s u ∧ t = u.respond r) ∨
    (s.running = none ∧ ∃ r, t = s.respond r) ∨
    (s.running = none ∧ ∃ u r, Moves (mayTouch i) (s.beginCommand i.opcode) u ∧ t = u.endCommand i.opcode r)

theorem ExecMoves.internal {i : Instr} {body : Op Value} {s t : State} (hi : i.isHost = false)
    (h : body.Moves (mayTouch i)) (ht : runInternal body s = .next t) : ExecMoves i s t :=
  .inl ⟨hi, runInternal_moves h ht⟩

theorem ExecMoves.command {i : Instr} {ok : Bool} {found : State → Bool} {body : Op Value} {s t : State}
    (h : body.Moves (mayTouch i)) (ht : runCommand i.opcode ok found body s = .next t) : ExecMoves i s t := by
  obtain ⟨hr, h | h⟩ := runCommand_moves h ht
  · exact .inr (.inl ⟨hr, h⟩)
  · exact .inr (.inr ⟨hr, h⟩)

theorem exec_moves {i : Instr} {s t : State} (ht : exec i s = .next t) : ExecMoves i s t := by
  cases i with
  | readByte => exact .internal rfl (moves_bind (moves_readByteOp _) fun _ => moves_pure _) ht
  | writeByte => exact .internal rfl (moves_bind (moves_writeByteOp _ _) fun _ => moves_pure _) ht
  | readWord => exact .internal rfl (moves_bind (moves_readWordOp _ _) fun _ => moves_pure _) ht
  | writeWord => exact .internal rfl (moves_bind (moves_writeWordOp _ _ _) fun _ => moves_pure _) ht
  | writeBlock => exact .internal rfl (moves_bind (moves_writeBlockOp _ _ _) fun _ => moves_pure _) ht
  | readBlock => exact .internal rfl (moves_bind (moves_readBlockOp _ _ _) fun _ => moves_pure _) ht
  | isoSet => exact .internal rfl (moves_bind (moves_isoSetOp _ _ _ _) fun _ => moves_pure _) ht
  | openCard => exact .internal rfl (moves_bind (moves_openOp _) fun _ => moves_pure _) ht
  | closeCard => exact .internal rfl (moves_bind (moves_closeOp _) fun _ => moves_pure _) ht
  | xpWrite => exact .internal rfl (moves_bind (moves_xpWriteOp _ _ _) fun _ => moves_pure _) ht
  | xpRead => exact .internal rfl (moves_bind (moves_xpReadOp _) fun _ => moves_pure _) ht
  | enableChannel => exact .internal rfl (moves_bind (moves_enableChannelOp _ _ _) fun _ => moves_pure _) ht
  | enableTestLoad => exact .internal rfl (moves_bind (moves_enableTestLoadOp _ _ _) fun _ => moves_pure _) ht
  | isChannelEnabled => exact .internal rfl (moves_bind (moves_isChannelEnabledOp _ _) fun _ => moves_pure _) ht
  | setLevel => exact .internal rfl (moves_bind (moves_setLevelOp _ _ _) fun _ => moves_pure _) ht
  | setLevelMin => exact .internal rfl (moves_bind (moves_setLevelMinOp _ _) fun _ => moves_pure _) ht
  | setLevelMax => exact .internal rfl (moves_bind (moves_setLevelMaxOp _ _) fun _ => moves_pure _) ht
  | readLevel => exact .internal rfl (moves_bind (moves_readLevelOp _ _) fun _ => moves_pure _) ht
  | potWrite => exact .internal rfl (moves_bind (moves_potWriteOp _ _ _) fun _ => moves_pure _) ht
  | senseInit => exact .internal rfl (moves_bind (moves_senseInitOp _ _) fun _ => moves_pure _) ht
  | rawShunt => exact .internal rfl (moves_bind (moves_rawShuntOp _ _) fun _ => moves_pure _) ht
  | rawBus => exact .internal rfl (moves_bind (moves_rawBusOp _ _) fun _ => moves_pure _) ht
  | rawCurrent => exact .internal rfl (moves_bind (moves_rawCurrentOp _ _) fun _ => moves_pure _) ht
  | rawPower => exact .internal rfl (moves_bind (moves_rawPowerOp _ _) fun _ => moves_pure _) ht
  | getBusVoltage => exact .internal rfl (moves_bind (moves_getBusVoltageOp (by exact rfl) _ _) fun _ => moves_pure _) ht
  | getShuntVoltage => exact .internal rfl (moves_bind (moves_getShuntVoltageOp (by exact rfl) _ _) fun _ => moves_pure _) ht
  | getCurrent => exact .internal rfl (moves_bind (moves_getCurrentOp (by exact rfl) _ _) fun _ => moves_pure _) ht
  | cardConstruct => exact .internal rfl (moves_bind (moves_cardConstructOp (by exact rfl) _) fun _ => moves_pure _) ht
  | crateConstruct => exact .command (moves_crateConstructOp (by exact rfl)) ht
  | shutdown => exact .command (moves_shutdownOp (by exact rfl)) ht
  | getAvailableCards => exact .command (moves_getAvailableCardsOp (by exact rfl)) ht
  | crateEnableChannel => exact .command (moves_withOpen _ (moves_bind (moves_enableChannelOp _ _ _) fun _ => moves_pure _)) ht
  | crateEnableTestLoad => exact .command (moves_withOpen _ (moves_bind (moves_enableTestLoadOp _ _ _) fun _ => moves_pure _)) ht
  | crateIsChannelEnabled => exact .command (moves_withOpen _ (moves_bind (moves_isChannelEnabledOp _ _) fun _ => moves_pure _)) ht
  | crateSetLevel => exact .command (moves_withOpen _ (moves_bind (moves_setLevelOp _ _ _) fun _ => moves_pure _)) ht
  | crateGetBusVoltage => exact .command (moves_withOpen _ (moves_bind (moves_getBusVoltageOp (by exact rfl) _ _) fun _ => moves_pure _)) ht
  | crateGetShuntVoltage => exact .command (moves_withOpen _ (moves_bind (moves_getShuntVoltageOp (by exact rfl) _ _) fun _ => moves_pure _)) ht
  | crateGetCurrent => exact .command (moves_withOpen _ (moves_bind (moves_getCurrentOp (by exact rfl) _ _) fun _ => moves_pure _)) ht
  | seekVoltage => exact .command (moves_withOpen _ (moves_seekOp (by exact .inr (.inl rfl)) (by exact .inr (.inr rfl)) (moves_getBusVoltageOp (by exact .inl rfl) _ _) _ _ _ _)) ht
  | seekCurrent => exact .command (moves_withOpen _ (moves_seekOp (by exact .inr (.inl rfl)) (by exact .inr (.inr rfl)) (moves_getCurrentOp (by exact .inl rfl) _ _) _ _ _ _)) ht
  | disableAllOutputs => exact .command (moves_forLiveCards fun a => moves_disableOutputsAct _ a) ht
  | enableAllOutputs => exact .command (moves_forLiveCards fun a => moves_forEach (fun ch => moves_enableChannelOp a ch 1) _) ht
  | maxOutput => exact .command (moves_forLiveCards fun a => moves_forEach (fun ch => moves_setLevelMaxOp a ch) _) ht
  | minOutput => exact .command (moves_forLiveCards fun a => moves_forEach (fun ch => moves_setLevelMinOp a ch) _) ht
  | enableAllTestLoads => exact .command (moves_forLiveCards fun a => moves_forEach (fun ch => moves_enableTestLoadOp a ch 1) _) ht
  | disableAllTestLoads => exact .command (moves_forLiveCards fun a => moves_forEach (fun ch => moves_enableTestLoadOp a ch 0) _) ht
  | saveConfig => exact .command (moves_saveConfigOp (by exact rfl) _) ht
  | loadConfig => exact .command (moves_forLiveCards fun a => moves_forEach (fun ch => moves_loadChannelOp _ a ch) _) ht

/-! ## The step -/

/-- What one step is: nothing to do, an environment event, a frame refused, or one operation. -/
theorem step_cases {s t : State} (h : step s = .next t) :
    (s.inbox = [] ∧ t = s) ∨ (∃ i p rest, s.inbox = .plug i p :: rest ∧ t = (s.tail rest).plug i p) ∨
      (∃ rest, s.inbox = .restart :: rest ∧ t = (s.tail rest).restart) ∨
      (∃ who f rest, s.inbox = .frame who f :: rest ∧ t = (s.tail rest).respond (.failed .invalidArgument)) ∨
      (∃ who f rest i, s.inbox = .frame who f :: rest ∧ exec i (s.tail rest) = .next t) := by
  unfold step at h
  split at h
  · rename_i e; cases h; exact .inl ⟨e, rfl⟩
  · rename_i i p rest e; cases h; exact .inr (.inl ⟨i, p, rest, e, rfl⟩)
  · rename_i rest e; cases h; exact .inr (.inr (.inl ⟨rest, e, rfl⟩))
  · rename_i who f rest e
    split at h
    · rename_i i _; exact .inr (.inr (.inr (.inr ⟨who, f, rest, i, e, h⟩)))
    · cases h; exact .inr (.inr (.inr (.inl ⟨who, f, rest, e, rfl⟩)))

/-! ## What an operation keeps -/

theorem Moves.fixed {allow : Kind → Prop} {s t : State} (h : Moves allow s t) :
    t.params = s.params ∧ t.running = s.running ∧ t.present = s.present ∧ t.inbox = s.inbox :=
  h.induct (R := fun s t => t.params = s.params ∧ t.running = s.running ∧ t.present = s.present ∧ t.inbox = s.inbox)
    ⟨rfl, rfl, rfl, rfl⟩ fun _ _ hu ht => by
      have := ht.fixed
      exact ⟨this.1.trans hu.1, this.2.1.trans hu.2.1, this.2.2.1.trans hu.2.2.1, this.2.2.2.trans hu.2.2.2⟩

theorem Moves.wf {allow : Kind → Prop} {s t : State} (h : Moves allow s t) (hm : Memory.wf s.mem = true) :
    Memory.wf t.mem = true :=
  h.induct (R := fun _ t => Memory.wf t.mem = true) hm fun _ _ hu ht => ht.wf hu

theorem Moves.hist {allow : Kind → Prop} {s t : State} (h : Moves allow s t) : s.hist <+: t.hist :=
  h.induct (R := fun s t => s.hist <+: t.hist) (List.prefix_refl _) fun _ _ hu ht => hu.trans ht.hist

theorem Moves.cfg {allow : Kind → Prop} {s t : State} (h : Moves allow s t) (hk : ¬allow .config) : t.cfg = s.cfg :=
  h.induct (R := fun s t => t.cfg = s.cfg) rfl fun _ _ hu ht => (ht.cfg hk).trans hu

theorem Moves.average_kept {allow : Kind → Prop} {s t : State} (h : Moves allow s t) (hk : ¬allow .average) :
    t.acc = s.acc ∧ t.cnt = s.cnt :=
  h.induct (R := fun s t => t.acc = s.acc ∧ t.cnt = s.cnt) ⟨rfl, rfl⟩ fun _ _ hu ht =>
    ⟨(ht.average_kept hk).1.trans hu.1, (ht.average_kept hk).2.trans hu.2⟩

theorem Moves.seek_kept {allow : Kind → Prop} {s t : State} (h : Moves allow s t) (hk : ¬allow .seek) :
    t.iter = s.iter ∧ t.seekLevel = s.seekLevel :=
  h.induct (R := fun s t => t.iter = s.iter ∧ t.seekLevel = s.seekLevel) ⟨rfl, rfl⟩ fun _ _ hu ht =>
    ⟨(ht.seek_kept hk).1.trans hu.1, (ht.seek_kept hk).2.trans hu.2⟩

theorem Moves.settles {allow : Kind → Prop} {s t : State} (h : Moves allow s t) (hk : ¬allow .settle) :
    t.hist.countP Event.isSettle = s.hist.countP Event.isSettle :=
  h.induct (R := fun s t => t.hist.countP Event.isSettle = s.hist.countP Event.isSettle) rfl fun _ _ hu ht =>
    (ht.settles hk).trans hu

theorem Moves.complete {allow : Kind → Prop} {s t : State} (h : Moves allow s t) (hc : LiveCardsComplete s) :
    LiveCardsComplete t :=
  h.induct (R := fun _ t => LiveCardsComplete t) hc fun _ _ hu ht => ht.complete hu

theorem Moves.levels {allow : Kind → Prop} {s t : State} (h : Moves allow s t) (hc : LevelsInRange s) : LevelsInRange t :=
  h.induct (R := fun _ t => LevelsInRange t) hc fun _ _ hu ht => ht.levels hu

/-- Any relation the updates keep, and the boundaries and the response too, an operation keeps. -/
theorem ExecMoves.induct {R : State → State → Prop} {i : Instr} {s t : State} (h : ExecMoves i s t) (h0 : R s s)
    (hstep : ∀ u v, R s u → Touch (mayTouch i) u v → R s v) (hb : ∀ u op, R s u → R s (u.beginCommand op))
    (he : ∀ u op r, R s u → R s (u.endCommand op r)) (hr : ∀ u r, R s u → R s (u.respond r)) : R s t := by
  have run : ∀ u v, R s u → Moves (mayTouch i) u v → R s v := by
    intro u v hu hm
    induction hm with
    | refl => exact hu
    | step _ h2 ih => exact hstep _ _ ih h2
  rcases h with ⟨_, u, r, hm, rfl⟩ | ⟨_, r, rfl⟩ | ⟨_, u, r, hm, rfl⟩
  · exact hr _ _ (run _ _ h0 hm)
  · exact hr _ _ h0
  · exact he _ _ _ (run _ _ (hb _ _ h0) hm)

end Sys2Proof.Machine
end

