-- ==== Sys2Proof/Laws/Failures.lean ====
section
/-! SUPPORT. The operations on one open card when a transaction fails: how far each comes, what it leaves, and that it ends with
`BusError` (R63, R19, R104, R146, R158). -/

namespace Sys2Proof.Machine

variable {α β : Type}

/-- `x` run from `s` ends with `BusError` after `n` transactions, with the cell writes `ws`, the events `es`, the cached cards
`cards`, and the fields of one command kept. -/
def Op.Fails (x : Op α) (s : State) (n : Nat) (ws : List (Nat × Byte)) (es : List Event)
    (cards : Vector Card Config.pb.nCards) : Prop :=
  ∃ t, x s = .error (.failed .busError) t ∧ Effect s t n ws es ∧ SameScratch s t ∧ t.cards = cards

/-- What follows a failed operation is not run. -/
theorem Op.Fails.bind {x : Op α} {f : α → Op β} {s : State} {n : Nat} {ws : List (Nat × Byte)} {es : List Event}
    {cards : Vector Card Config.pb.nCards} (h : x.Fails s n ws es cards) : (x >>= f).Fails s n ws es cards := by
  obtain ⟨t, ht, hrest⟩ := h
  exact ⟨t, Op.bind_error ht, hrest⟩

/-- An operation that answered, then one that fails. -/
theorem Op.Fails.after {x : Op α} {f : α → Op β} {s t : State} {v : α} {m n : Nat} {ws ws' : List (Nat × Byte)}
    {es es' : List Event} {cards : Vector Card Config.pb.nCards} (hx : x s = .ok v t) (he : Effect s t m ws es)
    (hs : SameScratch s t) (h : (f v).Fails t n ws' es' cards) :
    (x >>= f).Fails s (m + n) (ws ++ ws') (es ++ es') cards := by
  obtain ⟨u, hu, he', hs', hc⟩ := h
  exact ⟨u, by rw [Op.bind_ok hx, hu], he.trans he', hs.trans hs', hc⟩

/-- The same after an operation that changes nothing. -/
theorem Op.Fails.then {x : Op α} {f : α → Op β} {s : State} {v : α} {n : Nat} {ws : List (Nat × Byte)} {es : List Event}
    {cards : Vector Card Config.pb.nCards} (hx : x s = .ok v s) (h : (f v).Fails s n ws es cards) :
    (x >>= f).Fails s n ws es cards := by
  obtain ⟨u, hu, hrest⟩ := h
  exact ⟨u, by rw [Op.bind_ok hx, hu], hrest⟩

theorem FirstBusError.after {m n : Nat} {s t : State} {ws : List (Nat × Byte)} {es : List Event} (h : FirstBusError n s)
    (he : Effect s t m ws es) (hmn : m ≤ n) : FirstBusError (n - m) t :=
  ⟨h.1.after he hmn, by rw [he.answer, show m + (n - m) = n by omega]; exact h.2⟩

/-! ## The transport (R103, R104, R106) -/

theorem readWordOp_fail {s : State} {addr : Int} {reg : Nat} {i : CardIx} {c : ChanIx} {r : SnsReg}
    (hr : s.route addr = .device (.sense i c)) (hg : snsReg s.params reg = some r) (ho : s.nextAnswer.ok = false) :
    readWordOp addr reg s = .error (.failed .busError) (s.received (.readWord addr reg) false []) := by
  simp [readWordOp, Op.bind_apply, reach_device hr, hg, transferRead_fail _ _ ho]

theorem writeWordOp_cal_fail {s : State} {addr : Int} {reg : Nat} {i : CardIx} {c : ChanIx} {w : Half}
    (hr : s.route addr = .device (.sense i c)) (hg : snsReg s.params reg = some .cal) (ho : s.nextAnswer.ok = false) :
    writeWordOp addr reg w s = .error (.failed .busError) (s.wrote (.writeWord addr reg w) false
      (([halfCells (snsCalCell i c) (bswap16 w)].take s.nextAnswer.landed).flatten)) := by
  simp [writeWordOp, Op.bind_apply, reach_device hr, hg, transferWrite_fail _ _ ho]

theorem writeWordOp_cfg_fail {s : State} {addr : Int} {reg : Nat} {i : CardIx} {c : ChanIx} {w : Half}
    (hr : s.route addr = .device (.sense i c)) (hg : snsReg s.params reg = some .cfg) (ho : s.nextAnswer.ok = false) :
    writeWordOp addr reg w s = .error (.failed .busError) (s.wrote (.writeWord addr reg w) false
      (([halfCells (snsCfgCell i c) (bswap16 w)].take s.nextAnswer.landed).flatten)) := by
  simp [writeWordOp, Op.bind_apply, reach_device hr, hg, transferWrite_fail _ _ ho]

theorem readBlockOp_fail {s : State} {addr : Int} {reg n : Nat} {d : Target} {ks : List Nat}
    (hr : s.route addr = .device d) (hn : 1 ≤ n) (hk : blockCells s.params d reg n = some ks)
    (ho : s.nextAnswer.ok = false) :
    readBlockOp addr reg n s = .error (.failed .busError) (s.received (.readBlock addr reg n) false []) := by
  simp [readBlockOp, Op.bind_apply, reach_device hr, hn, hk, transferRead_fail _ _ ho]

/-- R63: what one register's write leaves when it fails: nothing of it or all of it. -/
theorem take_singleton_flatten {γ : Type} (l : List γ) (n : Nat) : ([l].take n).flatten = [] ∨ ([l].take n).flatten = l := by
  cases n with
  | zero => left; rfl
  | succ n => right; simp

/-! ## The expander -/

/-- R121, R63: what a failed block write leaves of the expander's two bytes. -/
def XpPartial (i : CardIx) (m l : Byte) (ws : List (Nat × Byte)) : Prop :=
  ws = [] ∨ ws = [(xpCell i 0, ~~~m)] ∨ ws = [(xpCell i 0, ~~~m), (xpCell i 1, ~~~l)]

theorem xpPartial_cells {i : CardIx} {m l : Byte} {ws : List (Nat × Byte)} (h : XpPartial i m l ws) :
    ∀ k ∈ ws.map Prod.fst, k = xpCell i 0 ∨ k = xpCell i 1 := by
  rcases h with rfl | rfl | rfl <;> simp

/-- Each device byte is the old or the new one, the second new only if the first is. -/
theorem devXp_partial {s t : State} {i : CardIx} {m l : Byte} {n : Nat} {ws : List (Nat × Byte)} {es : List Event}
    (h : Effect s t n ws es) (hm : Memory.wf s.mem = true) (hw : XpPartial i m l ws) :
    (t.devXp i 0 = s.devXp i 0 ∧ t.devXp i 1 = s.devXp i 1) ∨ (t.devXp i 0 = ~~~m ∧ t.devXp i 1 = s.devXp i 1) ∨
      (t.devXp i 0 = ~~~m ∧ t.devXp i 1 = ~~~l) := by
  rcases hw with rfl | rfl | rfl
  · exact .inl ⟨h.read_other (by simp), h.read_other (by simp)⟩
  · exact .inr (.inl ⟨h.read_mem hm (by simp) (by simp), h.read_other (by simp [xpCell_val])⟩)
  · exact .inr (.inr (devXp_written h hm))

/-- R123, R19. -/
theorem enableChannelOp_fails {s : State} {i : CardIx} (c : ChanIx) (on : Bool) {m l : Byte} (h : Ready s i)
    (ho : s.nextAnswer.ok = false) (hm : s.cards[i].chen = some m) (hl : s.cards[i].tsten = some l) :
    ∃ ws, XpPartial i (setMaskBit m c on) l ws ∧ (enableChannelOp (cardNo i) (chanNo c) (byteOfBool on)).Fails s 1 ws
      [.bus (.writeBlock s.params.xpAddr s.params.xpReg [~~~(setMaskBit m c on), ~~~l]) false []] s.cards := by
  obtain ⟨t, ws, ht, hw, hrest⟩ := xpWriteOp_fails (setMaskBit m c on) l h ho
  refine ⟨ws, hw, t, ?_, hrest⟩
  simp only [enableChannelOp, isChannel_chanNo, checkArg_true, Op.pure_bind, boolOfByte_byteOfBool, asBool_some,
    chanIx_chanNo]
  rw [Op.bind_ok h.requireOpen, Op.bind_ok (readField_of_some (by rw [State.card_cardNo, hm])),
    Op.bind_ok (readField_of_some (by rw [State.card_cardNo, hl])), ht]

/-- R124, R19. -/
theorem enableTestLoadOp_fails {s : State} {i : CardIx} (c : ChanIx) (on : Bool) {m l : Byte} (h : Ready s i)
    (ho : s.nextAnswer.ok = false) (hm : s.cards[i].chen = some m) (hl : s.cards[i].tsten = some l) :
    ∃ ws, XpPartial i m (setMaskBit l c on) ws ∧ (enableTestLoadOp (cardNo i) (chanNo c) (byteOfBool on)).Fails s 1 ws
      [.bus (.writeBlock s.params.xpAddr s.params.xpReg [~~~m, ~~~(setMaskBit l c on)]) false []] s.cards := by
  obtain ⟨t, ws, ht, hw, hrest⟩ := xpWriteOp_fails m (setMaskBit l c on) h ho
  refine ⟨ws, hw, t, ?_, hrest⟩
  simp only [enableTestLoadOp, isChannel_chanNo, checkArg_true, Op.pure_bind, boolOfByte_byteOfBool, asBool_some,
    chanIx_chanNo]
  rw [Op.bind_ok h.requireOpen, Op.bind_ok (readField_of_some (by rw [State.card_cardNo, hm])),
    Op.bind_ok (readField_of_some (by rw [State.card_cardNo, hl])), ht]

/-- R122. -/
theorem xpReadOp_fails {s : State} {i : CardIx} (h : Ready s i) (ho : s.nextAnswer.ok = false) :
    (xpReadOp (cardNo i)).Fails s 1 [] [.bus (.readBlock s.params.xpAddr s.params.xpReg 2) false []] s.cards := by
  have hb := readBlockOp_fail (n := 2) (route_xp h.2.1 h.2.2.1) (by omega) (blockCells_xp s.params i) ho
  refine ⟨_, ?_, effect_received _ _ _ _, scratch_received _ _ _ _, received_cards _ _ _ _⟩
  simp only [xpReadOp]
  rw [Op.bind_ok h.requireOpen, Op.get_bind, Op.bind_error hb]

/-! ## The potentiometers -/

/-- R132, R63: the sub-registers that took their new bytes are a leading run. -/
theorem potWriteOp_fails {s : State} {i : CardIx} (c : ChanIx) (p : Word) (h : Ready s i) (ho : s.nextAnswer.ok = false) :
    ∃ n, (potWriteOp (cardNo i) (chanNo c) p).Fails s 1 (((potCells i c).zip (patternBytes p)).take n)
      [.bus (.writeBlock (s.params.potAddr[potChip c] : Nat) s.params.potReg[potSub c] (patternBytes p)) false []]
      s.cards := by
  have hb := writeBlockOp_fail (bs := patternBytes p) (route_pot h.2.1 h.2.2.1 (potChip c)) (by simp [patternBytes])
    (blockCells_pot h.2.1 i (potChip c) (potSub c)) ho
  refine ⟨s.nextAnswer.landed, _, ?_, effect_wrote _ _ _ _, scratch_wrote _ _ _ _, wrote_cards _ _ _ _⟩
  simp only [potWriteOp, chanIx_chanNo]
  rw [Op.bind_ok h.requireOpen, Op.pure_bind, Op.get_bind, hb]
  rfl

theorem pot_take_cells {i : CardIx} {c : ChanIx} {bs : List Byte} {n : Nat} {k : Nat}
    (h : k ∈ (((potCells i c).zip bs).take n).map Prod.fst) : k ∈ potCells i c := by
  obtain ⟨w, hw, rfl⟩ := List.mem_map.mp h
  exact (List.of_mem_zip (List.mem_of_mem_take hw)).1

/-- What the device bytes of a channel's potentiometer are after a write of all four that failed. -/
theorem devPot_partial {s t : State} {i : CardIx} {c : ChanIx} {m n : Nat} {es : List Event} {b0 b1 b2 b3 : Byte}
    (h : Effect s t m (((potCells i c).zip [b0, b1, b2, b3]).take n) es) (hm : Memory.wf s.mem = true) :
    ∃ n' ≤ 4, ∀ j : Fin 4, t.devPot i c j.val = if j.val < n' then [b0, b1, b2, b3].getD j.val 0 else s.devPot i c j.val := by
  refine ⟨min n 4, by omega, fun j => ?_⟩
  have hnd : ((((potCells i c).zip [b0, b1, b2, b3]).take n).map Prod.fst).Nodup := by
    refine List.Nodup.sublist ((List.take_sublist _ _).map _) ?_
    simp only [potCells, List.zip_cons_cons, List.zip_nil_right, List.map_cons, List.map_nil, potCell_eq]
    simp
  have hj := j.isLt
  have hj4 : j.val = 0 ∨ j.val = 1 ∨ j.val = 2 ∨ j.val = 3 := by omega
  by_cases hn : j.val < n
  · rw [if_pos (by omega)]
    refine h.read_mem hm hnd (List.mem_take_iff_getElem.mpr ⟨j.val, by simp [potCells]; omega, ?_⟩)
    rcases hj4 with e | e | e | e <;> simp [potCells, e]
  · rw [if_neg (by omega)]
    refine h.read_other fun hk => ?_
    obtain ⟨w, hw, e⟩ := List.mem_map.mp hk
    obtain ⟨a, ha, rfl⟩ := List.mem_take_iff_getElem.mp hw
    simp [potCells] at ha
    have ha4 : a = 0 ∨ a = 1 ∨ a = 2 ∨ a = 3 := by omega
    rcases ha4 with e' | e' | e' | e' <;> subst e' <;> simp [potCells, potCell_eq] at e <;> omega

/-- R133, R19. -/
theorem setLevelOp_fails {s : State} {i : CardIx} (c : ChanIx) {v : Int} (hv : 0 ≤ v ∧ v ≤ 1023) (h : Ready s i)
    (ho : s.nextAnswer.ok = false) :
    ∃ n, (setLevelOp (cardNo i) (chanNo c) v).Fails s 1 (((potCells i c).zip (potBytes v.toNat)).take n)
      [.bus (.writeBlock (s.params.potAddr[potChip c] : Nat) s.params.potReg[potSub c] (potBytes v.toNat)) false []]
      s.cards := by
  obtain ⟨n, hf⟩ := potWriteOp_fails c (potPattern v.toNat) h ho
  rw [patternBytes_potPattern ⟨v.toNat, by omega⟩] at hf
  refine ⟨n, ?_⟩
  simp only [setLevelOp, isChannel_chanNo, checkArg_true, Op.pure_bind, isLevel_iff.mpr hv, chanIx_chanNo]
  exact hf.bind.then h.requireOpen

/-- R133: a level out of range, on an open card. -/
theorem setLevelOp_refuses {s : State} {i : CardIx} (c : ChanIx) {v : Int} (hv : ¬(0 ≤ v ∧ v ≤ 1023)) :
    setLevelOp (cardNo i) (chanNo c) v s = .error (.failed .invalidArgument) s := by
  have : isLevel v = false := Bool.eq_false_iff.mpr fun h => hv (isLevel_iff.mp h)
  simp only [setLevelOp, isChannel_chanNo, checkArg_true, Op.pure_bind, this, checkArg_false]
  rfl

/-- R134, R19. -/
theorem setLevelMinOp_fails {s : State} {i : CardIx} (c : ChanIx) (h : Ready s i) (ho : s.nextAnswer.ok = false) :
    ∃ n, (setLevelMinOp (cardNo i) (chanNo c)).Fails s 1
      (((potCells i c).zip [0x00#8, 0x00#8, 0x00#8, 0x00#8]).take n)
      [.bus (.writeBlock (s.params.potAddr[potChip c] : Nat) s.params.potReg[potSub c]
        [0x00#8, 0x00#8, 0x00#8, 0x00#8]) false []] s.cards := by
  obtain ⟨n, hf⟩ := potWriteOp_fails c Config.pb.potMinPattern h ho
  rw [show patternBytes Config.pb.potMinPattern = [0x00#8, 0x00#8, 0x00#8, 0x00#8] by decide] at hf
  refine ⟨n, ?_⟩
  simp only [setLevelMinOp, isChannel_chanNo, checkArg_true, Op.pure_bind, chanIx_chanNo]
  exact hf.bind.then h.requireOpen

/-- R135, R19. -/
theorem setLevelMaxOp_fails {s : State} {i : CardIx} (c : ChanIx) (h : Ready s i) (ho : s.nextAnswer.ok = false) :
    ∃ n, (setLevelMaxOp (cardNo i) (chanNo c)).Fails s 1
      (((potCells i c).zip [0xFF#8, 0xFF#8, 0xFF#8, 0xFF#8]).take n)
      [.bus (.writeBlock (s.params.potAddr[potChip c] : Nat) s.params.potReg[potSub c]
        [0xFF#8, 0xFF#8, 0xFF#8, 0xFF#8]) false []] s.cards := by
  obtain ⟨n, hf⟩ := potWriteOp_fails c Config.pb.potMaxPattern h ho
  rw [show patternBytes Config.pb.potMaxPattern = [0xFF#8, 0xFF#8, 0xFF#8, 0xFF#8] by decide] at hf
  refine ⟨n, ?_⟩
  simp only [setLevelMaxOp, isChannel_chanNo, checkArg_true, Op.pure_bind, chanIx_chanNo]
  exact hf.bind.then h.requireOpen

/-- R136, R19. -/
theorem readLevelOp_fails {s : State} {i : CardIx} (c : ChanIx) (h : Ready s i) (ho : s.nextAnswer.ok = false) :
    (readLevelOp (cardNo i) (chanNo c)).Fails s 1 []
      [.bus (.readBlock (s.params.potAddr[potChip c] : Nat) s.params.potReg[potSub c] 4) false []] s.cards := by
  have hb := readBlockOp_fail (n := 4) (route_pot h.2.1 h.2.2.1 (potChip c)) (by omega)
    (blockCells_pot h.2.1 i (potChip c) (potSub c)) ho
  refine ⟨_, ?_, effect_received _ _ _ _, scratch_received _ _ _ _, received_cards _ _ _ _⟩
  simp only [readLevelOp, isChannel_chanNo, checkArg_true, Op.pure_bind, chanIx_chanNo]
  rw [Op.bind_ok h.requireOpen, Op.get_bind, Op.bind_error hb]

/-! ## The sense chips -/

/-- The event of a calibration rewrite that failed. -/
def calFailed (p : Params) (c : ChanIx) : Event :=
  .bus (.writeWord (p.snsAddr[c] : Nat) p.snsRegCal (bswap16 p.calWord)) false []

/-- The event of a configuration write that failed. -/
def cfgFailed (p : Params) (c : ChanIx) : Event :=
  .bus (.writeWord (p.snsAddr[c] : Nat) p.snsRegCfg (bswap16 p.cfgWord)) false []

/-- The event of a read of a sense register that failed. -/
def senseFailed (p : Params) (c : ChanIx) (reg : Nat) : Event := .bus (.readWord (p.snsAddr[c] : Nat) reg) false []

/-- R141, R63. -/
theorem calibrate_fails {s : State} {i : CardIx} (c : ChanIx) (h : Ready s i) (ho : s.nextAnswer.ok = false) :
    ∃ ws, (ws = [] ∨ ws = calWrites s.params i c) ∧ (calibrate c).Fails s 1 ws [calFailed s.params c] s.cards := by
  have hb := writeWordOp_cal_fail (w := bswap16 s.params.calWord) (route_sns h.2.1 h.2.2.1 c) (snsReg_cal h.2.1) ho
  rw [bswap16_bswap16] at hb
  refine ⟨_, take_singleton_flatten _ s.nextAnswer.landed, _, ?_, effect_wrote _ _ _ _, scratch_wrote _ _ _ _,
    wrote_cards _ _ _ _⟩
  simp only [calibrate]
  rw [Op.get_bind, hb]
  rfl

/-- R142 to R145. -/
theorem readSense_fails {s : State} {i : CardIx} (c : ChanIx) {reg : Params → Nat} (hg : ResultReg s.params (reg s.params))
    (h : Ready s i) (ho : s.nextAnswer.ok = false) :
    (readSense c reg).Fails s 1 [] [senseFailed s.params c (reg s.params)] s.cards := by
  obtain ⟨r, hg, _⟩ := hg
  have hb := readWordOp_fail (route_sns h.2.1 h.2.2.1 c) hg ho
  refine ⟨_, ?_, effect_received _ _ _ _, scratch_received _ _ _ _, received_cards _ _ _ _⟩
  simp only [readSense]
  rw [Op.get_bind, Op.bind_error hb]

/-- R142. -/
theorem rawShuntOp_fails {s : State} {i : CardIx} (c : ChanIx) (h : Ready s i) (ho : s.nextAnswer.ok = false) :
    (rawShuntOp (cardNo i) (chanNo c)).Fails s 1 [] [senseFailed s.params c s.params.snsRegShunt] s.cards := by
  simp only [rawShuntOp, chanIx_chanNo, Op.pure_bind]
  exact (readSense_fails c (reg := Params.snsRegShunt) (snsRegs_distinct h.2.1).1 h ho).then h.requireOpen

/-- R141, R143 to R145: an operation that rewrites the calibration word and then goes on with `y`, `y`'s first transaction being
the one that fails. -/
theorem calThen_fails {s : State} {i : CardIx} {c : ChanIx} {y : Op α} {ws : List (Nat × Byte)} {es : List Event}
    (h : Ready s i) (hb : NoBusError 1 s)
    (hy : ∀ t, Ready t i → t.params = s.params → t.cards = s.cards → t.nextAnswer = s.answer 1 → y.Fails t 1 ws es t.cards) :
    (do calibrate c; y : Op α).Fails s 2 (calWrites s.params i c ++ ws) (calEvent s.params c :: es) s.cards := by
  obtain ⟨t, ht, he, hs, hc⟩ := calibrate_runs c h (hb.next (by omega))
  have hr : Ready t i := h.step he (calWrites_no_switch _ _ _) (by rw [hc])
  have := Op.Fails.after (f := fun _ => y) ht he hs (hc ▸ hy t hr he.params hc he.nextAnswer)
  exact this

/-- R141, R143 to R145: the read fails after the rewrite. -/
theorem calRead_fails {s : State} {i : CardIx} (c : ChanIx) {reg : Params → Nat} (hg : ResultReg s.params (reg s.params))
    (h : Ready s i) (hf : FirstBusError 1 s) :
    (do calibrate c; readSense c reg : Op Int).Fails s 2 (calWrites s.params i c)
      [calEvent s.params c, senseFailed s.params c (reg s.params)] s.cards := by
  have := calThen_fails (c := c) (y := readSense c reg) h hf.1 fun t hr hp _ hn => by
    have := readSense_fails c (reg := reg) (hp ▸ hg) hr (hn ▸ hf.2)
    rw [hp] at this
    exact this
  simpa using this

/-- R140, R104: the configuration write fails after the calibration write. -/
theorem senseInitOp_fails_second {s : State} {i : CardIx} (c : ChanIx) (h : Ready s i) (hf : FirstBusError 1 s) :
    ∃ ws, (ws = [] ∨ ws = cfgWrites s.params i c) ∧ (senseInitOp (cardNo i) (chanNo c)).Fails s 2
      (calWrites s.params i c ++ ws) [calEvent s.params c, cfgFailed s.params c] s.cards := by
  refine ⟨([cfgWrites s.params i c].take (s.answer 1).landed).flatten, take_singleton_flatten _ _, ?_⟩
  have := calThen_fails (c := c) (y := do
      let p := (← get).params
      writeWordOp p.snsAddr[c] p.snsRegCfg (bswap16 p.cfgWord)) (ws := ([cfgWrites s.params i c].take (s.answer 1).landed).flatten)
    (es := [cfgFailed s.params c]) h hf.1 fun t hr hp hc hn => by
      have hb := writeWordOp_cfg_fail (w := bswap16 t.params.cfgWord) (route_sns hr.2.1 hr.2.2.1 c) snsReg_cfg (hn ▸ hf.2)
      rw [bswap16_bswap16] at hb
      refine ⟨_, by rw [Op.get_bind, hb], ?_, scratch_wrote _ _ _ _, wrote_cards _ _ _ _⟩
      rw [hp, hn]
      exact effect_wrote _ _ _ _
  simp only [senseInitOp, chanIx_chanNo, Op.pure_bind]
  exact this.then h.requireOpen

/-- R140: the calibration write fails. -/
theorem senseInitOp_fails_first {s : State} {i : CardIx} (c : ChanIx) (h : Ready s i) (ho : s.nextAnswer.ok = false) :
    ∃ ws, (ws = [] ∨ ws = calWrites s.params i c) ∧
      (senseInitOp (cardNo i) (chanNo c)).Fails s 1 ws [calFailed s.params c] s.cards := by
  obtain ⟨ws, hw, hf⟩ := calibrate_fails c h ho
  refine ⟨ws, hw, ?_⟩
  simp only [senseInitOp, chanIx_chanNo, Op.pure_bind]
  exact hf.bind.then h.requireOpen

/-! ## The averaged reads (R151) -/

/-- From a ready card, a `sample` of `m` transactions whose transaction `b` is the first to fail: it ends there, with cell writes
among `ws`. -/
def FailingSampler (sample : Op Rat) (i : CardIx) (s : State) (m : Nat) (ws : List (Nat × Byte)) : Prop :=
  ∀ (t : State) (b : Nat), Ready t i → t.params = s.params → b < m → FirstBusError b t →
    ∃ W es, sample.Fails t (b + 1) W es t.cards ∧ (∀ w ∈ W, w ∈ ws) ∧ es.countP Event.isBus = b + 1 ∧
      es.countP Event.isSampleDelay = 0 ∧ es.length = b + 1

/-- R147. -/
theorem shuntSample_fails (s : State) (i : CardIx) (c : ChanIx) :
    FailingSampler (shuntSample (cardNo i) (chanNo c)) i s 1 [] := by
  intro t b hr _ hb hf
  obtain rfl : b = 0 := by omega
  refine ⟨[], _, (rawShuntOp_fails c hr ?_).bind, by simp, rfl, rfl, rfl⟩
  rw [← State.answer_zero]; exact hf.2

/-- R146: a read with a calibration rewrite, by where it fails. -/
theorem calRead_failing {s : State} {i : CardIx} {c : ChanIx} {reg : Params → Nat} (hg : ∀ p : Params, p.Valid → ResultReg p (reg p))
    {x : Op Int} {y : Op Rat} {f : Int → Op Rat} (hy : y = x >>= f)
    (hx : ∀ t : State, Ready t i → ∀ n ws es, (do calibrate c; readSense c reg : Op Int).Fails t n ws es t.cards →
      x.Fails t n ws es t.cards) : FailingSampler y i s 2 (calWrites s.params i c) := by
  intro t b hr hp hb hf
  subst hy
  have hb' : b = 0 ∨ b = 1 := by omega
  rcases hb' with rfl | rfl
  · obtain ⟨ws, hw, h⟩ := calibrate_fails c hr (by rw [← State.answer_zero]; exact hf.2)
    refine ⟨ws, _, (hx t hr _ _ _ h.bind).bind, fun w hmem => ?_, rfl, rfl, rfl⟩
    rcases hw with rfl | rfl
    · cases hmem
    · rwa [hp] at hmem
  · exact ⟨_, _, (hx t hr _ _ _ (calRead_fails c (hg _ hr.2.1) hr hf)).bind, fun w hmem => by rwa [hp] at hmem, rfl, rfl, rfl⟩

/-- R148. -/
theorem busSample_fails (s : State) (i : CardIx) (c : ChanIx) :
    FailingSampler (busSample (cardNo i) (chanNo c)) i s 2 (calWrites s.params i c) := by
  refine calRead_failing (reg := Params.snsRegBus) (fun p hv => (snsRegs_distinct hv).2.1) rfl fun t hr n ws es h => ?_
  simp only [rawBusOp, chanIx_chanNo, Op.pure_bind]
  refine Op.Fails.then hr.requireOpen ?_
  have : (do calibrate c; let raw ← readSense c Params.snsRegBus; pure (busRaw raw) : Op Int) =
      (do calibrate c; readSense c Params.snsRegBus : Op Int) >>= fun raw => pure (busRaw raw) := by
    rw [bind_assoc]
  rw [this]
  exact h.bind

/-- R149. -/
theorem currentSample_fails (s : State) (i : CardIx) (c : ChanIx) :
    FailingSampler (currentSample (cardNo i) (chanNo c)) i s 2 (calWrites s.params i c) := by
  refine calRead_failing (reg := Params.snsRegCurrent) (fun p hv => (snsRegs_distinct hv).2.2.2) rfl fun t hr n ws es h => ?_
  simp only [rawCurrentOp, chanIx_chanNo, Op.pure_bind]
  exact h.then hr.requireOpen

/-- What a public read that failed did: `n` transactions, `delays` delays, cell writes among `ws`, nothing cached, `ACC` and `CNT`
dropped. -/
structure FailedRead (s t : State) (n delays : Nat) (ws : List (Nat × Byte)) : Prop where
  run : ∃ W es, Effect s t n W es ∧ (∀ w ∈ W, w ∈ ws) ∧ es.countP Event.isBus = n ∧
    es.countP Event.isSampleDelay = delays ∧ es.length = n + delays
  cards : t.cards = s.cards
  iter : t.iter = s.iter
  seekLevel : t.seekLevel = s.seekLevel
  acc : t.acc = none
  cnt : t.cnt = none

/-- R151: sample `a`, after `a` samples, whose transaction `b` is the first to fail. -/
theorem takeSample_fails {sample : Op Rat} {i : CardIx} {s t : State} {m p a b : Nat} {ws : List (Nat × Byte)}
    {g : Answer → Rat} (hf : FailingSampler sample i s m ws) (hr : Ready s i) (hw : ∀ j : CardIx, swCell j ∉ ws.map Prod.fst)
    (hb : b < m) (hfirst : FirstBusError (m * a + b) s) (ht : Sampled s m p ws g a t) :
    ∃ u, takeSample sample a t = .error (.failed .busError) u ∧ FailedRead s u.dropAcc (m * a + (b + 1)) a ws := by
  obtain ⟨W, es, he, hW, hev⟩ := ht.run
  have key : ∀ t' es', Effect t t' 0 [] es' → t'.cards = t.cards → t'.iter = t.iter → t'.seekLevel = t.seekLevel →
      es'.countP Event.isBus = 0 ∧ es'.countP Event.isSampleDelay = a - (a - 1) ∧ es'.length = a - (a - 1) →
      ∃ u, (do
        let x ← sample
        modify fun s => { s with acc := s.acc.map (· + x), cnt := s.cnt.map (· + 1) } : Op Unit) t' =
          .error (.failed .busError) u ∧ FailedRead s u.dropAcc (m * a + (b + 1)) a ws := by
    intro t' es' he' hc' hi' hl' hcnt
    have hse : Effect s t' (m * a) W (es ++ es') := by simpa using he.trans he'
    have hswW : ∀ j : CardIx, swCell j ∉ W.map Prod.fst := fun j hj => by
      obtain ⟨w, hw1, hw2⟩ := List.mem_map.mp hj
      exact hw j (List.mem_map.mpr ⟨w, hW w hw1, hw2⟩)
    have hrt : Ready t' i := hr.step hse hswW (by rw [hc', ht.cards])
    obtain ⟨W', ev, ⟨v, hv, hev', hsc, hcv⟩, hW', hcb, hcd, hcl⟩ := hf t' b hrt hse.params hb (by
      have := hfirst.after hse (by omega)
      rwa [Nat.add_sub_cancel_left] at this)
    refine ⟨v, by rw [Op.bind_error hv], ?_, hcv.trans (hc'.trans ht.cards), hsc.iter.trans (hi'.trans ht.iter),
      hsc.seekLevel.trans (hl'.trans ht.seekLevel), rfl, rfl⟩
    have hfull := hse.trans hev'
    refine ⟨W ++ W', es ++ es' ++ ev, ⟨hfull.params, hfull.running, hfull.cfg, hfull.present, hfull.inbox, hfull.mem,
      hfull.hist, hfull.tape, hfull.draws⟩, fun w hw' => ?_, ?_, ?_, ?_⟩
    · exact (List.mem_append.mp hw').elim (hW w) (hW' w)
    · rw [List.countP_append, List.countP_append, hev.bus, hcnt.1, hcb]; omega
    · rw [List.countP_append, List.countP_append, hev.delays, hcnt.2.1, hcd]; omega
    · rw [List.length_append, List.length_append, hev.length, hcnt.2.2, hcl]; omega
  unfold takeSample
  by_cases hk : 0 < a
  · rw [if_pos hk, Op.get_bind, Op.bind_ok (emit_apply _ _)]
    refine key _ [.delay .sample t.params.sampleDelayMs] (effect_event t _) rfl rfl rfl ?_
    simp [Event.isBus, Event.isSampleDelay]; omega
  · rw [if_neg hk]
    obtain rfl : a = 0 := by omega
    exact key t [] (Effect.refl t) rfl rfl rfl (by simp)

/-- R151: the average whose transaction `m * a + b`, that of sample `a`, is the first to fail. -/
theorem averageOp_fails {sample : Op Rat} {i : CardIx} {s : State} {m p a b : Nat} {ws : List (Nat × Byte)}
    {g : Answer → Rat} (hs : Sampler sample i s m p ws g) (hf : FailingSampler sample i s m ws) (hr : Ready s i)
    (hw : ∀ j : CardIx, swCell j ∉ ws.map Prod.fst) (ha : a < 6) (hb : b < m) (hfirst : FirstBusError (m * a + b) s) :
    ∃ t, averageOp sample s = .error (.failed .busError) t ∧ FailedRead s t (m * a + (b + 1)) a ws := by
  have h0 : Sampled { s with acc := some 0, cnt := some 0 } m p ws g 0 { s with acc := some 0, cnt := some 0 } :=
    ⟨⟨[], [], by simpa using Effect.refl _, by simp, ⟨rfl, rfl, rfl, rfl⟩⟩, rfl, rfl, rfl, rfl, rfl⟩
  have hs' : Sampler sample i { s with acc := some 0, cnt := some 0 } m p ws g := hs
  have hf' : FailingSampler sample i { s with acc := some 0, cnt := some 0 } m ws := hf
  have hr' : Ready { s with acc := some 0, cnt := some 0 } i := hr
  have hfirst' : FirstBusError (m * a + b) { s with acc := some 0, cnt := some 0 } := hfirst
  have hloop : ∀ (n k : Nat) (t : State), k + n = 6 → k ≤ a → Sampled { s with acc := some 0, cnt := some 0 } m p ws g k t →
      ∃ u, forEach (List.range' k n) (takeSample sample) t = .error (.failed .busError) u ∧
        FailedRead { s with acc := some 0, cnt := some 0 } u.dropAcc (m * a + (b + 1)) a ws := by
    intro n
    induction n with
    | zero => intro k t hk hle _; omega
    | succ n ih =>
      intro k t hk hle ht
      rw [List.range'_succ, forEach_cons]
      by_cases e : k = a
      · subst e
        obtain ⟨u, hu, hrest⟩ := takeSample_fails hf' hr' hw hb hfirst' ht
        exact ⟨u, Op.bind_error hu, hrest⟩
      · have hbe : NoBusError (m * (k + 1)) { s with acc := some 0, cnt := some 0 } :=
          NoBusError.mono (s := { s with acc := some 0, cnt := some 0 }) hfirst.1 (by
            calc m * (k + 1) ≤ m * a := Nat.mul_le_mul_left m (by omega)
              _ ≤ _ := Nat.le_add_right _ _)
        obtain ⟨u, hu, hnext⟩ := takeSample_runs hs' hr' hw hbe ht
        obtain ⟨v, hv, hrest⟩ := ih (k + 1) u (by omega) (by omega) hnext
        exact ⟨v, by rw [Op.bind_ok hu, hv], hrest⟩
  obtain ⟨u, hu, hrest⟩ := hloop 6 0 _ rfl (by omega) h0
  refine ⟨u.dropAcc, ?_, ?_⟩
  · unfold averageOp dropAfter
    rw [Op.modify_bind, show List.range Config.pb.senseN = List.range' 0 6 from rfl, Op.bind_error hu]
  · obtain ⟨⟨W, es, he, h1⟩, h2, h3, h4, h5, h6⟩ := hrest
    exact ⟨⟨W, es, ⟨he.params, he.running, he.cfg, he.present, he.inbox, he.mem, he.hist, he.tape, he.draws⟩, h1⟩,
      h2, h3, h4, h5, h6⟩

/-- R152 to R154: a public read whose average fails. -/
theorem publicRead_fails {sample : Op Rat} {i : CardIx} {c : ChanIx} {s t : State} {f : Rat → Op Rat} (h : Ready s i)
    (ht : averageOp sample s = .error (.failed .busError) t) :
    (do checkArg (isChannel (chanNo c)); requireOpen (cardNo i); let m ← averageOp sample; f m : Op Rat) s =
      .error (.failed .busError) t := by
  rw [isChannel_chanNo, checkArg_true, Op.pure_bind, Op.bind_ok h.requireOpen, Op.bind_error ht]

/-- R152. -/
theorem getBusVoltageOp_fails {s : State} {i : CardIx} (c : ChanIx) {k : Nat} (h : Ready s i) (hk : k < 12)
    (hf : FirstBusError k s) :
    ∃ t, getBusVoltageOp (cardNo i) (chanNo c) s = .error (.failed .busError) t ∧
      FailedRead s t (k + 1) (k / 2) (calWrites s.params i c) := by
  obtain ⟨t, ht, hr⟩ := averageOp_fails (a := k / 2) (b := k % 2) (busSample_sampler s i c) (busSample_fails s i c) h
    (calWrites_no_switch _ _ _) (by omega) (by omega) (by rwa [Nat.div_add_mod])
  exact ⟨t, publicRead_fails h ht, by rwa [show 2 * (k / 2) + (k % 2 + 1) = k + 1 by omega] at hr⟩

/-- R153. -/
theorem getShuntVoltageOp_fails {s : State} {i : CardIx} (c : ChanIx) {k : Nat} (h : Ready s i) (hk : k < 6)
    (hf : FirstBusError k s) :
    ∃ t, getShuntVoltageOp (cardNo i) (chanNo c) s = .error (.failed .busError) t ∧ FailedRead s t (k + 1) k [] := by
  obtain ⟨t, ht, hr⟩ := averageOp_fails (a := k) (b := 0) (shuntSample_sampler s i c) (shuntSample_fails s i c) h
    (by simp) hk (by omega) (by simpa using hf)
  exact ⟨t, publicRead_fails h ht, by simpa using hr⟩

/-- R154. -/
theorem getCurrentOp_fails {s : State} {i : CardIx} (c : ChanIx) {d : Rat} {k : Nat} (h : Ready s i) (hk : k < 12)
    (hd : s.cards[i].curdiv = some d) (hf : FirstBusError k s) :
    ∃ t, getCurrentOp (cardNo i) (chanNo c) s = .error (.failed .busError) t ∧
      FailedRead s t (k + 1) (k / 2) (calWrites s.params i c) := by
  obtain ⟨t, ht, hr⟩ := averageOp_fails (a := k / 2) (b := k % 2) (currentSample_sampler s i c hd)
    (currentSample_fails s i c) h (calWrites_no_switch _ _ _) (by omega) (by omega) (by rwa [Nat.div_add_mod])
  exact ⟨t, publicRead_fails h ht, by rwa [show 2 * (k / 2) + (k % 2 + 1) = k + 1 by omega] at hr⟩

end Sys2Proof.Machine
end

