-- ==== Sys2Proof/Laws/Frame.lean ====
section
/-! SUPPORT. The byte layout of a frame (log 9) read back: little-endian numbers, and a frame from its own bytes. -/

namespace Sys2Proof

@[simp] theorem leBytes_length (n x : Nat) : (leBytes n x).length = n := by
  induction n generalizing x with
  | zero => rfl
  | succ n ih => rw [leBytes, List.length_cons, ih]

theorem leNat_leBytes (n x : Nat) (h : x < 256 ^ n) : leNat (leBytes n x) = x := by
  induction n generalizing x with
  | zero => rw [Nat.pow_zero] at h; simp only [leBytes, leNat]; omega
  | succ n ih =>
    rw [leBytes, leNat, ih _ (by rw [Nat.pow_succ] at h; omega), BitVec.toNat_ofNat]
    omega

/-- A 64-bit signed carrier (log 9). -/
theorem toInt_ofNat64 {n : Int} (h : -(2 ^ 63) ≤ n ∧ n < 2 ^ 63) : (BitVec.ofInt 64 n).toInt = n := by
  rw [BitVec.toInt_ofInt, Int.bmod_eq_of_le] <;> omega

theorem take_append_len {α : Type} {n : Nat} (a b : List α) (h : a.length = n) : (a ++ b).take n = a := by
  rw [← h, List.take_left]

theorem drop_append_len {α : Type} {n : Nat} (a b : List α) (h : a.length = n) : (a ++ b).drop n = b := by
  rw [← h, List.drop_left]

/-- R70, log 9: a frame is read back from its bytes. -/
theorem Frame.ofBytes_toBytes (f : Frame) (h : fitsRval f.rval) : Frame.ofBytes f.toBytes = .ok f := by
  have d1 (k : Nat) : f.toBytes.drop (1 + k) = (leBytes 4 f.card.toNat ++ (leBytes 4 f.chan.toNat ++
      (leBytes 4 f.ival.toNat ++ (f.flag :: (leBytes 8 (BitVec.ofInt 64 f.rval.num).toNat ++
        (leBytes 8 (f.rval.den - 1) ++ f.data)))))).drop k := by
    rw [Nat.add_comm]; rfl
  have d5 : f.toBytes.drop 5 = leBytes 4 f.chan.toNat ++ (leBytes 4 f.ival.toNat ++ (f.flag ::
      (leBytes 8 (BitVec.ofInt 64 f.rval.num).toNat ++ (leBytes 8 (f.rval.den - 1) ++ f.data)))) := by
    rw [show 5 = 1 + 4 from rfl, d1, drop_append_len _ _ (leBytes_length _ _)]
  have d9 : f.toBytes.drop 9 = leBytes 4 f.ival.toNat ++ (f.flag ::
      (leBytes 8 (BitVec.ofInt 64 f.rval.num).toNat ++ (leBytes 8 (f.rval.den - 1) ++ f.data))) := by
    rw [show 9 = 5 + 4 from rfl, ← List.drop_drop, d5, drop_append_len _ _ (leBytes_length _ _)]
  have d13 : f.toBytes.drop 13 = f.flag ::
      (leBytes 8 (BitVec.ofInt 64 f.rval.num).toNat ++ (leBytes 8 (f.rval.den - 1) ++ f.data)) := by
    rw [show 13 = 9 + 4 from rfl, ← List.drop_drop, d9, drop_append_len _ _ (leBytes_length _ _)]
  have d14 : f.toBytes.drop 14 = leBytes 8 (BitVec.ofInt 64 f.rval.num).toNat ++
      (leBytes 8 (f.rval.den - 1) ++ f.data) := by
    rw [show 14 = 13 + 1 from rfl, ← List.drop_drop, d13]; rfl
  have d22 : f.toBytes.drop 22 = leBytes 8 (f.rval.den - 1) ++ f.data := by
    rw [show 22 = 14 + 8 from rfl, ← List.drop_drop, d14, drop_append_len _ _ (leBytes_length _ _)]
  have d30 : f.toBytes.drop 30 = f.data := by
    rw [show 30 = 22 + 8 from rfl, ← List.drop_drop, d22, drop_append_len _ _ (leBytes_length _ _)]
  have hl : ¬f.toBytes.length < frameBytes := by
    simp only [Frame.toBytes, List.length_cons, List.length_append, leBytes_length, frameBytes]
    omega
  have c1 : (f.toBytes.drop 1).take 4 = leBytes 4 f.card.toNat := by
    rw [show 1 = 1 + 0 from rfl, d1, List.drop_zero, take_append_len _ _ (leBytes_length _ _)]
  have w32 (w : Word) : BitVec.ofNat 32 (leNat (leBytes 4 w.toNat)) = w := by
    rw [leNat_leBytes _ _ (by have := w.isLt; omega), BitVec.ofNat_toNat, BitVec.setWidth_eq]
  have w64 (w : BitVec 64) : BitVec.ofNat 64 (leNat (leBytes 8 w.toNat)) = w := by
    rw [leNat_leBytes _ _ (by have := w.isLt; omega), BitVec.ofNat_toNat, BitVec.setWidth_eq]
  have hd : leNat (leBytes 8 (f.rval.den - 1)) + 1 = f.rval.den := by
    have h0 := f.rval.den_pos
    have h2 := h.2.2
    rw [leNat_leBytes _ _ (by omega)]
    omega
  rw [Frame.ofBytes, if_neg hl, c1, d5, d9, d13, d14, d22, d30]
  rw [take_append_len _ _ (leBytes_length _ _), take_append_len _ _ (leBytes_length _ _),
    take_append_len _ _ (leBytes_length _ _), take_append_len _ _ (leBytes_length _ _), w32, w32, w32, w64, hd,
    toInt_ofNat64 ⟨h.1, h.2.1⟩, Rat.mkRat_self]
  rfl

/-- A frame decodes to an operation of its own opcode (R72). -/
theorem Frame.decode_opcode {f : Frame} {i : Instr} (h : f.decode = .ok i) : i.opcode = f.op := by
  have key : i.opcode.toNat = f.op.toNat := by
    unfold Frame.decode narrow at h
    split at h
    case h_49 => cases h
    all_goals (rename_i e; rw [e])
    all_goals first
      | (cases h; rfl)
      | (split at h <;> first | (cases h; done) | (cases h; rfl) | (split at h <;> first | (cases h; done) | (cases h; rfl)))
  exact BitVec.eq_of_toNat_eq key

end Sys2Proof
end

