-- ==== Sys2Proof/Laws/PerInstr.lean ====
section
/-! SUPPORT. The family `Encoding`: the frame of a well-formed operation decodes to it (rules R70, R72), one lemma per
constructor. -/

namespace Sys2Proof.Laws.Encoding

/-- The frame of a well-formed operation decodes to it. -/
def Statement : Instr → Prop := fun i => i.WellFormed → i.frame.decode = .ok i

theorem i32_toI32 {x : Int} (h : fitsI32 x) : i32 (toI32 x) = x := by
  obtain ⟨h1, h2⟩ := h
  rw [i32, toI32, BitVec.toInt_ofInt, Int.bmod_eq_of_le] <;> omega

theorem fitsI32_of_card {a : Int} (h : isCardNo a) : fitsI32 a := by
  have h : 1 ≤ a ∧ a ≤ 18 := h
  constructor <;> omega

theorem fitsI32_of_chan {a : Int} (h : isChanNo a) : fitsI32 a := by
  have h : 1 ≤ a ∧ a ≤ 8 := h
  constructor <;> omega

theorem toNat_ofNat32 {n k : Nat} (h : n < 2 ^ k) (hk : k ≤ 32) : (BitVec.ofNat 32 n).toNat = n := by
  rw [BitVec.toNat_ofNat]
  exact Nat.mod_eq_of_lt (Nat.lt_of_lt_of_le h (Nat.pow_le_pow_right (by decide) hk))

theorem toNat_setWidth32 {k : Nat} (b : BitVec k) (hk : k ≤ 32) : (b.setWidth 32).toNat = b.toNat := by
  rw [BitVec.toNat_setWidth]
  exact Nat.mod_eq_of_lt (Nat.lt_of_lt_of_le b.isLt (Nat.pow_le_pow_right (by decide) hk))

theorem narrow_ofNat (op : Byte) {bits n : Nat} (h : n < 2 ^ bits) (hb : bits ≤ 32) (k : Nat → Instr) :
    narrow op bits (BitVec.ofNat 32 n) k = .ok (k n) := by
  rw [narrow, toNat_ofNat32 h hb, if_pos h]

theorem narrow_setWidth (op : Byte) {bits : Nat} (b : BitVec bits) (hb : bits ≤ 32) (k : Nat → Instr) :
    narrow op bits (b.setWidth 32) k = .ok (k b.toNat) := by
  rw [narrow, toNat_setWidth32 b hb, if_pos b.isLt]

theorem readByte (addr : Nat) : Statement (.readByte addr) := by
  intro h
  exact narrow_ofNat _ h (by decide) _

theorem writeByte (addr : Nat) (byte : Byte) : Statement (.writeByte addr byte) := by
  intro (h : addr < 2 ^ 7)
  show (if (BitVec.ofNat 32 addr).toNat < 2 ^ 7 then
    narrow 0x02#8 8 (byte.setWidth 32)
      fun b => .writeByte (BitVec.ofNat 32 addr).toNat (BitVec.ofNat 8 b)
    else _) = _
  rw [toNat_ofNat32 h (by decide), if_pos h, narrow_setWidth _ byte (by decide)]
  rw [BitVec.ofNat_toNat, BitVec.setWidth_eq]

theorem readWord (addr : Nat) (reg : Nat) : Statement (.readWord addr reg) := by
  intro (h : addr < 2 ^ 7 ∧ reg < 2 ^ 8)
  show (if (BitVec.ofNat 32 addr).toNat < 2 ^ 7 then
    narrow 0x03#8 8 (BitVec.ofNat 32 reg) fun r => .readWord (BitVec.ofNat 32 addr).toNat r
    else _) = _
  rw [toNat_ofNat32 h.1 (by decide), if_pos h.1, narrow_ofNat _ h.2 (by decide)]

theorem writeWord (addr : Nat) (reg : Nat) (word : Half) : Statement (.writeWord addr reg word) := by
  intro (h : addr < 2 ^ 7 ∧ reg < 2 ^ 8)
  show (if (BitVec.ofNat 32 addr).toNat < 2 ^ 7 ∧ (BitVec.ofNat 32 reg).toNat < 2 ^ 8 then
    narrow 0x04#8 16 (word.setWidth 32)
      fun w => .writeWord (BitVec.ofNat 32 addr).toNat (BitVec.ofNat 32 reg).toNat (BitVec.ofNat 16 w)
    else _) = _
  rw [toNat_ofNat32 h.1 (by decide), toNat_ofNat32 h.2 (by decide), if_pos h, narrow_setWidth _ word (by decide)]
  rw [BitVec.ofNat_toNat, BitVec.setWidth_eq]

theorem writeBlock (addr : Nat) (reg : Nat) (bytes : List Byte) : Statement (.writeBlock addr reg bytes) := by
  intro (h : addr < 2 ^ 7 ∧ reg < 2 ^ 8 ∧ bytes ≠ [])
  show (if (BitVec.ofNat 32 addr).toNat < 2 ^ 7 then
    narrow 0x05#8 8 (BitVec.ofNat 32 reg)
      fun r => .writeBlock (BitVec.ofNat 32 addr).toNat r bytes
    else _) = _
  rw [toNat_ofNat32 h.1 (by decide), if_pos h.1, narrow_ofNat _ h.2.1 (by decide)]

theorem readBlock (addr : Nat) (reg : Nat) (len : Nat) : Statement (.readBlock addr reg len) := by
  intro (h : addr < 2 ^ 7 ∧ reg < 2 ^ 8 ∧ 1 ≤ len ∧ len < 2 ^ 32)
  show (if (BitVec.ofNat 32 addr).toNat < 2 ^ 7 then
    narrow 0x06#8 8 (BitVec.ofNat 32 reg) fun r => .readBlock (BitVec.ofNat 32 addr).toNat r (BitVec.ofNat 32 len).toNat
    else _) = _
  rw [toNat_ofNat32 h.1 (by decide), if_pos h.1, narrow_ofNat _ h.2.1 (by decide),
    toNat_ofNat32 h.2.2.2 (by decide)]

theorem isoSet (a : Int) (enable : Byte) (aux1 : Int) (aux2 : Int) : Statement (.isoSet a enable aux1 aux2) := by
  intro h
  show Except.ok (Instr.isoSet (i32 (toI32 a)) enable (i32 (toI32 aux1)) (i32 (toI32 aux2))) = _
  rw [i32_toI32 (fitsI32_of_card h.1), i32_toI32 h.2.1, i32_toI32 h.2.2]

theorem openCard (a : Int) : Statement (.openCard a) := by
  intro h
  show Except.ok (Instr.openCard (i32 (toI32 a))) = _
  rw [i32_toI32 (fitsI32_of_card h)]

theorem closeCard (a : Int) : Statement (.closeCard a) := by
  intro h
  show Except.ok (Instr.closeCard (i32 (toI32 a))) = _
  rw [i32_toI32 (fitsI32_of_card h)]

theorem xpWrite (a : Int) (chen : Byte) (tsten : Byte) : Statement (.xpWrite a chen tsten) := by
  intro h
  show (if (chen.setWidth 32).toNat < 2 ^ 8 then
    narrow 0x20#8 8 (tsten.setWidth 32) fun t =>
      .xpWrite (i32 (toI32 a)) (BitVec.ofNat 8 (chen.setWidth 32).toNat) (BitVec.ofNat 8 t)
    else _) = _
  rw [toNat_setWidth32 chen (by decide), if_pos chen.isLt, narrow_setWidth _ tsten (by decide),
    i32_toI32 (fitsI32_of_card h)]
  rw [BitVec.ofNat_toNat, BitVec.ofNat_toNat, BitVec.setWidth_eq, BitVec.setWidth_eq]

theorem xpRead (a : Int) : Statement (.xpRead a) := by
  intro h
  show Except.ok (Instr.xpRead (i32 (toI32 a))) = _
  rw [i32_toI32 (fitsI32_of_card h)]

theorem enableChannel (a : Int) (ch : Int) (on : Byte) : Statement (.enableChannel a ch on) := by
  intro h
  show Except.ok (Instr.enableChannel (i32 (toI32 a)) (i32 (toI32 ch)) on) = _
  rw [i32_toI32 (fitsI32_of_card h.1), i32_toI32 h.2]

theorem enableTestLoad (a : Int) (ch : Int) (on : Byte) : Statement (.enableTestLoad a ch on) := by
  intro h
  show Except.ok (Instr.enableTestLoad (i32 (toI32 a)) (i32 (toI32 ch)) on) = _
  rw [i32_toI32 (fitsI32_of_card h.1), i32_toI32 h.2]

theorem isChannelEnabled (a : Int) (ch : Int) : Statement (.isChannelEnabled a ch) := by
  intro h
  show Except.ok (Instr.isChannelEnabled (i32 (toI32 a)) (i32 (toI32 ch))) = _
  rw [i32_toI32 (fitsI32_of_card h.1), i32_toI32 h.2]

theorem setLevel (a : Int) (ch : Int) (value : Int) : Statement (.setLevel a ch value) := by
  intro h
  show Except.ok (Instr.setLevel (i32 (toI32 a)) (i32 (toI32 ch)) (i32 (toI32 value))) = _
  rw [i32_toI32 (fitsI32_of_card h.1), i32_toI32 h.2.1, i32_toI32 h.2.2]

theorem setLevelMin (a : Int) (ch : Int) : Statement (.setLevelMin a ch) := by
  intro h
  show Except.ok (Instr.setLevelMin (i32 (toI32 a)) (i32 (toI32 ch))) = _
  rw [i32_toI32 (fitsI32_of_card h.1), i32_toI32 h.2]

theorem setLevelMax (a : Int) (ch : Int) : Statement (.setLevelMax a ch) := by
  intro h
  show Except.ok (Instr.setLevelMax (i32 (toI32 a)) (i32 (toI32 ch))) = _
  rw [i32_toI32 (fitsI32_of_card h.1), i32_toI32 h.2]

theorem readLevel (a : Int) (ch : Int) : Statement (.readLevel a ch) := by
  intro h
  show Except.ok (Instr.readLevel (i32 (toI32 a)) (i32 (toI32 ch))) = _
  rw [i32_toI32 (fitsI32_of_card h.1), i32_toI32 h.2]

theorem potWrite (a : Int) (ch : Int) (pattern : Word) : Statement (.potWrite a ch pattern) := by
  intro h
  show Except.ok (Instr.potWrite (i32 (toI32 a)) (i32 (toI32 ch)) pattern) = _
  rw [i32_toI32 (fitsI32_of_card h.1), i32_toI32 (fitsI32_of_chan h.2)]

theorem senseInit (a : Int) (ch : Int) : Statement (.senseInit a ch) := by
  intro h
  show Except.ok (Instr.senseInit (i32 (toI32 a)) (i32 (toI32 ch))) = _
  rw [i32_toI32 (fitsI32_of_card h.1), i32_toI32 (fitsI32_of_chan h.2)]

theorem rawShunt (a : Int) (ch : Int) : Statement (.rawShunt a ch) := by
  intro h
  show Except.ok (Instr.rawShunt (i32 (toI32 a)) (i32 (toI32 ch))) = _
  rw [i32_toI32 (fitsI32_of_card h.1), i32_toI32 (fitsI32_of_chan h.2)]

theorem rawBus (a : Int) (ch : Int) : Statement (.rawBus a ch) := by
  intro h
  show Except.ok (Instr.rawBus (i32 (toI32 a)) (i32 (toI32 ch))) = _
  rw [i32_toI32 (fitsI32_of_card h.1), i32_toI32 (fitsI32_of_chan h.2)]

theorem rawCurrent (a : Int) (ch : Int) : Statement (.rawCurrent a ch) := by
  intro h
  show Except.ok (Instr.rawCurrent (i32 (toI32 a)) (i32 (toI32 ch))) = _
  rw [i32_toI32 (fitsI32_of_card h.1), i32_toI32 (fitsI32_of_chan h.2)]

theorem rawPower (a : Int) (ch : Int) : Statement (.rawPower a ch) := by
  intro h
  show Except.ok (Instr.rawPower (i32 (toI32 a)) (i32 (toI32 ch))) = _
  rw [i32_toI32 (fitsI32_of_card h.1), i32_toI32 (fitsI32_of_chan h.2)]

theorem getBusVoltage (a : Int) (ch : Int) : Statement (.getBusVoltage a ch) := by
  intro h
  show Except.ok (Instr.getBusVoltage (i32 (toI32 a)) (i32 (toI32 ch))) = _
  rw [i32_toI32 (fitsI32_of_card h.1), i32_toI32 h.2]

theorem getShuntVoltage (a : Int) (ch : Int) : Statement (.getShuntVoltage a ch) := by
  intro h
  show Except.ok (Instr.getShuntVoltage (i32 (toI32 a)) (i32 (toI32 ch))) = _
  rw [i32_toI32 (fitsI32_of_card h.1), i32_toI32 h.2]

theorem getCurrent (a : Int) (ch : Int) : Statement (.getCurrent a ch) := by
  intro h
  show Except.ok (Instr.getCurrent (i32 (toI32 a)) (i32 (toI32 ch))) = _
  rw [i32_toI32 (fitsI32_of_card h.1), i32_toI32 h.2]

theorem cardConstruct (a : Int) : Statement (.cardConstruct a) := by
  intro h
  show Except.ok (Instr.cardConstruct (i32 (toI32 a))) = _
  rw [i32_toI32 (fitsI32_of_card h)]

theorem crateConstruct : Statement .crateConstruct := by
  intro _
  rfl

theorem shutdown : Statement .shutdown := by
  intro _
  rfl

theorem getAvailableCards : Statement .getAvailableCards := by
  intro _
  rfl

theorem crateEnableChannel (card : Int) (chan : Int) (flag : Byte) : Statement (.crateEnableChannel card chan flag) := by
  intro h
  show Except.ok (Instr.crateEnableChannel (i32 (toI32 card)) (i32 (toI32 chan)) flag) = _
  rw [i32_toI32 h.1, i32_toI32 h.2]

theorem crateEnableTestLoad (card : Int) (chan : Int) (flag : Byte) : Statement (.crateEnableTestLoad card chan flag) := by
  intro h
  show Except.ok (Instr.crateEnableTestLoad (i32 (toI32 card)) (i32 (toI32 chan)) flag) = _
  rw [i32_toI32 h.1, i32_toI32 h.2]

theorem crateIsChannelEnabled (card : Int) (chan : Int) : Statement (.crateIsChannelEnabled card chan) := by
  intro h
  show Except.ok (Instr.crateIsChannelEnabled (i32 (toI32 card)) (i32 (toI32 chan))) = _
  rw [i32_toI32 h.1, i32_toI32 h.2]

theorem crateSetLevel (card : Int) (chan : Int) (ival : Int) : Statement (.crateSetLevel card chan ival) := by
  intro h
  show Except.ok (Instr.crateSetLevel (i32 (toI32 card)) (i32 (toI32 chan)) (i32 (toI32 ival))) = _
  rw [i32_toI32 h.1, i32_toI32 h.2.1, i32_toI32 h.2.2]

theorem crateGetBusVoltage (card : Int) (chan : Int) : Statement (.crateGetBusVoltage card chan) := by
  intro h
  show Except.ok (Instr.crateGetBusVoltage (i32 (toI32 card)) (i32 (toI32 chan))) = _
  rw [i32_toI32 h.1, i32_toI32 h.2]

theorem crateGetShuntVoltage (card : Int) (chan : Int) : Statement (.crateGetShuntVoltage card chan) := by
  intro h
  show Except.ok (Instr.crateGetShuntVoltage (i32 (toI32 card)) (i32 (toI32 chan))) = _
  rw [i32_toI32 h.1, i32_toI32 h.2]

theorem crateGetCurrent (card : Int) (chan : Int) : Statement (.crateGetCurrent card chan) := by
  intro h
  show Except.ok (Instr.crateGetCurrent (i32 (toI32 card)) (i32 (toI32 chan))) = _
  rw [i32_toI32 h.1, i32_toI32 h.2]

theorem seekVoltage (card : Int) (chan : Int) (target : Rat) (step : Int) :
    Statement (.seekVoltage card chan target step) := by
  intro h
  show Except.ok (Instr.seekVoltage (i32 (toI32 card)) (i32 (toI32 chan)) target (i32 (toI32 step))) = _
  rw [i32_toI32 h.1, i32_toI32 h.2.1, i32_toI32 h.2.2.2]

theorem seekCurrent (card : Int) (chan : Int) (target : Rat) (step : Int) :
    Statement (.seekCurrent card chan target step) := by
  intro h
  show Except.ok (Instr.seekCurrent (i32 (toI32 card)) (i32 (toI32 chan)) target (i32 (toI32 step))) = _
  rw [i32_toI32 h.1, i32_toI32 h.2.1, i32_toI32 h.2.2.2]

theorem disableAllOutputs (zeroLevel : Byte) : Statement (.disableAllOutputs zeroLevel) := by
  intro _
  rfl

theorem enableAllOutputs : Statement .enableAllOutputs := by
  intro _
  rfl

theorem maxOutput : Statement .maxOutput := by
  intro _
  rfl

theorem minOutput : Statement .minOutput := by
  intro _
  rfl

theorem enableAllTestLoads : Statement .enableAllTestLoads := by
  intro _
  rfl

theorem disableAllTestLoads : Statement .disableAllTestLoads := by
  intro _
  rfl

theorem saveConfig (createNew : Byte) : Statement (.saveConfig createNew) := by
  intro _
  rfl

theorem loadConfig (enableOutputs : Byte) : Statement (.loadConfig enableOutputs) := by
  intro _
  rfl

end Sys2Proof.Laws.Encoding
end

