-- ==== Sys2Proof/Laws/Serve.lean ====
section
/-! SUPPORT. What an operation on card `i`'s devices does WHATEVER the environment answers (`Serves`): it stays inside that card,
writes no switch, and stops the machine only if a cached field of the card holds no value. Then the bracket around it. -/

namespace Sys2Proof.Machine

variable {α β : Type} {i : CardIx}

/-! ## The relation -/

/-- From `s` to `t` with card `i` open: only card `i`'s cached masks, levels and factors and its device registers other than the
switch have changed; no write of a control byte failed. -/
structure Inside (i : CardIx) (s t : State) : Prop where
  params : t.params = s.params
  running : t.running = s.running
  present : t.present = s.present
  inbox : t.inbox = s.inbox
  cards : ∀ j : CardIx, j ≠ i → t.cards[j] = s.cards[j]
  cells : ∀ k, (CardCell i k → k = swCell i) → Memory.read t.mem k = Memory.read s.mem k
  wf : Memory.wf s.mem = true → Memory.wf t.mem = true
  iso : t.cards[i].iso = s.cards[i].iso
  live : t.cards[i].live = s.cards[i].live
  complete : s.cards[i].Complete → t.cards[i].Complete
  hist : ∃ es, t.hist = s.hist ++ es ∧ ∀ e ∈ es, e.isFailedWriteByte = false

theorem Inside.refl (s : State) : Inside i s s :=
  ⟨rfl, rfl, rfl, rfl, fun _ _ => rfl, fun _ _ => rfl, id, rfl, rfl, id, [], by simp, by simp⟩

theorem Inside.trans {s t u : State} (h : Inside i s t) (h' : Inside i t u) : Inside i s u where
  params := h'.params.trans h.params
  running := h'.running.trans h.running
  present := h'.present.trans h.present
  inbox := h'.inbox.trans h.inbox
  cards j hj := (h'.cards j hj).trans (h.cards j hj)
  cells k hk := (h'.cells k hk).trans (h.cells k hk)
  wf hm := h'.wf (h.wf hm)
  iso := h'.iso.trans h.iso
  live := h'.live.trans h.live
  complete hc := h'.complete (h.complete hc)
  hist := by
    obtain ⟨es, h1, h2⟩ := h.hist
    obtain ⟨es', h1', h2'⟩ := h'.hist
    refine ⟨es ++ es', by rw [h1', h1, List.append_assoc], fun e he => ?_⟩
    rcases List.mem_append.mp he with he | he
    · exact h2 e he
    · exact h2' e he

/-- No switch changes inside a card. -/
theorem Inside.switch {s t : State} (h : Inside i s t) (j : CardIx) : t.devSw j = s.devSw j := by
  refine h.cells _ fun hj => ?_
  rw [cardCell_unique hj (cardCell_swCell j)]

theorem Inside.connected {s t : State} (h : Inside i s t) (j : CardIx) : t.connected j = s.connected j := by
  unfold State.connected
  rw [h.present, h.switch]

theorem Inside.connectedCards {s t : State} (h : Inside i s t) : t.connectedCards = s.connectedCards := by
  unfold State.connectedCards
  rw [show t.connected = s.connected from funext h.connected]

theorem Ready.inside {s t : State} (hr : Ready s i) (h : Inside i s t) : Ready t i :=
  ⟨h.wf hr.1, by rw [h.params]; exact hr.2.1, by rw [OnlyConnected, h.connectedCards]; exact hr.2.2.1,
    by rw [h.iso]; exact hr.2.2.2⟩

/-- A run of transactions that writes cells of card `i` other than its switch. -/
theorem Effect.inside {s t : State} {n : Nat} {ws : List (Nat × Byte)} {es : List Event} (h : Effect s t n ws es)
    (hw : ∀ w ∈ ws, CardCell i w.1 ∧ w.1 ≠ swCell i) (he : ∀ e ∈ es, e.isFailedWriteByte = false)
    (hc : t.cards = s.cards) : Inside i s t where
  params := h.params
  running := h.running
  present := h.present
  inbox := h.inbox
  cards _ _ := by rw [hc]
  cells k hk := h.read_other fun hm => by
    obtain ⟨w, hw1, rfl⟩ := List.mem_map.mp hm
    exact (hw w hw1).2 (hk (hw w hw1).1)
  wf hm := h.wf hm
  iso := by rw [hc]
  live := by rw [hc]
  complete := by rw [hc]; exact id
  hist := ⟨es, h.hist, he⟩

/-- An update of card `i`'s cached fields. -/
theorem inside_setCard (s : State) {c : Card} (h1 : c.iso = s.cards[i].iso) (h2 : c.live = s.cards[i].live)
    (h3 : s.cards[i].Complete → c.Complete) : Inside i s (s.setCard (cardNo i) c) := by
  have he := effect_setCard s (cardNo i) c
  have hc := setCard_cards s (cardIx?_cardNo i) c
  exact ⟨he.params, he.running, he.present, he.inbox, fun j hj => by rw [hc, cards_set_other _ _ hj],
    fun k _ => he.read_other (by simp), fun hm => he.wf hm, by rw [hc, cards_set_same]; exact h1,
    by rw [hc, cards_set_same]; exact h2, by rw [hc, cards_set_same]; exact h3, [], he.hist, by simp⟩

/-- The fields of one command are no concern of `Inside`. -/
theorem inside_scratch {s : State} (acc : Option Rat) (cnt iter : Option Nat) (l : Option Int) :
    Inside i s { s with acc := acc, cnt := cnt, iter := iter, seekLevel := l } :=
  ⟨rfl, rfl, rfl, rfl, fun _ _ => rfl, fun _ _ => rfl, id, rfl, rfl, id, [], by simp, by simp⟩

/-! ## How an operation ends -/

/-- An end reached from `s`: a value or a failure, inside card `i`; or a stop for want of a cached value. -/
def Served (i : CardIx) (s : State) : EStateM.Result Stop State α → Prop
  | .ok _ t => Inside i s t
  | .error (.failed _) t => Inside i s t
  | .error (.fault _) _ => ¬s.cards[i].Complete

/-- The operation, run with card `i` open, ends so. -/
def Op.Serves (i : CardIx) (x : Op α) : Prop := ∀ s, Ready s i → Served i s (x s)

theorem Served.from {s t : State} {r : EStateM.Result Stop State α} (h : Inside i s t) (hr : Served i t r) :
    Served i s r := by
  cases r with
  | ok v u => exact h.trans hr
  | error e u =>
    cases e with
    | failed f => exact h.trans hr
    | fault r => exact fun hc => hr (h.complete hc)

theorem served_bind {x : Op α} {f : α → Op β} {s : State} (hr : Ready s i) (hx : Served i s (x s))
    (hf : ∀ v t, x s = .ok v t → Ready t i → Served i t (f v t)) : Served i s ((x >>= f) s) := by
  rw [Op.bind_apply]
  cases h : x s with
  | ok v t =>
    rw [h] at hx
    exact Served.from hx (hf v t h (hr.inside hx))
  | error e t => rw [h] at hx; cases e <;> exact hx

theorem serves_bind {x : Op α} {f : α → Op β} (hx : x.Serves i) (hf : ∀ v, (f v).Serves i) : (x >>= f).Serves i :=
  fun s hr => served_bind hr (hx s hr) fun v t _ ht => hf v t ht

theorem serves_pure (v : α) : (pure v : Op α).Serves i := fun s _ => Inside.refl s

theorem serves_raise (f : Failure) : (raise f : Op α).Serves i := fun s _ => Inside.refl s

theorem serves_checkArg (b : Bool) : (checkArg b).Serves i := by
  cases b
  · exact serves_raise _
  · exact serves_pure _

theorem serves_asBool (b : Option Bool) : (asBool b).Serves i := by
  cases b
  · exact serves_raise _
  · exact serves_pure _

theorem serves_chanIx (c : ChanIx) : (chanIx (chanNo c)).Serves i := by
  rw [chanIx_chanNo]
  exact serves_pure _

theorem serves_requireOpen : (requireOpen (cardNo i)).Serves i := fun s hr => by
  rw [hr.requireOpen]
  exact Inside.refl s

theorem serves_readField {field : State → Option α} (h : ∀ s : State, s.cards[i].Complete → (field s).isSome = true) :
    (readField field).Serves i := fun s _ => by
  cases hf : field s with
  | some v => rw [readField_of_some hf]; exact Inside.refl s
  | none =>
    rw [readField_of_none hf]
    intro hc
    have := h s hc
    rw [hf] at this
    cases this

theorem serves_emit {e : Event} (h : e.isFailedWriteByte = false) : (emit e).Serves i := fun s _ =>
  (effect_event s e).inside (by simp) (by simpa using h) rfl

theorem serves_forEach {body : α → Op Unit} : ∀ (xs : List α), (∀ x ∈ xs, (body x).Serves i) → (forEach xs body).Serves i
  | [], _ => serves_pure _
  | x :: xs, h => serves_bind (h x List.mem_cons_self) fun _ =>
      serves_forEach xs fun y hy => h y (List.mem_cons_of_mem x hy)

/-! ## One bus transaction on an open card -/

/-- The devices of card `i`'s sub-bus. -/
def Target.On (i : CardIx) : Target → Prop
  | .switch _ => False
  | .expander j => j = i
  | .pot j _ => j = i
  | .sense j _ => j = i

theorem byteCell_on {p : Params} {d : Target} {reg k : Nat} (hd : d.On i) (h : byteCell p d reg = some k) :
    CardCell i k ∧ k ≠ swCell i := by
  have key : ∀ a : Nat, a < 127 → CardCell i (128 * i.val + 1 + a) ∧ 128 * i.val + 1 + a ≠ swCell i := by
    intro a ha
    rw [cardCell_iff, swCell_val]; omega
  cases d with
  | switch => exact hd.elim
  | sense => cases h
  | expander j =>
    obtain rfl : j = i := hd
    simp only [byteCell] at h
    split at h
    · cases h; exact key 0 (by omega)
    · split at h
      · cases h; exact key 1 (by omega)
      · cases h
  | pot j c =>
    obtain rfl : j = i := hd
    obtain ⟨s, m, hm, -, rfl⟩ := byteCell_pot_some h
    have := c.lt; have := s.lt
    rw [cardCell_iff, potCell_val, swCell_val]; omega

theorem blockCells_on {p : Params} {d : Target} (hd : d.On i) {n : Nat} : ∀ {reg : Nat} {ks : List Nat},
    blockCells p d reg n = some ks → ∀ k ∈ ks, CardCell i k ∧ k ≠ swCell i := by
  induction n with
  | zero =>
    intro reg ks h k hk
    simp only [blockCells, Option.some.injEq] at h
    subst h
    cases hk
  | succ n ih =>
    intro reg ks h
    simp only [blockCells] at h
    split at h
    · next k ks' h1 h2 =>
      simp only [Option.some.injEq] at h
      subst h
      intro x hx
      rcases List.mem_cons.mp hx with rfl | hx
      · exact byteCell_on hd h1
      · exact ih h2 x hx
    · cases h

theorem served_wrote {s : State} {t : Txn} {ok : Bool} {ws : List (Nat × Byte)}
    (hw : ∀ w ∈ ws, CardCell i w.1 ∧ w.1 ≠ swCell i) (ht : (Event.bus t ok []).isFailedWriteByte = false) :
    Inside i s (s.wrote t ok ws) :=
  (effect_wrote s t ok ws).inside hw (by simpa using ht) (wrote_cards _ _ _ _)

theorem served_received {s : State} {t : Txn} {ok : Bool} {bs : List Byte}
    (ht : (Event.bus t ok bs).isFailedWriteByte = false) : Inside i s (s.received t ok bs) :=
  (effect_received s t ok bs).inside (by simp) (by simpa using ht) (received_cards _ _ _ _)

theorem served_transferWrite {s : State} {t : Txn} {regs : List (List (Nat × Byte))}
    (hw : ∀ ws ∈ regs, ∀ w ∈ ws, CardCell i w.1 ∧ w.1 ≠ swCell i) (ht : ∀ ok, (Event.bus t ok []).isFailedWriteByte = false) :
    Served i s (transferWrite t regs s) := by
  cases ho : s.nextAnswer.ok with
  | true =>
    rw [transferWrite_ok t regs ho]
    refine served_wrote (fun w hm => ?_) (ht true)
    obtain ⟨ws, h1, h2⟩ := List.mem_flatten.mp hm
    exact hw ws h1 w h2
  | false =>
    rw [transferWrite_fail t regs ho]
    refine served_wrote (fun w hm => ?_) (ht false)
    obtain ⟨ws, h1, h2⟩ := List.mem_flatten.mp hm
    exact hw ws (List.mem_of_mem_take h1) w h2

theorem served_transferRead {s : State} {t : Txn} {f : State → Answer → List Byte}
    (ht : ∀ ok bs, (Event.bus t ok bs).isFailedWriteByte = false) : Served i s (transferRead t f s) := by
  cases ho : s.nextAnswer.ok with
  | true => rw [transferRead_ok t f ho]; exact served_received (ht true _)
  | false => rw [transferRead_fail t f ho]; exact served_received (ht false _)

theorem served_writeBlock {s : State} {addr : Int} {reg : Nat} {bs : List Byte} {d : Target}
    (hr : s.route addr = .device d) (hd : d.On i) : Served i s (writeBlockOp addr reg bs s) := by
  unfold writeBlockOp
  rw [Op.bind_ok (reach_device hr)]
  cases bs.isEmpty with
  | true => exact Inside.refl s
  | false =>
    rw [Bool.not_false, checkArg_true, Op.pure_bind, Op.get_bind]
    cases hk : blockCells s.params d reg bs.length with
    | some ks =>
      refine served_transferWrite (fun ws h1 w h2 => ?_) (fun _ => rfl)
      obtain ⟨w', h3, rfl⟩ := List.mem_map.mp h1
      obtain rfl : w = w' := by simpa using h2
      exact blockCells_on hd hk _ (List.of_mem_zip h3).1
    | none => exact Inside.refl s

theorem served_readBlock {s : State} {addr : Int} {reg n : Nat} {d : Target}
    (hr : s.route addr = .device d) : Served i s (readBlockOp addr reg n s) := by
  unfold readBlockOp
  rw [Op.bind_ok (reach_device hr)]
  by_cases hn : 1 ≤ n
  · rw [decide_eq_true hn, checkArg_true, Op.pure_bind, Op.get_bind]
    cases blockCells s.params d reg n with
    | some ks => exact served_transferRead fun _ _ => rfl
    | none => exact Inside.refl s
  · rw [decide_eq_false hn]
    exact Inside.refl s

theorem halfCells_on {j : Nat} {w : Half} (h : 1 ≤ j ∧ j < 127) : ∀ x ∈ halfCells (128 * i.val + j) w,
    CardCell i x.1 ∧ x.1 ≠ swCell i := by
  intro x hx
  simp only [halfCells, List.mem_cons, List.not_mem_nil, or_false] at hx
  rw [cardCell_iff, swCell_val]
  rcases hx with rfl | rfl <;> simp only <;> omega

theorem served_writeWord {s : State} {addr : Int} {reg : Nat} {w : Half} {c : ChanIx}
    (hr : s.route addr = .device (.sense i c)) : Served i s (writeWordOp addr reg w s) := by
  have hc := c.lt
  unfold writeWordOp
  rw [Op.bind_ok (reach_device hr)]
  have cfg : Served i s (transferWrite (.writeWord addr reg w) [halfCells (snsCfgCell i c) (bswap16 w)] s) := by
    refine served_transferWrite (fun ws h1 x h2 => ?_) (fun _ => rfl)
    rw [List.mem_singleton.mp h1] at h2
    exact halfCells_on (j := 64 + 8 * c.val) (by omega) x (by rw [← Nat.add_assoc]; exact h2)
  have cal : Served i s (transferWrite (.writeWord addr reg w) [halfCells (snsCalCell i c) (bswap16 w)] s) := by
    refine served_transferWrite (fun ws h1 x h2 => ?_) (fun _ => rfl)
    rw [List.mem_singleton.mp h1] at h2
    exact halfCells_on (j := 66 + 8 * c.val) (by omega) x (by rw [← Nat.add_assoc]; exact h2)
  dsimp only
  rw [Op.get_bind]
  cases snsReg s.params reg with
  | none => exact Inside.refl s
  | some r => cases r <;> first | exact cfg | exact cal | exact Inside.refl s

theorem served_readWord {s : State} {addr : Int} {reg : Nat} {c : ChanIx}
    (hr : s.route addr = .device (.sense i c)) : Served i s (readWordOp addr reg s) := by
  unfold readWordOp
  rw [Op.bind_ok (reach_device hr)]
  dsimp only
  rw [Op.get_bind]
  cases snsReg s.params reg with
  | none => exact Inside.refl s
  | some r =>
    dsimp only
    rw [Op.bind_apply]
    have h := served_transferRead (i := i) (s := s) (t := .readWord addr reg)
      (f := fun u ans => wireBytes (bswap16 (u.snsContent i c ans.word r))) fun _ _ => rfl
    cases ht : transferRead (.readWord addr reg) (fun u ans => wireBytes (bswap16 (u.snsContent i c ans.word r))) s with
    | ok v t => rw [ht] at h; exact h
    | error e t => rw [ht] at h; cases e <;> exact h

/-! ## The operations on an open card -/

theorem serves_modifyCard {f : Card → Card} (h1 : ∀ c, (f c).iso = c.iso) (h2 : ∀ c, (f c).live = c.live)
    (h3 : ∀ c : Card, c.Complete → (f c).Complete) : (modifyCard (cardNo i) f).Serves i := fun s _ => by
  rw [modifyCard_apply, State.card_cardNo]
  exact inside_setCard s (h1 _) (h2 _) (h3 _)

theorem serves_setMasks (m l : Byte) : (setMasks (cardNo i) m l).Serves i :=
  serves_modifyCard (fun _ => rfl) (fun _ => rfl) fun _ h => ⟨h.1, rfl, rfl, h.2.2.2⟩

theorem serves_setLevelCache (c : ChanIx) (v : Nat) : (setLevelCache (cardNo i) c v).Serves i :=
  serves_modifyCard (fun _ => rfl) (fun _ => rfl) fun _ h =>
    ⟨h.1, h.2.1, h.2.2.1, fun k => level_set_isSome (h.2.2.2.1 k), h.2.2.2.2⟩

theorem serves_xpWriteOp (m l : Byte) : (xpWriteOp (cardNo i) m l).Serves i :=
  serves_bind serves_requireOpen fun _ s hr => by
    rw [Op.get_bind]
    exact served_bind hr (served_writeBlock (route_xp hr.2.1 hr.2.2.1) rfl) fun _ t _ ht => serves_setMasks m l t ht

theorem serves_xpReadOp : (xpReadOp (cardNo i)).Serves i :=
  serves_bind serves_requireOpen fun _ s hr => by
    rw [Op.get_bind]
    exact served_bind hr (served_readBlock (route_xp hr.2.1 hr.2.2.1)) fun _ t _ ht => serves_setMasks _ _ t ht

theorem complete_chen (s : State) (h : s.cards[i].Complete) : (s.card (cardNo i)).chen.isSome = true := by
  rw [State.card_cardNo]; exact h.2.1

theorem complete_tsten (s : State) (h : s.cards[i].Complete) : (s.card (cardNo i)).tsten.isSome = true := by
  rw [State.card_cardNo]; exact h.2.2.1

theorem complete_level (c : ChanIx) (s : State) (h : s.cards[i].Complete) :
    (s.card (cardNo i)).level[c].isSome = true := by
  rw [State.card_cardNo]; exact h.2.2.2.1 c

theorem complete_curdiv (s : State) (h : s.cards[i].Complete) : (s.card (cardNo i)).curdiv.isSome = true := by
  rw [State.card_cardNo]; exact h.2.2.2.2.1

theorem serves_enableChannelOp (c : ChanIx) (on : Byte) : (enableChannelOp (cardNo i) (chanNo c) on).Serves i :=
  serves_bind (serves_checkArg _) fun _ => serves_bind (serves_asBool _) fun _ => serves_bind serves_requireOpen fun _ =>
    serves_bind (serves_chanIx c) fun _ => serves_bind (serves_readField complete_chen) fun _ =>
      serves_bind (serves_readField complete_tsten) fun _ => serves_xpWriteOp _ _

theorem serves_enableTestLoadOp (c : ChanIx) (on : Byte) : (enableTestLoadOp (cardNo i) (chanNo c) on).Serves i :=
  serves_bind (serves_checkArg _) fun _ => serves_bind (serves_asBool _) fun _ => serves_bind serves_requireOpen fun _ =>
    serves_bind (serves_chanIx c) fun _ => serves_bind (serves_readField complete_chen) fun _ =>
      serves_bind (serves_readField complete_tsten) fun _ => serves_xpWriteOp _ _

theorem serves_isChannelEnabledOp (c : ChanIx) : (isChannelEnabledOp (cardNo i) (chanNo c)).Serves i :=
  serves_bind (serves_checkArg _) fun _ => serves_bind (serves_chanIx c) fun _ =>
    serves_bind (serves_readField complete_chen) fun _ => serves_pure _

theorem serves_potWriteOp (c : ChanIx) (p : Word) : (potWriteOp (cardNo i) (chanNo c) p).Serves i :=
  serves_bind serves_requireOpen fun _ => serves_bind (serves_chanIx c) fun d s hr => by
    rw [Op.get_bind]
    exact served_writeBlock (route_pot hr.2.1 hr.2.2.1 (potChip d)) rfl

theorem serves_setLevelOp (c : ChanIx) (v : Int) : (setLevelOp (cardNo i) (chanNo c) v).Serves i :=
  serves_bind (serves_checkArg _) fun _ => serves_bind (serves_checkArg _) fun _ => serves_bind serves_requireOpen fun _ =>
    serves_bind (serves_potWriteOp c _) fun _ => serves_bind (serves_chanIx c) fun d => serves_setLevelCache d _

theorem serves_setLevelMinOp (c : ChanIx) : (setLevelMinOp (cardNo i) (chanNo c)).Serves i :=
  serves_bind (serves_checkArg _) fun _ => serves_bind serves_requireOpen fun _ =>
    serves_bind (serves_potWriteOp c _) fun _ => serves_bind (serves_chanIx c) fun d => serves_setLevelCache d _

theorem serves_setLevelMaxOp (c : ChanIx) : (setLevelMaxOp (cardNo i) (chanNo c)).Serves i :=
  serves_bind (serves_checkArg _) fun _ => serves_bind serves_requireOpen fun _ =>
    serves_bind (serves_potWriteOp c _) fun _ => serves_bind (serves_chanIx c) fun d => serves_setLevelCache d _

theorem serves_readLevelOp (c : ChanIx) : (readLevelOp (cardNo i) (chanNo c)).Serves i :=
  serves_bind (serves_checkArg _) fun _ => serves_bind serves_requireOpen fun _ => serves_bind (serves_chanIx c) fun d s hr => by
    rw [Op.get_bind]
    exact served_bind hr (served_readBlock (route_pot hr.2.1 hr.2.2.1 (potChip d))) fun bs t _ ht =>
      serves_bind (serves_setLevelCache d _) (fun _ => serves_pure _) t ht

theorem serves_calibrate (c : ChanIx) : (calibrate c).Serves i := fun s hr => by
  unfold calibrate
  rw [Op.get_bind]
  exact served_writeWord (route_sns hr.2.1 hr.2.2.1 c)

theorem serves_readSense (c : ChanIx) (reg : Params → Nat) : (readSense c reg).Serves i := fun s hr => by
  unfold readSense
  rw [Op.get_bind]
  exact served_bind hr (served_readWord (route_sns hr.2.1 hr.2.2.1 c)) fun _ t _ _ => Inside.refl t

theorem serves_senseInitOp (c : ChanIx) : (senseInitOp (cardNo i) (chanNo c)).Serves i :=
  serves_bind serves_requireOpen fun _ => serves_bind (serves_chanIx c) fun d => serves_bind (serves_calibrate d) fun _ s hr => by
    rw [Op.get_bind]
    exact served_writeWord (route_sns hr.2.1 hr.2.2.1 d)

theorem serves_rawShuntOp (c : ChanIx) : (rawShuntOp (cardNo i) (chanNo c)).Serves i :=
  serves_bind serves_requireOpen fun _ => serves_bind (serves_chanIx c) fun d => serves_readSense d _

theorem serves_rawBusOp (c : ChanIx) : (rawBusOp (cardNo i) (chanNo c)).Serves i :=
  serves_bind serves_requireOpen fun _ => serves_bind (serves_chanIx c) fun d => serves_bind (serves_calibrate d) fun _ =>
    serves_bind (serves_readSense d _) fun _ => serves_pure _

theorem serves_rawCurrentOp (c : ChanIx) : (rawCurrentOp (cardNo i) (chanNo c)).Serves i :=
  serves_bind serves_requireOpen fun _ => serves_bind (serves_chanIx c) fun d => serves_bind (serves_calibrate d) fun _ =>
    serves_readSense d _

theorem serves_get : (get : Op State).Serves i := fun s _ => Inside.refl s

theorem serves_shuntSample (c : ChanIx) : (shuntSample (cardNo i) (chanNo c)).Serves i :=
  serves_bind (serves_rawShuntOp c) fun _ => serves_bind serves_get fun _ => serves_pure _

theorem serves_busSample (c : ChanIx) : (busSample (cardNo i) (chanNo c)).Serves i :=
  serves_bind (serves_rawBusOp c) fun _ => serves_bind serves_get fun _ => serves_pure _

theorem serves_currentSample (c : ChanIx) : (currentSample (cardNo i) (chanNo c)).Serves i :=
  serves_bind (serves_rawCurrentOp c) fun _ => serves_bind (serves_readField complete_curdiv) fun _ => serves_pure _

/-! ## The averaged reads (R151) -/

theorem serves_takeSample {sample : Op Rat} (h : sample.Serves i) (k : Nat) : (takeSample sample k).Serves i := by
  have hrest : (do
      let x ← sample
      modify fun s => { s with acc := s.acc.map (· + x), cnt := s.cnt.map (· + 1) } : Op PUnit).Serves i :=
    serves_bind h fun x s _ => inside_scratch _ _ s.iter s.seekLevel
  unfold takeSample
  split
  · exact serves_bind serves_get fun _ => serves_bind (serves_emit rfl) fun _ => hrest
  · exact hrest

/-- A sample that leaves `ACC` alone leaves it with a value if it had one. -/
theorem takeSample_acc {sample : Op Rat} (h : sample.Moves plain) {k : Nat} {s t : State} {v : Unit}
    (ha : s.acc.isSome = true) (ht : takeSample sample k s = .ok v t) : t.acc.isSome = true := by
  have hrest : ∀ {s t : State} {v : PUnit}, s.acc.isSome = true → (do
      let x ← sample
      modify fun s => { s with acc := s.acc.map (· + x), cnt := s.cnt.map (· + 1) } : Op PUnit) s = .ok v t →
      t.acc.isSome = true := by
    intro s t v ha ht
    obtain ⟨x, u, hu, ht⟩ := bind_ok_inv ht
    cases ht
    have := ((h.ok hu).average_kept (fun hf => hf)).1
    change (u.acc.map (· + x)).isSome = true
    rw [this, Option.isSome_map]
    exact ha
  unfold takeSample at ht
  split at ht
  · exact hrest (s := { s with hist := s.hist ++ [.delay .sample s.params.sampleDelayMs] }) ha ht
  · exact hrest ha ht

theorem serves_averageOp {sample : Op Rat} (h : sample.Serves i) (hm : sample.Moves plain) : (averageOp sample).Serves i := by
  intro s hr
  have key : Served i s ((do
      modify fun s => { s with acc := some 0, cnt := some 0 }
      forEach (List.range Config.pb.senseN) (takeSample sample)
      let sum ← readField State.acc
      pure (sum / Config.pb.senseN) : Op Rat) s) := by
    rw [Op.modify_bind]
    have h0 : Inside i s { s with acc := some 0, cnt := some 0 } := inside_scratch _ _ s.iter s.seekLevel
    refine Served.from h0 (served_bind (hr.inside h0) (serves_forEach _ (fun k _ => serves_takeSample h k) _ (hr.inside h0)) ?_)
    intro v t ht _
    have hacc : ∀ (xs : List Nat) {s t : State} {v : Unit}, s.acc.isSome = true →
        forEach xs (takeSample sample) s = .ok v t → t.acc.isSome = true := by
      intro xs
      induction xs with
      | nil => intro s t v ha ht; cases ht; exact ha
      | cons x xs ih =>
        intro s t v ha ht
        rw [forEach_cons] at ht
        obtain ⟨_, u, h1, h2⟩ := bind_ok_inv ht
        exact ih (takeSample_acc hm ha h1) h2
    obtain ⟨a, ha⟩ := Option.isSome_iff_exists.mp (hacc _ (s := { s with acc := some 0, cnt := some 0 }) rfl ht)
    rw [Op.bind_ok (readField_of_some ha)]
    exact Inside.refl t
  unfold averageOp dropAfter
  split
  · next v t hx => rw [hx] at key; exact key.trans (inside_scratch none none t.iter t.seekLevel)
  · next e t hx =>
    rw [hx] at key
    cases e with
    | failed f => exact key.trans (inside_scratch none none t.iter t.seekLevel)
    | fault r => exact key

theorem serves_getBusVoltageOp (c : ChanIx) : (getBusVoltageOp (cardNo i) (chanNo c)).Serves i :=
  serves_bind (serves_checkArg _) fun _ => serves_bind serves_requireOpen fun _ =>
    serves_bind (serves_averageOp (serves_busSample c) (moves_busSample _ _)) fun _ => serves_pure _

theorem serves_getShuntVoltageOp (c : ChanIx) : (getShuntVoltageOp (cardNo i) (chanNo c)).Serves i :=
  serves_bind (serves_checkArg _) fun _ => serves_bind serves_requireOpen fun _ =>
    serves_bind (serves_averageOp (serves_shuntSample c) (moves_shuntSample _ _)) fun _ => serves_pure _

theorem serves_getCurrentOp (c : ChanIx) : (getCurrentOp (cardNo i) (chanNo c)).Serves i :=
  serves_bind (serves_checkArg _) fun _ => serves_bind serves_requireOpen fun _ =>
    serves_bind (serves_averageOp (serves_currentSample c) (moves_currentSample _ _)) fun _ => serves_pure _

/-! ## The seek (R201) -/

/-- A run that may average. -/
abbrev averaging : Kind → Prop := fun k => k = .average

theorem served_seekLoop {sense : Op Rat} (h : sense.Serves i) (hm : sense.Moves averaging) (c : ChanIx) (target : Rat)
    (step : Int) : ∀ (fuel : Nat) (s : State), Ready s i → s.seekLevel.isSome = true →
      Served i s (seekLoop (cardNo i) (chanNo c) target step sense fuel s)
  | 0, s, _, _ => Inside.refl s
  | fuel + 1, s, hr, hs => by
    unfold seekLoop
    rw [Op.bind_ok (emit_apply _ _)]
    have h0 : Inside i s { s with hist := s.hist ++ [.delay .settle Config.pb.seekSettleMs] } :=
      (serves_emit (i := i) rfl : (emit (.delay .settle Config.pb.seekSettleMs)).Serves i) s hr
    have hr0 := hr.inside h0
    refine Served.from h0 (served_bind hr0 (h _ hr0) fun x t ht hrt => ?_)
    have hts : t.seekLevel.isSome = true := by
      rw [((hm.ok ht).seek_kept (by decide)).2]
      exact hs
    rw [Op.modify_bind]
    have h1 : Inside i t { t with iter := t.iter.map (· + 1) } := inside_scratch _ _ _ _
    obtain ⟨l, hl⟩ := Option.isSome_iff_exists.mp hts
    rw [Op.bind_ok (readField_of_some (field := State.seekLevel) (s := { t with iter := t.iter.map (· + 1) }) hl)]
    refine Served.from h1 ?_
    split
    · exact Inside.refl _
    · rw [Op.modify_bind]
      have h2 : Inside i { t with iter := t.iter.map (· + 1) }
          { t with iter := t.iter.map (· + 1), seekLevel := some (seekMove target x l step) } := inside_scratch _ _ _ _
      have hr2 := (hrt.inside h1).inside h2
      have hset := serves_setLevelOp (i := i) c (seekMove target x l step) _ hr2
      refine Served.from h2 (served_bind hr2 hset fun _ u hu hru => ?_)
      refine served_seekLoop h hm c target step fuel u hru ?_
      have mv : Machine.Moves plain { t with iter := t.iter.map (· + 1), seekLevel := some (seekMove target x l step) } u :=
        (moves_setLevelOp _ _ _).ok hu
      rw [(mv.seek_kept (fun hf => hf)).2]
      rfl

theorem serves_seekOp {sense : Op Rat} (h : sense.Serves i) (hm : sense.Moves averaging) (c : ChanIx) (target : Rat)
    (step : Int) : (seekOp (cardNo i) (chanNo c) target step sense).Serves i := by
  intro s hr
  have key : Served i s ((do
      let d ← chanIx (chanNo c)
      let level ← cachedLevel (cardNo i) d
      modify fun s => { s with iter := some 0, seekLevel := some (level : Int) }
      seekLoop (cardNo i) (chanNo c) target step sense Config.pb.seekMaxIter : Op Value) s) := by
    rw [chanIx_chanNo, Op.pure_bind]
    refine served_bind hr (serves_readField (complete_level c) s hr) fun level t _ ht => ?_
    rw [Op.modify_bind]
    have h1 : Inside i t { t with iter := some 0, seekLevel := some (level : Int) } := inside_scratch _ _ _ _
    exact Served.from h1 (served_seekLoop h hm c target step _ _ (ht.inside h1) rfl)
  unfold seekOp dropAfter
  split
  · next v t hx => rw [hx] at key; exact key.trans (inside_scratch _ _ none none)
  · next e t hx =>
    rw [hx] at key
    cases e with
    | failed f => exact key.trans (inside_scratch _ _ none none)
    | fault r => exact key

/-! ## Discovery (R161): it fails with `BusError` or not at all -/

/-- The operation, run with card `i` open, ends with a value or with `BusError`. -/
def Op.BusOnly (i : CardIx) (x : Op α) : Prop := ∀ s, Ready s i → ∀ e t, x s = .error e t → e = .failed .busError

theorem busOnly_pure (v : α) : (pure v : Op α).BusOnly i := fun _ _ _ _ h => by cases h

theorem busOnly_bind {x : Op α} {f : α → Op β} (hs : x.Serves i) (hx : x.BusOnly i) (hf : ∀ v, (f v).BusOnly i) :
    (x >>= f).BusOnly i := by
  intro s hr e t h
  rw [Op.bind_apply] at h
  have h1 := hs s hr
  cases hxs : x s with
  | ok v u =>
    rw [hxs] at h h1
    exact hf v u (hr.inside h1) e t h
  | error e' u =>
    rw [hxs] at h
    cases h
    exact hx s hr _ _ hxs

theorem busOnly_requireOpen : (requireOpen (cardNo i)).BusOnly i := fun s hr e t h => by
  rw [hr.requireOpen] at h
  cases h

theorem transferWrite_error {s t : State} {tx : Txn} {regs : List (List (Nat × Byte))} {e : Stop}
    (h : transferWrite tx regs s = .error e t) : e = .failed .busError := by
  cases ho : s.nextAnswer.ok with
  | true => rw [transferWrite_ok tx regs ho] at h; cases h
  | false => rw [transferWrite_fail tx regs ho] at h; cases h; rfl

theorem readBlock_error {s t : State} {addr : Int} {reg n : Nat} {d : Target} {ks : List Nat} {e : Stop}
    (hr : s.route addr = .device d) (hn : 1 ≤ n) (hk : blockCells s.params d reg n = some ks)
    (h : readBlockOp addr reg n s = .error e t) : e = .failed .busError := by
  cases ho : s.nextAnswer.ok with
  | true => rw [readBlockOp_ok hr hn hk ho] at h; cases h
  | false =>
    unfold readBlockOp at h
    rw [Op.bind_ok (reach_device hr), decide_eq_true hn, checkArg_true, Op.pure_bind, Op.get_bind, hk] at h
    dsimp only at h
    rw [transferRead_fail _ _ ho] at h
    cases h
    rfl

theorem busOnly_xpReadOp : (xpReadOp (cardNo i)).BusOnly i := by
  refine busOnly_bind serves_requireOpen busOnly_requireOpen fun _ s hr e t h => ?_
  rw [Op.get_bind, Op.bind_apply] at h
  cases hb : readBlockOp s.params.xpAddr s.params.xpReg 2 s with
  | ok bs u => rw [hb] at h; cases h
  | error e' u =>
    rw [hb] at h
    cases h
    exact readBlock_error (route_xp hr.2.1 hr.2.2.1) (by omega) (blockCells_xp _ _) hb

theorem busOnly_readLevelOp (c : ChanIx) : (readLevelOp (cardNo i) (chanNo c)).BusOnly i := by
  unfold readLevelOp
  rw [isChannel_chanNo, checkArg_true, Op.pure_bind, chanIx_chanNo]
  refine busOnly_bind serves_requireOpen busOnly_requireOpen fun _ s hr e t h => ?_
  rw [Op.pure_bind, Op.get_bind, Op.bind_apply] at h
  cases hb : readBlockOp s.params.potAddr[potChip c] s.params.potReg[potSub c] Config.pb.potSubregs s with
  | ok bs u => rw [hb] at h; cases h
  | error e' u =>
    rw [hb] at h
    cases h
    exact readBlock_error (route_pot hr.2.1 hr.2.2.1 _) (by decide) (blockCells_pot hr.2.1 _ _ _) hb

theorem busOnly_calibrate (c : ChanIx) : (calibrate c).BusOnly i := by
  intro s hr e t h
  unfold calibrate at h
  rw [Op.get_bind] at h
  unfold writeWordOp at h
  rw [Op.bind_ok (reach_device (route_sns hr.2.1 hr.2.2.1 c))] at h
  dsimp only at h
  rw [Op.get_bind, snsReg_cal hr.2.1] at h
  exact transferWrite_error h

theorem busOnly_senseInitOp (c : ChanIx) : (senseInitOp (cardNo i) (chanNo c)).BusOnly i := by
  unfold senseInitOp
  rw [chanIx_chanNo]
  refine busOnly_bind serves_requireOpen busOnly_requireOpen fun _ => ?_
  rw [Op.pure_bind]
  refine busOnly_bind (serves_calibrate c) (busOnly_calibrate c) fun _ s hr e t h => ?_
  rw [Op.get_bind] at h
  unfold writeWordOp at h
  rw [Op.bind_ok (reach_device (route_sns hr.2.1 hr.2.2.1 c))] at h
  dsimp only at h
  rw [Op.get_bind, snsReg_cfg] at h
  exact transferWrite_error h

theorem busOnly_forEach {body : α → Op Unit} : ∀ (xs : List α), (∀ x ∈ xs, (body x).Serves i) →
    (∀ x ∈ xs, (body x).BusOnly i) → (forEach xs body).BusOnly i
  | [], _, _ => busOnly_pure _
  | x :: xs, hs, h => busOnly_bind (hs x List.mem_cons_self) (h x List.mem_cons_self) fun _ =>
      busOnly_forEach xs (fun y hy => hs y (List.mem_cons_of_mem x hy)) fun y hy => h y (List.mem_cons_of_mem x hy)

theorem discoverOp_eq : discoverOp (cardNo i) = (do
    xpReadOp (cardNo i)
    forEach (List.finRange Config.pb.nChan) fun c => do
      let _ ← readLevelOp (cardNo i) (chanNo c)
    forEach (List.finRange Config.pb.nChan) fun c => senseInitOp (cardNo i) (chanNo c)
    let p := (← get).params
    modifyCard (cardNo i) fun c => { c with curdiv := some p.curdiv, pwrmul := some p.pwrmul }) := by
  unfold discoverOp
  rw [forEach_allChans, forEach_allChans]

theorem serves_discoverOp : (discoverOp (cardNo i)).Serves i := by
  rw [discoverOp_eq]
  exact serves_bind serves_xpReadOp fun _ =>
    serves_bind (serves_forEach _ fun c _ => serves_bind (serves_readLevelOp c) fun _ => serves_pure _) fun _ =>
      serves_bind (serves_forEach _ fun c _ => serves_senseInitOp c) fun _ => serves_bind serves_get fun s =>
        serves_modifyCard (fun _ => rfl) (fun _ => rfl) fun _ h => ⟨h.1, h.2.1, h.2.2.1, h.2.2.2.1, rfl, rfl⟩

theorem busOnly_discoverOp : (discoverOp (cardNo i)).BusOnly i := by
  rw [discoverOp_eq]
  exact busOnly_bind serves_xpReadOp busOnly_xpReadOp fun _ =>
    busOnly_bind (serves_forEach _ fun c _ => serves_bind (serves_readLevelOp c) fun _ => serves_pure _)
      (busOnly_forEach _ (fun c _ => serves_bind (serves_readLevelOp c) fun _ => serves_pure _)
        fun c _ => busOnly_bind (serves_readLevelOp c) (busOnly_readLevelOp c) fun _ => busOnly_pure _) fun _ =>
      busOnly_bind (serves_forEach _ fun c _ => serves_senseInitOp c)
        (busOnly_forEach _ (fun c _ => serves_senseInitOp c) fun c _ => busOnly_senseInitOp c) fun _ s _ e t h => by
          cases h

/-! ## The bracket around it (R183, R20) -/

/-- An event that leaves no switch in doubt: no failed write of a control byte, but to an address where no card is plugged. -/
def Harmless (s : State) (e : Event) : Prop :=
  e.isFailedWriteByte = false ∨ ∃ (k : CardIx) (b : Byte) (r : List Byte), s.present[k] = false ∧
    e = .bus (.writeByte (s.params.isoBase + cardNo k) b) false r

/-- From `s` to `t`, a bracket on card `i`: nothing of another card has changed, and no sub-bus stays connected unless a write of
a switch's control byte failed. -/
structure Around (i : CardIx) (s t : State) : Prop where
  params : t.params = s.params
  running : t.running = s.running
  present : t.present = s.present
  inbox : t.inbox = s.inbox
  cards : ∀ j : CardIx, j ≠ i → t.cards[j] = s.cards[j]
  cells : ∀ k, ¬CardCell i k → Memory.read t.mem k = Memory.read s.mem k
  wf : Memory.wf t.mem = true
  live : t.cards[i].live = s.cards[i].live
  complete : s.cards[i].Complete → t.cards[i].Complete
  hist : ∃ es, t.hist = s.hist ++ es ∧ ((∀ e ∈ es, Harmless s e) → NoneConnected t)

/-- How a bracket ends. -/
def Bracketed (i : CardIx) (s : State) : EStateM.Result Stop State α → Prop
  | .ok _ t => Around i s t
  | .error (.failed _) t => Around i s t
  | .error (.fault _) _ => ¬s.cards[i].Complete

/-- A failed control write of a plugged card is not harmless. -/
theorem not_harmless {s : State} {b : Byte} {r : List Byte} (hp : s.present[i] = true) :
    ¬Harmless s (.bus (.writeByte (s.params.isoBase + cardNo i) b) false r) := by
  rintro (h | ⟨k, b', r', hk, h⟩)
  · cases h
  · have he : (s.params.isoBase : Int) + cardNo i = s.params.isoBase + cardNo k := by injection h with h _ _; injection h
    have : i = k := by apply Fin.ext; simp only [cardNo] at he; omega
    subst this
    rw [hp] at hk
    cases hk

/-- One control write of card `i`'s switch, around which nothing else happens. -/
theorem Effect.around {s t : State} {n : Nat} {ws : List (Nat × Byte)} {es : List Event} (h : Effect s t n ws es)
    (hm : Memory.wf s.mem = true) (hw : ∀ w ∈ ws, w.1 = swCell i) {v : Option Iso} (hv : v.isSome = true)
    (hc : t.cards = s.cards ∨ t.cards = s.cards.set i { s.cards[i] with iso := v })
    (hn : (∀ e ∈ es, Harmless s e) → NoneConnected t) : Around i s t where
  params := h.params
  running := h.running
  present := h.present
  inbox := h.inbox
  cards j hj := by
    rcases hc with hc | hc
    · rw [hc]
    · rw [hc, cards_set_other _ _ hj]
  cells k hk := h.read_other fun hmem => by
    obtain ⟨w, hw1, rfl⟩ := List.mem_map.mp hmem
    exact hk (by rw [hw w hw1]; exact cardCell_swCell i)
  wf := h.wf hm
  live := by
    rcases hc with hc | hc
    · rw [hc]
    · rw [hc, cards_set_same]
  complete hcp := by
    rcases hc with hc | hc
    · rw [hc]; exact hcp
    · rw [hc, cards_set_same]; exact ⟨hv, hcp.2⟩
  hist := ⟨es, h.hist, hn⟩

/-- What comes after a first part that left card `i` alone but for its switch. -/
theorem Inside.then_around {s t u v : State} {n : Nat} {b : Byte} {es : List Event} (hm : Memory.wf s.mem = true)
    (he : Effect s t n [(swCell i, b)] es)
    (hc : t.cards = s.cards.set i { s.cards[i] with iso := some .opened }) (hi : Inside i t u)
    (ha : Around i u v) : Around i s v := by
  have h1 := he.around (i := i) hm (by simp) (v := some .opened) rfl (.inr hc)
  obtain ⟨es1, hh1, hf1⟩ := hi.hist
  obtain ⟨es2, hh2, hn2⟩ := ha.hist
  have hp : u.present = s.present := hi.present.trans he.present
  have hpar : u.params = s.params := hi.params.trans he.params
  refine ⟨ha.params.trans hpar, ha.running.trans (hi.running.trans he.running), ha.present.trans hp,
    ha.inbox.trans (hi.inbox.trans he.inbox), fun j hj => ?_, fun k hk => ?_, ha.wf, ?_, fun hcp => ?_,
    es ++ (es1 ++ es2), by rw [hh2, hh1, he.hist]; simp, fun hall => hn2 fun e he2 => ?_⟩
  · rw [ha.cards j hj, hi.cards j hj, hc, cards_set_other _ _ hj]
  · rw [ha.cells k hk, hi.cells k fun h => absurd h hk]
    exact he.read_other (by simp only [List.map_cons, List.map_nil, List.mem_singleton]; rintro rfl; exact hk (cardCell_swCell i))
  · rw [ha.live, hi.live, hc, cards_set_same]
  · refine ha.complete (hi.complete ?_)
    rw [hc, cards_set_same]
    exact ⟨rfl, hcp.2⟩
  · have := hall e (List.mem_append_right _ (List.mem_append_right _ he2))
    unfold Harmless at this ⊢
    rw [hp, hpar]
    exact this

/-- `CLOSE` of a plugged card ends with a value or `BusError`, whatever the environment answers. -/
theorem closeOp_around {s : State} (hp : s.present[i] = true) (hm : Memory.wf s.mem = true)
    (hn : ∀ j, s.connected j = true → j = i) :
    ∃ t, (closeOp (cardNo i) s = .ok ⟨⟩ t ∨ closeOp (cardNo i) s = .error (.failed .busError) t) ∧ Around i s t := by
  cases ho : s.nextAnswer.ok with
  | true =>
    obtain ⟨t, h, he, _, hc⟩ := closeOp_runs hp ho
    exact ⟨t, .inl h, he.around hm (by simp) (v := some .closed) rfl (.inr hc) fun _ =>
      he.connected_close hm hn (by decide)⟩
  | false =>
    obtain ⟨t, ws, h, hw, he, _, hc⟩ := closeOp_fails hp ho
    refine ⟨t, .inr h, he.around hm ?_ (v := some .closed) rfl (.inl hc) fun hall => ?_⟩
    · rcases hw with rfl | rfl <;> simp
    · exact absurd (hall _ (List.mem_singleton.mpr rfl)) (not_harmless hp)

/-- R183: a bracket on card `i`, from a state with no sub-bus connected, whatever the environment answers. -/
theorem withOpen_bracketed {body : Op α} {s : State} (hm : Memory.wf s.mem = true) (hv : s.params.Valid)
    (hn : NoneConnected s) (hb : body.Serves i) :
    Bracketed i s (withOpen (cardNo i) body s) := by
  have hnc := connectedCards_eq_nil.mp hn
  cases hp : s.present[i] with
  | false =>
    obtain ⟨t, h, he, _, hc⟩ := openOp_absent hp
    rw [withOpen, bracket_acquire_fails h]
    exact he.around hm (by simp) (v := some .opened) rfl (.inl hc) fun _ => by
      rw [NoneConnected, he.connectedCards (by simp)]; exact hn
  | true =>
    cases ho : s.nextAnswer.ok with
    | false =>
      obtain ⟨t, ws, h, hw, he, _, hc⟩ := openOp_fails hp ho
      rw [withOpen, bracket_acquire_fails h]
      refine he.around hm ?_ (v := some .opened) rfl (.inl hc) fun hall => ?_
      · rcases hw with rfl | rfl <;> simp
      · exact absurd (hall _ (List.mem_singleton.mpr rfl)) (not_harmless hp)
    | true =>
      obtain ⟨t, h, he, _, hc⟩ := openOp_runs hp ho
      have hr : Ready t i := ready_of_open hm hv hn hp he hc
      have hbody := hb t hr
      have hcp : s.cards[i].Complete → t.cards[i].Complete := fun hcp => by
        rw [hc, cards_set_same]; exact ⟨rfl, hcp.2⟩
      have finish : ∀ u, Inside i t u → ∃ w, (closeOp (cardNo i) u = .ok ⟨⟩ w ∨
          closeOp (cardNo i) u = .error (.failed .busError) w) ∧ Around i s w := by
        intro u hi
        have hru := hr.inside hi
        obtain ⟨w, hw, ha⟩ := closeOp_around (s := u) (by rw [hi.present, he.present]; exact hp) hru.1
          hru.2.2.1.eq
        exact ⟨w, hw, Inside.then_around hm he hc hi ha⟩
      cases hx : body t with
      | ok v u =>
        rw [hx] at hbody
        obtain ⟨w, hw | hw, ha⟩ := finish u hbody
        · rw [withOpen, bracket_ok h hx hw]; exact ha
        · rw [withOpen, bracket_release_fails h hx hw]; exact ha
      | error e u =>
        rw [hx] at hbody
        cases e with
        | failed f =>
          obtain ⟨w, hw | hw, ha⟩ := finish u hbody
          · rw [withOpen, bracket_body_fails h hx hw]; exact ha
          · rw [withOpen, bracket_both_fail h hx hw]; exact ha
        | fault r =>
          have : withOpen (cardNo i) body s = .error (.fault r) u := by
            rw [withOpen, bracket, Op.bind_ok h, releaseAfter, hx]
          rw [this]
          exact fun hcs => hbody (hcp hcs)

/-! ## Construction (R161, R162), whatever the environment answers -/

/-- From `s` to `t` no sub-bus stays connected, unless a write of a switch's control byte failed on the way. -/
structure Calm (s t : State) : Prop where
  params : t.params = s.params
  present : t.present = s.present
  wf : Memory.wf t.mem = true
  hist : ∃ es, t.hist = s.hist ++ es ∧ ((∀ e ∈ es, Harmless s e) → NoneConnected t)

theorem Around.calm {s t : State} (h : Around i s t) : Calm s t := ⟨h.params, h.present, h.wf, h.hist⟩

theorem Calm.setCard {s t : State} (h : Calm s t) (a : Int) (c : Card) : Calm s (t.setCard a c) := by
  have he := effect_setCard t a c
  obtain ⟨es, hh, hn⟩ := h.hist
  refine ⟨he.params.trans h.params, he.present.trans h.present, he.wf h.wf, es, by rw [he.hist, hh]; simp, fun hall => ?_⟩
  rw [NoneConnected, he.connectedCards (by simp)]
  exact hn hall

theorem Calm.after_setCard {s t : State} {a : Int} {c : Card} (h : Calm (s.setCard a c) t) : Calm s t := by
  have he := effect_setCard s a c
  obtain ⟨es, hh, hn⟩ := h.hist
  refine ⟨h.params.trans he.params, h.present.trans he.present, h.wf, es, by rw [hh, he.hist]; simp, fun hall => hn ?_⟩
  intro e hmem
  have := hall e hmem
  unfold Harmless at this ⊢
  rw [he.params, he.present]
  exact this

/-- `CARD_CONSTRUCT` always answers, and is calm, from a state with no sub-bus connected. -/
theorem cardConstructOp_calm {s : State} (hm : Memory.wf s.mem = true) (hv : s.params.Valid) (hn : NoneConnected s) :
    ∃ b u, cardConstructOp (cardNo i) s = .ok b u ∧ Calm s u := by
  let s0 := s.setCard (cardNo i) { s.card (cardNo i) with iso := some .closed }
  have he0 : Effect s s0 0 [] [] := effect_setCard _ _ _
  have hm0 : Memory.wf s0.mem = true := he0.wf hm
  have hv0 : s0.params.Valid := by rw [he0.params]; exact hv
  have hn0 : NoneConnected s0 := (he0.connectedCards (by simp)).trans hn
  have start : ∀ f : Bool → Op Bool, ((do setIso (cardNo i) .closed; f (← attempt (openOp (cardNo i)))) : Op Bool) s =
      ((do f (← attempt (openOp (cardNo i)))) : Op Bool) s0 := fun f => Op.bind_ok (modifyCard_apply _ _ _)
  have done : ∀ {t}, Calm s0 t → Calm s t := fun h => Calm.after_setCard h
  have absent : ∀ {t}, openOp (cardNo i) s0 = .error (.failed .busError) t → Around i s0 t →
      ∃ b u, cardConstructOp (cardNo i) s = .ok b u ∧ Calm s u := by
    intro t h ha
    refine ⟨false, t.setCard (cardNo i) Card.blank, ?_, done (ha.calm.setCard _ _)⟩
    unfold cardConstructOp forgetCard
    rw [start, Op.bind_ok (attempt_busError h), if_neg (by simp), Op.modify_bind]
    rfl
  cases hp : s0.present[i] with
  | false =>
    obtain ⟨t, h, he, _, hc⟩ := openOp_absent hp
    exact absent h (he.around hm0 (by simp) (v := some .opened) rfl (.inl hc) fun _ => by
      rw [NoneConnected, he.connectedCards (by simp)]; exact hn0)
  | true =>
    cases ho : s0.nextAnswer.ok with
    | false =>
      obtain ⟨t, ws, h, hw, he, _, hc⟩ := openOp_fails hp ho
      refine absent h (he.around hm0 ?_ (v := some .opened) rfl (.inl hc) fun hall => ?_)
      · rcases hw with rfl | rfl <;> simp
      · exact absurd (hall _ (List.mem_singleton.mpr rfl)) (not_harmless hp)
    | true =>
      obtain ⟨t1, h1, he1, _, hc1⟩ := openOp_runs hp ho
      have hr : Ready t1 i := ready_of_open hm0 hv0 hn0 hp he1 hc1
      have close : ∀ {u}, Inside i t1 u → ∃ w, (closeOp (cardNo i) u = .ok ⟨⟩ w ∨
          closeOp (cardNo i) u = .error (.failed .busError) w) ∧ Calm s0 w := by
        intro u hi
        have hru := hr.inside hi
        obtain ⟨w, hw, ha⟩ := closeOp_around (s := u) (by rw [hi.present, he1.present]; exact hp) hru.1 hru.2.2.1.eq
        exact ⟨w, hw, (Inside.then_around hm0 he1 hc1 hi ha).calm⟩
      have hd := serves_discoverOp t1 hr
      cases hx : discoverOp (cardNo i) t1 with
      | ok v u =>
        rw [hx] at hd
        obtain ⟨w, hw | hw, hcalm⟩ := close hd
        · refine ⟨true, w.setCard (cardNo i) { w.card (cardNo i) with live := true }, ?_, done (hcalm.setCard _ _)⟩
          unfold cardConstructOp
          rw [start, Op.bind_ok (attempt_ok h1), if_pos rfl, Op.bind_ok (attempt_ok hx), if_pos rfl,
            Op.bind_ok (attempt_ok hw), if_pos rfl, Op.bind_ok (modifyCard_apply _ _ _)]
          rfl
        · refine ⟨false, w.setCard (cardNo i) Card.blank, ?_, done (hcalm.setCard _ _)⟩
          unfold cardConstructOp forgetCard
          rw [start, Op.bind_ok (attempt_ok h1), if_pos rfl, Op.bind_ok (attempt_ok hx), if_pos rfl,
            Op.bind_ok (attempt_busError hw), if_neg (by simp), Op.modify_bind]
          rfl
      | error e u =>
        obtain rfl := busOnly_discoverOp t1 hr e u hx
        rw [hx] at hd
        obtain ⟨w, hw | hw, hcalm⟩ := close hd
        · refine ⟨false, w.setCard (cardNo i) Card.blank, ?_, done (hcalm.setCard _ _)⟩
          unfold cardConstructOp forgetCard
          rw [start, Op.bind_ok (attempt_ok h1), if_pos rfl, Op.bind_ok (attempt_busError hx), if_neg (by simp),
            Op.bind_ok (attempt_ok hw), Op.modify_bind]
          rfl
        · refine ⟨false, w.setCard (cardNo i) Card.blank, ?_, done (hcalm.setCard _ _)⟩
          unfold cardConstructOp forgetCard
          rw [start, Op.bind_ok (attempt_ok h1), if_pos rfl, Op.bind_ok (attempt_busError hx), if_neg (by simp),
            Op.bind_ok (attempt_busError hw), Op.modify_bind]
          rfl

end Sys2Proof.Machine
end

