-- ==== Sys2Proof/Laws/Restore.lean ====
section
/-! SUPPORT. What a loop over the live cards that came to its end did (R191, R212), whatever else the environment might have
answered. -/

namespace Sys2Proof.Machine

variable {α β : Type}

/-- A loop that came to its end carried `P` from round to round. -/
theorem forEach_inv {body : α → Op Unit} {all : List α} (P : List α → State → Prop)
    (step : ∀ done x rest s t, done ++ x :: rest = all → P done s → body x s = .ok ⟨⟩ t → P (done ++ [x]) t) :
    ∀ {s t : State} {v : Unit}, P [] s → forEach all body s = .ok v t → P all t := by
  suffices h : ∀ rest done s t v, done ++ rest = all → P done s → forEach rest body s = .ok v t → P all t by
    intro s t v h0 ht
    exact h all [] s t v rfl h0 ht
  intro rest
  induction rest with
  | nil =>
    intro done s t v hd hP ht
    cases ht
    rw [List.append_nil] at hd
    exact hd ▸ hP
  | cons x rest ih =>
    intro done s t v hd hP ht
    rw [forEach_cons] at ht
    obtain ⟨_, u, hu, ht⟩ := bind_ok_inv ht
    exact ih (done ++ [x]) u t v (by simpa using hd) (step done x rest s u hd hP hu) ht

/-- An `OPEN` that came to its end: the card is plugged and the environment answered. -/
theorem openOp_ok_inv {s t : State} {i : CardIx} {v : Unit} (h : openOp (cardNo i) s = .ok v t) :
    s.present[i] = true ∧ s.nextAnswer.ok = true := by
  cases hp : s.present[i] with
  | false =>
    obtain ⟨u, hu, _⟩ := openOp_absent hp
    rw [hu] at h; cases h
  | true =>
    cases ho : s.nextAnswer.ok with
    | true => exact ⟨rfl, rfl⟩
    | false =>
      obtain ⟨u, _, hu, _⟩ := openOp_fails hp ho
      rw [hu] at h; cases h

theorem closeOp_ok_inv {s t : State} {i : CardIx} {v : Unit} (h : closeOp (cardNo i) s = .ok v t) :
    s.present[i] = true ∧ s.nextAnswer.ok = true := by
  cases hp : s.present[i] with
  | false =>
    obtain ⟨u, hu, _⟩ := closeOp_absent hp
    rw [hu] at h; cases h
  | true =>
    cases ho : s.nextAnswer.ok with
    | true => exact ⟨rfl, rfl⟩
    | false =>
      obtain ⟨u, _, hu, _⟩ := closeOp_fails hp ho
      rw [hu] at h; cases h

theorem releaseAfter_ok_inv {release : Op Unit} {body : Op α} {s t : State} {v : α}
    (h : releaseAfter release body s = .ok v t) : ∃ u, body s = .ok v u ∧ release u = .ok ⟨⟩ t := by
  unfold releaseAfter at h
  cases hb : body s with
  | ok w u =>
    rw [hb] at h
    dsimp only at h
    cases hr : release u with
    | ok x y => rw [hr] at h; cases h; exact ⟨u, rfl, hr⟩
    | error e y => rw [hr] at h; cases h
  | error e u =>
    rw [hb] at h
    cases e with
    | fault r => cases h
    | failed f =>
      dsimp only at h
      cases hr : release u with
      | ok x y => rw [hr] at h; cases h
      | error e y => rw [hr] at h; cases e <;> cases h

/-- A bracket that came to its end: its three parts did. -/
theorem withOpen_ok_inv {body : Op α} {s t : State} {i : CardIx} {v : α} (h : withOpen (cardNo i) body s = .ok v t) :
    ∃ u w, openOp (cardNo i) s = .ok ⟨⟩ u ∧ body u = .ok v w ∧ closeOp (cardNo i) w = .ok ⟨⟩ t := by
  obtain ⟨_, u, hu, h⟩ := bind_ok_inv h
  obtain ⟨w, hw, h⟩ := releaseAfter_ok_inv h
  exact ⟨u, w, hu, hw, h⟩

/-- A block write that came to its end. -/
theorem writeBlock_ok_inv {s t : State} {addr : Int} {reg : Nat} {bs : List Byte} {v : Unit} {d : Target}
    (hr : s.route addr = .device d) (h : writeBlockOp addr reg bs s = .ok v t) : s.nextAnswer.ok = true := by
  unfold writeBlockOp at h
  rw [Op.bind_ok (reach_device hr)] at h
  cases he : bs.isEmpty with
  | true => rw [he] at h; cases h
  | false =>
    rw [he, Bool.not_false, checkArg_true, Op.pure_bind, Op.get_bind] at h
    cases hk : blockCells s.params d reg bs.length with
    | none => rw [hk] at h; cases h
    | some ks =>
      rw [hk] at h
      cases ho : s.nextAnswer.ok with
      | true => rfl
      | false =>
        dsimp only at h
        rw [transferWrite_fail _ _ ho] at h
        cases h

theorem setLevelOp_ok_inv {s t : State} {i : CardIx} {c : ChanIx} {x : Int} {v : Unit} (hr : Ready s i)
    (h : setLevelOp (cardNo i) (chanNo c) x s = .ok v t) : (0 ≤ x ∧ x ≤ 1023) ∧ s.nextAnswer.ok = true := by
  unfold setLevelOp potWriteOp at h
  rw [isChannel_chanNo, checkArg_true, Op.pure_bind] at h
  cases hv : isLevel x with
  | false => rw [hv] at h; cases h
  | true =>
    refine ⟨isLevel_iff.mp hv, ?_⟩
    rw [hv, checkArg_true, Op.pure_bind, Op.bind_ok hr.requireOpen] at h
    obtain ⟨_, u, h1, _⟩ := bind_ok_inv h
    rw [Op.bind_ok hr.requireOpen, chanIx_chanNo, Op.pure_bind, Op.get_bind] at h1
    exact writeBlock_ok_inv (route_pot hr.2.1 hr.2.2.1 _) h1

theorem enableChannelOp_ok_inv {s t : State} {i : CardIx} {c : ChanIx} {on : Bool} {v : Unit} (hr : Ready s i)
    (h : enableChannelOp (cardNo i) (chanNo c) (byteOfBool on) s = .ok v t) : s.nextAnswer.ok = true := by
  unfold enableChannelOp xpWriteOp at h
  rw [isChannel_chanNo, checkArg_true, Op.pure_bind, boolOfByte_byteOfBool, asBool_some, Op.pure_bind,
    Op.bind_ok hr.requireOpen, chanIx_chanNo, Op.pure_bind] at h
  have field : ∀ {f : State → Option Byte} {w u : State} {m : Byte}, readField f w = .ok m u → u = w := by
    intro f w u m hf
    cases hw : f w with
    | some y => rw [readField_of_some hw] at hf; cases hf; rfl
    | none => rw [readField_of_none hw] at hf; cases hf
  obtain ⟨_, u, h1, g1⟩ := bind_ok_inv h
  rw [field h1] at g1
  obtain ⟨_, u', h2, g2⟩ := bind_ok_inv g1
  rw [field h2, Op.bind_ok hr.requireOpen, Op.get_bind] at g2
  obtain ⟨_, w, h3, _⟩ := bind_ok_inv g2
  exact writeBlock_ok_inv (route_xp hr.2.1 hr.2.2.1) h3

/-- R212: a restore of the eight channels of an open card that came to its end: every level was in range, every transaction
succeeded. -/
theorem loadChans_ok_inv {s t : State} {i : CardIx} {en : Bool} {m l : Byte} {v : Unit} (hr : Ready s i)
    (hm : s.cards[i].chen = some m) (hl : s.cards[i].tsten = some l)
    (h : forEach allChans (fun ch => loadChannelOp en (cardNo i) ch) s = .ok v t) :
    NoBusError 16 s ∧ ∀ c : ChanIx, 0 ≤ s.cfg[i][c].level ∧ s.cfg[i][c].level ≤ 1023 := by
  rw [forEach_allChans] at h
  have := forEach_inv (all := List.finRange Config.pb.nChan) (body := fun c => loadChannelOp en (cardNo i) (chanNo c))
    (P := fun done t => (∃ m' L, ChanLoop s i (2 * done.length)
        { s.cards[i] with chen := some m', tsten := some l, level := L } t) ∧
      (∀ k < 2 * done.length, (s.answer k).ok = true) ∧
      ∀ c ∈ done, 0 ≤ s.cfg[i][c].level ∧ s.cfg[i][c].level ≤ 1023) ?_ ?_ h
  · exact ⟨fun k => this.2.1 k.val (by simp), fun c => this.2.2 c (List.mem_finRange c)⟩
  · rintro done c rest t u hd ⟨⟨m', L, hloop⟩, hans, hrec⟩ hu
    have hrt : Ready t i := hloop.ready hr rfl
    obtain ⟨W, es, he, _⟩ := hloop.run
    have hent : t.cfgEntry (cardNo i) (chanNo c) = s.cfg[i][c] := by
      unfold State.cfgEntry
      rw [cardIx?_cardNo, chanIx?_chanNo, he.cfg]
    simp only [loadChannelOp] at hu
    rw [Op.get_bind, hent] at hu
    obtain ⟨_, w, hw, hu⟩ := bind_ok_inv hu
    obtain ⟨hlev, ho1⟩ := setLevelOp_ok_inv hrt hw
    obtain ⟨w', hw', he1, hs1, hc1⟩ := setLevelOp_runs c hlev hrt ho1
    rw [hw'] at hw
    cases hw
    rw [hloop.card] at hc1
    have hloop1 := hloop.then he1 hs1 hc1 pot_cells (doneEvents_one _ _)
    have hrw : Ready w i := hloop1.ready hr rfl
    have ho2 := enableChannelOp_ok_inv hrw hu
    obtain ⟨u', hu', he2, hs2, hc2⟩ := enableChannelOp_runs c _ hrw ho2 (m := m') (l := l)
      (by rw [hloop1.card]) (by rw [hloop1.card])
    rw [hu'] at hu
    cases hu
    rw [hloop1.card] at hc2
    have hloop2 := hloop1.then he2 hs2 hc2 xp_cells (doneEvents_one _ _)
    have hlen : 2 * (done ++ [c]).length = 2 * done.length + 1 + 1 := by
      rw [List.length_append, List.length_singleton]; omega
    refine ⟨⟨_, _, hlen ▸ hloop2⟩, fun k hk => ?_, fun d hd' => ?_⟩
    · rw [hlen] at hk
      by_cases h1 : k < 2 * done.length
      · exact hans k h1
      · by_cases h2 : k = 2 * done.length
        · rw [h2, ← he.nextAnswer]; exact ho1
        · rw [show k = 2 * done.length + 1 by omega, ← (he.trans he1).nextAnswer]; exact ho2
    · rcases List.mem_append.mp hd' with hd' | hd'
      · exact hrec d hd'
      · rw [List.mem_singleton.mp hd']; exact hlev
  · refine ⟨⟨m, s.cards[i].level, ?_⟩, by simp, by simp⟩
    have := ChanLoop.refl s i
    rwa [show s.cards[i] = { s.cards[i] with chen := some m, tsten := some l, level := s.cards[i].level } by
      rw [← hm, ← hl]] at this

/-- Where a loop over the live cards stands: no sub-bus connected, the cards still to come as they were, and `Q` of every live card
that is done. -/
structure LiveLoop (s : State) (Q : CardIx → Card → Prop) (done : List CardIx) (t : State) : Prop where
  wf : Memory.wf t.mem = true
  params : t.params = s.params
  cfg : t.cfg = s.cfg
  closed : NoneConnected t
  rest : ∀ i, i ∉ done → t.cards[i] = s.cards[i]
  done : ∀ i ∈ done, s.cards[i].live = true → Q i t.cards[i]

/-- R191: what a bulk command's loop that came to its end did to every live card. -/
theorem forLiveCards_ok_inv {act : Int → Op Unit} {s t : State} {v : Value} {Q : CardIx → Card → Prop}
    (hm : Memory.wf s.mem = true) (hv : s.params.Valid) (hn : NoneConnected s)
    (hact : ∀ i u w, s.cards[i].live = true → Ready u i → u.cards[i] = { s.cards[i] with iso := some .opened } →
      u.cfg = s.cfg → act (cardNo i) u = .ok ⟨⟩ w →
      ∃ n card, ChanLoop u i n card w ∧ Q i { card with iso := some .closed })
    (h : forLiveCards act s = .ok v t) : ∀ i : CardIx, s.cards[i].live = true → Q i t.cards[i] := by
  obtain ⟨_, u, hu, h⟩ := bind_ok_inv h
  cases h
  rw [forEach_allCards] at hu
  have := forEach_inv (all := List.finRange Config.pb.nCards) (P := fun done t => LiveLoop s Q done t) ?_
    (⟨hm, rfl, rfl, hn, fun _ _ => rfl, by simp⟩ : LiveLoop s Q [] s) hu
  · exact fun i hl => this.done i (List.mem_finRange i) hl
  · intro done i rest t u hd hP hu
    have hi := not_mem_done hd
    have hti := hP.rest i hi
    rw [Op.get_bind] at hu
    by_cases hl : s.cards[i].live = true
    · rw [if_pos (by unfold State.live; rw [State.card_cardNo, hti, hl])] at hu
      obtain ⟨a, b, h1, h2, h3⟩ := withOpen_ok_inv hu
      obtain ⟨hp, ho⟩ := openOp_ok_inv h1
      obtain ⟨a', h1', he1, _, hc1⟩ := openOp_runs hp ho
      rw [h1'] at h1
      cases h1
      have hr : Ready a i := ready_of_open hP.wf (by rw [hP.params]; exact hv) hP.closed hp he1 hc1
      obtain ⟨n, card, hloop, hQ⟩ := hact i a b hl hr (by rw [hc1, cards_set_same, hti]) (he1.cfg.trans hP.cfg) h2
      obtain ⟨W, es, he2, hW, _⟩ := hloop.run
      obtain ⟨hp3, ho3⟩ := closeOp_ok_inv h3
      obtain ⟨u', h3', he3, _, hc3⟩ := closeOp_runs hp3 ho3
      rw [h3'] at h3
      cases h3
      have he := (he1.trans he2).trans he3
      have hcards : u.cards = t.cards.set i { card with iso := some .closed } := by
        rw [hc3, hloop.cards, cards_set_same, cards_set_set, hc1, cards_set_set]
      refine ⟨he.wf hP.wf, he.params.trans hP.params, he.cfg.trans hP.cfg, ?_, fun j hj => ?_, fun j hj hlj => ?_⟩
      · refine he3.connected_close ((he1.trans he2).wf hP.wf) (fun j hj => ?_) (by decide)
        have : b.connectedCards = [i] := (he2.connectedCards (no_switch_of_cells hW)).trans hr.2.2.1
        exact OnlyConnected.eq this j hj
      · rw [List.mem_append, List.mem_singleton, not_or] at hj
        rw [hcards, cards_set_other _ _ hj.2]
        exact hP.rest j hj.1
      · rw [hcards]
        by_cases e : j = i
        · subst e; rw [cards_set_same]; exact hQ
        · rw [cards_set_other _ _ e]
          exact hP.done j ((List.mem_append.mp hj).resolve_right fun h => e (List.mem_singleton.mp h)) hlj
    · rw [if_neg (by unfold State.live; rw [State.card_cardNo, hti]; exact hl)] at hu
      cases hu
      refine ⟨hP.wf, hP.params, hP.cfg, hP.closed, fun j hj => hP.rest j fun h => hj (List.mem_append_left _ h),
        fun j hj hlj => ?_⟩
      rcases List.mem_append.mp hj with hj | hj
      · exact hP.done j hj hlj
      · rw [List.mem_singleton.mp hj] at hlj; exact absurd hlj hl

end Sys2Proof.Machine
end

