-- ==== Sys2Proof/Laws/Stopped.lean ====
section
/-! SUPPORT. A command over the live cards that ends with a failure (R191, R212, R229): what is done before the first failure, and
that `StoppedAt` says it all. -/

namespace Sys2Proof.Machine

variable {α : Type}

/-! ## Loops over an index, up to the one that stops them -/

/-- A loop whose every round runs, counted. -/
theorem forEach_upTo {n : Nat} {body : Fin n → Op Unit} (P : Nat → State → Prop)
    (step : ∀ (x : Fin n) t, P x.val t → ∃ u, body x t = .ok ⟨⟩ u ∧ P (x.val + 1) u) {s : State} (h : P 0 s) :
    ∃ t, forEach (List.finRange n) body s = .ok ⟨⟩ t ∧ P n t := by
  have := forEach_runs (all := List.finRange n) (body := body) (P := fun done t => P done.length t) ?_ h
  · simpa using this
  · intro done x rest t hd hP
    have hx : done.length = x.val := by
      have := congrArg (fun l => l[done.length]?) hd
      simp only [List.getElem?_append_right (le_refl _), Nat.sub_self, List.getElem?_cons_zero] at this
      obtain ⟨_, h2⟩ := List.getElem?_eq_some_iff.mp this.symm
      simpa using congrArg Fin.val h2
    rw [hx] at hP
    obtain ⟨u, hu, h'⟩ := step x t hP
    exact ⟨u, hu, by rw [List.length_append, List.length_singleton, hx]; exact h'⟩

/-- A loop whose rounds before `x` run and whose round `x` ends it. -/
theorem forEach_stops {n : Nat} {body : Fin n → Op Unit} (P : Nat → State → Prop) {R : State → Prop} {e : Stop} (x : Fin n)
    (step : ∀ y < x, ∀ t, P y.val t → ∃ u, body y t = .ok ⟨⟩ u ∧ P (y.val + 1) u)
    (stop : ∀ t, P x.val t → ∃ u, body x t = .error e u ∧ R u) {s : State} (h : P 0 s) :
    ∃ u, forEach (List.finRange n) body s = .error e u ∧ R u := by
  have key : ∀ (m k : Nat) (t : State), k + m = x.val → P k t →
      ∃ u, forEach ((List.finRange n).drop k) body t = .error e u ∧ R u := by
    intro m
    induction m with
    | zero =>
      intro k t hk hP
      obtain rfl : k = x.val := by omega
      obtain ⟨u, hu, hR⟩ := stop t hP
      refine ⟨u, ?_, hR⟩
      rw [List.drop_eq_getElem_cons (by simp), forEach_cons]
      exact Op.bind_error (by simpa using hu)
    | succ m ih =>
      intro k t hk hP
      have hx := x.isLt
      obtain ⟨u, hu, hP'⟩ := step ⟨k, by omega⟩ (show k < x.val by omega) t hP
      obtain ⟨v, hv, hR⟩ := ih (k + 1) u (by omega) hP'
      refine ⟨v, ?_, hR⟩
      rw [List.drop_eq_getElem_cons (by simpa using by omega), forEach_cons, Op.bind_ok (s' := u) (v := ⟨⟩) (by simpa using hu)]
      exact hv
  simpa using key x.val 0 s (by omega) h

/-! ## The masks and levels of the first channels -/

theorem getLsbD_byteOfBits (f : ChanIx → Bool) (d : ChanIx) : (byteOfBits f).getLsbD d.val = f d := by
  have bits : ∀ b0 b1 b2 b3 b4 b5 b6 b7 : Bool, ∀ k : ChanIx,
      (byteOfBits fun c => [b0, b1, b2, b3, b4, b5, b6, b7].getD c.val false).getLsbD k.val =
        [b0, b1, b2, b3, b4, b5, b6, b7].getD k.val false := by decide +kernel
  have hf : f = fun c => [f 0, f 1, f 2, f 3, f 4, f 5, f 6, f 7].getD c.val false := by
    funext c
    have : c = 0 ∨ c = 1 ∨ c = 2 ∨ c = 3 ∨ c = 4 ∨ c = 5 ∨ c = 6 ∨ c = 7 := by
      revert c; decide
    rcases this with rfl | rfl | rfl | rfl | rfl | rfl | rfl | rfl <;> rfl
  rw [hf]
  exact bits _ _ _ _ _ _ _ _ d

theorem getLsbD_maskUpTo (n : Nat) (f : ChanIx → Bool) (b : Byte) (d : ChanIx) :
    (maskUpTo n f b).getLsbD d.val = if d.val < n then f d else b.getLsbD d.val := getLsbD_byteOfBits _ d

theorem maskUpTo_zero (f : ChanIx → Bool) (b : Byte) : maskUpTo 0 f b = b :=
  byte_ext fun d => by rw [getLsbD_maskUpTo, if_neg (by omega)]

theorem maskUpTo_succ (c : ChanIx) (f : ChanIx → Bool) (b : Byte) :
    setMaskBit (maskUpTo c.val f b) c (f c) = maskUpTo (c.val + 1) f b :=
  byte_ext fun d => by
    rw [getLsbD_setMaskBit, getLsbD_maskUpTo, getLsbD_maskUpTo]
    by_cases e : d = c
    · subst e; simp
    · have : d.val ≠ c.val := fun h => e (Fin.ext h)
      rw [if_neg e]
      by_cases h : d.val < c.val
      · rw [if_pos h, if_pos (by omega)]
      · rw [if_neg h, if_neg (by omega)]

/-- From the eighth channel on, the mask is done. -/
theorem maskUpTo_full {m n : Nat} (hm : 8 ≤ m) (hn : 8 ≤ n) (f : ChanIx → Bool) (b : Byte) : maskUpTo m f b = maskUpTo n f b :=
  byte_ext fun d => by
    have := d.lt
    rw [getLsbD_maskUpTo, getLsbD_maskUpTo, if_pos (by omega), if_pos (by omega)]

theorem levelsUpTo_get (n : Nat) (f : ChanIx → Nat) (v : Vector (Option Nat) Config.pb.nChan) (c : ChanIx) :
    (levelsUpTo n f v)[c] = if c.val < n then some (f c) else v[c] := by
  simp [levelsUpTo]

theorem levels_ext {v w : Vector (Option Nat) Config.pb.nChan} (h : ∀ c : ChanIx, v[c] = w[c]) : v = w := by
  apply Vector.ext
  intro k hk
  exact h ⟨k, hk⟩

theorem levelsUpTo_zero (f : ChanIx → Nat) (v : Vector (Option Nat) Config.pb.nChan) : levelsUpTo 0 f v = v :=
  levels_ext fun c => by rw [levelsUpTo_get, if_neg (by omega)]

theorem levelsUpTo_succ (c : ChanIx) (f : ChanIx → Nat) (v : Vector (Option Nat) Config.pb.nChan) :
    (levelsUpTo c.val f v).set c (some (f c)) = levelsUpTo (c.val + 1) f v :=
  levels_ext fun d => by
    rw [levelsUpTo_get]
    by_cases e : d = c
    · subst e; simp
    · have hne : d.val ≠ c.val := fun h => e (Fin.ext h)
      have h1 := levelsUpTo_get c.val f v d
      simp only [Fin.getElem_fin] at h1 ⊢
      rw [Vector.getElem_set_ne _ _ (Ne.symm hne), h1]
      by_cases h : d.val < c.val
      · rw [if_pos h, if_pos (by omega)]
      · rw [if_neg h, if_neg (by omega)]

/-! ## A body that stops on an open card -/

/-- What a body on card `i` leaves that ends with the failure `f` after `a` transactions that succeeded: cells of the card but not
its switch, and card `i`'s cached state `card`. -/
structure ChanStop (s : State) (i : CardIx) (f : Failure) (a : Nat) (card : Card) (t : State) : Prop where
  run : ∃ W done failed, Effect s t (a + failed.length) W (done ++ failed) ∧
    (∀ k ∈ W.map Prod.fst, CardCell i k ∧ k ≠ swCell i) ∧ DoneEvents a done ∧
    (if f = .busError then ∃ e : Event, failed = [e] ∧ e.isFailedBus = true else failed = [])
  scratch : SameScratch s t
  cards : t.cards = s.cards.set i card

/-- The transaction after `a` fails. -/
theorem ChanLoop.fails {s t u : State} {i : CardIx} {a : Nat} {card : Card} {W : List (Nat × Byte)} {e : Event}
    (h : ChanLoop s i a card t) (he : Effect t u 1 W [e]) (hs : SameScratch t u) (hc : u.cards = t.cards)
    (hW : ∀ k ∈ W.map Prod.fst, CardCell i k ∧ k ≠ swCell i) (hf : e.isFailedBus = true) :
    ChanStop s i .busError a card u := by
  obtain ⟨W0, es0, he0, hW0, hes0⟩ := h.run
  refine ⟨⟨W0 ++ W, es0, [e], he0.trans he, fun k hk => ?_, hes0, by rw [if_pos rfl]; exact ⟨e, rfl, hf⟩⟩, h.scratch.trans hs,
    hc.trans h.cards⟩
  rw [List.map_append, List.mem_append] at hk
  exact hk.elim (hW0 k) (hW k)

/-- An argument is refused after `a` transactions. -/
theorem ChanLoop.refuses {s t : State} {i : CardIx} {a : Nat} {card : Card} (h : ChanLoop s i a card t) :
    ChanStop s i .invalidArgument a card t := by
  obtain ⟨W0, es0, he0, hW0, hes0⟩ := h.run
  exact ⟨⟨W0, es0, [], by simpa using he0, hW0, hes0, by rw [if_neg (by decide)]⟩, h.scratch, h.cards⟩

theorem xpPartial_on {i : CardIx} {m l : Byte} {ws : List (Nat × Byte)} (h : XpPartial i m l ws) :
    ∀ k ∈ ws.map Prod.fst, CardCell i k ∧ k ≠ swCell i := by
  intro k hk
  rcases xpPartial_cells h k hk with rfl | rfl
  · exact ⟨cardCell_xpCell i 0, (swCell_ne_xpCell i i 0).symm⟩
  · exact ⟨cardCell_xpCell i 1, (swCell_ne_xpCell i i 1).symm⟩

theorem pot_take_on {i : CardIx} {c : ChanIx} {bs : List Byte} {n : Nat} :
    ∀ k ∈ (((potCells i c).zip bs).take n).map Prod.fst, CardCell i k ∧ k ≠ swCell i := by
  intro k hk
  obtain ⟨j, hj, rfl⟩ := mem_potCells.mp (pot_take_cells hk)
  exact ⟨cardCell_potCell i c hj, (swCell_ne_potCell i i _ _ hj).symm⟩

/-! ## A command over the live cards (R191) -/

/-- The live cards among the first `k` addresses. -/
def State.liveAmong (s : State) (k : Nat) : Nat :=
  ((List.finRange Config.pb.nCards).take k).countP fun j => s.cards[j].live

theorem liveAmong_eq (s : State) (i : CardIx) : s.liveBelow i = s.liveAmong i.val := by
  refine countP_below (rest := (List.finRange Config.pb.nCards).drop (i.val + 1)) ?_ _
  have hi : i.val < (List.finRange Config.pb.nCards).length := by simpa using i.lt
  have hget : (List.finRange Config.pb.nCards)[i.val] = i := by simp
  have := List.drop_eq_getElem_cons hi
  rw [hget] at this
  rw [← this]
  exact List.take_append_drop _ _

theorem liveAmong_succ (s : State) (i : CardIx) :
    s.liveAmong (i.val + 1) = s.liveAmong i.val + if s.cards[i].live then 1 else 0 := by
  unfold State.liveAmong
  have hget : (List.finRange Config.pb.nCards)[i.val]? = some i := by
    rw [List.getElem?_eq_getElem (by simpa using i.lt)]; simp
  rw [List.take_add_one, List.countP_append, hget]
  simp [List.countP_cons]

theorem liveAmong_mono (s : State) {a b : Nat} (h : a ≤ b) : s.liveAmong a ≤ s.liveAmong b :=
  (List.take_sublist_take_left h).countP_le

/-- Card `j` just opened by a command that runs from `s`. -/
structure Opened (s : State) (j : CardIx) (u : State) : Prop where
  ready : Ready u j
  card : u.cards[j] = { s.cards[j] with iso := some .opened }
  cfg : u.cfg = s.cfg
  cells : ∀ k, CardCell j k → k ≠ swCell j → Memory.read u.mem k = Memory.read s.mem k

theorem Opened.xp {s u : State} {i : CardIx} (h : Opened s i u) (j : Fin 2) : u.devXp i j = s.devXp i j :=
  h.cells _ (cardCell_xpCell i j) (swCell_ne_xpCell i i j).symm

theorem Opened.pots {s u : State} {i : CardIx} (h : Opened s i u) : SamePots i s u := fun c j =>
  h.cells _ (cardCell_potCell i c j.isLt) (swCell_ne_potCell i i _ _ j.isLt).symm

/-- A live card's masks, before it is opened and after. -/
theorem Opened.masks {s u : State} {i : CardIx} (h : Opened s i u) (hr : CommandReady s) (hl : s.cards[i].live = true) :
    ∃ m l, s.cards[i].chen = some m ∧ s.cards[i].tsten = some l ∧ u.cards[i].chen = some m ∧ u.cards[i].tsten = some l := by
  obtain ⟨_, h2, h3, _⟩ := hr.2.2.2.2 i hl
  obtain ⟨m, hm⟩ := Option.isSome_iff_exists.mp h2
  obtain ⟨l, hl⟩ := Option.isSome_iff_exists.mp h3
  exact ⟨m, l, hm, hl, by rw [h.card]; exact hm, by rw [h.card]; exact hl⟩

/-- What is known of a card's devices does not depend on its switch or on other cards. -/
def DevStable (dev : Nat → CardIx → State → Prop) : Prop :=
  ∀ m j t u, (∀ k, CardCell j k → k ≠ swCell j → Memory.read u.mem k = Memory.read t.mem k) → dev m j t → dev m j u

/-- The expander's and the potentiometers' bytes of a card are kept with its cells. -/
theorem same_bytes {j : CardIx} {t u : State}
    (h : ∀ k, CardCell j k → k ≠ swCell j → Memory.read u.mem k = Memory.read t.mem k) :
    (∀ x : Fin 2, u.devXp j x = t.devXp j x) ∧ ∀ (c : ChanIx) (x : Fin 4), u.devPot j c x.val = t.devPot j c x.val :=
  ⟨fun x => h _ (cardCell_xpCell j x) (swCell_ne_xpCell j j x).symm,
    fun c x => h _ (cardCell_potCell j c x.isLt) (swCell_ne_potCell j j _ _ x.isLt).symm⟩

/-- Where a command over the live cards stands when it has passed the first `k` addresses. -/
structure LivePrefix (s : State) (n : Nat) (card : Nat → CardIx → Card) (dev : Nat → CardIx → State → Prop) (k : Nat)
    (t : State) : Prop where
  run : ∃ W es, Effect s t ((n + 2) * s.liveAmong k) W es ∧
    (∀ x ∈ W.map Prod.fst, ∃ j : CardIx, j.val < k ∧ s.cards[j].live = true ∧ CardCell j x) ∧
    DoneEvents ((n + 2) * s.liveAmong k) es
  scratch : SameScratch s t
  cards : ∀ j : CardIx, t.cards[j] = if j.val < k ∧ s.cards[j].live = true then { card n j with iso := some .closed }
    else s.cards[j]
  closed : NoneConnected t
  dev : ∀ j : CardIx, j.val < k → s.cards[j].live = true → t.devSw j = closeByte ∧ dev n j t

variable {s : State} {n : Nat} {card : Nat → CardIx → Card} {dev : Nat → CardIx → State → Prop} {act : Int → Op Unit}

theorem livePrefix_zero (hn : NoneConnected s) : LivePrefix s n card dev 0 s := by
  have h0 : s.liveAmong 0 = 0 := by simp [State.liveAmong]
  refine ⟨⟨[], [], ?_, by simp, ?_⟩, SameScratch.refl s, by simp, hn, by simp⟩
  · rw [h0]; exact Effect.refl s
  · rw [h0]; exact doneEvents_nil

/-- Past an address that is not live. -/
theorem LivePrefix.skip {i : CardIx} {t : State} (h : LivePrefix s n card dev i.val t) (hl : s.cards[i].live = false) :
    LivePrefix s n card dev (i.val + 1) t := by
  have e : s.liveAmong (i.val + 1) = s.liveAmong i.val := by rw [liveAmong_succ, hl]; rfl
  obtain ⟨W, es, he, hW, hes⟩ := h.run
  have before : ∀ j : CardIx, j.val < i.val + 1 → s.cards[j].live = true → j.val < i.val := fun j hj hlj => by
    rcases Nat.lt_succ_iff_lt_or_eq.mp hj with h | h
    · exact h
    · rw [Fin.ext h, hl] at hlj; cases hlj
  refine ⟨⟨W, es, by rw [e]; exact he, fun x hx => ?_, by rw [e]; exact hes⟩, h.scratch, fun j => ?_, h.closed, fun j hj hlj =>
    h.dev j (before j hj hlj) hlj⟩
  · obtain ⟨j, h1, h2⟩ := hW x hx
    exact ⟨j, by omega, h2⟩
  · rw [h.cards j]
    by_cases hc : j.val < i.val ∧ s.cards[j].live = true
    · rw [if_pos hc, if_pos ⟨by omega, hc.2⟩]
    · rw [if_neg hc, if_neg fun h' => hc ⟨before j h'.1 h'.2, h'.2⟩]

/-- The cells of card `i` are as they were when the first `i` addresses are passed. -/
theorem LivePrefix.cells {i : CardIx} {k : Nat} {t : State} (h : LivePrefix s n card dev k t) (hi : k ≤ i.val) {x : Nat}
    (hx : CardCell i x) : Memory.read t.mem x = Memory.read s.mem x := by
  obtain ⟨W, es, he, hW, _⟩ := h.run
  refine he.read_other fun hmem => ?_
  obtain ⟨j, hj, _, hjx⟩ := hW x hmem
  rw [cardCell_unique hx hjx] at hi
  omega

/-- Card `i`, live, plugged, opened after the first `i` addresses are passed. -/
theorem LivePrefix.opened {i : CardIx} {t : State} (h : LivePrefix s n card dev i.val t) (hm : Memory.wf s.mem = true)
    (hv : s.params.Valid) (hp : s.present[i] = true) (ho : (s.answer ((n + 2) * s.liveAmong i.val)).ok = true) :
    ∃ u, openOp (cardNo i) t = .ok ⟨⟩ u ∧ Opened s i u ∧
      Effect t u 1 [(swCell i, openByte s.params)] [switchEvent s.params i (openByte s.params)] ∧ SameScratch t u ∧
      u.cards = t.cards.set i { s.cards[i] with iso := some .opened } := by
  obtain ⟨W, es, he, hW, _⟩ := h.run
  have hpt : t.present[i] = true := by rw [he.present]; exact hp
  obtain ⟨u, hu, heu, hsu, hcu⟩ := openOp_runs hpt (by rw [he.nextAnswer]; exact ho)
  have hr : Ready u i := ready_of_open (he.wf hm) (by rw [he.params]; exact hv) h.closed hpt heu hcu
  have hti : t.cards[i] = s.cards[i] := by rw [h.cards i, if_neg (fun hh => absurd hh.1 (lt_irrefl _))]
  rw [hti] at hcu
  rw [he.params] at heu
  exact ⟨u, hu, ⟨hr, by rw [hcu, cards_set_same], heu.cfg.trans he.cfg, fun k hk hne =>
    (heu.read_other (by simpa using hne)).trans (h.cells (le_refl _) hk)⟩, heu, hsu, hcu⟩

theorem event_switch_done (p : Params) (i : CardIx) (b : Byte) : DoneEvents 1 [switchEvent p i b] := doneEvents_one _ _

/-- What is known of the cards passed does not change while card `i`'s cells are written. -/
theorem LivePrefix.dev_after {i : CardIx} {t u : State} (hd : DevStable dev) (h : LivePrefix s n card dev i.val t)
    (hu : ∀ k, ¬CardCell i k → Memory.read u.mem k = Memory.read t.mem k) (j : CardIx) (hj : j.val < i.val)
    (hl : s.cards[j].live = true) : u.devSw j = closeByte ∧ dev n j u := by
  have hne : ∀ k, CardCell j k → ¬CardCell i k := fun k hk hk' => by
    rw [cardCell_unique hk hk'] at hj; omega
  obtain ⟨h1, h2⟩ := h.dev j hj hl
  refine ⟨(hu _ (hne _ (cardCell_swCell j))).trans h1, hd n j t u (fun k hk _ => hu k (hne k hk)) h2⟩

/-- Past a live card whose bracket succeeds. -/
theorem LivePrefix.bracket {i : CardIx} {t : State} (h : LivePrefix s n card dev i.val t) (hd : DevStable dev)
    (hm : Memory.wf s.mem = true) (hv : s.params.Valid) (hl : s.cards[i].live = true) (hp : s.present[i] = true)
    (hb : NoBusError ((n + 2) * s.liveAmong i.val + (n + 2)) s)
    (hact : ∀ u, Opened s i u → NoBusError n u →
      ∃ v, act (cardNo i) u = .ok ⟨⟩ v ∧ ChanLoop u i n { card n i with iso := some .opened } v ∧ dev n i v) :
    ∃ w, withOpen (cardNo i) (act (cardNo i)) t = .ok ⟨⟩ w ∧ LivePrefix s n card dev (i.val + 1) w := by
  have e : s.liveAmong (i.val + 1) = s.liveAmong i.val + 1 := by rw [liveAmong_succ, hl]; rfl
  obtain ⟨W, es, he, hW, hes⟩ := h.run
  obtain ⟨u, hu, hou, heu, hsu, hcu⟩ := h.opened hm hv hp (hb ⟨_, by omega⟩)
  have hsu' := he.trans heu
  obtain ⟨v, hv', hloop, hdev⟩ := hact u hou ((hb.after hsu' (by omega)).mono (by omega))
  obtain ⟨W', es', he', hW', hes'⟩ := hloop.run
  have hsv := hsu'.trans he'
  obtain ⟨w, hw, hew, hsw, hcw⟩ := withOpen_ok hu hv' (by rw [hsv.present]; exact hp)
    (by rw [hsv.nextAnswer]; exact hb ⟨_, by omega⟩)
  rw [hsv.params] at hew
  have hfull := hsv.trans hew
  have hother : ∀ k, ¬CardCell i k → Memory.read w.mem k = Memory.read t.mem k := fun k hk => by
    have hks : k ≠ swCell i := fun e => hk (by rw [e]; exact cardCell_swCell i)
    rw [hew.read_other (by simpa using hks), he'.read_other fun hmem => hk (hW' k hmem).1, heu.read_other (by simpa using hks)]
  have hcards : w.cards = t.cards.set i { card n i with iso := some .closed } := by
    rw [hcw, hloop.cards, cards_set_same, cards_set_set, hcu, cards_set_set]
  refine ⟨w, hw, ⟨W ++ [(swCell i, openByte s.params)] ++ W' ++ [(swCell i, closeByte)],
    es ++ [switchEvent s.params i (openByte s.params)] ++ es' ++ [switchEvent s.params i closeByte], ?_, fun x hx => ?_, ?_⟩,
    h.scratch.trans (hsu.trans (hloop.scratch.trans hsw)), fun j => ?_, ?_, fun j hj hlj => ?_⟩
  · rw [e, show (n + 2) * (s.liveAmong i.val + 1) = (n + 2) * s.liveAmong i.val + 1 + n + 1 by rw [Nat.mul_succ]; omega]
    exact hfull
  · simp only [List.map_append, List.map_cons, List.map_nil, List.mem_append, List.mem_singleton] at hx
    rcases hx with ((hx | hx) | hx) | hx
    · obtain ⟨j, h1, h2⟩ := hW x hx
      exact ⟨j, by omega, h2⟩
    · exact ⟨i, by omega, hl, hx ▸ cardCell_swCell i⟩
    · exact ⟨i, by omega, hl, (hW' x hx).1⟩
    · exact ⟨i, by omega, hl, hx ▸ cardCell_swCell i⟩
  · rw [e, show (n + 2) * (s.liveAmong i.val + 1) = (n + 2) * s.liveAmong i.val + 1 + n + 1 by rw [Nat.mul_succ]; omega]
    exact ((hes.append (event_switch_done _ _ _)).append hes').append (event_switch_done _ _ _)
  · rw [hcards]
    by_cases e : j = i
    · subst e; rw [cards_set_same, if_pos ⟨by omega, hl⟩]
    · have : j.val ≠ i.val := fun h => e (Fin.ext h)
      rw [cards_set_other _ _ e, h.cards j]
      by_cases hc : j.val < i.val ∧ s.cards[j].live = true
      · rw [if_pos hc, if_pos ⟨by omega, hc.2⟩]
      · rw [if_neg hc, if_neg fun h' => hc ⟨by omega, h'.2⟩]
  · refine hew.connected_close (hsv.wf hm) (fun j hj => ?_) (by decide)
    have : v.connectedCards = [i] := (he'.connectedCards (no_switch_of_cells hW')).trans hou.ready.2.2.1
    exact OnlyConnected.eq this j hj
  · by_cases e : j = i
    · subst e
      exact ⟨hew.read_mem (hsv.wf hm) (by simp) (List.mem_singleton.mpr rfl),
        hd n j v w (fun k _ hne => hew.read_other (by simpa using hne)) hdev⟩
    · have : j.val ≠ i.val := fun h => e (Fin.ext h)
      exact h.dev_after hd hother j (by omega) hlj

/-! ## The card at which it ends -/

/-- What the passed cards, the cards above `i` and the cards not live are like once card `i`'s round has written cells of its own
card only. -/
theorem LivePrefix.frame {i : CardIx} {t w : State} {m : Nat} {W : List (Nat × Byte)} {es : List Event} {c : Card}
    (h : LivePrefix s n card dev i.val t) (hd : DevStable dev) (hl : s.cards[i].live = true) (he : Effect t w m W es)
    (hW : ∀ x ∈ W.map Prod.fst, CardCell i x) (hc : w.cards = t.cards.set i c) :
    (∀ j : CardIx, j < i → s.cards[j].live = true →
      w.cards[j] = { card n j with iso := some .closed } ∧ w.devSw j = closeByte ∧ dev n j w) ∧
    (∀ j : CardIx, s.cards[j].live = false ∨ i < j →
      w.cards[j] = s.cards[j] ∧ ∀ x, CardCell j x → Memory.read w.mem x = Memory.read s.mem x) := by
  obtain ⟨W0, es0, he0, hW0, _⟩ := h.run
  have hother : ∀ k, ¬CardCell i k → Memory.read w.mem k = Memory.read t.mem k := fun k hk =>
    he.read_other fun hmem => hk (hW k hmem)
  refine ⟨fun j hj hlj => ?_, fun j hj => ?_⟩
  · refine ⟨?_, h.dev_after hd hother j hj hlj⟩
    rw [hc, cards_set_other _ _ (Fin.ne_of_lt hj), h.cards j, if_pos ⟨hj, hlj⟩]
  · have hne : j ≠ i := by
      rintro rfl
      rcases hj with h | h
      · rw [hl] at h; cases h
      · exact lt_irrefl _ h
    have hnot : ¬(j.val < i.val ∧ s.cards[j].live = true) := fun h' => by
      rcases hj with h | h
      · rw [h'.2] at h; cases h
      · exact absurd h'.1 (not_lt.mpr (le_of_lt h))
    refine ⟨by rw [hc, cards_set_other _ _ hne, h.cards j, if_neg hnot], fun x hx => ?_⟩
    rw [hother x fun h' => hne (cardCell_unique hx h')]
    refine he0.read_other fun hmem => ?_
    obtain ⟨j', h1, h2, h3⟩ := hW0 x hmem
    obtain rfl := cardCell_unique hx h3
    exact hnot ⟨h1, h2⟩

/-- `StoppedAt`, from where the command stood when it came to card `i` and what card `i`'s round did. -/
theorem stoppedAt_of {op : Byte} {f : Failure} {i : CardIx} {k : Nat} {t w : State} {W : List (Nat × Byte)}
    {more failed : List Event} {c : Card} (hr : CommandReady s) (hd : DevStable dev) (hl : s.cards[i].live = true)
    (h : LivePrefix (s.beginCommand op) n card dev i.val t)
    (hf : if f = .busError then ∃ e : Event, failed = [e] ∧ e.isFailedBus = true else failed = [])
    (hmore : DoneEvents k more) (hW : ∀ x ∈ W.map Prod.fst, CardCell i x)
    (hc : w.cards = t.cards.set i c)
    (he : let taken := (n + 2) * s.liveBelow i + k + if s.present[i] then failed.length else 0
      let closing := decide (1 ≤ k ∧ k ≤ n)
      let closed := closing && (s.answer taken).ok
      Effect t w (k + (if s.present[i] then failed.length else 0) + if closing then 1 else 0) W
        (more ++ failed ++ if closing then [closeEvent s.params i closed] else []) ∧
      (if k = 0 then c = s.cards[i] ∧ ∀ x ∈ W.map Prod.fst, x = swCell i
        else c = { card (k - 1) i with iso := some (if closed then .closed else .opened) } ∧ dev (k - 1) i w) ∧
      (closed = true → w.devSw i = closeByte ∧ NoneConnected w)) :
    StoppedAt s (w.endCommand op (.failed f)) op f n i k card dev := by
  obtain ⟨W0, done0, he0, hW0, hdone0⟩ := h.run
  obtain ⟨hee, hk, hclosed⟩ := he
  have hal : (s.beginCommand op).liveAmong i.val = s.liveBelow i := (liveAmong_eq s i).symm
  rw [hal] at he0 hdone0
  obtain ⟨hfr1, hfr2⟩ := h.frame hd hl hee hW hc
  obtain ⟨hend, hscr⟩ := endCommand_effect hr.2.2.1 (he0.trans hee) (.failed f)
  have hdone := hdone0.append hmore
  refine ⟨done0 ++ more, failed, hdone.1, hdone.2, hf, rfl, ?_,
    fun j hj hlj => ⟨(hfr1 j hj hlj).1, (hfr1 j hj hlj).2.1, hd _ _ w _ (fun _ _ _ => rfl) (hfr1 j hj hlj).2.2⟩, ?_, hfr2, hclosed, hend.sameElsewhere ?_, ?_⟩
  · rw [hend.hist]
    simp only [List.append_assoc]
  · by_cases h0 : k = 0
    · rw [if_pos h0] at hk ⊢
      refine ⟨?_, fun x hx hne => ?_⟩
      · change w.cards[i] = _
        rw [hc, cards_set_same, hk.1]
      · change Memory.read w.mem x = _
        rw [hee.read_other fun hmem => hne (hk.2 x hmem)]
        exact h.cells (le_refl _) hx
    · rw [if_neg h0] at hk ⊢
      refine ⟨?_, hd _ _ w _ (fun _ _ _ => rfl) hk.2⟩
      change w.cards[i] = _
      rw [hc, cards_set_same, hk.1]
  · exact hscr
  · have := hend.took
    rwa [← Nat.add_assoc, ← Nat.add_assoc] at this

/-- R191, R229: a command over the live cards whose first failure comes at card `i`, after the first `k` transactions of its
bracket. `hruns` says what `act` does on a card it comes to the end on, `hstops` what it does on card `i` when it stops there. -/
theorem runBulk_stops {op : Byte} {f : Failure} {i : CardIx} {k : Nat} (hr : CommandReady s) (hd : DevStable dev)
    (hreach : Reaches s n i k) (hk : k ≤ n + 1) (hf : f ≠ .busError → 1 ≤ k ∧ k ≤ n)
    (hfails : if s.present[i] then f = .busError → (s.answer ((n + 2) * s.liveBelow i + k)).ok = false
      else k = 0 ∧ f = .busError)
    (hruns : ∀ j u, s.cards[j].live = true → (j < i ∨ j = i ∧ k = n + 1) → Opened s j u → NoBusError n u →
      ∃ v, act (cardNo j) u = .ok ⟨⟩ v ∧ ChanLoop u j n { card n j with iso := some .opened } v ∧ dev n j v)
    (hstops : ∀ u, 1 ≤ k → k ≤ n → Opened s i u → NoBusError (k - 1) u → (f = .busError → (u.answer (k - 1)).ok = false) →
      ∃ v, act (cardNo i) u = .error (.failed f) v ∧
        ChanStop u i f (k - 1) { card (k - 1) i with iso := some .opened } v ∧ dev (k - 1) i v) :
    ∃ t, runCommand op true noCardNeeded (forLiveCards act) s = .next t ∧ StoppedAt s t op f n i k card dev := by
  obtain ⟨hl, hplug, hb⟩ := hreach
  obtain ⟨hm, hv, hbc, hn, hcomp⟩ := hr
  have hal := liveAmong_eq s i
  have hround : ∀ t, LivePrefix (s.beginCommand op) n card dev i.val t →
      ∃ w, withOpen (cardNo i) (act (cardNo i)) t = .error (.failed f) w ∧
        StoppedAt s (w.endCommand op (.failed f)) op f n i k card dev := by
    intro t h
    have hr : CommandReady s := ⟨hm, hv, hbc, hn, hcomp⟩
    obtain ⟨W0, es0, he0, hW0, hes0⟩ := h.run
    have hpt : t.present = s.present := he0.present
    have hpar : t.params = s.params := he0.params
    have hti : t.cards[i] = s.cards[i] := by
      rw [h.cards i, if_neg (fun hh => absurd hh.1 (lt_irrefl _))]; rfl
    have hself : t.cards = t.cards.set i s.cards[i] := cards_ext fun j => by
      by_cases e : j = i
      · subst e; rw [cards_set_same, hti]
      · rw [cards_set_other _ _ e]
    have hans : ∀ m, t.answer m = s.answer ((n + 2) * s.liveBelow i + m) := fun m => by
      rw [he0.answer, show (s.beginCommand op).liveAmong i.val = s.liveBelow i from hal.symm]
      rfl
    cases hp : s.present[i] with
    | false =>
      rw [if_neg (by rw [hp]; decide)] at hfails
      obtain ⟨rfl, rfl⟩ := hfails
      obtain ⟨w, hw, hew, hsw, hcw⟩ := openOp_absent (s := t) (i := i) (by rw [hpt]; exact hp)
      rw [hpar] at hew
      refine ⟨w, bracket_acquire_fails hw, stoppedAt_of (W := []) (more := [])
        (failed := [.bus (.writeByte (s.params.isoBase + cardNo i) (openByte s.params)) false []]) (c := s.cards[i]) hr hd hl h
        (by rw [if_pos rfl]; exact ⟨_, rfl, rfl⟩) doneEvents_nil (by simp) (hcw.trans hself) ⟨?_, ?_, ?_⟩⟩
      · rw [hp]; simpa using hew
      · simp
      · simp
    | true =>
      rw [if_pos hp] at hfails
      have hpt' : t.present[i] = true := by rw [hpt]; exact hp
      rcases Nat.eq_zero_or_pos k with hk0 | hk1
      · subst hk0
        have hfb : f = .busError := by
          by_contra e
          exact absurd (hf e).1 (by omega)
        subst hfb
        obtain ⟨w, ws, hw, hws, hew, hsw, hcw⟩ := openOp_fails (s := t) (i := i) hpt' (by
          rw [← State.answer_zero, hans]; exact hfails rfl)
        rw [hpar] at hws hew
        have hcell : ∀ x ∈ ws.map Prod.fst, x = swCell i := by
          rcases hws with rfl | rfl <;> simp
        refine ⟨w, bracket_acquire_fails hw, stoppedAt_of (W := ws) (more := [])
          (failed := [.bus (.writeByte (s.params.isoBase + cardNo i) (openByte s.params)) false []]) (c := s.cards[i]) hr hd hl h
          (by rw [if_pos rfl]; exact ⟨_, rfl, rfl⟩) doneEvents_nil (fun x hx => by rw [hcell x hx]; exact cardCell_swCell i)
          (hcw.trans hself) ⟨?_, ?_, ?_⟩⟩
        · rw [hp]; simpa using hew
        · rw [if_pos rfl]; exact ⟨rfl, hcell⟩
        · simp
      · obtain ⟨u, hu, hou, heu, hsu, hcu⟩ := h.opened hm hv hp (by
          have := hb ⟨(n + 2) * s.liveBelow i, by omega⟩
          rwa [show (s.beginCommand op).liveAmong i.val = s.liveBelow i from hal.symm])
        have hou' : Opened s i u := ⟨hou.1, hou.2, hou.3, hou.4⟩
        have hua : ∀ m, u.answer m = s.answer ((n + 2) * s.liveBelow i + (1 + m)) := fun m => by rw [heu.answer, hans]
        have hswc : ∀ x ∈ [(swCell i, openByte s.params)].map Prod.fst, CardCell i x := by
          simp only [List.map_cons, List.map_nil, List.mem_singleton, forall_eq]; exact cardCell_swCell i
        by_cases hkn : k ≤ n
        · obtain ⟨v, hv', hstop, hdv⟩ := hstops u hk1 hkn hou' (fun m => by
            rw [hua]; exact hb ⟨_, by have := m.isLt; omega⟩) fun e => by
              rw [hua, show 1 + (k - 1) = k by omega]; exact hfails e
          obtain ⟨W, done, failed, hev, hW, hdone, hfl⟩ := hstop.run
          have huv := heu.trans hev
          have hpv : v.present[i] = true := by rw [huv.present]; exact hpt'
          have hvn : v.nextAnswer = s.answer ((n + 2) * s.liveBelow i + k + failed.length) := by
            rw [huv.nextAnswer, hans]; congr 1; omega
          have hvp : v.params = s.params := huv.params.trans hpar
          have hmore : DoneEvents k (switchEvent s.params i (openByte s.params) :: done) := by
            have := (event_switch_done s.params i (openByte s.params)).append hdone
            rwa [show 1 + (k - 1) = k by omega] at this
          have hvc : v.connectedCards = [i] := (hev.connectedCards (no_switch_of_cells hW)).trans hou.ready.2.2.1
          cases ho : v.nextAnswer.ok with
          | true =>
            obtain ⟨w, hw, hew, hsw, hcw⟩ := closeOp_runs hpv ho
            rw [hvp] at hew
            refine ⟨w, bracket_body_fails hu hv' hw, stoppedAt_of (failed := failed)
              (W := [(swCell i, openByte s.params)] ++ W ++ [(swCell i, closeByte)])
              (more := switchEvent s.params i (openByte s.params) :: done) (c := { card (k - 1) i with iso := some .closed })
              hr hd hl h hfl hmore ?_ ?_ ⟨?_, ?_, ?_⟩⟩
            · intro x hx
              simp only [List.map_append, List.mem_append] at hx
              rcases hx with (hx | hx) | hx
              · exact hswc x hx
              · exact (hW x hx).1
              · simp only [List.map_cons, List.map_nil, List.mem_singleton] at hx
                rw [hx]; exact cardCell_swCell i
            · rw [hcw, hstop.cards, cards_set_same, cards_set_set, hcu, cards_set_set]
            · rw [hp, if_pos rfl, decide_eq_true ⟨hk1, hkn⟩, if_pos rfl, Bool.true_and, ← hvn, ho]
              have := huv.trans hew
              rw [show 1 + (k - 1 + failed.length) + 1 = k + failed.length + 1 by omega] at this
              simpa [closeEvent, switchEvent] using this
            · rw [if_neg (by omega), hp, if_pos rfl, decide_eq_true ⟨hk1, hkn⟩, Bool.true_and, ← hvn, ho]
              exact ⟨rfl, hd _ _ v _ (fun x _ hne => hew.read_other (by simpa using hne)) hdv⟩
            · intro _
              refine ⟨hew.read_mem (huv.wf (he0.wf hm)) (by simp) (List.mem_singleton.mpr rfl), ?_⟩
              exact hew.connected_close (huv.wf (he0.wf hm)) (fun j hj => OnlyConnected.eq hvc j hj) (by decide)
          | false =>
            obtain ⟨w, ws, hw, hws, hew, hsw, hcw⟩ := closeOp_fails hpv ho
            rw [hvp] at hew
            have hwsc : ∀ x ∈ ws.map Prod.fst, x = swCell i := by rcases hws with rfl | rfl <;> simp
            refine ⟨w, bracket_both_fail hu hv' hw, stoppedAt_of (failed := failed)
              (W := [(swCell i, openByte s.params)] ++ W ++ ws)
              (more := switchEvent s.params i (openByte s.params) :: done) (c := { card (k - 1) i with iso := some .opened })
              hr hd hl h hfl hmore ?_ ?_ ⟨?_, ?_, ?_⟩⟩
            · intro x hx
              simp only [List.map_append, List.mem_append] at hx
              rcases hx with (hx | hx) | hx
              · exact hswc x hx
              · exact (hW x hx).1
              · rw [hwsc x hx]; exact cardCell_swCell i
            · rw [hcw, hstop.cards, hcu, cards_set_set]
            · rw [hp, if_pos rfl, decide_eq_true ⟨hk1, hkn⟩, if_pos rfl, Bool.true_and, ← hvn, ho]
              have := huv.trans hew
              rw [show 1 + (k - 1 + failed.length) + 1 = k + failed.length + 1 by omega] at this
              simpa [closeEvent, switchEvent] using this
            · rw [if_neg (by omega), hp, if_pos rfl, decide_eq_true ⟨hk1, hkn⟩, Bool.true_and, ← hvn, ho]
              exact ⟨rfl, hd _ _ v _ (fun x _ hne => hew.read_other fun hx => hne (hwsc x hx)) hdv⟩
            · rw [hp, if_pos rfl, decide_eq_true ⟨hk1, hkn⟩, Bool.true_and, ← hvn, ho]
              exact nofun
        · obtain rfl : k = n + 1 := by omega
          have hfb : f = .busError := by
            by_contra e
            exact absurd (hf e).2 (by omega)
          subst hfb
          obtain ⟨v, hv', hloop, hdv⟩ := hruns i u hl (.inr ⟨rfl, rfl⟩) hou' (fun m => by
            rw [hua]; exact hb ⟨_, by have := m.isLt; omega⟩)
          obtain ⟨W, done, hev, hW, hdone⟩ := hloop.run
          have huv := heu.trans hev
          have hpv : v.present[i] = true := by rw [huv.present]; exact hpt'
          obtain ⟨w, ws, hw, hws, hew, hsw, hcw⟩ := closeOp_fails hpv (by
            rw [huv.nextAnswer, hans, show 1 + n = n + 1 by omega]; exact hfails rfl)
          rw [show v.params = s.params from huv.params.trans hpar] at hew
          have hwsc : ∀ x ∈ ws.map Prod.fst, x = swCell i := by rcases hws with rfl | rfl <;> simp
          have hnc : decide (1 ≤ n + 1 ∧ n + 1 ≤ n) = false := decide_eq_false (by omega)
          refine ⟨w, bracket_release_fails hu hv' hw, stoppedAt_of (failed := [closeEvent s.params i false])
            (W := [(swCell i, openByte s.params)] ++ W ++ ws)
            (more := switchEvent s.params i (openByte s.params) :: done) (c := { card n i with iso := some .opened })
            hr hd hl h (by rw [if_pos rfl]; exact ⟨_, rfl, rfl⟩) ?_ ?_ ?_ ⟨?_, ?_, ?_⟩⟩
          · have := (event_switch_done s.params i (openByte s.params)).append hdone
            rwa [show 1 + n = n + 1 by omega] at this
          · intro x hx
            simp only [List.map_append, List.mem_append] at hx
            rcases hx with (hx | hx) | hx
            · exact hswc x hx
            · exact (hW x hx).1
            · rw [hwsc x hx]; exact cardCell_swCell i
          · rw [hcw, hloop.cards, hcu, cards_set_set]
          · rw [hp, if_pos rfl, hnc, if_neg (by decide)]
            have := huv.trans hew
            rw [show 1 + n + 1 = n + 1 + 1 by omega] at this
            simpa [closeEvent, switchEvent] using this
          · rw [if_neg (by omega), hnc]
            exact ⟨rfl, hd _ _ v _ (fun x _ hne => hew.read_other fun hx => hne (hwsc x hx)) hdv⟩
          · rw [hnc]; exact nofun
  have hloop := forEach_stops (n := Config.pb.nCards)
    (body := fun j => do if (← get).live (cardNo j) then withOpen (cardNo j) (act (cardNo j)))
    (P := LivePrefix (s.beginCommand op) n card dev)
    (R := fun w => StoppedAt s (w.endCommand op (.failed f)) op f n i k card dev) (e := .failed f) i ?_ ?_
    (livePrefix_zero (s := s.beginCommand op) hn)
  · obtain ⟨w, hw, hst⟩ := hloop
    refine ⟨_, runCommand_failed hbc.1 rfl (s' := w) ?_, hst⟩
    unfold forLiveCards
    rw [forEach_allCards, Op.bind_error hw]
  · intro j hj t h
    have hlive : t.live (cardNo j) = s.cards[j].live := by
      unfold State.live
      rw [State.card_cardNo, h.cards j, if_neg (fun hh => absurd hh.1 (lt_irrefl _))]
      rfl
    rw [Op.get_bind, hlive]
    cases hlj : s.cards[j].live with
    | false =>
      rw [if_neg (by decide)]
      exact ⟨t, rfl, h.skip hlj⟩
    | true =>
      rw [if_pos rfl]
      refine h.bracket hd hm hv hlj (hplug j hj hlj) ?_ fun u hou hbu => hruns j u hlj (.inl hj) ⟨hou.1, hou.2, hou.3, hou.4⟩ hbu
      have h1 := liveAmong_succ s j
      rw [hlj, if_pos rfl] at h1
      have h2 := liveAmong_mono s (show j.val + 1 ≤ i.val from hj)
      rw [h1, ← hal] at h2
      refine NoBusError.mono (s := s.beginCommand op) hb ?_
      calc (n + 2) * s.liveAmong j.val + (n + 2) = (n + 2) * (s.liveAmong j.val + 1) := by rw [Nat.mul_succ]
        _ ≤ (n + 2) * s.liveBelow i := Nat.mul_le_mul_left _ h2
        _ ≤ _ := Nat.le_add_right _ _
  · intro t h
    have hlive : t.live (cardNo i) = true := by
      unfold State.live
      rw [State.card_cardNo, h.cards i, if_neg (fun hh => absurd hh.1 (lt_irrefl _))]
      exact hl
    obtain ⟨w, hw, hst⟩ := hround t h
    exact ⟨w, by rw [Op.get_bind, hlive, if_pos rfl]; exact hw, hst⟩

/-! ## The eight channels of an open card, up to the one that stops them (R194 to R199, R212) -/

theorem ChanLoop.trans {s t u : State} {i : CardIx} {a b : Nat} {c d : Card} (h : ChanLoop s i a c t) (h' : ChanLoop t i b d u) :
    ChanLoop s i (a + b) d u := by
  obtain ⟨W, es, he, hW, hes⟩ := h'.run
  exact h.then he h'.scratch h'.cards hW hes

theorem ChanLoop.stop {s t u : State} {i : CardIx} {f : Failure} {a b : Nat} {c d : Card} (h : ChanLoop s i a c t)
    (h' : ChanStop t i f b d u) : ChanStop s i f (a + b) d u := by
  obtain ⟨W0, es0, he0, hW0, hes0⟩ := h.run
  obtain ⟨W, done, failed, he, hW, hdone, hf⟩ := h'.run
  refine ⟨⟨W0 ++ W, es0 ++ done, failed, ?_, fun k hk => ?_, hes0.append hdone, hf⟩, h.scratch.trans h'.scratch, ?_⟩
  · rw [Nat.add_assoc, List.append_assoc]; exact he0.trans he
  · rw [List.map_append, List.mem_append] at hk
    exact hk.elim (hW0 k) (hW k)
  · rw [h'.cards, h.cards, cards_set_set]

/-- The first answer to come after the transactions of a loop. -/
theorem ChanLoop.nextAnswer {s t : State} {i : CardIx} {a : Nat} {c : Card} (h : ChanLoop s i a c t) :
    t.nextAnswer = s.answer a := by
  obtain ⟨_, _, he, _⟩ := h.run
  exact he.nextAnswer

/-- The masks of an open card and its expander's bytes when `f` is set for the first `k` channels: `m`, `l` the masks before. -/
structure MaskLoop (s : State) (i : CardIx) (f : ChanIx → Bool) (m l : Byte) (k : Nat) (t : State) : Prop where
  loop : ChanLoop s i k { s.cards[i] with chen := some (maskUpTo k f m), tsten := some l } t
  xp0 : t.devXp i 0 = if k = 0 then s.devXp i 0 else ~~~(maskUpTo k f m)
  xp1 : t.devXp i 1 = if k = 0 then s.devXp i 1 else ~~~l
  pots : SamePots i s t

theorem maskLoop_zero {s : State} {i : CardIx} (f : ChanIx → Bool) {m l : Byte} (hm : s.cards[i].chen = some m)
    (hl : s.cards[i].tsten = some l) : MaskLoop s i f m l 0 s := by
  refine ⟨?_, by rw [if_pos rfl], by rw [if_pos rfl], fun _ _ => rfl⟩
  have := ChanLoop.refl s i
  rwa [show s.cards[i] = { s.cards[i] with chen := some (maskUpTo 0 f m), tsten := some l } by
    rw [maskUpTo_zero, ← hm, ← hl]] at this

/-- One channel switched. -/
theorem MaskLoop.step {s t : State} {i : CardIx} {f : ChanIx → Bool} {m l : Byte} (c : ChanIx)
    (h : MaskLoop s i f m l c.val t) (hr : Ready s i) (ho : t.nextAnswer.ok = true) :
    ∃ u, enableChannelOp (cardNo i) (chanNo c) (byteOfBool (f c)) t = .ok ⟨⟩ u ∧ MaskLoop s i f m l (c.val + 1) u := by
  have hrt : Ready t i := h.loop.ready hr rfl
  obtain ⟨u, hu, he, hs, hc⟩ := enableChannelOp_runs c (f c) hrt ho (m := maskUpTo c.val f m) (l := l)
    (by rw [h.loop.card]) (by rw [h.loop.card])
  rw [h.loop.card, maskUpTo_succ] at hc
  rw [maskUpTo_succ] at he
  have hx := devXp_written he hrt.1
  exact ⟨u, hu, h.loop.then he hs hc xp_cells (doneEvents_one _ _), by rw [if_neg (by omega)]; exact hx.1,
    by rw [if_neg (by omega)]; exact hx.2, fun c' j => (devPot_xp he c' j).trans (h.pots c' j)⟩

/-- The masks when the switching of channel `k` failed. -/
structure MaskStop (s : State) (i : CardIx) (f : ChanIx → Bool) (m l : Byte) (k : Nat) (t : State) : Prop where
  stop : ChanStop s i .busError k { s.cards[i] with chen := some (maskUpTo k f m), tsten := some l } t
  xp0 : t.devXp i 0 = (if k = 0 then s.devXp i 0 else ~~~(maskUpTo k f m)) ∨ t.devXp i 0 = ~~~(maskUpTo (k + 1) f m)
  xp1 : t.devXp i 1 = ~~~l ∨ (k = 0 ∧ t.devXp i 1 = s.devXp i 1)
  pots : SamePots i s t

theorem xpPartial_pots {s t : State} {i : CardIx} {m l : Byte} {n : Nat} {ws : List (Nat × Byte)} {es : List Event}
    (h : Effect s t n ws es) (hw : XpPartial i m l ws) : SamePots i s t := fun c j => by
  refine h.read_other fun hk => ?_
  have hj := j.isLt
  have h0 : (0 : Fin 2).val = 0 := rfl
  have h1 : (1 : Fin 2).val = 1 := rfl
  rcases xpPartial_cells hw _ hk with e | e <;> rw [potCell_eq, xpCell_val] at e <;> omega

theorem MaskLoop.fails {s t : State} {i : CardIx} {f : ChanIx → Bool} {m l : Byte} (c : ChanIx)
    (h : MaskLoop s i f m l c.val t) (hr : Ready s i) (ho : t.nextAnswer.ok = false) :
    ∃ u, enableChannelOp (cardNo i) (chanNo c) (byteOfBool (f c)) t = .error (.failed .busError) u ∧
      MaskStop s i f m l c.val u := by
  have hrt : Ready t i := h.loop.ready hr rfl
  obtain ⟨ws, hw, u, hu, he, hs, hc⟩ := enableChannelOp_fails c (f c) hrt ho (m := maskUpTo c.val f m) (l := l)
    (by rw [h.loop.card]) (by rw [h.loop.card])
  rw [maskUpTo_succ] at hw
  refine ⟨u, hu, h.loop.fails he hs hc (xpPartial_on hw) rfl, ?_, ?_, fun c' j => (xpPartial_pots he hw c' j).trans (h.pots c' j)⟩
  · rcases devXp_partial he hrt.1 hw with ⟨h0, h1⟩ | ⟨h0, h1⟩ | ⟨h0, h1⟩
    · exact .inl (h0.trans h.xp0)
    · exact .inr h0
    · exact .inr h0
  · have old := h.xp1
    have key : t.devXp i 1 = ~~~l ∨ (c.val = 0 ∧ t.devXp i 1 = s.devXp i 1) := by
      by_cases e : c.val = 0
      · rw [if_pos e] at old; exact .inr ⟨e, old⟩
      · rw [if_neg e] at old; exact .inl old
    rcases devXp_partial he hrt.1 hw with ⟨h0, h1⟩ | ⟨h0, h1⟩ | ⟨h0, h1⟩
    · rw [h1]; exact key
    · rw [h1]; exact key
    · exact .inl h1

/-- R194, R195: the eight channels of an open card switched as `f` says. -/
theorem switchChans_runs {s : State} {i : CardIx} (on : Bool) {m l : Byte} (hr : Ready s i) (hb : NoBusError 8 s)
    (hm : s.cards[i].chen = some m) (hl : s.cards[i].tsten = some l) :
    ∃ t, forEach allChans (fun ch => enableChannelOp (cardNo i) ch (byteOfBool on)) s = .ok ⟨⟩ t ∧
      MaskLoop s i (fun _ => on) m l 8 t := by
  rw [forEach_allChans]
  exact forEach_upTo (P := MaskLoop s i (fun _ => on) m l)
    (fun c t h => h.step c hr (by rw [h.loop.nextAnswer]; exact hb ⟨c.val, c.isLt⟩)) (maskLoop_zero _ hm hl)

theorem switchChans_fails {s : State} {i : CardIx} (on : Bool) {m l : Byte} {k : Nat} (hr : Ready s i) (hk : k < 8)
    (hf : FirstBusError k s) (hm : s.cards[i].chen = some m) (hl : s.cards[i].tsten = some l) :
    ∃ t, forEach allChans (fun ch => enableChannelOp (cardNo i) ch (byteOfBool on)) s = .error (.failed .busError) t ∧
      MaskStop s i (fun _ => on) m l k t := by
  rw [forEach_allChans]
  exact forEach_stops (P := MaskLoop s i (fun _ => on) m l) (⟨k, hk⟩ : ChanIx)
    (fun c hc t h => h.step c hr (by rw [h.loop.nextAnswer]; exact hf.1 ⟨c.val, hc⟩))
    (fun t h => h.fails ⟨k, hk⟩ hr (by rw [h.loop.nextAnswer]; exact hf.2)) (maskLoop_zero _ hm hl)

/-- The same of the test loads: `m`, `l` the masks before. -/
structure LoadLoop (s : State) (i : CardIx) (f : ChanIx → Bool) (m l : Byte) (k : Nat) (t : State) : Prop where
  loop : ChanLoop s i k { s.cards[i] with chen := some m, tsten := some (maskUpTo k f l) } t
  xp0 : t.devXp i 0 = if k = 0 then s.devXp i 0 else ~~~m
  xp1 : t.devXp i 1 = if k = 0 then s.devXp i 1 else ~~~(maskUpTo k f l)
  pots : SamePots i s t

theorem loadLoop_zero {s : State} {i : CardIx} (f : ChanIx → Bool) {m l : Byte} (hm : s.cards[i].chen = some m)
    (hl : s.cards[i].tsten = some l) : LoadLoop s i f m l 0 s := by
  refine ⟨?_, by rw [if_pos rfl], by rw [if_pos rfl], fun _ _ => rfl⟩
  have := ChanLoop.refl s i
  rwa [show s.cards[i] = { s.cards[i] with chen := some m, tsten := some (maskUpTo 0 f l) } by
    rw [maskUpTo_zero, ← hm, ← hl]] at this

theorem LoadLoop.step {s t : State} {i : CardIx} {f : ChanIx → Bool} {m l : Byte} (c : ChanIx)
    (h : LoadLoop s i f m l c.val t) (hr : Ready s i) (ho : t.nextAnswer.ok = true) :
    ∃ u, enableTestLoadOp (cardNo i) (chanNo c) (byteOfBool (f c)) t = .ok ⟨⟩ u ∧ LoadLoop s i f m l (c.val + 1) u := by
  have hrt : Ready t i := h.loop.ready hr rfl
  obtain ⟨u, hu, he, hs, hc⟩ := enableTestLoadOp_runs c (f c) hrt ho (m := m) (l := maskUpTo c.val f l)
    (by rw [h.loop.card]) (by rw [h.loop.card])
  rw [h.loop.card, maskUpTo_succ] at hc
  rw [maskUpTo_succ] at he
  have hx := devXp_written he hrt.1
  exact ⟨u, hu, h.loop.then he hs hc xp_cells (doneEvents_one _ _), by rw [if_neg (by omega)]; exact hx.1,
    by rw [if_neg (by omega)]; exact hx.2, fun c' j => (devPot_xp he c' j).trans (h.pots c' j)⟩

/-- The masks when the switching of test load `k` failed. -/
structure LoadStop (s : State) (i : CardIx) (f : ChanIx → Bool) (m l : Byte) (k : Nat) (t : State) : Prop where
  stop : ChanStop s i .busError k { s.cards[i] with chen := some m, tsten := some (maskUpTo k f l) } t
  xp0 : t.devXp i 0 = ~~~m ∨ (k = 0 ∧ t.devXp i 0 = s.devXp i 0)
  xp1 : t.devXp i 1 = (if k = 0 then s.devXp i 1 else ~~~(maskUpTo k f l)) ∨ t.devXp i 1 = ~~~(maskUpTo (k + 1) f l)
  pots : SamePots i s t

theorem LoadLoop.fails {s t : State} {i : CardIx} {f : ChanIx → Bool} {m l : Byte} (c : ChanIx)
    (h : LoadLoop s i f m l c.val t) (hr : Ready s i) (ho : t.nextAnswer.ok = false) :
    ∃ u, enableTestLoadOp (cardNo i) (chanNo c) (byteOfBool (f c)) t = .error (.failed .busError) u ∧
      LoadStop s i f m l c.val u := by
  have hrt : Ready t i := h.loop.ready hr rfl
  obtain ⟨ws, hw, u, hu, he, hs, hc⟩ := enableTestLoadOp_fails c (f c) hrt ho (m := m) (l := maskUpTo c.val f l)
    (by rw [h.loop.card]) (by rw [h.loop.card])
  rw [maskUpTo_succ] at hw
  refine ⟨u, hu, h.loop.fails he hs hc (xpPartial_on hw) rfl, ?_, ?_, fun c' j => (xpPartial_pots he hw c' j).trans (h.pots c' j)⟩
  · have old := h.xp0
    have key : t.devXp i 0 = ~~~m ∨ (c.val = 0 ∧ t.devXp i 0 = s.devXp i 0) := by
      by_cases e : c.val = 0
      · rw [if_pos e] at old; exact .inr ⟨e, old⟩
      · rw [if_neg e] at old; exact .inl old
    rcases devXp_partial he hrt.1 hw with ⟨h0, h1⟩ | ⟨h0, h1⟩ | ⟨h0, h1⟩
    · rw [h0]; exact key
    · exact .inl h0
    · exact .inl h0
  · rcases devXp_partial he hrt.1 hw with ⟨h0, h1⟩ | ⟨h0, h1⟩ | ⟨h0, h1⟩
    · exact .inl (h1.trans h.xp1)
    · exact .inl (h1.trans h.xp1)
    · exact .inr h1

/-- R198, R199: the eight test loads of an open card switched. -/
theorem switchLoads_runs {s : State} {i : CardIx} (on : Bool) {m l : Byte} (hr : Ready s i) (hb : NoBusError 8 s)
    (hm : s.cards[i].chen = some m) (hl : s.cards[i].tsten = some l) :
    ∃ t, forEach allChans (fun ch => enableTestLoadOp (cardNo i) ch (byteOfBool on)) s = .ok ⟨⟩ t ∧
      LoadLoop s i (fun _ => on) m l 8 t := by
  rw [forEach_allChans]
  exact forEach_upTo (P := LoadLoop s i (fun _ => on) m l)
    (fun c t h => h.step c hr (by rw [h.loop.nextAnswer]; exact hb ⟨c.val, c.isLt⟩)) (loadLoop_zero _ hm hl)

theorem switchLoads_fails {s : State} {i : CardIx} (on : Bool) {m l : Byte} {k : Nat} (hr : Ready s i) (hk : k < 8)
    (hf : FirstBusError k s) (hm : s.cards[i].chen = some m) (hl : s.cards[i].tsten = some l) :
    ∃ t, forEach allChans (fun ch => enableTestLoadOp (cardNo i) ch (byteOfBool on)) s = .error (.failed .busError) t ∧
      LoadStop s i (fun _ => on) m l k t := by
  rw [forEach_allChans]
  exact forEach_stops (P := LoadLoop s i (fun _ => on) m l) (⟨k, hk⟩ : ChanIx)
    (fun c hc t h => h.step c hr (by rw [h.loop.nextAnswer]; exact hf.1 ⟨c.val, hc⟩))
    (fun t h => h.fails ⟨k, hk⟩ hr (by rw [h.loop.nextAnswer]; exact hf.2)) (loadLoop_zero _ hm hl)

/-- The levels of an open card and its potentiometers when the first `k` levels are `v`, with bytes `b`. -/
structure LevelLoop (s : State) (i : CardIx) (v : Nat) (b : Byte) (k : Nat) (t : State) : Prop where
  loop : ChanLoop s i k { s.cards[i] with level := levelsUpTo k (fun _ => v) s.cards[i].level } t
  xp : ∀ j : Fin 2, t.devXp i j = s.devXp i j
  sent : ∀ (c : ChanIx) (j : Fin 4), c.val < k → t.devPot i c j.val = b
  rest : ∀ (c : ChanIx) (j : Fin 4), k ≤ c.val → t.devPot i c j.val = s.devPot i c j.val

theorem levelLoop_zero (s : State) (i : CardIx) (v : Nat) (b : Byte) : LevelLoop s i v b 0 s := by
  refine ⟨?_, fun _ => rfl, fun _ _ h => absurd h (by omega), fun _ _ _ => rfl⟩
  have := ChanLoop.refl s i
  rwa [show s.cards[i] = { s.cards[i] with level := levelsUpTo 0 (fun _ => v) s.cards[i].level } by
    rw [levelsUpTo_zero]] at this

/-- A write of one channel's level, with bytes `b`, that succeeds or fails. -/
structure LevelOp (op : Int → Op Unit) (i : CardIx) (v : Nat) (b : Byte) : Prop where
  runs : ∀ (c : ChanIx) (t : State), Ready t i → t.nextAnswer.ok = true →
    ∃ es, (op (chanNo c)).Runs t ⟨⟩ 1 ((potCells i c).zip [b, b, b, b]) es
      (t.cards.set i { t.cards[i] with level := t.cards[i].level.set c (some v) }) ∧ DoneEvents 1 es
  fails : ∀ (c : ChanIx) (t : State), Ready t i → t.nextAnswer.ok = false →
    ∃ n tx, (op (chanNo c)).Fails t 1 (((potCells i c).zip [b, b, b, b]).take n) [.bus tx false []] t.cards

theorem levelOp_min (i : CardIx) : LevelOp (setLevelMinOp (cardNo i)) i 0 0x00#8 where
  runs c _ hr ho := ⟨_, setLevelMinOp_runs c hr ho, doneEvents_one _ _⟩
  fails c _ hr ho := by
    obtain ⟨n, h⟩ := setLevelMinOp_fails c hr ho
    exact ⟨n, _, h⟩

theorem levelOp_max (i : CardIx) : LevelOp (setLevelMaxOp (cardNo i)) i 1023 0xFF#8 where
  runs c _ hr ho := ⟨_, setLevelMaxOp_runs c hr ho, doneEvents_one _ _⟩
  fails c _ hr ho := by
    obtain ⟨n, h⟩ := setLevelMaxOp_fails c hr ho
    exact ⟨n, _, h⟩

theorem LevelLoop.step {s t : State} {i : CardIx} {op : Int → Op Unit} {v : Nat} {b : Byte} (hop : LevelOp op i v b)
    (c : ChanIx) (h : LevelLoop s i v b c.val t) (hr : Ready s i) (ho : t.nextAnswer.ok = true) :
    ∃ u, op (chanNo c) t = .ok ⟨⟩ u ∧ LevelLoop s i v b (c.val + 1) u := by
  have hrt : Ready t i := h.loop.ready hr rfl
  obtain ⟨es, ⟨u, hu, he, hs, hc⟩, hes⟩ := hop.runs c t hrt ho
  rw [h.loop.card] at hc
  dsimp only at hc
  rw [levelsUpTo_succ c (fun _ => v)] at hc
  refine ⟨u, hu, h.loop.then he hs hc pot_cells hes, fun j => (devXp_pot he j).trans (h.xp j), fun d j hd => ?_, fun d j hd => ?_⟩
  · by_cases e : d = c
    · subst e
      rw [devPot_written he hrt.1 j]
      have hj := j.isLt
      have : j.val = 0 ∨ j.val = 1 ∨ j.val = 2 ∨ j.val = 3 := by omega
      rcases this with e | e | e | e <;> simp [e]
    · have : d.val ≠ c.val := fun h => e (Fin.ext h)
      rw [devPot_other he e j.isLt, h.sent d j (by omega)]
  · have : d ≠ c := fun e => by rw [e] at hd; omega
    rw [devPot_other he this j.isLt, h.rest d j (by omega)]

/-- A potentiometer write that failed leaves the other channels' bytes and the expander's. -/
theorem pot_take_frame {s t : State} {i : CardIx} {c : ChanIx} {m n : Nat} {es : List Event} {bs : List Byte}
    (h : Effect s t m (((potCells i c).zip bs).take n) es) :
    (∀ j : Fin 2, t.devXp i j = s.devXp i j) ∧
      ∀ (d : ChanIx) (j : Fin 4), d ≠ c → t.devPot i d j.val = s.devPot i d j.val := by
  refine ⟨fun j => h.read_other fun hk => ?_, fun d j hd => h.read_other fun hk => ?_⟩
  · obtain ⟨j', hj', e⟩ := mem_potCells.mp (pot_take_cells hk)
    rw [potCell_eq, xpCell_val] at e
    omega
  · obtain ⟨j', hj', e⟩ := mem_potCells.mp (pot_take_cells hk)
    rw [potCell_eq, potCell_eq] at e
    have := j.isLt
    exact hd (Fin.ext (by omega))

/-- The levels when the write of channel `k`'s failed: nothing is said of its four bytes. -/
structure LevelStop (s : State) (i : CardIx) (v : Nat) (b : Byte) (k : Nat) (t : State) : Prop where
  stop : ChanStop s i .busError k { s.cards[i] with level := levelsUpTo k (fun _ => v) s.cards[i].level } t
  xp : ∀ j : Fin 2, t.devXp i j = s.devXp i j
  sent : ∀ (c : ChanIx) (j : Fin 4), c.val < k → t.devPot i c j.val = b
  rest : ∀ (c : ChanIx) (j : Fin 4), k < c.val → t.devPot i c j.val = s.devPot i c j.val

theorem LevelLoop.fails {s t : State} {i : CardIx} {op : Int → Op Unit} {v : Nat} {b : Byte} (hop : LevelOp op i v b)
    (c : ChanIx) (h : LevelLoop s i v b c.val t) (hr : Ready s i) (ho : t.nextAnswer.ok = false) :
    ∃ u, op (chanNo c) t = .error (.failed .busError) u ∧ LevelStop s i v b c.val u := by
  obtain ⟨n, tx, u, hu, he, hs, hc⟩ := hop.fails c t (h.loop.ready hr rfl) ho
  obtain ⟨h1, h2⟩ := pot_take_frame he
  exact ⟨u, hu, h.loop.fails he hs hc pot_take_on rfl, fun j => (h1 j).trans (h.xp j),
    fun d j hd => (h2 d j (fun e => by rw [e] at hd; omega)).trans (h.sent d j hd),
    fun d j hd => (h2 d j (fun e => by rw [e] at hd; omega)).trans (h.rest d j (by omega))⟩

/-- R194, R196, R197: the eight levels of an open card set to one value. -/
theorem levelChans_runs {s : State} {i : CardIx} {op : Int → Op Unit} {v : Nat} {b : Byte} (hop : LevelOp op i v b)
    (hr : Ready s i) (hb : NoBusError 8 s) : ∃ t, forEach allChans op s = .ok ⟨⟩ t ∧ LevelLoop s i v b 8 t := by
  rw [forEach_allChans]
  exact forEach_upTo (P := LevelLoop s i v b)
    (fun c t h => h.step hop c hr (by rw [h.loop.nextAnswer]; exact hb ⟨c.val, c.isLt⟩)) (levelLoop_zero s i v b)

theorem levelChans_fails {s : State} {i : CardIx} {op : Int → Op Unit} {v : Nat} {b : Byte} {k : Nat} (hop : LevelOp op i v b)
    (hr : Ready s i) (hk : k < 8) (hf : FirstBusError k s) :
    ∃ t, forEach allChans op s = .error (.failed .busError) t ∧ LevelStop s i v b k t := by
  rw [forEach_allChans]
  exact forEach_stops (P := LevelLoop s i v b) (⟨k, hk⟩ : ChanIx)
    (fun c hc t h => h.step hop c hr (by rw [h.loop.nextAnswer]; exact hf.1 ⟨c.val, hc⟩))
    (fun t h => h.fails hop ⟨k, hk⟩ hr (by rw [h.loop.nextAnswer]; exact hf.2)) (levelLoop_zero s i v b)

/-! ## The restore of an open card, up to its first failure (R212) -/

/-- What a record turns on, and its level. -/
def State.restoreOn (s : State) (en : Bool) (i : CardIx) (c : ChanIx) : Bool := s.cfg[i][c].output && en

/-- The level of a record that is in range. -/
def State.restoreLevel (s : State) (i : CardIx) (c : ChanIx) : Nat := (s.cfg[i][c].level).toNat

/-- The level of a record is one `SET_LEVEL` takes. -/
abbrev State.RecordInRange (s : State) (i : CardIx) (c : ChanIx) : Prop := 0 ≤ s.cfg[i][c].level ∧ s.cfg[i][c].level ≤ 1023

/-- An open card, its cached state `m`, `l` before, when the first `a` of the 16 transactions of its restore are done. -/
structure RestoreLoop (s : State) (i : CardIx) (en : Bool) (m l : Byte) (a : Nat) (t : State) : Prop where
  loop : ChanLoop s i a { s.cards[i] with
    chen := some (maskUpTo (a / 2) (s.restoreOn en i) m), tsten := some l,
    level := levelsUpTo ((a + 1) / 2) (s.restoreLevel i) s.cards[i].level } t
  xp0 : t.devXp i 0 = if a < 2 then s.devXp i 0 else ~~~(maskUpTo (a / 2) (s.restoreOn en i) m)
  xp1 : t.devXp i 1 = if a < 2 then s.devXp i 1 else ~~~l
  sent : ∀ (c : ChanIx) (j : Fin 4), 2 * c.val < a → t.devPot i c j.val = (potBytes (s.restoreLevel i c)).getD j.val 0
  rest : ∀ (c : ChanIx) (j : Fin 4), a ≤ 2 * c.val → t.devPot i c j.val = s.devPot i c j.val

theorem restoreLoop_zero {s : State} {i : CardIx} (en : Bool) {m l : Byte} (hm : s.cards[i].chen = some m)
    (hl : s.cards[i].tsten = some l) : RestoreLoop s i en m l 0 s := by
  refine ⟨?_, rfl, rfl, fun _ _ h => absurd h (by omega), fun _ _ _ => rfl⟩
  have := ChanLoop.refl s i
  rwa [show s.cards[i] = { s.cards[i] with
      chen := some (maskUpTo (0 / 2) (s.restoreOn en i) m), tsten := some l,
      level := levelsUpTo ((0 + 1) / 2) (s.restoreLevel i) s.cards[i].level } by
    rw [show (0 + 1) / 2 = 0 from rfl, levelsUpTo_zero, maskUpTo_zero, ← hm, ← hl]] at this

/-- The record a round of the loop reads is the one at the start. -/
theorem RestoreLoop.entry {s t : State} {i : CardIx} {en : Bool} {m l : Byte} {a : Nat} (h : RestoreLoop s i en m l a t)
    (c : ChanIx) : t.cfgEntry (cardNo i) (chanNo c) = s.cfg[i][c] := by
  obtain ⟨_, _, he, _⟩ := h.loop.run
  unfold State.cfgEntry
  rw [cardIx?_cardNo, chanIx?_chanNo, he.cfg]

/-- One level restored. -/
theorem RestoreLoop.level {s t : State} {i : CardIx} {en : Bool} {m l : Byte} (c : ChanIx)
    (h : RestoreLoop s i en m l (2 * c.val) t) (hr : Ready s i) (hv : s.RecordInRange i c) (ho : t.nextAnswer.ok = true) :
    ∃ u, setLevelOp (cardNo i) (chanNo c) s.cfg[i][c].level t = .ok ⟨⟩ u ∧ RestoreLoop s i en m l (2 * c.val + 1) u := by
  have hrt : Ready t i := h.loop.ready hr rfl
  obtain ⟨u, hu, he, hs, hc⟩ := setLevelOp_runs c hv hrt ho
  rw [h.loop.card] at hc
  dsimp only at hc
  rw [show (2 * c.val + 1) / 2 = c.val by omega] at hc
  rw [show (s.cfg[i][c].level).toNat = s.restoreLevel i c from rfl, levelsUpTo_succ c (s.restoreLevel i)] at hc
  refine ⟨u, hu, ⟨?_, ?_, ?_, fun d j hd => ?_, fun d j hd => ?_⟩⟩
  · have := h.loop.then he hs hc pot_cells (doneEvents_one _ _)
    rw [show (2 * c.val + 1) / 2 = 2 * c.val / 2 by omega, show (2 * c.val + 1 + 1) / 2 = c.val + 1 by omega]
    exact this
  · rw [devXp_pot he, h.xp0, show (2 * c.val + 1) / 2 = 2 * c.val / 2 by omega]
    by_cases e : 2 * c.val < 2
    · rw [if_pos e, if_pos (by omega)]
    · rw [if_neg e, if_neg (by omega)]
  · rw [devXp_pot he, h.xp1]
    by_cases e : 2 * c.val < 2
    · rw [if_pos e, if_pos (by omega)]
    · rw [if_neg e, if_neg (by omega)]
  · by_cases e : d = c
    · subst e
      exact devPot_level (by have := hv.2; omega) he hrt.1 j
    · have : d.val ≠ c.val := fun h => e (Fin.ext h)
      rw [devPot_other he e j.isLt, h.sent d j (by omega)]
  · have : d ≠ c := fun e => by rw [e] at hd; omega
    rw [devPot_other he this j.isLt, h.rest d j (by omega)]

/-- The enable after it. -/
theorem RestoreLoop.mask {s t : State} {i : CardIx} {en : Bool} {m l : Byte} (c : ChanIx)
    (h : RestoreLoop s i en m l (2 * c.val + 1) t) (hr : Ready s i) (ho : t.nextAnswer.ok = true) :
    ∃ u, enableChannelOp (cardNo i) (chanNo c) (byteOfBool (s.restoreOn en i c)) t = .ok ⟨⟩ u ∧
      RestoreLoop s i en m l (2 * (c.val + 1)) u := by
  have e1 : (2 * c.val + 1) / 2 = c.val := by omega
  have e2 : 2 * (c.val + 1) / 2 = c.val + 1 := by omega
  have hrt : Ready t i := h.loop.ready hr rfl
  obtain ⟨u, hu, he, hs, hc⟩ := enableChannelOp_runs c (s.restoreOn en i c) hrt ho
    (m := maskUpTo ((2 * c.val + 1) / 2) (s.restoreOn en i) m) (l := l) (by rw [h.loop.card]) (by rw [h.loop.card])
  rw [h.loop.card] at hc
  rw [e1, maskUpTo_succ] at he hc
  have hx := devXp_written he hrt.1
  refine ⟨u, hu, ⟨?_, ?_, ?_, fun d j hd => ?_, fun d j hd => ?_⟩⟩
  · have := h.loop.then he hs hc xp_cells (doneEvents_one _ _)
    rw [e2, show (2 * (c.val + 1) + 1) / 2 = (2 * c.val + 1 + 1) / 2 by omega]
    exact this
  · rw [if_neg (by omega), e2]; exact hx.1
  · rw [if_neg (by omega)]; exact hx.2
  · rw [devPot_xp he d j, h.sent d j (by omega)]
  · rw [devPot_xp he d j, h.rest d j (by omega)]

/-- The card when transaction `a` of its restore failed, or the level it would have written was refused. -/
structure RestoreStop (s : State) (i : CardIx) (en : Bool) (f : Failure) (m l : Byte) (a : Nat) (t : State) : Prop where
  stop : ChanStop s i f a { s.cards[i] with
    chen := some (maskUpTo (a / 2) (s.restoreOn en i) m), tsten := some l,
    level := levelsUpTo ((a + 1) / 2) (s.restoreLevel i) s.cards[i].level } t
  xp0 : t.devXp i 0 = (if a < 2 then s.devXp i 0 else ~~~(maskUpTo (a / 2) (s.restoreOn en i) m)) ∨
    (a % 2 = 1 ∧ t.devXp i 0 = ~~~(maskUpTo (a / 2 + 1) (s.restoreOn en i) m))
  xp1 : t.devXp i 1 = ~~~l ∨ (a < 2 ∧ t.devXp i 1 = s.devXp i 1)
  sent : ∀ (c : ChanIx) (j : Fin 4), 2 * c.val < a → t.devPot i c j.val = (potBytes (s.restoreLevel i c)).getD j.val 0
  rest : ∀ (c : ChanIx) (j : Fin 4), a < 2 * c.val → t.devPot i c j.val = s.devPot i c j.val

theorem RestoreLoop.xp1_or {s t : State} {i : CardIx} {en : Bool} {m l : Byte} {a : Nat} (h : RestoreLoop s i en m l a t) :
    t.devXp i 1 = ~~~l ∨ (a < 2 ∧ t.devXp i 1 = s.devXp i 1) := by
  have := h.xp1
  by_cases e : a < 2
  · rw [if_pos e] at this; exact .inr ⟨e, this⟩
  · rw [if_neg e] at this; exact .inl this

/-- A level's write fails: nothing is said of its four bytes. -/
theorem RestoreLoop.level_fails {s t : State} {i : CardIx} {en : Bool} {m l : Byte} (c : ChanIx)
    (h : RestoreLoop s i en m l (2 * c.val) t) (hr : Ready s i) (hv : s.RecordInRange i c) (ho : t.nextAnswer.ok = false) :
    ∃ u, setLevelOp (cardNo i) (chanNo c) s.cfg[i][c].level t = .error (.failed .busError) u ∧
      RestoreStop s i en .busError m l (2 * c.val) u := by
  obtain ⟨n, u, hu, he, hs, hc⟩ := setLevelOp_fails c hv (h.loop.ready hr rfl) ho
  obtain ⟨h1, h2⟩ := pot_take_frame he
  exact ⟨u, hu, h.loop.fails he hs hc pot_take_on rfl, .inl ((h1 0).trans h.xp0), by rw [h1 1]; exact h.xp1_or,
    fun d j hd => (h2 d j (fun e => by rw [e] at hd; omega)).trans (h.sent d j hd),
    fun d j hd => (h2 d j (fun e => by rw [e] at hd; omega)).trans (h.rest d j (by omega))⟩

/-- A level is refused. -/
theorem RestoreLoop.level_refused {s t : State} {i : CardIx} {en : Bool} {m l : Byte} (c : ChanIx)
    (h : RestoreLoop s i en m l (2 * c.val) t) (hv : ¬s.RecordInRange i c) :
    setLevelOp (cardNo i) (chanNo c) s.cfg[i][c].level t = .error (.failed .invalidArgument) t ∧
      RestoreStop s i en .invalidArgument m l (2 * c.val) t ∧ ∀ j : Fin 4, t.devPot i c j.val = s.devPot i c j.val :=
  ⟨setLevelOp_refuses c hv, ⟨h.loop.refuses, .inl h.xp0, h.xp1_or, h.sent, fun d j hd => h.rest d j (by omega)⟩,
    fun j => h.rest c j (le_refl _)⟩

/-- An enable's write fails. -/
theorem RestoreLoop.mask_fails {s t : State} {i : CardIx} {en : Bool} {m l : Byte} (c : ChanIx)
    (h : RestoreLoop s i en m l (2 * c.val + 1) t) (hr : Ready s i) (ho : t.nextAnswer.ok = false) :
    ∃ u, enableChannelOp (cardNo i) (chanNo c) (byteOfBool (s.restoreOn en i c)) t = .error (.failed .busError) u ∧
      RestoreStop s i en .busError m l (2 * c.val + 1) u := by
  have e1 : (2 * c.val + 1) / 2 = c.val := by omega
  have hrt : Ready t i := h.loop.ready hr rfl
  obtain ⟨ws, hw, u, hu, he, hs, hc⟩ := enableChannelOp_fails c (s.restoreOn en i c) hrt ho
    (m := maskUpTo ((2 * c.val + 1) / 2) (s.restoreOn en i) m) (l := l) (by rw [h.loop.card]) (by rw [h.loop.card])
  rw [e1, maskUpTo_succ] at hw
  refine ⟨u, hu, ⟨h.loop.fails he hs hc (xpPartial_on hw) rfl, ?_, ?_,
    fun d j hd => (xpPartial_pots he hw d j).trans (h.sent d j hd),
    fun d j hd => (xpPartial_pots he hw d j).trans (h.rest d j (by omega))⟩⟩
  · rcases devXp_partial he hrt.1 hw with ⟨h0, _⟩ | ⟨h0, _⟩ | ⟨h0, _⟩
    · exact .inl (h0.trans h.xp0)
    · exact .inr ⟨by omega, by rw [e1]; exact h0⟩
    · exact .inr ⟨by omega, by rw [e1]; exact h0⟩
  · rcases devXp_partial he hrt.1 hw with ⟨_, h1⟩ | ⟨_, h1⟩ | ⟨_, h1⟩
    · rw [h1]; exact h.xp1_or
    · rw [h1]; exact h.xp1_or
    · exact .inl h1

/-- Channel `c` restored. -/
theorem RestoreLoop.step {s t : State} {i : CardIx} {en : Bool} {m l : Byte} (c : ChanIx)
    (h : RestoreLoop s i en m l (2 * c.val) t) (hr : Ready s i) (hv : s.RecordInRange i c)
    (hb : NoBusError (2 * c.val + 2) s) :
    ∃ u, loadChannelOp en (cardNo i) (chanNo c) t = .ok ⟨⟩ u ∧ RestoreLoop s i en m l (2 * (c.val + 1)) u := by
  obtain ⟨u, hu, h1⟩ := h.level c hr hv (by rw [h.loop.nextAnswer]; exact hb ⟨_, by omega⟩)
  obtain ⟨w, hw, h2⟩ := h1.mask c hr (by rw [h1.loop.nextAnswer]; exact hb ⟨_, by omega⟩)
  refine ⟨w, ?_, h2⟩
  simp only [loadChannelOp]
  rw [Op.get_bind, h.entry, Op.bind_ok hu]
  exact hw

/-- R212: the eight channels of an open card restored. -/
theorem restoreChans_runs {s : State} {i : CardIx} (en : Bool) {m l : Byte} (hr : Ready s i) (hb : NoBusError 16 s)
    (hm : s.cards[i].chen = some m) (hl : s.cards[i].tsten = some l) (hrec : ∀ c, s.RecordInRange i c) :
    ∃ t, forEach allChans (fun ch => loadChannelOp en (cardNo i) ch) s = .ok ⟨⟩ t ∧ RestoreLoop s i en m l 16 t := by
  rw [forEach_allChans]
  exact forEach_upTo (P := fun k => RestoreLoop s i en m l (2 * k))
    (fun c t h => h.step c hr (hrec c) (hb.mono (by have := ChanIx.lt c; omega))) (restoreLoop_zero en hm hl)

/-- R212, R229: transaction `a` of the restore fails. -/
theorem restoreChans_fails {s : State} {i : CardIx} (en : Bool) {m l : Byte} {a : Nat} (hr : Ready s i) (ha : a < 16)
    (hf : FirstBusError a s) (hm : s.cards[i].chen = some m) (hl : s.cards[i].tsten = some l)
    (hrec : ∀ c : ChanIx, 2 * c.val ≤ a → s.RecordInRange i c) :
    ∃ t, forEach allChans (fun ch => loadChannelOp en (cardNo i) ch) s = .error (.failed .busError) t ∧
      RestoreStop s i en .busError m l a t := by
  rw [forEach_allChans]
  refine forEach_stops (P := fun k => RestoreLoop s i en m l (2 * k)) (⟨a / 2, show a / 2 < 8 by omega⟩ : ChanIx)
    (fun c hc t h => ?_) (fun t h => ?_) (restoreLoop_zero en hm hl)
  · have hc : c.val < a / 2 := hc
    exact h.step c hr (hrec c (by omega)) (hf.1.mono (by omega))
  · simp only [loadChannelOp]
    rw [Op.get_bind, h.entry]
    have hv := hrec ⟨a / 2, show a / 2 < 8 by omega⟩ (show 2 * (a / 2) ≤ a by omega)
    rcases Nat.mod_two_eq_zero_or_one a with e | e
    · obtain ⟨u, hu, hst⟩ := h.level_fails _ hr hv (by
        rw [h.loop.nextAnswer, show 2 * (a / 2) = a by omega]; exact hf.2)
      rw [show 2 * (a / 2) = a by omega] at hst
      exact ⟨u, Op.bind_error hu, hst⟩
    · obtain ⟨u, hu, h1⟩ := h.level _ hr hv (by
        rw [h.loop.nextAnswer]; exact hf.1 ⟨2 * (a / 2), by omega⟩)
      obtain ⟨w, hw, hst⟩ := h1.mask_fails _ hr (by
        rw [h1.loop.nextAnswer, show 2 * (a / 2) + 1 = a by omega]; exact hf.2)
      rw [show 2 * (a / 2) + 1 = a by omega] at hst
      exact ⟨w, by rw [Op.bind_ok hu]; exact hw, hst⟩

/-- R212, R222: the level of channel `c`'s record is out of range. -/
theorem restoreChans_refused {s : State} {i : CardIx} (en : Bool) {m l : Byte} (c : ChanIx) (hr : Ready s i)
    (hb : NoBusError (2 * c.val) s) (hm : s.cards[i].chen = some m) (hl : s.cards[i].tsten = some l)
    (hrec : ∀ d < c, s.RecordInRange i d) (hv : ¬s.RecordInRange i c) :
    ∃ t, forEach allChans (fun ch => loadChannelOp en (cardNo i) ch) s = .error (.failed .invalidArgument) t ∧
      RestoreStop s i en .invalidArgument m l (2 * c.val) t ∧ ∀ j : Fin 4, t.devPot i c j.val = s.devPot i c j.val := by
  rw [forEach_allChans]
  refine forEach_stops (P := fun k => RestoreLoop s i en m l (2 * k)) c (fun d hd t h => ?_) (fun t h => ?_)
    (restoreLoop_zero en hm hl)
  · have hd' : d.val < c.val := hd
    exact h.step d hr (hrec d hd) (hb.mono (by omega))
  · obtain ⟨h1, h2, h3⟩ := h.level_refused c hv
    simp only [loadChannelOp]
    rw [Op.get_bind, h.entry]
    exact ⟨t, Op.bind_error h1, h2, h3⟩

end Sys2Proof.Machine
end

