-- ==== Sys2Proof/Laws/Tells.lean ====
section
/-! SUPPORT. What the events an operation leaves tell of how it ended (`Op.Tells`): it goes on exactly as long as its transactions
succeed. Then every end of a per-card host command whose `OPEN` succeeded (R183, R228). -/

namespace Sys2Proof.Machine

variable {α β : Type}

/-! ## The relation -/

/-- An event of a run that goes on: no transaction that failed, no write of a control byte. -/
abbrev Event.Quiet (e : Event) : Prop := e.isFailedBus = false ∧ e.isWriteByte = false

/-- From `s` to `t` only such events were made. -/
def Quiet (s t : State) : Prop := ∃ es, t.hist = s.hist ++ es ∧ ∀ e ∈ es, e.Quiet

/-- From `s` to `t` such events, and then one transaction that failed. -/
def Loud (s t : State) : Prop :=
  ∃ es e, t.hist = s.hist ++ (es ++ [e]) ∧ (∀ e ∈ es, e.Quiet) ∧ e.isFailedBus = true ∧ e.isWriteByte = false

theorem Quiet.refl (s : State) : Quiet s s := ⟨[], by simp, by simp⟩

theorem Quiet.of_eq {s t : State} (h : t.hist = s.hist) : Quiet s t := ⟨[], by simp [h], by simp⟩

theorem Quiet.trans {s t u : State} (h : Quiet s t) (h' : Quiet t u) : Quiet s u := by
  obtain ⟨es, h1, h2⟩ := h
  obtain ⟨es', h1', h2'⟩ := h'
  exact ⟨es ++ es', by rw [h1', h1, List.append_assoc], fun e he => (List.mem_append.mp he).elim (h2 e) (h2' e)⟩

theorem Quiet.loud {s t u : State} (h : Quiet s t) (h' : Loud t u) : Loud s u := by
  obtain ⟨es, h1, h2⟩ := h
  obtain ⟨es', e, h1', h2', h3⟩ := h'
  exact ⟨es ++ es', e, by rw [h1', h1]; simp, fun e he => (List.mem_append.mp he).elim (h2 e) (h2' e), h3⟩

theorem quiet_event (s : State) {e : Event} (h : e.Quiet) : Quiet s { s with hist := s.hist ++ [e] } :=
  ⟨[e], rfl, by simpa using h⟩

theorem Effect.quiet {s t : State} {n : Nat} {ws : List (Nat × Byte)} {es : List Event} (h : Effect s t n ws es)
    (he : ∀ e ∈ es, e.Quiet) : Quiet s t := ⟨es, h.hist, he⟩

/-- How an operation ended, told by its events: with `BusError` right after a transaction that failed, with anything else after
none that did. A stop of the machine tells nothing. -/
def Told (s : State) : EStateM.Result Stop State α → Prop
  | .ok _ t => Quiet s t
  | .error (.failed f) t => if f = .busError then Loud s t else Quiet s t
  | .error (.fault _) _ => True

theorem told_failed {s t : State} {f : Failure} :
    Told s (.error (.failed f) t : EStateM.Result Stop State α) ↔
      (f = .busError → Loud s t) ∧ (f ≠ .busError → Quiet s t) := by
  unfold Told
  by_cases h : f = .busError <;> simp [h]

/-- The operation always ends so. -/
def Op.Tells (x : Op α) : Prop := ∀ s, Told s (x s)

theorem Told.from {s t : State} {r : EStateM.Result Stop State α} (h : Quiet s t) (hr : Told t r) : Told s r := by
  cases r with
  | ok v u => exact h.trans hr
  | error e u =>
    cases e with
    | failed f =>
      rw [told_failed] at hr ⊢
      exact ⟨fun hf => h.loud (hr.1 hf), fun hf => h.trans (hr.2 hf)⟩
    | fault r => trivial

theorem tells_pure (v : α) : (pure v : Op α).Tells := fun s => Quiet.refl s

theorem tells_get : (get : Op State).Tells := fun s => Quiet.refl s

theorem tells_halt (r : Fault) : (halt r : Op α).Tells := fun _ => trivial

theorem tells_raise {f : Failure} (h : f ≠ .busError) : (raise f : Op α).Tells := fun s =>
  told_failed.mpr ⟨fun hf => absurd hf h, fun _ => Quiet.refl s⟩

theorem tells_bind {x : Op α} {f : α → Op β} (hx : x.Tells) (hf : ∀ v, (f v).Tells) : (x >>= f).Tells := by
  intro s
  have h := hx s
  rw [Op.bind_apply]
  cases hr : x s with
  | ok v t => rw [hr] at h; exact Told.from h (hf v t)
  | error e t => rw [hr] at h; cases e <;> exact h

theorem tells_modify {g : State → State} (h : ∀ s, (g s).hist = s.hist) : (modify g : Op PUnit).Tells := fun s =>
  Quiet.of_eq (h s)

theorem tells_emit {e : Event} (h : e.Quiet) : (emit e).Tells := fun s => quiet_event s h

theorem tells_draw : draw.Tells := fun s => Quiet.of_eq (State.tookAnswer_hist s)

theorem tells_checkArg (b : Bool) : (checkArg b).Tells := by
  cases b
  · exact tells_raise (by decide)
  · exact tells_pure _

theorem tells_asBool (b : Option Bool) : (asBool b).Tells := by
  cases b
  · exact tells_raise (by decide)
  · exact tells_pure _

theorem tells_readField (field : State → Option α) : (readField field).Tells := by
  refine tells_bind tells_get fun s => ?_
  cases field s
  · exact tells_halt _
  · exact tells_pure _

theorem tells_chanIx (ch : Int) : (chanIx ch).Tells := by
  unfold chanIx
  split
  · exact tells_pure _
  · exact tells_halt _

theorem tells_requireOpen (a : Int) : (requireOpen a).Tells := by
  refine tells_bind tells_get fun s => ?_
  split
  · exact tells_pure _
  · exact tells_halt _

theorem tells_modifyCard (a : Int) (f : Card → Card) : (modifyCard a f).Tells :=
  tells_modify fun s => State.setCard_hist s a _

theorem tells_forEach {body : α → Op Unit} (h : ∀ x, (body x).Tells) (xs : List α) : (forEach xs body).Tells := by
  induction xs with
  | nil => exact tells_pure _
  | cons x xs ih => exact tells_bind (h x) fun _ => ih

theorem tells_dropAfter {drop : State → State} {body : Op α} (hd : ∀ s, (drop s).hist = s.hist) (hb : body.Tells) :
    (dropAfter drop body).Tells := by
  intro s
  have h := hb s
  unfold dropAfter
  cases hx : body s with
  | ok v t => rw [hx] at h; exact h.trans (.of_eq (hd t))
  | error e t =>
    rw [hx] at h
    cases e with
    | fault r => trivial
    | failed f =>
      rw [told_failed] at h
      refine told_failed.mpr ⟨fun hf => ?_, fun hf => (h.2 hf).trans (.of_eq (hd t))⟩
      obtain ⟨es, e, h1, h2⟩ := h.1 hf
      exact ⟨es, e, (hd t).trans h1, h2⟩

/-! ## One bus transaction -/

/-- The failing step of a transaction: its event, and then `BusError`. -/
theorem told_fails {s t : State} {tx : Txn} (h : (Event.bus tx false []).isWriteByte = false) (ht : t.hist = s.hist) :
    Told s ((do emit (.bus tx false []); raise .busError : Op α) t) :=
  told_failed.mpr ⟨fun _ => ⟨[], .bus tx false [], by simp [ht], by simp, rfl, h⟩, fun hf => absurd rfl hf⟩

theorem tells_reach {tx : Txn} (h : (Event.bus tx false []).isWriteByte = false) (addr : Int) : (reach tx addr).Tells := by
  refine tells_bind tells_get fun s => ?_
  split
  · exact tells_pure _
  · exact fun t => told_fails h rfl
  · exact tells_halt _

theorem tells_transferWrite {tx : Txn} (h : ∀ ok, (Event.bus tx ok []).isWriteByte = false)
    (regs : List (List (Nat × Byte))) : (transferWrite tx regs).Tells := by
  refine tells_bind tells_draw fun ans => ?_
  split
  · exact tells_bind (tells_modify fun _ => rfl) fun _ => tells_emit ⟨rfl, h true⟩
  · exact tells_bind (tells_modify fun _ => rfl) fun _ t => told_fails (h false) rfl

theorem tells_transferRead {tx : Txn} (h : ∀ ok bs, (Event.bus tx ok bs).isWriteByte = false)
    (f : State → Answer → List Byte) : (transferRead tx f).Tells := by
  refine tells_bind tells_draw fun ans => ?_
  split
  · exact tells_bind tells_get fun s => tells_bind (tells_emit ⟨rfl, h true _⟩) fun _ => tells_pure _
  · exact fun t => told_fails (h false []) rfl

theorem tells_readWordOp (addr : Int) (reg : Nat) : (readWordOp addr reg).Tells := by
  refine tells_bind (tells_reach rfl _) fun d => ?_
  split
  · refine tells_bind tells_get fun _ => ?_
    split
    · exact tells_bind (tells_transferRead (fun _ _ => rfl) _) fun _ => tells_pure _
    · exact tells_raise (by decide)
  · exact tells_raise (by decide)

theorem tells_writeWordOp (addr : Int) (reg : Nat) (w : Half) : (writeWordOp addr reg w).Tells := by
  refine tells_bind (tells_reach rfl _) fun d => ?_
  split
  · refine tells_bind tells_get fun s => ?_
    dsimp only
    split
    · exact tells_transferWrite (fun _ => rfl) _
    · exact tells_transferWrite (fun _ => rfl) _
    · exact tells_raise (by decide)
  · exact tells_raise (by decide)

theorem tells_writeBlockOp (addr : Int) (reg : Nat) (bs : List Byte) : (writeBlockOp addr reg bs).Tells := by
  refine tells_bind (tells_reach rfl _) fun d => tells_bind (tells_checkArg _) fun _ => tells_bind tells_get fun s => ?_
  split
  · exact tells_transferWrite (fun _ => rfl) _
  · exact tells_raise (by decide)

/-! ## One card -/

theorem tells_xpWriteOp (a : Int) (m l : Byte) : (xpWriteOp a m l).Tells :=
  tells_bind (tells_requireOpen _) fun _ => tells_bind tells_get fun _ => tells_bind (tells_writeBlockOp _ _ _) fun _ =>
    tells_modifyCard _ _

theorem tells_enableChannelOp (a ch : Int) (on : Byte) : (enableChannelOp a ch on).Tells :=
  tells_bind (tells_checkArg _) fun _ => tells_bind (tells_asBool _) fun _ => tells_bind (tells_requireOpen _) fun _ =>
    tells_bind (tells_chanIx _) fun _ => tells_bind (tells_readField _) fun _ => tells_bind (tells_readField _) fun _ =>
      tells_xpWriteOp _ _ _

theorem tells_enableTestLoadOp (a ch : Int) (on : Byte) : (enableTestLoadOp a ch on).Tells :=
  tells_bind (tells_checkArg _) fun _ => tells_bind (tells_asBool _) fun _ => tells_bind (tells_requireOpen _) fun _ =>
    tells_bind (tells_chanIx _) fun _ => tells_bind (tells_readField _) fun _ => tells_bind (tells_readField _) fun _ =>
      tells_xpWriteOp _ _ _

theorem tells_isChannelEnabledOp (a ch : Int) : (isChannelEnabledOp a ch).Tells :=
  tells_bind (tells_checkArg _) fun _ => tells_bind (tells_chanIx _) fun _ => tells_bind (tells_readField _) fun _ =>
    tells_pure _

theorem tells_potWriteOp (a ch : Int) (p : Word) : (potWriteOp a ch p).Tells :=
  tells_bind (tells_requireOpen _) fun _ => tells_bind (tells_chanIx _) fun _ => tells_bind tells_get fun _ =>
    tells_writeBlockOp _ _ _

theorem tells_setLevelOp (a ch v : Int) : (setLevelOp a ch v).Tells :=
  tells_bind (tells_checkArg _) fun _ => tells_bind (tells_checkArg _) fun _ => tells_bind (tells_requireOpen _) fun _ =>
    tells_bind (tells_potWriteOp _ _ _) fun _ => tells_bind (tells_chanIx _) fun _ => tells_modifyCard _ _

theorem tells_calibrate (c : ChanIx) : (calibrate c).Tells :=
  tells_bind tells_get fun _ => tells_writeWordOp _ _ _

theorem tells_readSense (c : ChanIx) (reg : Params → Nat) : (readSense c reg).Tells :=
  tells_bind tells_get fun _ => tells_bind (tells_readWordOp _ _) fun _ => tells_pure _

theorem tells_rawShuntOp (a ch : Int) : (rawShuntOp a ch).Tells :=
  tells_bind (tells_requireOpen _) fun _ => tells_bind (tells_chanIx _) fun _ => tells_readSense _ _

theorem tells_rawBusOp (a ch : Int) : (rawBusOp a ch).Tells :=
  tells_bind (tells_requireOpen _) fun _ => tells_bind (tells_chanIx _) fun _ => tells_bind (tells_calibrate _) fun _ =>
    tells_bind (tells_readSense _ _) fun _ => tells_pure _

theorem tells_rawCurrentOp (a ch : Int) : (rawCurrentOp a ch).Tells :=
  tells_bind (tells_requireOpen _) fun _ => tells_bind (tells_chanIx _) fun _ => tells_bind (tells_calibrate _) fun _ =>
    tells_readSense _ _

theorem tells_takeSample {sample : Op Rat} (h : sample.Tells) (k : Nat) : (takeSample sample k).Tells := by
  have hrest : (do
      let x ← sample
      modify fun s => { s with acc := s.acc.map (· + x), cnt := s.cnt.map (· + 1) } : Op PUnit).Tells :=
    tells_bind h fun _ => tells_modify fun _ => rfl
  unfold takeSample
  split
  · exact tells_bind tells_get fun _ => tells_bind (tells_emit ⟨rfl, rfl⟩) fun _ => hrest
  · exact hrest

theorem tells_averageOp {sample : Op Rat} (h : sample.Tells) : (averageOp sample).Tells :=
  tells_dropAfter (fun _ => rfl) <| tells_bind (tells_modify fun _ => rfl) fun _ =>
    tells_bind (tells_forEach (fun k => tells_takeSample h k) _) fun _ => tells_bind (tells_readField _) fun _ =>
      tells_pure _

theorem tells_getBusVoltageOp (a ch : Int) : (getBusVoltageOp a ch).Tells :=
  tells_bind (tells_checkArg _) fun _ => tells_bind (tells_requireOpen _) fun _ =>
    tells_bind (tells_averageOp (tells_bind (tells_rawBusOp _ _) fun _ => tells_bind tells_get fun _ => tells_pure _))
      fun _ => tells_pure _

theorem tells_getShuntVoltageOp (a ch : Int) : (getShuntVoltageOp a ch).Tells :=
  tells_bind (tells_checkArg _) fun _ => tells_bind (tells_requireOpen _) fun _ =>
    tells_bind (tells_averageOp (tells_bind (tells_rawShuntOp _ _) fun _ => tells_bind tells_get fun _ => tells_pure _))
      fun _ => tells_pure _

theorem tells_getCurrentOp (a ch : Int) : (getCurrentOp a ch).Tells :=
  tells_bind (tells_checkArg _) fun _ => tells_bind (tells_requireOpen _) fun _ =>
    tells_bind (tells_averageOp (tells_bind (tells_rawCurrentOp _ _) fun _ => tells_bind (tells_readField _) fun _ =>
      tells_pure _)) fun _ => tells_pure _

theorem tells_seekLoop {sense : Op Rat} (hs : sense.Tells) (card chan : Int) (target : Rat) (step : Int) (fuel : Nat) :
    (seekLoop card chan target step sense fuel).Tells := by
  induction fuel with
  | zero => exact tells_raise (by decide)
  | succ fuel ih =>
    unfold seekLoop
    refine tells_bind (tells_emit ⟨rfl, rfl⟩) fun _ => tells_bind hs fun x => tells_bind (tells_modify fun _ => rfl)
      fun _ => tells_bind (tells_readField _) fun level => ?_
    split
    · exact tells_pure _
    · exact tells_bind (tells_modify fun _ => rfl) fun _ => tells_bind (tells_setLevelOp _ _ _) fun _ => ih

theorem tells_seekOp {sense : Op Rat} (hs : sense.Tells) (card chan : Int) (target : Rat) (step : Int) :
    (seekOp card chan target step sense).Tells :=
  tells_dropAfter (fun _ => rfl) <| tells_bind (tells_chanIx _) fun _ => tells_bind (tells_readField _)
    fun _ => tells_bind (tells_modify fun _ => rfl) fun _ => tells_seekLoop hs _ _ _ _ _

/-! ## Failing with `BusError` or not at all, but for a cached field that holds no value -/

/-- Run with card `i` open, the operation raises no failure but `BusError`. -/
def Op.OnlyBusError (i : CardIx) (x : Op α) : Prop :=
  ∀ s, Ready s i → ∀ f t, x s = .error (.failed f) t → f = .busError

variable {i : CardIx}

theorem Op.BusOnly.only {x : Op α} (h : x.BusOnly i) : x.OnlyBusError i := fun s hr f t hx => by
  injection h s hr _ t hx

theorem onlyBusError_pure (v : α) : (pure v : Op α).OnlyBusError i := fun _ _ _ _ h => by cases h

theorem onlyBusError_bind {x : Op α} {f : α → Op β} (hs : x.Serves i) (hx : x.OnlyBusError i)
    (hf : ∀ v, (f v).OnlyBusError i) : (x >>= f).OnlyBusError i := by
  intro s hr e t h
  rw [Op.bind_apply] at h
  have h1 := hs s hr
  cases hxs : x s with
  | ok v u =>
    rw [hxs] at h h1
    exact hf v u (hr.inside h1) e t h
  | error e' u =>
    rw [hxs] at h
    cases h
    exact hx s hr _ _ hxs

theorem onlyBusError_readField (field : State → Option α) : (readField field).OnlyBusError i := fun s _ f t h => by
  cases hf : field s with
  | some v => rw [readField_of_some hf] at h; cases h
  | none => rw [readField_of_none hf] at h; cases h

theorem onlyBusError_chanIx (c : ChanIx) : (chanIx (chanNo c)).OnlyBusError i := by
  rw [chanIx_chanNo]
  exact onlyBusError_pure _

theorem onlyBusError_forEach {body : α → Op Unit} (hs : ∀ x, (body x).Serves i) (h : ∀ x, (body x).OnlyBusError i) :
    ∀ xs : List α, (forEach xs body).OnlyBusError i
  | [] => onlyBusError_pure _
  | x :: xs => onlyBusError_bind (hs x) (h x) fun _ => onlyBusError_forEach hs h xs

theorem onlyBusError_dropAfter {drop : State → State} {body : Op α} (hb : body.OnlyBusError i) :
    (dropAfter drop body).OnlyBusError i := by
  intro s hr f t h
  unfold dropAfter at h
  cases hx : body s with
  | ok v u => rw [hx] at h; cases h
  | error e u => rw [hx] at h; cases h; exact hb s hr _ _ hx

theorem writeBlock_onlyBusError {s t : State} {addr : Int} {reg : Nat} {bs : List Byte} {d : Target} {ks : List Nat}
    {f : Failure} (hr : s.route addr = .device d) (hn : bs ≠ []) (hk : blockCells s.params d reg bs.length = some ks)
    (h : writeBlockOp addr reg bs s = .error (.failed f) t) : f = .busError := by
  have he : bs.isEmpty = false := by cases bs with | nil => exact absurd rfl hn | cons => rfl
  unfold writeBlockOp at h
  rw [Op.bind_ok (reach_device hr), he, Bool.not_false, checkArg_true, Op.pure_bind, Op.get_bind, hk] at h
  injection transferWrite_error h

theorem onlyBusError_xpWriteOp (m l : Byte) : (xpWriteOp (cardNo i) m l).OnlyBusError i := by
  refine onlyBusError_bind serves_requireOpen busOnly_requireOpen.only fun _ s hr f t h => ?_
  rw [Op.get_bind, Op.bind_apply] at h
  cases hb : writeBlockOp s.params.xpAddr s.params.xpReg (xpBlock m l) s with
  | ok v u => rw [hb] at h; cases h
  | error e u =>
    rw [hb] at h
    cases h
    exact writeBlock_onlyBusError (route_xp hr.2.1 hr.2.2.1) (by simp [xpBlock]) (blockCells_xp _ _) hb

theorem onlyBusError_masks (on : Byte) (hon : isFlag on = true) {g : ChanIx → Bool → Byte → Byte → Byte × Byte}
    (c : ChanIx) : (do
      checkArg (isChannel (chanNo c))
      let b ← asBool (boolOfByte on)
      requireOpen (cardNo i)
      let d ← chanIx (chanNo c)
      let m ← readField fun s => (s.card (cardNo i)).chen
      let l ← readField fun s => (s.card (cardNo i)).tsten
      xpWriteOp (cardNo i) (g d b m l).1 (g d b m l).2 : Op Unit).OnlyBusError i := by
  obtain ⟨b, hb⟩ := Option.isSome_iff_exists.mp hon
  rw [isChannel_chanNo, checkArg_true, Op.pure_bind, hb, asBool_some, Op.pure_bind]
  exact onlyBusError_bind serves_requireOpen busOnly_requireOpen.only fun _ =>
    onlyBusError_bind (serves_chanIx c) (onlyBusError_chanIx c) fun _ =>
      onlyBusError_bind (serves_readField complete_chen) (onlyBusError_readField _) fun _ => onlyBusError_bind (serves_readField complete_tsten) (onlyBusError_readField _) fun _ => onlyBusError_xpWriteOp _ _

theorem onlyBusError_enableChannelOp (c : ChanIx) {on : Byte} (hon : isFlag on = true) :
    (enableChannelOp (cardNo i) (chanNo c) on).OnlyBusError i :=
  onlyBusError_masks on hon (g := fun c b m l => (setMaskBit m c b, l)) c

theorem onlyBusError_enableTestLoadOp (c : ChanIx) {on : Byte} (hon : isFlag on = true) :
    (enableTestLoadOp (cardNo i) (chanNo c) on).OnlyBusError i :=
  onlyBusError_masks on hon (g := fun c b m l => (m, setMaskBit l c b)) c

theorem onlyBusError_isChannelEnabledOp (c : ChanIx) : (isChannelEnabledOp (cardNo i) (chanNo c)).OnlyBusError i := by
  unfold isChannelEnabledOp
  rw [isChannel_chanNo, checkArg_true, Op.pure_bind, chanIx_chanNo, Op.pure_bind]
  exact onlyBusError_bind (serves_readField complete_chen) (onlyBusError_readField _) fun _ => onlyBusError_pure _

theorem onlyBusError_potWriteOp (c : ChanIx) (p : Word) : (potWriteOp (cardNo i) (chanNo c) p).OnlyBusError i := by
  unfold potWriteOp
  rw [chanIx_chanNo]
  refine onlyBusError_bind serves_requireOpen busOnly_requireOpen.only fun _ s hr f t h => ?_
  rw [Op.pure_bind, Op.get_bind] at h
  exact writeBlock_onlyBusError (route_pot hr.2.1 hr.2.2.1 _) (by simp [patternBytes]) (blockCells_pot hr.2.1 _ _ _) h

theorem onlyBusError_setLevelOp (c : ChanIx) {v : Int} (hv : isLevel v = true) :
    (setLevelOp (cardNo i) (chanNo c) v).OnlyBusError i := by
  unfold setLevelOp
  rw [isChannel_chanNo, hv, checkArg_true, Op.pure_bind, Op.pure_bind, chanIx_chanNo]
  exact onlyBusError_bind serves_requireOpen busOnly_requireOpen.only fun _ =>
    onlyBusError_bind (serves_potWriteOp c _) (onlyBusError_potWriteOp c _) fun _ _ _ _ _ h => by cases h

theorem onlyBusError_readSense (c : ChanIx) (reg : Params → Nat) (hreg : ∀ p : Params, p.Valid → reg p ∈ p.snsRegs) :
    (readSense c reg).OnlyBusError i := by
  intro s hr f t h
  obtain ⟨r, hsr⟩ := Option.isSome_iff_exists.mp (snsReg_isSome_iff.mpr (hreg _ hr.2.1))
  unfold readSense readWordOp at h
  rw [Op.get_bind] at h
  have hroute := route_sns hr.2.1 hr.2.2.1 c
  cases ho : s.nextAnswer.ok with
  | true =>
    have hok := transferRead_ok (.readWord (s.params.snsAddr[c] : Nat) (reg s.params))
      (fun u ans => wireBytes (bswap16 (u.snsContent i c ans.word r))) ho
    rw [Op.bind_apply, Op.bind_ok (reach_device hroute)] at h
    dsimp only at h
    rw [Op.get_bind, hsr] at h
    dsimp only at h
    rw [Op.bind_ok hok] at h
    cases h
  | false =>
    have hfail := transferRead_fail (.readWord (s.params.snsAddr[c] : Nat) (reg s.params))
      (fun u ans => wireBytes (bswap16 (u.snsContent i c ans.word r))) ho
    rw [Op.bind_apply, Op.bind_ok (reach_device hroute)] at h
    dsimp only at h
    rw [Op.get_bind, hsr] at h
    dsimp only at h
    rw [Op.bind_error hfail] at h
    cases h
    rfl

theorem onlyBusError_get : (get : Op State).OnlyBusError i := fun _ _ _ _ h => by cases h

theorem onlyBusError_shuntSample (c : ChanIx) : (shuntSample (cardNo i) (chanNo c)).OnlyBusError i := by
  refine onlyBusError_bind (serves_rawShuntOp c) ?_ fun _ => onlyBusError_bind serves_get onlyBusError_get fun _ =>
    onlyBusError_pure _
  exact onlyBusError_bind serves_requireOpen busOnly_requireOpen.only fun _ =>
    onlyBusError_bind (serves_chanIx c) (onlyBusError_chanIx c) fun d =>
      onlyBusError_readSense d Params.snsRegShunt fun p _ => by simp [Params.snsRegs]

theorem onlyBusError_busSample (c : ChanIx) : (busSample (cardNo i) (chanNo c)).OnlyBusError i := by
  refine onlyBusError_bind (serves_rawBusOp c) ?_ fun _ => onlyBusError_bind serves_get onlyBusError_get fun _ =>
    onlyBusError_pure _
  exact onlyBusError_bind serves_requireOpen busOnly_requireOpen.only fun _ =>
    onlyBusError_bind (serves_chanIx c) (onlyBusError_chanIx c) fun d =>
      onlyBusError_bind (serves_calibrate d) (busOnly_calibrate d).only fun _ =>
        onlyBusError_bind (serves_readSense d _)
          (onlyBusError_readSense d Params.snsRegBus fun p _ => by simp [Params.snsRegs]) fun _ => onlyBusError_pure _

theorem onlyBusError_currentSample (c : ChanIx) : (currentSample (cardNo i) (chanNo c)).OnlyBusError i := by
  refine onlyBusError_bind (serves_rawCurrentOp c) ?_ fun _ =>
    onlyBusError_bind (serves_readField complete_curdiv) (onlyBusError_readField _) fun _ => onlyBusError_pure _
  exact onlyBusError_bind serves_requireOpen busOnly_requireOpen.only fun _ =>
    onlyBusError_bind (serves_chanIx c) (onlyBusError_chanIx c) fun d =>
      onlyBusError_bind (serves_calibrate d) (busOnly_calibrate d).only fun _ =>
        onlyBusError_readSense d Params.snsRegCurrent fun p _ => by simp [Params.snsRegs]

theorem onlyBusError_averageOp {sample : Op Rat} (hs : sample.Serves i) (h : sample.OnlyBusError i) :
    (averageOp sample).OnlyBusError i := by
  have one : ∀ k, (takeSample sample k).OnlyBusError i := by
    intro k
    have hrest : (do
        let x ← sample
        modify fun s => { s with acc := s.acc.map (· + x), cnt := s.cnt.map (· + 1) } : Op PUnit).OnlyBusError i :=
      onlyBusError_bind hs h fun _ _ _ _ _ hm => by cases hm
    unfold takeSample
    split
    · exact onlyBusError_bind serves_get onlyBusError_get fun _ =>
        onlyBusError_bind (serves_emit rfl) (fun _ _ _ _ he => by cases he) fun _ => hrest
    · exact hrest
  refine onlyBusError_dropAfter fun s hr => ?_
  rw [Op.modify_bind]
  have h0 : Inside i s { s with acc := some 0, cnt := some 0 } := inside_scratch _ _ s.iter s.seekLevel
  exact onlyBusError_bind (serves_forEach _ fun k _ => serves_takeSample hs k)
    (onlyBusError_forEach (fun k => serves_takeSample hs k) one _)
    (fun _ u _ f t hu => by
      rw [Op.bind_apply] at hu
      cases ha : readField State.acc u with
      | ok v w => rw [ha] at hu; cases hu
      | error e w => rw [ha] at hu; cases hu; exact onlyBusError_readField (i := i) State.acc u ‹_› _ _ ha)
    _ (hr.inside h0)

theorem onlyBusError_read {sample : Op Rat} {g : Rat → Rat} (c : ChanIx) (hs : sample.Serves i)
    (hm : sample.Moves plain) (h : sample.OnlyBusError i) : (do
      checkArg (isChannel (chanNo c))
      requireOpen (cardNo i)
      let m ← averageOp sample
      pure (g m) : Op Rat).OnlyBusError i := by
  rw [isChannel_chanNo, checkArg_true, Op.pure_bind]
  exact onlyBusError_bind serves_requireOpen busOnly_requireOpen.only fun _ =>
    onlyBusError_bind (serves_averageOp hs hm) (onlyBusError_averageOp hs h) fun _ => onlyBusError_pure _

theorem onlyBusError_getBusVoltageOp (c : ChanIx) : (getBusVoltageOp (cardNo i) (chanNo c)).OnlyBusError i :=
  onlyBusError_read c (serves_busSample c) (moves_busSample _ _) (onlyBusError_busSample c)

theorem onlyBusError_getShuntVoltageOp (c : ChanIx) : (getShuntVoltageOp (cardNo i) (chanNo c)).OnlyBusError i :=
  onlyBusError_read c (serves_shuntSample c) (moves_shuntSample _ _) (onlyBusError_shuntSample c)

theorem onlyBusError_getCurrentOp (c : ChanIx) : (getCurrentOp (cardNo i) (chanNo c)).OnlyBusError i :=
  onlyBusError_read c (serves_currentSample c) (moves_currentSample _ _) (onlyBusError_currentSample c)

/-! ## The bracket whose `OPEN` succeeded (R183, R228) -/

/-- The events of a body: none writes a control byte, and only the last can be a transaction that failed. -/
structure BodyEvents (es : List Event) : Prop where
  noSwitch : ∀ e ∈ es, e.isWriteByte = false
  upToLast : ∀ e ∈ es.dropLast, e.isFailedBus = false

/-- How the bracket ends: the body's events `es`, and whether `CLOSE` succeeded. -/
def EndsAs (es : List Event) (closed : Bool) (t : State) : EStateM.Result Stop State α → Prop
  | .ok _ u => u = t ∧ closed = true ∧ es.any Event.isFailedBus = false
  | .error (.failed f) u => u = t ∧ (es.any Event.isFailedBus = true → f = .busError) ∧
      (es.any Event.isFailedBus = false → closed = true → f ≠ .busError)
  | .error (.fault _) _ => False

/-- `CLOSE` on an open card, and what it leaves of the card's record and of the switch. -/
theorem closeOp_told {s : State} (hm : Memory.wf s.mem = true) (hp : s.present[i] = true)
    (hs : s.devSw i = openByte s.params) (hi : s.cards[i].iso = some .opened) :
    ∃ t closed, (if closed then closeOp (cardNo i) s = .ok ⟨⟩ t else closeOp (cardNo i) s = .error (.failed .busError) t) ∧
      t.hist = s.hist ++ [closeEvent s.params i closed] ∧
      t.cards[i].iso = some (if closed then .closed else .opened) ∧
      (t.devSw i = closeByte ∨ closed = false ∧ t.devSw i = openByte s.params) := by
  cases ho : s.nextAnswer.ok with
  | true =>
    obtain ⟨t, h, he, _, hc⟩ := closeOp_runs hp ho
    exact ⟨t, true, h, he.hist, by rw [hc, cards_set_same]; rfl,
      .inl (he.read_mem hm (by simp) (List.mem_singleton.mpr rfl))⟩
  | false =>
    obtain ⟨t, ws, h, hw, he, _, hc⟩ := closeOp_fails hp ho
    refine ⟨t, false, h, he.hist, by rw [hc, hi]; rfl, ?_⟩
    rcases hw with rfl | rfl
    · exact .inr ⟨rfl, (he.read_other (by simp)).trans hs⟩
    · exact .inl (he.read_mem hm (by simp) (List.mem_singleton.mpr rfl))

theorem any_isFailedBus_of_quiet {es : List Event} (h : ∀ e ∈ es, e.Quiet) : es.any Event.isFailedBus = false := by
  rw [List.any_eq_false]
  intro e he
  rw [(h e he).1]
  exact Bool.false_ne_true

/-- R183, R228: whatever the body did, the bracket ends with `CLOSE`. -/
theorem withOpen_told {body : Op α} {s : State} (hm : Memory.wf s.mem = true) (hv : s.params.Valid)
    (hn : NoneConnected s) (hp : s.present[i] = true) (ho : s.nextAnswer.ok = true) (hcs : s.cards[i].Complete)
    (hb : body.Serves i) (ht : body.Tells) :
    ∃ t es closed, EndsAs es closed t (withOpen (cardNo i) body s) ∧ BodyEvents es ∧
      t.hist = s.hist ++ switchEvent s.params i (openByte s.params) :: (es ++ [closeEvent s.params i closed]) ∧
      t.cards[i].iso = some (if closed then .closed else .opened) ∧
      (t.devSw i = closeByte ∨ closed = false ∧ t.devSw i = openByte s.params) ∧
      (body.OnlyBusError i → es.any Event.isFailedBus = false → closed = false →
        ∃ u, withOpen (cardNo i) body s = .error (.failed .busError) u) ∧
      (body.OnlyBusError i → es.any Event.isFailedBus = false → closed = true →
        ∃ v u, withOpen (cardNo i) body s = .ok v u) := by
  obtain ⟨t, h, he, _, hc⟩ := openOp_runs hp ho
  have hr : Ready t i := ready_of_open hm hv hn hp he hc
  have hcp : t.cards[i].Complete := by rw [hc, cards_set_same]; exact ⟨rfl, hcs.2⟩
  have hsw : t.devSw i = openByte s.params := he.read_mem hm (by simp) (List.mem_singleton.mpr rfl)
  have hbody := hb t hr
  have htold := ht t
  have close : ∀ u, Inside i t u → ∃ w closed, (if closed then closeOp (cardNo i) u = .ok ⟨⟩ w
      else closeOp (cardNo i) u = .error (.failed .busError) w) ∧ w.hist = u.hist ++ [closeEvent s.params i closed] ∧
      w.cards[i].iso = some (if closed then .closed else .opened) ∧
      (w.devSw i = closeByte ∨ closed = false ∧ w.devSw i = openByte s.params) := by
    intro u hi
    have hpar : u.params = s.params := hi.params.trans he.params
    have := closeOp_told (s := u) (hi.wf hr.1) (by rw [hi.present, he.present]; exact hp)
      (by rw [hi.switch, hsw, hpar]) (by rw [hi.iso]; exact hr.2.2.2)
    rwa [hpar] at this
  have events : ∀ {u w : State} {es : List Event} {closed : Bool}, u.hist = t.hist ++ es →
      w.hist = u.hist ++ [closeEvent s.params i closed] →
      w.hist = s.hist ++ switchEvent s.params i (openByte s.params) :: (es ++ [closeEvent s.params i closed]) := by
    intro u w es closed h1 h2
    rw [h2, h1, he.hist]
    simp
  cases hx : body t with
  | ok v u =>
    rw [hx] at hbody htold
    obtain ⟨es, hh, hq⟩ := htold
    have hany := any_isFailedBus_of_quiet hq
    have hbe : BodyEvents es := ⟨fun e he => (hq e he).2, fun e he => (hq e (List.mem_of_mem_dropLast he)).1⟩
    obtain ⟨w, closed, hw, h1, h2, h3⟩ := close u hbody
    cases closed with
    | true =>
      have hrun : withOpen (cardNo i) body s = .ok v w := bracket_ok h hx hw
      exact ⟨w, es, true, by rw [hrun]; exact ⟨rfl, rfl, hany⟩, hbe, events hh h1, h2, h3, fun _ _ hf => (by cases hf),
        fun _ _ _ => ⟨v, w, hrun⟩⟩
    | false =>
      have hrun : withOpen (cardNo i) body s = .error (.failed .busError) w := bracket_release_fails h hx hw
      exact ⟨w, es, false, by rw [hrun]; exact ⟨rfl, fun _ => rfl, fun _ hf => (by cases hf)⟩, hbe, events hh h1, h2, h3,
        fun _ _ _ => ⟨w, hrun⟩, fun _ _ hf => (by cases hf)⟩
  | error e u =>
    rw [hx] at hbody htold
    cases e with
    | fault r => exact absurd hcp hbody
    | failed f =>
      obtain ⟨w, closed, hw, h1, h2, h3⟩ := close u hbody
      have hrun : withOpen (cardNo i) body s = .error (.failed f) w := by
        cases closed with
        | true => exact bracket_body_fails h hx hw
        | false => exact bracket_both_fail h hx hw
      rw [told_failed] at htold
      by_cases hf : f = .busError
      · subst hf
        obtain ⟨es, e, hh, hq, hfail, hnw⟩ := htold.1 rfl
        have hany : (es ++ [e]).any Event.isFailedBus = true := by simp [hfail]
        have none : (es ++ [e]).any Event.isFailedBus ≠ false := by rw [hany]; decide
        refine ⟨w, es ++ [e], closed, by rw [hrun]; exact ⟨rfl, fun _ => rfl, fun hn' => absurd hn' none⟩,
          ⟨fun x hx => ?_, fun x hx => ?_⟩, events hh h1, h2, h3, fun _ hn' => absurd hn' none, fun _ hn' => absurd hn' none⟩
        · rcases List.mem_append.mp hx with hx | hx
          · exact (hq x hx).2
          · rw [List.mem_singleton.mp hx]; exact hnw
        · rw [List.dropLast_concat] at hx; exact (hq x hx).1
      · obtain ⟨es, hh, hq⟩ := htold.2 hf
        have hany := any_isFailedBus_of_quiet hq
        exact ⟨w, es, closed, by rw [hrun]; exact ⟨rfl, fun h' => (by rw [hany] at h'; cases h'), fun _ _ => hf⟩,
          ⟨fun e he => (hq e he).2, fun e he => (hq e (List.mem_of_mem_dropLast he)).1⟩, events hh h1, h2, h3,
          fun honly => absurd (honly t hr f u hx) hf, fun honly => absurd (honly t hr f u hx) hf⟩

/-! ## The per-card host commands (R182 to R190, R202, R203) -/

theorem cardChanOk_iff {a b : Int} : cardChanOk a b = true ↔ isCardNo a ∧ isChanNo b := by
  simp only [cardChanOk, Bool.and_eq_true, isCard_iff, isChannel_iff]

theorem chanNo_of_ok {a b : Int} (h : cardChanOk a b = true) : ∃ c, b = chanNo c := by
  have hb : 1 ≤ b ∧ b ≤ 8 := (cardChanOk_iff.mp h).2
  exact ⟨⟨(b - 1).toNat, show _ < 8 by omega⟩, by simp only [chanNo]; omega⟩

theorem isFlag_iff {b : Byte} : isFlag b = true ↔ ¬NotBool b := by
  unfold isFlag boolOfByte NotBool
  split <;> (try split) <;> simp_all

/-- What the body of a per-card host command keeps to: card `i`, its events tell how it ended, and but for the seeks' it fails
with `BusError` only. -/
structure CardBody (i : CardIx) (seek : Bool) (body : Op Value) : Prop where
  serves : body.Serves i
  tells : body.Tells
  only : seek = false → body.OnlyBusError i

/-- A body that is one operation and the making of its value. -/
theorem CardBody.of {seek : Bool} {x : Op α} {g : α → Value} (h1 : x.Serves i) (h2 : x.Tells) (h3 : x.OnlyBusError i) :
    CardBody i seek (do pure (g (← x))) :=
  ⟨serves_bind h1 fun _ => serves_pure _, tells_bind h2 fun _ => tells_pure _,
    fun _ => onlyBusError_bind h1 h3 fun _ => onlyBusError_pure _⟩

/-- Every per-card host command is one bracket around a `CardBody`; its argument checks are `BadHostArgs`. -/
theorem perCard_form {x : Instr} {k : CardIx} (h : x.cardNamed = some (cardNo k)) :
    ∃ (ok : Bool) (body : Op Value), (∀ s, exec x s = runPerCard x.opcode ok (cardNo k) body s) ∧
      (ok = true ↔ ¬x.BadHostArgs) ∧ (ok = true → CardBody k x.isSeek body) := by
  have plainArgs : ∀ a b : Int, cardChanOk a b = true ↔ ¬(¬isCardNo a ∨ ¬isChanNo b) := by
    intro a b; rw [cardChanOk_iff]; tauto
  have flagged : ∀ (a b : Int) (f : Byte),
      (isFlag f && cardChanOk a b) = true ↔ ¬(¬isCardNo a ∨ ¬isChanNo b ∨ NotBool f) := by
    intro a b f; rw [Bool.and_eq_true, cardChanOk_iff, isFlag_iff]; tauto
  have levelled : ∀ a b v : Int,
      (cardChanOk a b && isLevel v) = true ↔ ¬(¬isCardNo a ∨ ¬isChanNo b ∨ ¬(0 ≤ v ∧ v ≤ 1023)) := by
    intro a b v; rw [Bool.and_eq_true, cardChanOk_iff, isLevel_iff]; tauto
  have seekArgs : ∀ {y : Bool} {P Q : Prop} (a b : Int), (y = true ↔ P ∧ Q) →
      ((cardChanOk a b && y) = true ↔ ¬(¬isCardNo a ∨ ¬isChanNo b ∨ ¬P ∨ ¬Q)) := by
    intro y P Q a b hy; rw [Bool.and_eq_true, cardChanOk_iff, hy]; tauto
  cases x <;> first | (cases h; done) | (simp only [Instr.cardNamed, Option.some.injEq] at h; subst h)
  case crateEnableChannel =>
    exact ⟨_, _, fun _ => rfl, flagged _ _ _, fun hh => by
      obtain ⟨c, rfl⟩ := chanNo_of_ok (Bool.and_eq_true_iff.mp hh).2
      exact .of (serves_enableChannelOp c _) (tells_enableChannelOp _ _ _)
        (onlyBusError_enableChannelOp c (Bool.and_eq_true_iff.mp hh).1)⟩
  case crateEnableTestLoad =>
    exact ⟨_, _, fun _ => rfl, flagged _ _ _, fun hh => by
      obtain ⟨c, rfl⟩ := chanNo_of_ok (Bool.and_eq_true_iff.mp hh).2
      exact .of (serves_enableTestLoadOp c _) (tells_enableTestLoadOp _ _ _)
        (onlyBusError_enableTestLoadOp c (Bool.and_eq_true_iff.mp hh).1)⟩
  case crateIsChannelEnabled =>
    exact ⟨_, _, fun _ => rfl, plainArgs _ _, fun hh => by
      obtain ⟨c, rfl⟩ := chanNo_of_ok hh
      exact .of (serves_isChannelEnabledOp c) (tells_isChannelEnabledOp _ _) (onlyBusError_isChannelEnabledOp c)⟩
  case crateSetLevel =>
    exact ⟨_, _, fun _ => rfl, levelled _ _ _, fun hh => by
      obtain ⟨c, rfl⟩ := chanNo_of_ok (Bool.and_eq_true_iff.mp hh).1
      exact .of (serves_setLevelOp c _) (tells_setLevelOp _ _ _)
        (onlyBusError_setLevelOp c (Bool.and_eq_true_iff.mp hh).2)⟩
  case crateGetBusVoltage =>
    exact ⟨_, _, fun _ => rfl, plainArgs _ _, fun hh => by
      obtain ⟨c, rfl⟩ := chanNo_of_ok hh
      exact .of (serves_getBusVoltageOp c) (tells_getBusVoltageOp _ _) (onlyBusError_getBusVoltageOp c)⟩
  case crateGetShuntVoltage =>
    exact ⟨_, _, fun _ => rfl, plainArgs _ _, fun hh => by
      obtain ⟨c, rfl⟩ := chanNo_of_ok hh
      exact .of (serves_getShuntVoltageOp c) (tells_getShuntVoltageOp _ _) (onlyBusError_getShuntVoltageOp c)⟩
  case crateGetCurrent =>
    exact ⟨_, _, fun _ => rfl, plainArgs _ _, fun hh => by
      obtain ⟨c, rfl⟩ := chanNo_of_ok hh
      exact .of (serves_getCurrentOp c) (tells_getCurrentOp _ _) (onlyBusError_getCurrentOp c)⟩
  case seekVoltage =>
    exact ⟨_, _, fun _ => rfl, seekArgs _ _ (seekVoltageArgs_iff _ _), fun hh => by
      obtain ⟨c, rfl⟩ := chanNo_of_ok (Bool.and_eq_true_iff.mp hh).1
      exact ⟨serves_seekOp (serves_getBusVoltageOp c) (moves_getBusVoltageOp (by exact rfl) _ _) c _ _,
        tells_seekOp (tells_getBusVoltageOp _ _) _ _ _ _, nofun⟩⟩
  case seekCurrent =>
    exact ⟨_, _, fun _ => rfl, seekArgs _ _ (seekCurrentArgs_iff _ _), fun hh => by
      obtain ⟨c, rfl⟩ := chanNo_of_ok (Bool.and_eq_true_iff.mp hh).1
      exact ⟨serves_seekOp (serves_getCurrentOp c) (moves_getCurrentOp (by exact rfl) _ _) c _ _,
        tells_seekOp (tells_getCurrentOp _ _) _ _ _ _, nofun⟩⟩

end Sys2Proof.Machine
end

