-- ==== Sys2Proof/Laws/Writes.lean ====
section
/-! SUPPORT. Which kinds of device register an operation writes, whatever the environment answers (`Writes`). -/

namespace Sys2Proof.Machine

variable {α β : Type} {ks : List RegKind}

/-! ## The relation -/

/-- Every device register of a kind not in `ks` is as it was, and so are the parameters. -/
def Spares (ks : List RegKind) (s t : State) : Prop :=
  t.params = s.params ∧ ∀ k, (∀ r ∈ ks, ¬r.Cell k) → Memory.read t.mem k = Memory.read s.mem k

theorem Spares.refl (s : State) : Spares ks s s := ⟨rfl, fun _ _ => rfl⟩

theorem Spares.trans {s t u : State} (h : Spares ks s t) (h' : Spares ks t u) : Spares ks s u :=
  ⟨h'.1.trans h.1, fun k hk => (h'.2 k hk).trans (h.2 k hk)⟩

theorem Spares.of_eq {s t : State} (hp : t.params = s.params) (hm : t.mem = s.mem) : Spares ks s t :=
  ⟨hp, fun _ _ => by rw [hm]⟩

theorem spares_setCard (s : State) (a : Int) (c : Card) : Spares ks s (s.setCard a c) := by
  unfold State.setCard
  split <;> exact .of_eq rfl rfl

/-- However it ends, the operation writes device registers of the kinds `ks` only. -/
def Op.Writes (ks : List RegKind) (x : Op α) : Prop := ∀ s, s.params.Valid → Spares ks s (endState (x s))

theorem writes_pure (v : α) : (pure v : Op α).Writes ks := fun s _ => .refl s

theorem writes_get : (get : Op State).Writes ks := fun s _ => .refl s

theorem writes_raise (f : Failure) : (raise f : Op α).Writes ks := fun s _ => .refl s

theorem writes_halt (r : Fault) : (halt r : Op α).Writes ks := fun s _ => .refl s

/-- A bind whose second half may assume the state it starts in, with its parameters. -/
theorem writes_bind {x : Op α} {f : α → Op β} (hx : x.Writes ks) (hf : ∀ v, (f v).Writes ks) : (x >>= f).Writes ks := by
  intro s hv
  have h := hx s hv
  rw [Op.bind_apply]
  cases hr : x s with
  | ok v t => rw [hr] at h; exact h.trans (hf v t (by rw [show t.params = s.params from h.1]; exact hv))
  | error e t => rw [hr] at h; exact h

/-- `get` and what follows it: the state got is the one it goes on in. -/
theorem writes_get_bind {f : State → Op β} (hf : ∀ s, s.params.Valid → Spares ks s (endState (f s s))) :
    ((get : Op State) >>= f).Writes ks := fun s hv => hf s hv

theorem writes_modify {g : State → State} (h : ∀ s, Spares ks s (g s)) : (modify g : Op PUnit).Writes ks := fun s _ => h s

theorem writes_emit (e : Event) : (emit e).Writes ks := fun _ _ => .of_eq rfl rfl

theorem writes_draw : draw.Writes ks := fun s _ => by
  change Spares ks s s.tookAnswer
  unfold State.tookAnswer
  split <;> exact .of_eq rfl rfl

theorem writes_checkArg (b : Bool) : (checkArg b).Writes ks := by
  cases b
  · exact writes_raise _
  · exact writes_pure _

theorem writes_readField (field : State → Option α) : (readField field).Writes ks := by
  refine writes_bind writes_get fun s => ?_
  cases field s
  · exact writes_halt _
  · exact writes_pure _

theorem writes_chanIx (ch : Int) : (chanIx ch).Writes ks := by
  unfold chanIx
  split
  · exact writes_pure _
  · exact writes_halt _

theorem writes_asBool (b : Option Bool) : (asBool b).Writes ks := by
  cases b
  · exact writes_raise _
  · exact writes_pure _

theorem writes_requireOpen (a : Int) : (requireOpen a).Writes ks := by
  refine writes_bind writes_get fun s => ?_
  split
  · exact writes_pure _
  · exact writes_halt _

theorem writes_modifyCard (a : Int) (f : Card → Card) : (modifyCard a f).Writes ks :=
  writes_modify fun s => spares_setCard s a _

theorem writes_forEach {body : α → Op Unit} (h : ∀ x, (body x).Writes ks) (xs : List α) : (forEach xs body).Writes ks := by
  induction xs with
  | nil => exact writes_pure _
  | cons x xs ih => exact writes_bind (h x) fun _ => ih

theorem writes_attempt {body : Op Unit} (h : body.Writes ks) : (attempt body).Writes ks := by
  intro s hv
  have := h s hv
  unfold attempt
  cases hr : body s with
  | ok v t => rw [hr] at this; exact this
  | error e t =>
    rw [hr] at this
    cases e with
    | failed f => cases f <;> exact this
    | fault r => exact this

theorem writes_releaseAfter {release : Op Unit} {body : Op α} (hr : release.Writes ks) (hb : body.Writes ks) :
    (releaseAfter release body).Writes ks := by
  intro s hv
  have h1 := hb s hv
  unfold releaseAfter
  cases hx : body s with
  | ok v t =>
    rw [hx] at h1
    have h2 := hr t (by rw [show t.params = s.params from h1.1]; exact hv)
    cases hy : release t with
    | ok w u => rw [hy] at h2; simpa [hy] using h1.trans h2
    | error e u => rw [hy] at h2; simpa [hy] using h1.trans h2
  | error e t =>
    rw [hx] at h1
    cases e with
    | fault r => exact h1
    | failed f =>
      have h2 := hr t (by rw [show t.params = s.params from h1.1]; exact hv)
      cases hy : release t with
      | ok w u => rw [hy] at h2; simpa [hy] using h1.trans h2
      | error e u => cases e <;> (rw [hy] at h2; simpa [hy] using h1.trans h2)

theorem writes_dropAfter {drop : State → State} {body : Op α} (hd : ∀ s, Spares ks s (drop s)) (hb : body.Writes ks) :
    (dropAfter drop body).Writes ks := by
  intro s hv
  have h := hb s hv
  unfold dropAfter
  cases hx : body s with
  | ok v t => rw [hx] at h; exact h.trans (hd t)
  | error e t => rw [hx] at h; exact h.trans (hd t)

/-! ## One bus transaction -/

theorem writes_reach (t : Txn) (addr : Int) : (reach t addr).Writes ks := by
  refine writes_bind writes_get fun s => ?_
  split
  · exact writes_pure _
  · exact writes_bind (writes_emit _) fun _ => writes_raise _
  · exact writes_halt _

theorem writes_transferRead (t : Txn) (f : State → Answer → List Byte) : (transferRead t f).Writes ks := by
  refine writes_bind writes_draw fun ans => ?_
  split
  · exact writes_bind writes_get fun s => writes_bind (writes_emit _) fun _ => writes_pure _
  · exact writes_bind (writes_emit _) fun _ => writes_raise _

theorem flatten_take_subset {l : List (List α)} {n : Nat} {x : α} (h : x ∈ (l.take n).flatten) : x ∈ l.flatten := by
  obtain ⟨y, hy, hx⟩ := List.mem_flatten.mp h
  exact List.mem_flatten.mpr ⟨y, List.mem_of_mem_take hy, hx⟩

/-- A write puts bytes into the cells of the registers it addresses and into no other. -/
theorem writes_transferWrite (t : Txn) {regs : List (List (Nat × Byte))}
    (h : ∀ w ∈ regs.flatten, ∃ r ∈ ks, r.Cell w.1) : (transferWrite t regs).Writes ks := by
  have key : ∀ ws : List (Nat × Byte), (∀ w ∈ ws, w ∈ regs.flatten) →
      ∀ s : State, Spares ks s { s with mem := Memory.writeAll s.mem ws } := by
    intro ws hws s
    refine ⟨rfl, fun k hk => Memory.read_writeAll_other _ fun hm => ?_⟩
    obtain ⟨w, hw, rfl⟩ := List.mem_map.mp hm
    obtain ⟨r, hr, hc⟩ := h w (hws w hw)
    exact hk r hr hc
  refine writes_bind writes_draw fun ans => ?_
  split
  · exact writes_bind (writes_modify fun s => key _ (fun _ hw => hw) s) fun _ => writes_emit _
  · exact writes_bind (writes_modify fun s => key _ (fun _ hw => flatten_take_subset hw) s) fun _ =>
      writes_bind (writes_emit _) fun _ => writes_raise _

theorem writes_readByteOp (addr : Int) : (readByteOp addr).Writes ks :=
  writes_bind (writes_reach _ _) fun _ => writes_bind (writes_transferRead _ _) fun _ => writes_pure _

theorem writes_writeByteOp (h : RegKind.switch ∈ ks) (addr : Int) (b : Byte) : (writeByteOp addr b).Writes ks := by
  refine writes_bind (writes_reach _ _) fun d => ?_
  split
  · next i =>
    refine writes_bind (writes_checkArg _) fun _ => writes_transferWrite _ ?_
    intro w hw
    obtain rfl : w = (swCell i, b) := by simpa using hw
    exact ⟨_, h, i, rfl⟩
  · exact writes_raise _

theorem writes_readWordOp (addr : Int) (reg : Nat) : (readWordOp addr reg).Writes ks := by
  refine writes_bind (writes_reach _ _) fun d => ?_
  split
  · refine writes_bind writes_get fun _ => ?_
    split
    · exact writes_bind (writes_transferRead _ _) fun _ => writes_pure _
    · exact writes_raise _
  · exact writes_raise _

theorem writes_readBlockOp (addr : Int) (reg n : Nat) : (readBlockOp addr reg n).Writes ks := by
  refine writes_bind (writes_reach _ _) fun d => writes_bind (writes_checkArg _) fun _ => writes_bind writes_get fun s => ?_
  split
  · exact writes_transferRead _ _
  · exact writes_raise _

theorem halfCells_cells {k : Nat} {v : Half} {w : Nat × Byte} (h : w ∈ [halfCells k v].flatten) :
    w.1 = k ∨ w.1 = k + 1 := by
  simp only [halfCells, List.flatten_cons, List.flatten_nil, List.append_nil, List.mem_cons, List.not_mem_nil, or_false] at h
  rcases h with rfl | rfl
  · exact .inl rfl
  · exact .inr rfl

/-- `write_word` writes the register its number names. -/
theorem writes_writeWordOp {addr : Int} {reg : Params → Nat} (w : Half)
    (hcfg : ∀ p : Params, p.Valid → snsReg p (reg p) = some .cfg → RegKind.snsCfg ∈ ks)
    (hcal : ∀ p : Params, p.Valid → snsReg p (reg p) = some .cal → RegKind.snsCal ∈ ks) (s : State) (hv : s.params.Valid) :
    Spares ks s (endState (writeWordOp addr (reg s.params) w s)) := by
  unfold writeWordOp
  rw [Op.bind_apply]
  have h1 := writes_reach (ks := ks) (.writeWord addr (reg s.params) w) addr s hv
  cases hr : reach (.writeWord addr (reg s.params) w) addr s with
  | error e t => rw [hr] at h1; exact h1
  | ok d t =>
    rw [hr] at h1
    have ht : t.params = s.params := h1.1
    have hvt : t.params.Valid := by rw [ht]; exact hv
    refine h1.trans ?_
    cases d with
    | switch i => exact .refl t
    | expander i => exact .refl t
    | pot i k => exact .refl t
    | sense i c =>
      dsimp only
      rw [Op.get_bind, ht]
      cases hs : snsReg s.params (reg s.params) with
      | none => exact .refl t
      | some x =>
        cases x with
        | cfg =>
          exact writes_transferWrite _ (fun x hx => ⟨_, hcfg _ hv hs, i, c, halfCells_cells hx⟩) t hvt
        | cal =>
          exact writes_transferWrite _ (fun x hx => ⟨_, hcal _ hv hs, i, c, halfCells_cells hx⟩) t hvt
        | shunt => exact .refl t
        | bus => exact .refl t
        | power => exact .refl t
        | current => exact .refl t

/-- The kind of register a device has that is written by blocks. -/
def Target.BlockKind : Target → RegKind → Prop
  | .expander _, r => r = .expander
  | .pot _ _, r => r = .pot
  | _, _ => False

theorem byteCell_kind {p : Params} {d : Target} {reg k : Nat} (h : byteCell p d reg = some k) :
    ∃ r, d.BlockKind r ∧ r.Cell k := by
  cases d with
  | switch => cases h
  | sense => cases h
  | expander i =>
    refine ⟨.expander, rfl, ?_⟩
    simp only [byteCell] at h
    split at h
    · cases h; exact ⟨i, 0, rfl⟩
    · split at h
      · cases h; exact ⟨i, 1, rfl⟩
      · cases h
  | pot i c =>
    refine ⟨.pot, rfl, ?_⟩
    obtain ⟨s, j, hj, -, rfl⟩ := byteCell_pot_some h
    exact ⟨i, c, s, ⟨j, hj⟩, rfl⟩

theorem blockCells_kind {p : Params} {d : Target} {n : Nat} : ∀ {reg : Nat} {l : List Nat},
    blockCells p d reg n = some l → ∀ k ∈ l, ∃ r, d.BlockKind r ∧ r.Cell k := by
  induction n with
  | zero =>
    intro reg l h k hk
    simp only [blockCells, Option.some.injEq] at h
    subst h
    cases hk
  | succ n ih =>
    intro reg l h
    simp only [blockCells] at h
    split at h
    · next k l' h1 h2 =>
      simp only [Option.some.injEq] at h
      subst h
      intro x hx
      rcases List.mem_cons.mp hx with rfl | hx
      · exact byteCell_kind h1
      · exact ih h2 x hx
    · cases h

/-- `write_block` writes registers of the device its address leads to. -/
theorem writes_writeBlockOp {addr : Params → Int} {reg : Params → Nat} (bs : List Byte)
    (h : ∀ (s : State) (d : Target) (r : RegKind), s.params.Valid → s.route (addr s.params) = .device d → d.BlockKind r →
      r ∈ ks) (s : State) (hv : s.params.Valid) :
    Spares ks s (endState (writeBlockOp (addr s.params) (reg s.params) bs s)) := by
  unfold writeBlockOp reach
  rw [Op.bind_apply, Op.get_bind]
  cases hr : s.route (addr s.params) with
  | noDevice => exact .of_eq rfl rfl
  | contention => exact .refl s
  | device d =>
    refine (writes_bind (writes_checkArg _) fun _ => ?_) s hv
    refine writes_get_bind fun t ht => ?_
    cases hk : blockCells t.params d (reg s.params) bs.length with
    | none => exact .refl t
    | some l =>
      refine writes_transferWrite _ ?_ t ht
      intro w hw
      obtain ⟨y, hy, hwy⟩ := List.mem_flatten.mp hw
      obtain ⟨z, hz, rfl⟩ := List.mem_map.mp hy
      obtain rfl : w = z := by simpa using hwy
      obtain ⟨r, h1, h2⟩ := blockCells_kind hk w.1 (List.of_mem_zip hz).1
      exact ⟨r, h s d r hv hr h1, h2⟩

/-- A sub-bus address leads to the device that has it, or to none. -/
theorem route_kind {s : State} {x : Nat} {d : Target} (hv : s.params.Valid) (hx : x ∈ s.params.subBusAddrs)
    (h : s.route (x : Int) = .device d) : ∃ i, localDevice s.params i x = some d := by
  simp only [State.route, switchAt_subBus hv hx] at h
  split at h
  · cases h
  · next i _ =>
    split at h
    · next t ht => cases h; exact ⟨i, ht⟩
    · cases h
  · cases h

theorem route_xp_kind {s : State} {d : Target} {r : RegKind} (hv : s.params.Valid)
    (h : s.route (s.params.xpAddr : Int) = .device d) (hk : d.BlockKind r) : r = .expander := by
  obtain ⟨i, hi⟩ := route_kind hv (xpAddr_mem _) h
  rw [localDevice_xp] at hi
  cases hi
  exact hk

theorem route_pot_kind {s : State} {d : Target} {r : RegKind} {k : PotIx} (hv : s.params.Valid)
    (h : s.route ((s.params.potAddr[k] : Nat) : Int) = .device d) (hk : d.BlockKind r) : r = .pot := by
  obtain ⟨i, hi⟩ := route_kind hv (potAddr_mem _ k) h
  rw [localDevice_pot hv] at hi
  cases hi
  exact hk

/-! ## One card -/

theorem writes_isoSetOp (h : RegKind.switch ∈ ks) (a : Int) (en : Byte) (x y : Int) : (isoSetOp a en x y).Writes ks :=
  writes_bind (writes_asBool _) fun _ => writes_bind (writes_asBool _) fun _ => writes_bind (writes_asBool _) fun _ =>
    writes_bind writes_get fun _ => writes_writeByteOp h _ _

theorem writes_openOp (h : RegKind.switch ∈ ks) (a : Int) : (openOp a).Writes ks := by
  refine writes_bind writes_get fun s => ?_
  split
  · exact writes_bind (writes_isoSetOp h _ _ _ _) fun _ => writes_modifyCard _ _
  · exact writes_bind (writes_isoSetOp h _ _ _ _) fun _ => writes_modifyCard _ _

theorem writes_closeOp (h : RegKind.switch ∈ ks) (a : Int) : (closeOp a).Writes ks :=
  writes_bind (writes_isoSetOp h _ _ _ _) fun _ => writes_modifyCard _ _

theorem writes_withOpen {body : Op α} (h : RegKind.switch ∈ ks) (a : Int) (hb : body.Writes ks) :
    (withOpen a body).Writes ks :=
  writes_bind (writes_openOp h a) fun _ => writes_releaseAfter (writes_closeOp h a) hb

theorem writes_xpWriteOp (h : RegKind.expander ∈ ks) (a : Int) (m l : Byte) : (xpWriteOp a m l).Writes ks := by
  refine writes_bind (writes_requireOpen _) fun _ => writes_get_bind fun s hv => ?_
  have h1 := writes_writeBlockOp (ks := ks) (addr := fun p => (p.xpAddr : Int)) (reg := Params.xpReg) (xpBlock m l)
    (fun t d r ht hd hr => by rw [route_xp_kind ht hd hr]; exact h) s hv
  rw [Op.bind_apply]
  cases hb : writeBlockOp (s.params.xpAddr : Int) s.params.xpReg (xpBlock m l) s with
  | error e t => rw [hb] at h1; exact h1
  | ok v t => rw [hb] at h1; exact h1.trans (spares_setCard t a _)

theorem writes_xpReadOp (a : Int) : (xpReadOp a).Writes ks :=
  writes_bind (writes_requireOpen _) fun _ => writes_bind writes_get fun _ => writes_bind (writes_readBlockOp _ _ _) fun _ =>
    writes_modifyCard _ _

theorem writes_enableChannelOp (h : RegKind.expander ∈ ks) (a ch : Int) (on : Byte) : (enableChannelOp a ch on).Writes ks :=
  writes_bind (writes_checkArg _) fun _ => writes_bind (writes_asBool _) fun _ => writes_bind (writes_requireOpen _) fun _ =>
    writes_bind (writes_chanIx _) fun _ => writes_bind (writes_readField _) fun _ => writes_bind (writes_readField _) fun _ =>
      writes_xpWriteOp h _ _ _

theorem writes_enableTestLoadOp (h : RegKind.expander ∈ ks) (a ch : Int) (on : Byte) :
    (enableTestLoadOp a ch on).Writes ks :=
  writes_bind (writes_checkArg _) fun _ => writes_bind (writes_asBool _) fun _ => writes_bind (writes_requireOpen _) fun _ =>
    writes_bind (writes_chanIx _) fun _ => writes_bind (writes_readField _) fun _ => writes_bind (writes_readField _) fun _ =>
      writes_xpWriteOp h _ _ _

theorem writes_isChannelEnabledOp (a ch : Int) : (isChannelEnabledOp a ch).Writes ks :=
  writes_bind (writes_checkArg _) fun _ => writes_bind (writes_chanIx _) fun _ => writes_bind (writes_readField _) fun _ =>
    writes_pure _

theorem writes_potWriteOp (h : RegKind.pot ∈ ks) (a ch : Int) (p : Word) : (potWriteOp a ch p).Writes ks :=
  writes_bind (writes_requireOpen _) fun _ => writes_bind (writes_chanIx _) fun c => writes_get_bind fun s hv =>
    writes_writeBlockOp (ks := ks) (addr := fun q => ((q.potAddr[potChip c] : Nat) : Int))
      (reg := fun q => q.potReg[potSub c]) (patternBytes p)
      (fun t d r ht hd hr => by rw [route_pot_kind ht hd hr]; exact h) s hv

theorem writes_setLevelOp (h : RegKind.pot ∈ ks) (a ch v : Int) : (setLevelOp a ch v).Writes ks :=
  writes_bind (writes_checkArg _) fun _ => writes_bind (writes_checkArg _) fun _ => writes_bind (writes_requireOpen _) fun _ =>
    writes_bind (writes_potWriteOp h _ _ _) fun _ => writes_bind (writes_chanIx _) fun _ => writes_modifyCard _ _

theorem writes_setLevelMinOp (h : RegKind.pot ∈ ks) (a ch : Int) : (setLevelMinOp a ch).Writes ks :=
  writes_bind (writes_checkArg _) fun _ => writes_bind (writes_requireOpen _) fun _ =>
    writes_bind (writes_potWriteOp h _ _ _) fun _ => writes_bind (writes_chanIx _) fun _ => writes_modifyCard _ _

theorem writes_setLevelMaxOp (h : RegKind.pot ∈ ks) (a ch : Int) : (setLevelMaxOp a ch).Writes ks :=
  writes_bind (writes_checkArg _) fun _ => writes_bind (writes_requireOpen _) fun _ =>
    writes_bind (writes_potWriteOp h _ _ _) fun _ => writes_bind (writes_chanIx _) fun _ => writes_modifyCard _ _

theorem writes_readLevelOp (a ch : Int) : (readLevelOp a ch).Writes ks :=
  writes_bind (writes_checkArg _) fun _ => writes_bind (writes_requireOpen _) fun _ => writes_bind (writes_chanIx _) fun _ =>
    writes_bind writes_get fun _ => writes_bind (writes_readBlockOp _ _ _) fun _ => writes_bind (writes_modifyCard _ _) fun _ =>
      writes_pure _

theorem writes_calibrate (h : RegKind.snsCal ∈ ks) (c : ChanIx) : (calibrate c).Writes ks :=
  writes_get_bind fun s hv => writes_writeWordOp (ks := ks) (reg := Params.snsRegCal) _
    (fun p hp hs => by rw [snsReg_cal hp] at hs; cases hs) (fun _ _ _ => h) s hv

theorem writes_readSense (c : ChanIx) (reg : Params → Nat) : (readSense c reg).Writes ks :=
  writes_bind writes_get fun _ => writes_bind (writes_readWordOp _ _) fun _ => writes_pure _

theorem writes_senseInitOp (h1 : RegKind.snsCal ∈ ks) (h2 : RegKind.snsCfg ∈ ks) (a ch : Int) : (senseInitOp a ch).Writes ks :=
  writes_bind (writes_requireOpen _) fun _ => writes_bind (writes_chanIx _) fun _ => writes_bind (writes_calibrate h1 _) fun _ =>
    writes_get_bind fun s hv => writes_writeWordOp (ks := ks) (reg := Params.snsRegCfg) _ (fun _ _ _ => h2)
      (fun p hp hs => by rw [snsReg_cfg] at hs; cases hs) s hv

theorem writes_rawShuntOp (a ch : Int) : (rawShuntOp a ch).Writes ks :=
  writes_bind (writes_requireOpen _) fun _ => writes_bind (writes_chanIx _) fun _ => writes_readSense _ _

theorem writes_rawBusOp (h : RegKind.snsCal ∈ ks) (a ch : Int) : (rawBusOp a ch).Writes ks :=
  writes_bind (writes_requireOpen _) fun _ => writes_bind (writes_chanIx _) fun _ => writes_bind (writes_calibrate h _) fun _ =>
    writes_bind (writes_readSense _ _) fun _ => writes_pure _

theorem writes_rawCurrentOp (h : RegKind.snsCal ∈ ks) (a ch : Int) : (rawCurrentOp a ch).Writes ks :=
  writes_bind (writes_requireOpen _) fun _ => writes_bind (writes_chanIx _) fun _ => writes_bind (writes_calibrate h _) fun _ =>
    writes_readSense _ _

theorem writes_rawPowerOp (h : RegKind.snsCal ∈ ks) (a ch : Int) : (rawPowerOp a ch).Writes ks :=
  writes_bind (writes_requireOpen _) fun _ => writes_bind (writes_chanIx _) fun _ => writes_bind (writes_calibrate h _) fun _ =>
    writes_readSense _ _

theorem writes_takeSample {sample : Op Rat} (h : sample.Writes ks) (k : Nat) : (takeSample sample k).Writes ks := by
  unfold takeSample
  have hrest : (do
      let x ← sample
      modify fun s => { s with acc := s.acc.map (· + x), cnt := s.cnt.map (· + 1) } : Op PUnit).Writes ks :=
    writes_bind h fun _ => writes_modify fun _ => .of_eq rfl rfl
  split
  · exact writes_bind writes_get fun _ => writes_bind (writes_emit _) fun _ => hrest
  · exact hrest

theorem writes_averageOp {sample : Op Rat} (h : sample.Writes ks) : (averageOp sample).Writes ks :=
  writes_dropAfter (fun _ => .of_eq rfl rfl) <| writes_bind (writes_modify fun _ => .of_eq rfl rfl) fun _ =>
    writes_bind (writes_forEach (fun k => writes_takeSample h k) _) fun _ => writes_bind (writes_readField _) fun _ =>
      writes_pure _

theorem writes_getBusVoltageOp (h : RegKind.snsCal ∈ ks) (a ch : Int) : (getBusVoltageOp a ch).Writes ks :=
  writes_bind (writes_checkArg _) fun _ => writes_bind (writes_requireOpen _) fun _ =>
    writes_bind (writes_averageOp (writes_bind (writes_rawBusOp h _ _) fun _ => writes_bind writes_get fun _ => writes_pure _))
      fun _ => writes_pure _

theorem writes_getShuntVoltageOp (a ch : Int) : (getShuntVoltageOp a ch).Writes ks :=
  writes_bind (writes_checkArg _) fun _ => writes_bind (writes_requireOpen _) fun _ =>
    writes_bind (writes_averageOp (writes_bind (writes_rawShuntOp _ _) fun _ => writes_bind writes_get fun _ => writes_pure _))
      fun _ => writes_pure _

theorem writes_getCurrentOp (h : RegKind.snsCal ∈ ks) (a ch : Int) : (getCurrentOp a ch).Writes ks :=
  writes_bind (writes_checkArg _) fun _ => writes_bind (writes_requireOpen _) fun _ =>
    writes_bind (writes_averageOp (writes_bind (writes_rawCurrentOp h _ _) fun _ => writes_bind (writes_readField _) fun _ =>
      writes_pure _)) fun _ => writes_pure _

/-! ## Commands -/

theorem writes_discoverOp (h1 : RegKind.snsCal ∈ ks) (h2 : RegKind.snsCfg ∈ ks) (a : Int) : (discoverOp a).Writes ks :=
  writes_bind (writes_xpReadOp _) fun _ =>
    writes_bind (writes_forEach (fun _ => writes_bind (writes_readLevelOp _ _) fun _ => writes_pure _) _) fun _ =>
      writes_bind (writes_forEach (fun _ => writes_senseInitOp h1 h2 _ _) _) fun _ => writes_bind writes_get fun _ =>
        writes_modifyCard _ _

theorem writes_cardConstructOp (h : RegKind.switch ∈ ks) (h1 : RegKind.snsCal ∈ ks) (h2 : RegKind.snsCfg ∈ ks) (a : Int) :
    (cardConstructOp a).Writes ks := by
  have hf : (do forgetCard a; pure false : Op Bool).Writes ks :=
    writes_bind (writes_modify fun s => spares_setCard s a _) fun _ => writes_pure _
  refine writes_bind (writes_modifyCard _ _) fun _ => writes_bind (writes_attempt (writes_openOp h a)) fun b => ?_
  split
  · refine writes_bind (writes_attempt (writes_discoverOp h1 h2 a)) fun b => ?_
    split
    · refine writes_bind (writes_attempt (writes_closeOp h a)) fun b => ?_
      split
      · exact writes_bind (writes_modifyCard _ _) fun _ => writes_pure _
      · exact hf
    · exact writes_bind (writes_attempt (writes_closeOp h a)) fun _ => hf
  · exact hf

theorem writes_forLiveCards {act : Int → Op Unit} (h : RegKind.switch ∈ ks) (ha : ∀ a, (act a).Writes ks) :
    (forLiveCards act).Writes ks := by
  refine writes_bind (writes_forEach (fun a => writes_bind writes_get fun s => ?_) _) fun _ => writes_pure _
  split
  · exact writes_withOpen h _ (ha a)
  · exact writes_pure _

theorem writes_crateConstructOp (h : RegKind.switch ∈ ks) (h1 : RegKind.snsCal ∈ ks) (h2 : RegKind.snsCfg ∈ ks) :
    crateConstructOp.Writes ks :=
  writes_bind (writes_forEach (fun a => writes_bind (writes_cardConstructOp h h1 h2 a) fun _ => writes_pure _) _) fun _ =>
    writes_bind writes_get fun _ => writes_pure _

theorem writes_getAvailableCardsOp (h : RegKind.switch ∈ ks) (h1 : RegKind.snsCal ∈ ks) (h2 : RegKind.snsCfg ∈ ks) :
    getAvailableCardsOp.Writes ks := by
  refine writes_bind writes_get fun s => writes_bind (writes_forEach (fun a => ?_) _) fun _ =>
    writes_bind writes_get fun _ => writes_pure _
  split
  · exact writes_withOpen h _ (writes_pure _)
  · refine writes_bind (writes_cardConstructOp h h1 h2 a) fun b => ?_
    split
    · exact writes_emit _
    · exact writes_pure _

theorem writes_shutdownLoop (h : RegKind.switch ∈ ks) (l : List Int) : ∀ failed, (shutdownLoop l failed).Writes ks := by
  induction l with
  | nil => intro failed; exact writes_pure _
  | cons a l ih =>
    intro failed
    refine writes_bind writes_get fun s => ?_
    split
    · exact writes_bind (writes_attempt (writes_closeOp h a)) fun _ =>
        writes_bind (writes_modify fun s => spares_setCard s a _) fun _ => ih _
    · exact ih _

theorem writes_shutdownOp (h : RegKind.switch ∈ ks) : shutdownOp.Writes ks := by
  refine writes_bind (writes_shutdownLoop h _ _) fun b => ?_
  split
  · exact writes_raise _
  · exact writes_pure _

theorem writes_disableOutputsAct {z : Bool} (h : RegKind.expander ∈ ks) (hz : z = true → RegKind.pot ∈ ks) (a : Int) :
    (disableOutputsAct z a).Writes ks := by
  refine writes_bind (writes_forEach (fun _ => writes_enableChannelOp h _ _ _) _) fun _ => ?_
  split
  · next e => exact writes_forEach (fun _ => writes_setLevelMinOp (hz e) _ _) _
  · exact writes_pure _

theorem writes_loadChannelOp (h : RegKind.expander ∈ ks) (h1 : RegKind.pot ∈ ks) (en : Bool) (a ch : Int) :
    (loadChannelOp en a ch).Writes ks :=
  writes_bind writes_get fun _ => writes_bind (writes_setLevelOp h1 _ _ _) fun _ => writes_enableChannelOp h _ _ _

theorem writes_saveConfigOp (create : Bool) : (saveConfigOp create).Writes ks := by
  have hch : ∀ a ch, (saveChannelOp a ch).Writes ks := fun a ch =>
    writes_bind (writes_isChannelEnabledOp _ _) fun o => writes_bind (writes_chanIx _) fun c =>
      writes_bind (writes_readField _) fun l => writes_modify fun s => by
        unfold State.setCfgEntry
        split <;> exact .of_eq rfl rfl
  have hrest : (do
      forEach allCards fun a => do
        if (← get).live a then forEach allChans fun ch => saveChannelOp a ch
      pure .nothing : Op Value).Writes ks := by
    refine writes_bind (writes_forEach (fun a => writes_bind writes_get fun s => ?_) _) fun _ => writes_pure _
    split
    · exact writes_forEach (fun _ => hch _ _) _
    · exact writes_pure _
  unfold saveConfigOp
  split
  · exact writes_bind (writes_modify fun _ => .of_eq rfl rfl) fun _ => hrest
  · exact hrest

theorem writes_seekLoop (h : RegKind.pot ∈ ks) {sense : Op Rat} (hs : sense.Writes ks) (card chan : Int) (target : Rat)
    (step : Int) (fuel : Nat) : (seekLoop card chan target step sense fuel).Writes ks := by
  induction fuel with
  | zero => exact writes_raise _
  | succ fuel ih =>
    unfold seekLoop
    refine writes_bind (writes_emit _) fun _ => writes_bind hs fun x => writes_bind (writes_modify fun _ => .of_eq rfl rfl)
      fun _ => writes_bind (writes_readField _) fun level => ?_
    split
    · exact writes_pure _
    · exact writes_bind (writes_modify fun _ => .of_eq rfl rfl) fun _ => writes_bind (writes_setLevelOp h _ _ _) fun _ => ih

theorem writes_seekOp (h : RegKind.pot ∈ ks) {sense : Op Rat} (hs : sense.Writes ks) (card chan : Int) (target : Rat)
    (step : Int) : (seekOp card chan target step sense).Writes ks :=
  writes_dropAfter (fun _ => .of_eq rfl rfl) <| writes_bind (writes_chanIx _) fun _ => writes_bind (writes_readField _)
    fun _ => writes_bind (writes_modify fun _ => .of_eq rfl rfl) fun _ => writes_seekLoop h hs _ _ _ _ _

/-! ## From an operation to its outcome -/

theorem writes_runInternal {body : Op Value} {s t : State} (hv : s.params.Valid) (h : body.Writes ks)
    (ht : runInternal body s = .next t) : Spares ks s t := by
  have hm := h s hv
  unfold runInternal at ht
  cases hx : body s with
  | ok v u => rw [hx] at ht hm; cases ht; exact hm
  | error e u =>
    rw [hx] at ht hm
    cases e with
    | failed f => cases ht; exact hm
    | fault r => cases ht

theorem writes_runCommand {op : Byte} {ok : Bool} {found : State → Bool} {body : Op Value} {s t : State}
    (hv : s.params.Valid) (h : body.Writes ks) (ht : runCommand op ok found body s = .next t) : Spares ks s t := by
  have hm := h (s.beginCommand op) hv
  unfold runCommand at ht
  split at ht
  · cases ht
  · split at ht
    · cases ht; exact .refl s
    · split at ht
      · cases ht; exact .refl s
      · cases hx : body (s.beginCommand op) with
        | ok v u => rw [hx] at ht hm; cases ht; exact hm
        | error e u =>
          rw [hx] at ht hm
          cases e with
          | failed f => cases ht; exact hm
          | fault r => cases ht

end Sys2Proof.Machine
end

