-- ==== Sys2Proof/Tests/Slice0.lean ====
section
/-! SUPPORT. Small checks: words written out from rules R70 and R72 (laid out as log 9 says), an ill-formed term for each check of
WellFormed, single operations with the results 95_test_vectors.md gives, and a witness for the premises of every statement. -/

namespace Sys2Proof.Tests

open Sys2Proof Sys2Proof.Machine

-- One theorem at a time: each thread of the elaborator reserves a stack, and many at once exceed the memory allowed.
set_option Elab.async false

/-! ## WellFormed refuses -/

theorem test_wf_address : ¬(Instr.readByte 128).WellFormed := by decide
theorem test_wf_write_byte_address : ¬(Instr.writeByte 200 0).WellFormed := by decide
theorem test_wf_register : ¬(Instr.readWord 5 256).WellFormed ∧ ¬(Instr.writeWord 5 256 0).WellFormed := by decide
theorem test_wf_block : ¬(Instr.writeBlock 5 6 []).WellFormed ∧ ¬(Instr.readBlock 5 6 0).WellFormed := by decide
theorem test_wf_block_length : ¬(Instr.readBlock 5 6 (2 ^ 32)).WellFormed := by decide
theorem test_wf_card : ¬(Instr.openCard 0).WellFormed ∧ ¬(Instr.closeCard 19).WellFormed ∧
    ¬(Instr.isoSet (-1) 0 0 0).WellFormed ∧ ¬(Instr.xpRead 19).WellFormed ∧ ¬(Instr.cardConstruct 0).WellFormed := by decide
theorem test_wf_channel : ¬(Instr.potWrite 1 0 0).WellFormed ∧ ¬(Instr.senseInit 1 9).WellFormed ∧
    ¬(Instr.rawBus 18 9).WellFormed := by decide
theorem test_wf_i32 : ¬(Instr.setLevel 1 1 (2 ^ 31)).WellFormed ∧ ¬(Instr.crateSetLevel (-(2 ^ 31) - 1) 1 1).WellFormed := by
  decide
theorem test_wf_rval : ¬(Instr.seekVoltage 1 1 (2 ^ 63) 1).WellFormed := by decide +kernel
theorem test_wf_ok : (Instr.crateSetLevel 19 (-3) 5000).WellFormed ∧ (Instr.openCard 18).WellFormed := by decide

/-! ## Decoding: words written out field by field

From the most significant digits: flag (2 digits), ival (8), chan (8), card (8), op (2); R70's widths, R72's opcodes. -/

theorem test_decode_transport :
    decodeTableWord 112 0x00_00000000_00000000_00000061_01 = some (.readByte 0x61) ∧
    decodeTableWord 112 0x00_000000C0_00000000_00000063_02 = some (.writeByte 0x63 0xC0#8) ∧
    decodeTableWord 112 0x00_00000000_00000002_00000040_03 = some (.readWord 0x40 2) ∧
    decodeTableWord 112 0x00_00000010_00000005_00000040_04 = some (.writeWord 0x40 5 0x0010#16) ∧
    decodeTableWord 112 0x00_00000004_00000000_0000002E_06 = some (.readBlock 0x2E 0 4) := by decide

/-- The payload of `write_block` stands after the frame's 30 bytes (logs 8 and 9). -/
theorem test_decode_write_block :
    decode ([0x05#8, 0x20#8, 0, 0, 0, 0x02#8, 0, 0, 0] ++ List.replicate 21 0 ++ [0xFD#8, 0xFF#8]) =
      .ok (.writeBlock 0x20 2 [0xFD#8, 0xFF#8]) := rfl

theorem test_decode_isolation :
    decodeTableWord 112 0x01_00000001_00000000_00000007_10 = some (.isoSet 7 1 0 1) ∧
    decodeTableWord 112 0x00_00000000_00000000_00000012_11 = some (.openCard 18) ∧
    decodeTableWord 112 0x00_00000000_00000000_00000001_12 = some (.closeCard 1) := by decide

theorem test_decode_expander :
    decodeTableWord 112 0x00_0000003C_000000A5_00000004_20 = some (.xpWrite 4 0xA5#8 0x3C#8) ∧
    decodeTableWord 112 0x00_00000000_00000000_00000004_21 = some (.xpRead 4) ∧
    decodeTableWord 112 0x01_00000000_00000002_00000004_22 = some (.enableChannel 4 2 1) ∧
    decodeTableWord 112 0x00_00000000_00000008_00000004_23 = some (.enableTestLoad 4 8 0) ∧
    decodeTableWord 112 0x00_00000000_00000001_00000004_24 = some (.isChannelEnabled 4 1) := by decide

theorem test_decode_potentiometer :
    decodeTableWord 112 0x00_000002BC_00000005_00000001_30 = some (.setLevel 1 5 700) ∧
    decodeTableWord 112 0x00_00000000_00000008_00000001_31 = some (.setLevelMin 1 8) ∧
    decodeTableWord 112 0x00_00000000_00000008_00000001_32 = some (.setLevelMax 1 8) ∧
    decodeTableWord 112 0x00_00000000_00000005_00000001_33 = some (.readLevel 1 5) ∧
    decodeTableWord 112 0x00_00BCFFFF_00000005_00000001_34 = some (.potWrite 1 5 0x00BCFFFF#32) := by decide

theorem test_decode_sense :
    decodeTableWord 112 0x00_00000000_00000001_00000002_40 = some (.senseInit 2 1) ∧
    decodeTableWord 112 0x00_00000000_00000001_00000002_41 = some (.rawShunt 2 1) ∧
    decodeTableWord 112 0x00_00000000_00000001_00000002_42 = some (.rawBus 2 1) ∧
    decodeTableWord 112 0x00_00000000_00000001_00000002_43 = some (.rawCurrent 2 1) ∧
    decodeTableWord 112 0x00_00000000_00000001_00000002_44 = some (.rawPower 2 1) ∧
    decodeTableWord 112 0x00_00000000_00000001_00000002_45 = some (.getBusVoltage 2 1) ∧
    decodeTableWord 112 0x00_00000000_00000001_00000002_46 = some (.getShuntVoltage 2 1) ∧
    decodeTableWord 112 0x00_00000000_00000001_00000002_47 = some (.getCurrent 2 1) ∧
    decodeTableWord 112 0x00_00000000_00000000_00000002_50 = some (.cardConstruct 2) := by decide

theorem test_decode_crate :
    decodeTableWord 8 0x80 = some .crateConstruct ∧ decodeTableWord 8 0x81 = some .shutdown ∧
    decodeTableWord 8 0x82 = some .getAvailableCards ∧
    decodeTableWord 112 0x01_00000000_00000002_00000003_90 = some (.crateEnableChannel 3 2 1) ∧
    decodeTableWord 112 0x00_00000000_00000002_00000003_91 = some (.crateEnableTestLoad 3 2 0) ∧
    decodeTableWord 112 0x00_00000000_00000002_00000003_92 = some (.crateIsChannelEnabled 3 2) ∧
    decodeTableWord 112 0x00_FFFFFFFF_00000001_00000003_93 = some (.crateSetLevel 3 1 (-1)) ∧
    decodeTableWord 112 0x00_00000000_00000001_00000003_94 = some (.crateGetBusVoltage 3 1) ∧
    decodeTableWord 112 0x00_00000000_00000001_00000003_95 = some (.crateGetShuntVoltage 3 1) ∧
    decodeTableWord 112 0x00_00000000_00000001_00000003_96 = some (.crateGetCurrent 3 1) := by decide

/-- `rval` 5/2 as numerator 5 and denominator 2 less one (log 9). -/
theorem test_decode_seek :
    decodeTableWord 240 0x0000000000000001_0000000000000005_00_00000001_00000001_00000003_97 =
      some (.seekVoltage 3 1 (5 / 2) 1) ∧
    decodeTableWord 240 0x0000000000000000_000000000000000A_00_00000002_00000001_00000004_98 =
      some (.seekCurrent 4 1 10 2) := by decide +kernel

theorem test_decode_bulk :
    decodeTableWord 112 0x01_00000000_00000000_00000000_A0 = some (.disableAllOutputs 1) ∧
    decodeTableWord 8 0xA1 = some .enableAllOutputs ∧ decodeTableWord 8 0xA2 = some .maxOutput ∧
    decodeTableWord 8 0xA3 = some .minOutput ∧ decodeTableWord 8 0xA4 = some .enableAllTestLoads ∧
    decodeTableWord 8 0xA5 = some .disableAllTestLoads ∧
    decodeTableWord 112 0x01_00000000_00000000_00000000_B0 = some (.saveConfig 1) ∧
    decodeTableWord 112 0x00_00000000_00000000_00000000_B1 = some (.loadConfig 0) := by decide

/-- R74: reserved opcodes; an operand that does not fit its width (log 8); too few bytes (log 9). -/
theorem test_decode_refuses :
    decodeTableWord 8 0x00 = none ∧ decodeTableWord 8 0x07 = none ∧ decodeTableWord 8 0x7F = none ∧
    decodeTableWord 8 0xFF = none ∧ decodeTableWord 112 0x00_00000000_00000000_00000080_01 = none := by decide
theorem test_decode_short : decode [0x80#8] = .error (.shortFrame 1) := rfl

/-! ## Small states -/

/-- A successful answer that carries a register content. -/
def read (w : Half) : Answer := { ok := true, landed := 0, word := w }

/-- A successful answer. -/
def fine : Answer := read 0

/-- A failed answer after which `n` registers hold their new values. -/
def fail (n : Nat) : Answer := { ok := false, landed := n, word := 0 }

/-- The cached state discovery leaves for a card whose masks and levels are all zero. -/
def known : Card :=
  { live := true, iso := some .closed, chen := some 0, tsten := some 0, level := Vector.replicate Config.pb.nChan (some 0),
    curdiv := some 10, pwrmul := some 2 }

/-- Card `i` plugged, with the cached state and the control byte given, and a tape of answers. -/
def withCard (i : CardIx) (c : Card) (sw : Byte) (tape : List Answer) : State :=
  { State.reset with
    present := State.reset.present.set i true
    cards := State.reset.cards.set i c
    mem := Memory.write [] (swCell i) sw
    tape := tape }

/-- Card 1 open and connected. -/
def opened (tape : List Answer) : State := withCard 0 { known with iso := some .opened } 0xC0#8 tape

/-- Card `i + 1` live and closed. -/
def closed (i : CardIx) (tape : List Answer) : State := withCard i known 0x60#8 tape

/-- `n` successful answers. -/
def fines (n : Nat) : List Answer := List.replicate n fine

theorem noBusError_fines {s : State} {n : Nat} (h : s.tape = fines n) : NoBusError n s := by
  intro k
  have : s.tape[k.val]? = some fine := by rw [h, fines, List.getElem?_replicate, if_pos k.isLt]
  unfold State.answer
  rw [this]
  rfl

/-- The next state, if the outcome is one. -/
def next? : Result → Option State
  | .next t => some t
  | _ => none

/-- What `f` reads in the next state. -/
def after {α : Type} (r : Result) (f : State → α) : Option α := (next? r).map f

/-- The transactions of a history. -/
def bus (s : State) : List (Txn × Bool) :=
  s.hist.filterMap fun e => match e with
    | .bus t ok _ => some (t, ok)
    | _ => none

/-! ## Transport (section 2.1 of the vectors) -/

theorem test_write_byte : after (exec (.writeByte 0x63 0xC0#8) (closed 2 [fine])) (fun t => (t.devSw 2, t.response)) =
    some (0xC0#8, some (.ok .nothing)) := by decide
theorem test_write_byte_absent : after (exec (.writeByte 0x63 0xC0#8) (closed 3 [fine])) (fun t => (t.mem, t.response)) =
    some ((closed 3 []).mem, some (.failed .busError)) := by decide
theorem test_write_block_unconnected : after (exec (.writeBlock 0x20 2 [0xFD#8, 0xFF#8]) (closed 2 [fine]))
    (fun t => (t.mem, t.response)) = some ((closed 2 []).mem, some (.failed .busError)) := by decide
theorem test_write_block : after (exec (.writeBlock 0x20 2 [0xFD#8, 0xFF#8]) (opened [fine]))
    (fun t => (t.devXp 0 0, t.devXp 0 1)) = some (0xFD#8, 0xFF#8) := by decide
/-- Row 6: two cards connected. -/
theorem test_contention :
    exec (.readByte 0x20) { opened [fine] with
      present := (opened []).present.set 1 true, mem := Memory.write (opened []).mem (swCell 1) 0x80#8 } =
      .fault .busContention := rfl
theorem test_read_word : after (exec (.readWord 0x40 2) (opened [read 0x1F40#16])) State.response =
    some (some (.ok (.word 0x401F#16))) := by decide
/-- R56, R62, R103: the calibration register holds `CAL_WORD` 0x1000; the word drawn plays no part. -/
theorem test_read_word_held : after (exec (.readWord 0x40 5) { opened [read 0x1F40#16] with
      mem := Memory.writeAll (opened []).mem [(snsCalCell 0 0, 0x10#8)] }) State.response =
    some (some (.ok (.word 0x0010#16))) := by decide
theorem test_write_word : after (exec (.writeWord 0x40 5 0x0010#16) (opened [fine])) (fun t => t.devSnsCal 0 0) =
    some 0x1000#16 := by decide
theorem test_read_block : after (exec (.readBlock 0x2E 0 4) { opened [fine] with
      mem := Memory.writeAll (opened []).mem [(potCell 0 2 0 0, 0xFF#8), (potCell 0 2 0 1, 0xFF#8),
        (potCell 0 2 0 2, 0xBC#8)] })
      State.response =
    some (some (.ok (.bytes [0xFF#8, 0xFF#8, 0xBC#8, 0x00#8]))) := by decide
theorem test_read_byte : after (exec (.readByte 0x61) (closed 0 [read 0x1234#16])) State.response =
    some (some (.ok (.byte 0x34#8))) := by decide

/-! ## Isolation (2.2) -/

/-- R76: the eight control bytes. -/
theorem test_iso_bytes :
    [isoCtl false false false, isoCtl false false true, isoCtl false true false, isoCtl false true true,
      isoCtl true false false, isoCtl true false true, isoCtl true true false, isoCtl true true true] =
    [0x60#8, 0x20#8, 0x40#8, 0x00#8, 0xE0#8, 0xA0#8, 0xC0#8, 0x80#8] := by decide
theorem test_iso_set : after (exec (.isoSet 7 1 0 1) (closed 6 [fine])) (fun t => (t.devSw 6, t.cards[6].iso)) =
    some (0xA0#8, some .closed) := by decide
theorem test_iso_set_not_boolean : after (exec (.isoSet 7 2 0 0) (closed 6 [fine])) (fun t => (t.hist, t.response)) =
    some ([], some (.failed .invalidArgument)) := by decide
theorem test_open : after (exec (.openCard 7) (closed 6 [fine])) (fun t => (t.devSw 6, t.cards[6].iso, bus t)) =
    some (0xC0#8, some .opened, [(.writeByte 0x67 0xC0#8, true)]) := by decide
/-- Row 4: the record is unchanged, the device holds the old or the new byte. -/
theorem test_close_fails : after (exec (.closeCard 1) (opened [fail 0])) (fun t => (t.devSw 0, t.cards[0].iso, t.response)) =
    some (0xC0#8, some .opened, some (.failed .busError)) := by decide
theorem test_close : after (exec (.closeCard 1) (opened [fine])) (fun t => (t.devSw 0, t.cards[0].iso)) =
    some (0x60#8, some .closed) := by decide

/-! ## Expander (2.3) -/

theorem test_xp_write : after (exec (.xpWrite 1 0xA5#8 0x3C#8) (opened [fine]))
    (fun t => (t.devXp 0 0, t.devXp 0 1, t.cards[0].chen, t.cards[0].tsten)) =
    some (0x5A#8, 0xC3#8, some 0xA5#8, some 0x3C#8) := by decide
theorem test_xp_read : after (exec (.xpRead 1) { opened [fine] with
      mem := Memory.writeAll (opened []).mem [(xpCell 0 0, 0xFA#8), (xpCell 0 1, 0xFF#8)] })
      (fun t => (t.cards[0].chen, t.cards[0].tsten)) =
    some (some 0x05#8, some 0x00#8) := by decide
/-- Row 7: the test-load mask is carried along. -/
theorem test_enable_channel : after (exec (.enableChannel 1 1 1)
      (withCard 0 { known with iso := some .opened, chen := some 0x80#8, tsten := some 0x01#8 } 0xC0#8 [fine]))
    (fun t => (t.devXp 0 0, t.devXp 0 1, t.cards[0].chen)) = some (0x7E#8, 0xFE#8, some 0x81#8) := by decide
/-- Row 9: the cache is not updated; here the first byte was. -/
theorem test_enable_channel_fails : after (exec (.enableChannel 1 3 1)
      (withCard 0 { known with iso := some .opened, chen := some 0x81#8, tsten := some 0x01#8 } 0xC0#8 [fail 1]))
    (fun t => (t.devXp 0 0, t.devXp 0 1, t.cards[0].chen, t.response)) =
    some (0x7A#8, 0x00#8, some 0x81#8, some (.failed .busError)) := by decide
theorem test_enable_test_load : after (exec (.enableTestLoad 1 1 1)
      (withCard 0 { known with iso := some .opened, chen := some 0x80#8 } 0xC0#8 [fine]))
    (fun t => (t.devXp 0 0, t.devXp 0 1, t.cards[0].tsten)) = some (0x7F#8, 0xFE#8, some 0x01#8) := by decide
/-- 10_state.md section 2: a field of a card that is not live holds no value, and reading it is a model fault. The host's command
reads none: it ends with `CardNotFound` (R182). -/
theorem test_field_of_card_not_live : exec (.isChannelEnabled 4 1) State.reset = .fault .noValue ∧
    after (exec (.crateIsChannelEnabled 4 1) State.reset) State.response = some (some (.failed .cardNotFound)) :=
  ⟨rfl, by decide⟩
theorem test_is_channel_enabled :
    after (exec (.isChannelEnabled 1 1) (withCard 0 { known with chen := some 0x05#8 } 0 [])) State.response =
      some (some (.ok (.bool true))) ∧
    after (exec (.isChannelEnabled 1 2) (withCard 0 { known with chen := some 0x05#8 } 0 [])) State.response =
      some (some (.ok (.bool false))) := by decide

/-! ## Potentiometer (2.4) -/

theorem test_pot_patterns :
    [potPattern 0, potPattern 1, potPattern 255, potPattern 256, potPattern 257, potPattern 700, potPattern 768,
      potPattern 1000, potPattern 1023] =
    [0x00000000#32, 0x00000001#32, 0x000000FF#32, 0x000000FF#32, 0x000001FF#32, 0x00BCFFFF#32, 0x00FFFFFF#32,
      0xE8FFFFFF#32, 0xFFFFFFFF#32] := by decide
theorem test_set_level : after (exec (.setLevel 1 5 700) (opened [fine])) (fun t => (bus t, t.cards[0].level[4])) =
    some ([(.writeBlock 0x2E 0 [0xFF#8, 0xFF#8, 0xBC#8, 0x00#8], true)], some 700) := by decide
theorem test_set_level_refused :
    after (exec (.setLevel 1 5 1024) (opened [fine])) (fun t => (t.hist, t.response)) =
      some ([], some (.failed .invalidArgument)) ∧
    after (exec (.setLevel 1 9 10) (opened [fine])) (fun t => (t.hist, t.response)) =
      some ([], some (.failed .invalidArgument)) := by decide
theorem test_set_level_min : after (exec (.setLevelMin 1 8) (opened [fine])) (fun t => (bus t, t.cards[0].level[7])) =
    some ([(.writeBlock 0x2F 4 [0x00#8, 0x00#8, 0x00#8, 0x00#8], true)], some 0) := by decide
theorem test_set_level_max : after (exec (.setLevelMax 1 8) (opened [fine])) (fun t => (bus t, t.cards[0].level[7])) =
    some ([(.writeBlock 0x2F 4 [0xFF#8, 0xFF#8, 0xFF#8, 0xFF#8], true)], some 1023) := by decide
/-- Row 8: foreign bytes 12 34 56 78. -/
theorem test_read_level : after (exec (.readLevel 1 5) { opened [fine] with
      mem := Memory.writeAll (opened []).mem [(potCell 0 2 0 0, 0x12#8), (potCell 0 2 0 1, 0x34#8), (potCell 0 2 0 2, 0x56#8),
        (potCell 0 2 0 3, 0x78#8)] })
    (fun t => (t.response, t.cards[0].level[4])) = some (some (.ok (.int 276)), some 276) := by decide
theorem test_pot_write : after (exec (.potWrite 1 2 0xE8FFFFFF#32) (opened [fine])) (fun t => (bus t, t.cards[0].level[1])) =
    some ([(.writeBlock 0x2C 4 [0xFF#8, 0xFF#8, 0xFF#8, 0xE8#8], true)], some 0) := by decide

/-! ## Sense (2.5) -/

theorem test_sense_words :
    [rawOfWord 0x401F#16, rawOfWord 0xFF7F#16, rawOfWord 0x0080#16, rawOfWord 0x9CFF#16] = [8000, 32767, -32768, -100] ∧
    [busRaw 8000, busRaw 7, busRaw 8186, busRaw (-1), busRaw (-100), busRaw (-1536)] = [1000, 0, 1023, -1, -13, -192] := by
  decide
theorem test_sense_init : after (exec (.senseInit 1 1) (opened (fines 2))) bus =
    some [(.writeWord 0x40 5 0x0010#16, true), (.writeWord 0x40 0 0x9F39#16, true)] := by decide
theorem test_raw_shunt : after (exec (.rawShunt 1 1) (opened [read 0xFF9C#16])) (fun t => (bus t, t.response)) =
    some ([(.readWord 0x40 1, true)], some (.ok (.int (-100)))) := by decide
theorem test_raw_bus : after (exec (.rawBus 1 1) (opened [fine, read 0xFF9C#16])) (fun t => (bus t, t.response)) =
    some ([(.writeWord 0x40 5 0x0010#16, true), (.readWord 0x40 2, true)], some (.ok (.int (-13)))) := by decide
theorem test_raw_current : after (exec (.rawCurrent 1 1) (opened [fine, read 0x8000#16])) (fun t => (bus t, t.response)) =
    some ([(.writeWord 0x40 5 0x0010#16, true), (.readWord 0x40 4, true)], some (.ok (.int (-32768)))) := by decide
theorem test_raw_power : after (exec (.rawPower 1 1) (opened [fine, read 0x03E8#16])) (fun t => (bus t, t.response)) =
    some ([(.writeWord 0x40 5 0x0010#16, true), (.readWord 0x40 3, true)], some (.ok (.int 1000))) := by decide

/-- The answers of six calibrated samples. -/
def sampled (ws : List Half) : List Answer := ws.flatMap fun w => [fine, read w]

/-- Row 1. -/
theorem test_get_bus_voltage : after (exec (.getBusVoltage 1 1)
      (opened (sampled [0x1F40#16, 0x1F48#16, 0x1F38#16, 0x1F40#16, 0x1F50#16, 0x1F30#16]))) State.response =
    some (some (.ok (.real 4))) := by decide +kernel
/-- Row 7: the third `read_word` fails. -/
theorem test_get_bus_voltage_fails : after (exec (.getBusVoltage 1 1)
      (opened [fine, read 0x1F40#16, fine, read 0x1F40#16, fine, fail 0]))
      (fun t => (t.response, t.hist.countP Event.isBus, t.hist.countP Event.isSampleDelay, t.acc)) =
    some (some (.failed .busError), 6, 2, none) := by decide +kernel
/-- Rows 2 and 3: below 0.1 is 0; 0.1 exactly is kept. -/
theorem test_get_current :
    after (exec (.getCurrent 1 1) (opened (sampled [5, 0xFFFD#16, 2, 0, 1, 0]))) State.response =
      some (some (.ok (.real 0))) ∧
    after (exec (.getCurrent 1 1) (opened (sampled [1, 1, 1, 1, 1, 1]))) State.response =
      some (some (.ok (.real (1 / 10)))) := by decide +kernel
/-- Row 6: the clamp is on the mean. -/
theorem test_get_shunt_voltage : after (exec (.getShuntVoltage 1 1)
      (opened ([0xFFE2#16, 10, 10, 10, 10, 10].map read))) State.response =
    some (some (.ok (.real (1 / 30)))) := by decide +kernel

/-! ## Card and crate (2.6, 2.7, programs P1, P2, P6) -/

/-- P1's card: expander FA FF, channel 1 `FF 10 00 00`, channel 6 all ones. -/
def found : State :=
  { withCard 1 Card.blank 0x60#8 (fines 27) with
    mem := Memory.writeAll (Memory.write [] (swCell 1) 0x60#8) [(xpCell 1 0, 0xFA#8), (xpCell 1 1, 0xFF#8),
      (potCell 1 0 0 0, 0xFF#8), (potCell 1 0 0 1, 0x10#8), (potCell 1 2 1 0, 0xFF#8), (potCell 1 2 1 1, 0xFF#8),
      (potCell 1 2 1 2, 0xFF#8), (potCell 1 2 1 3, 0xFF#8)] }

theorem test_card_construct : after (exec (.cardConstruct 2) found)
    (fun t => (t.response, (t.cards[1].chen, t.cards[1].tsten), [t.cards[1].level[0], t.cards[1].level[5]], t.devSw 1)) =
    some (some (.ok (.bool true)), (some 0x05#8, some 0x00#8), [some 271, some 1020], 0x60#8) := by decide +kernel
/-- Row 2 of 2.6: three transactions, absent, nothing cached. -/
theorem test_card_construct_fails : after (exec (.cardConstruct 2) { found with tape := [fine, fail 0, fine] })
    (fun t => (t.response, t.cards[1], (bus t).length)) = some (some (.ok (.bool false)), Card.blank, 3) := by decide +kernel
theorem test_crate_construct : after (exec .crateConstruct found)
    (fun t => (t.response, (bus t).length, (bus t).countP fun e => !e.2)) =
    some (some (.ok (.cards [2])), 44, 17) := by decide +kernel
/-- Row 18 of 2.7. -/
theorem test_second_crate : after (exec .crateConstruct (closed 2 [])) (fun t => (t.response, t.hist)) =
    some (some (.failed .invalidArgument), []) := by decide
theorem test_crate_enable_channel : after (exec (.crateEnableChannel 3 2 1)
      { closed 2 (fines 3) with mem := Memory.writeAll (closed 2 []).mem [(xpCell 2 0, 0xFF#8), (xpCell 2 1, 0xFF#8)] })
    (fun t => (bus t, t.response, t.cards[2].chen, t.cards[2].iso)) =
    some ([(.writeByte 0x63 0xC0#8, true), (.writeBlock 0x20 2 [0xFD#8, 0xFF#8], true), (.writeByte 0x63 0x60#8, true)],
      some (.ok .nothing), some 0x02#8, some .closed) := by decide
/-- P2c: the close fails after a successful body. -/
theorem test_crate_enable_channel_close_fails :
    after (exec (.crateEnableChannel 3 2 1) (closed 2 [fine, fine, fail 0]))
    (fun t => (t.response, t.cards[2].chen, t.cards[2].iso, t.devSw 2)) =
    some (some (.failed .busError), some 0x02#8, some .opened, 0xC0#8) := by decide
theorem test_crate_enable_test_load : after (exec (.crateEnableTestLoad 3 8 1) (closed 2 (fines 3)))
    (fun t => (t.response, t.cards[2].tsten, t.devXp 2 1)) = some (some (.ok .nothing), some 0x80#8, 0x7F#8) := by decide
theorem test_crate_is_channel_enabled : after (exec (.crateIsChannelEnabled 3 2) (closed 2 (fines 2)))
    (fun t => (t.response, bus t)) =
    some (some (.ok (.bool false)), [(.writeByte 0x63 0xC0#8, true), (.writeByte 0x63 0x60#8, true)]) := by decide
/-- Rows 1, 6 and 7 of 2.7. -/
theorem test_host_checks :
    after (exec (.crateEnableChannel 0 1 1) (closed 2 [])) State.response = some (some (.failed .invalidArgument)) ∧
    after (exec (.crateEnableChannel 4 1 1) (closed 2 [])) State.response = some (some (.failed .cardNotFound)) ∧
    after (exec (.crateEnableChannel 4 9 1) (closed 2 [])) State.response = some (some (.failed .invalidArgument)) := by
  decide
theorem test_crate_set_level : after (exec (.crateSetLevel 1 5 700) (closed 0 (fines 3)))
    (fun t => (t.response, t.cards[0].level[4], bus t)) =
    some (some (.ok .nothing), some 700, [(.writeByte 0x61 0xC0#8, true),
      (.writeBlock 0x2E 0 [0xFF#8, 0xFF#8, 0xBC#8, 0x00#8], true), (.writeByte 0x61 0x60#8, true)]) := by decide
theorem test_crate_set_level_refused : after (exec (.crateSetLevel 3 1 1024) (closed 2 [])) (fun t => (t.response, t.hist)) =
    some (some (.failed .invalidArgument), []) := by decide
theorem test_crate_get_bus_voltage : after (exec (.crateGetBusVoltage 1 1)
      (closed 0 (fine :: (sampled [0x1F40#16, 0x1F40#16, 0x1F40#16, 0x1F40#16, 0x1F40#16, 0x1F40#16] ++ [fine]))))
    (fun t => (t.response, (bus t).length)) = some (some (.ok (.real 4)), 14) := by decide +kernel
theorem test_crate_get_shunt_voltage : after (exec (.crateGetShuntVoltage 1 1)
      (closed 0 (fine :: (List.replicate 6 (read 0xFFFB#16) ++ [fine]))))
    (fun t => (t.response, (bus t).length)) = some (some (.ok (.real 0)), 8) := by decide +kernel
theorem test_crate_get_current : after (exec (.crateGetCurrent 1 1)
      (closed 0 (fine :: (sampled [1, 1, 1, 1, 1, 1] ++ [fine]))))
    (fun t => (t.response, (bus t).length)) = some (some (.ok (.real (1 / 10))), 14) := by decide +kernel
theorem test_shutdown : after (exec .shutdown (closed 0 [fine])) (fun t => (t.response, t.liveCards, bus t, t.cards[0])) =
    some (some (.ok .nothing), [], [(.writeByte 0x61 0x60#8, true)], Card.blank) := by decide

/-- Cards 2 and 5 live and plugged. -/
def two (tape : List Answer) : State :=
  { withCard 1 known 0x60#8 tape with
    present := (State.reset.present.set 1 true).set 4 true
    cards := (State.reset.cards.set 1 known).set 4 known
    mem := Memory.writeAll [] [(swCell 1, 0x60#8), (swCell 4, 0x60#8)] }

/-- P6a: card 9 is new. -/
theorem test_get_available_cards : after (exec .getAvailableCards
      { two (fines 31) with present := (two []).present.set 8 true })
    (fun t => (t.response, (bus t).length, t.hist.contains (.cardDiscovered 9))) =
    some (some (.ok (.cards [2, 5, 9])), 46, true) := by decide +kernel
/-- P6b: card 2 was pulled. -/
theorem test_get_available_cards_pulled : after (exec .getAvailableCards
      { two [] with present := (two []).present.set 1 false })
    (fun t => (t.response, bus t, t.liveCards)) =
    some (some (.failed .busError), [(.writeByte 0x61 0xC0#8, false), (.writeByte 0x62 0xC0#8, false)], [2, 5]) := by
  decide +kernel

/-! ## Bulk commands (2.8) -/

theorem test_enable_all_outputs : after (exec .enableAllOutputs (two (fines 20)))
    (fun t => ((bus t).length, t.cards[1].chen, t.cards[4].chen)) = some (20, some 0xFF#8, some 0xFF#8) := by decide +kernel
/-- The fifth transaction fails. -/
theorem test_enable_all_outputs_fails : after (exec .enableAllOutputs (two [fine, fine, fine, fine, fail 0, fine]))
    (fun t => (t.response, t.cards[1].chen, t.cards[4].chen, t.cards[1].iso, (bus t).length)) =
    some (some (.failed .busError), some 0x07#8, some 0x00#8, some .closed, 6) := by decide +kernel
theorem test_disable_all_outputs : after (exec (.disableAllOutputs 1) (two (fines 36)))
    (fun t => ((bus t).length, t.cards[4].chen, t.cards[4].level[3])) = some (36, some 0x00#8, some 0) := by decide +kernel
theorem test_max_output : after (exec .maxOutput (two (fines 20)))
    (fun t => ((bus t).length, t.cards[4].level[7], t.devPot 4 7 3)) = some (20, some 1023, 0xFF#8) := by decide +kernel
theorem test_min_output : after (exec .minOutput (two (fines 20)))
    (fun t => ((bus t).length, t.cards[4].level[7], t.devPot 4 7 0)) = some (20, some 0, 0x00#8) := by decide +kernel
theorem test_enable_all_test_loads : after (exec .enableAllTestLoads (two (fines 20)))
    (fun t => (t.cards[1].tsten, t.cards[1].chen, t.devXp 4 1)) = some (some 0xFF#8, some 0x00#8, 0x00#8) := by decide +kernel
theorem test_disable_all_test_loads : after (exec .disableAllTestLoads (two (fines 20)))
    (fun t => (t.cards[1].tsten, t.devXp 4 1)) = some (some 0x00#8, 0xFF#8) := by decide +kernel

/-! ## Seek (2.9, programs P3) -/

/-- Card 4 live, its channel 1 cached at `level`. -/
def seeking (level : Nat) (tape : List Answer) : State :=
  withCard 3 { known with level := known.level.set 0 (some level) } 0x60#8 tape

/-- Six equal samples. -/
def six (w : Half) : List Answer := sampled (List.replicate 6 w)

/-- P3's last iterations: 0.408 moves the level to 103, 0.412 converges. -/
theorem test_seek_voltage : after (exec (.seekVoltage 4 1 (42 / 100) 1)
      (seeking 102 (fine :: (six 0x0330#16 ++ [fine] ++ six 0x0338#16 ++ [fine]))))
    (fun t => (t.response, t.cards[3].level[0], (bus t).length)) =
    some (some (.ok (.pair 103 (412 / 1000))), some 103, 27) := by decide +kernel
/-- P3b's last iteration: the ceiling. -/
theorem test_seek_voltage_ceiling : after (exec (.seekVoltage 4 1 5 1) (seeking 1023 (fine :: (six 0x1FE0#16 ++ [fine]))))
    (fun t => (t.response, t.cards[3].level[0], t.cards[3].iso)) =
    some (some (.failed .invalidArgument), some 1023, some .closed) := by decide +kernel
theorem test_seek_current : after (exec (.seekCurrent 4 1 10 1) (seeking 100 (fine :: (six 100 ++ [fine]))))
    (fun t => (t.response, t.iter)) = some (some (.ok (.pair 100 10)), none) := by decide +kernel
/-- Rows 11 and 13 to 15 of 2.7. -/
theorem test_seek_refused :
    [exec (.seekVoltage 4 1 (501 / 100) 1) (seeking 0 []), exec (.seekCurrent 4 1 1000 1) (seeking 0 []),
      exec (.seekCurrent 4 1 10 0) (seeking 0 []), exec (.seekVoltage 4 1 (-1 / 10) 1) (seeking 0 [])].map
      (fun r => after r State.response) = List.replicate 4 (some (some (.failed .invalidArgument))) := by decide +kernel

/-! ## Configuration (2.10, program P4) -/

/-- Card 2 of P4. -/
def configured (tape : List Answer) : State :=
  { two tape with
    cards := (two []).cards.set 1 { known with
      chen := some 0x05#8, level := #v[some 10, some 20, some 30, some 40, some 50, some 60, some 70, some 80] } }

theorem test_save_config : after (exec (.saveConfig 0) (configured []))
    (fun t => (t.cfg[1][0], t.cfg[1][1], t.cfg[1][7], bus t)) =
    some ({ output := true, level := 10 }, { output := false, level := 20 }, { output := false, level := 80 }, []) := by
  decide +kernel
theorem test_load_config : after (exec (.loadConfig 1) { two (fines 36) with
      cfg := (two []).cfg.set 1 (Vector.replicate Config.pb.nChan { output := true, level := 10 }) })
    (fun t => ((bus t).length, t.cards[1].chen, t.cards[1].level[2], t.cards[4].chen)) =
    some (36, some 0xFF#8, some 10, some 0x00#8) := by decide +kernel
theorem test_load_config_off : after (exec (.loadConfig 0) { two (fines 36) with
      cfg := (two []).cfg.set 1 (Vector.replicate Config.pb.nChan { output := true, level := 10 }) })
    (fun t => (t.cards[1].chen, t.cards[1].level[2])) = some (some 0x00#8, some 10) := by decide +kernel

/-! ## The step -/

/-- Row 16 of 2.7: the host may not issue an internal opcode. -/
theorem test_step_internal_from_host :
    after (step { State.reset with inbox := [.frame .host (Instr.enableChannel 3 1 1).frame] })
      (fun t => (t.response, t.inbox, t.hist)) = some (some (.failed .invalidArgument), [], []) := by decide
theorem test_step_word : after (step (State.reset.withFetchWord 8 0x81)) (fun t => (t.response, t.hist)) =
    some (some (.ok .nothing), [.commandBegins 0x81#8, .commandEnds 0x81#8 0]) := by decide

/-! ## Witnesses: for every statement with premises, states and operands that meet them, each clause at its boundary -/

/-- The outcome is a next state. -/
def isNext (r : Result) : Bool := (next? r).isSome

theorem witness_DecodeOfEncode :
    (Instr.readByte 127).WellFormed ∧ (Instr.writeBlock 0 255 [0x5A#8]).WellFormed ∧ (Instr.isoSet 18 255 (-1) 5).WellFormed ∧
    (Instr.crateSetLevel (-(2 ^ 31)) (2 ^ 31 - 1) 1024).WellFormed ∧ (Instr.seekVoltage 19 0 (-1 / 3) 0).WellFormed := by
  decide +kernel

theorem witness_HostFrameNeedsHostOpcode :
    ({ State.reset with inbox := [.frame .host (Instr.enableChannel 3 1 1).frame] }).inbox =
      .frame .host (Instr.enableChannel 3 1 1).frame :: [] ∧
    ∀ op ∈ [0x22#8, 0x00#8, 0x7F#8, 0x83#8, 0x8F#8, 0x99#8, 0x9F#8, 0xA6#8, 0xAF#8, 0xB2#8, 0xFF#8],
      (Frame.blank op).op.toNat ∉ [0x80, 0x81, 0x82, 0x90, 0x91, 0x92, 0x93, 0x94, 0x95, 0x96, 0x97, 0x98, 0xA0, 0xA1,
        0xA2, 0xA3, 0xA4, 0xA5, 0xB0, 0xB1] := by decide

theorem witness_StepRunsDecodedFrame :
    (Instr.openCard 7).frame.decode = .ok (.openCard 7) ∧ (Instr.openCard 0).frame.decode = .ok (.openCard 0) ∧
    Instr.shutdown.frame.decode = .ok .shutdown ∧ Instr.shutdown.isHost = true := ⟨rfl, rfl, rfl, rfl⟩

theorem witness_StepOnOtherInputs :
    State.reset.inbox = [] ∧ ({ State.reset with inbox := [.plug 17 true] }).inbox = .plug 17 true :: [] ∧
    ({ closed 0 [] with inbox := [.restart] }).inbox = .restart :: [] := ⟨rfl, rfl, rfl⟩

/-- A state whose step sets a level: memory, cached level and live card not trivial. -/
def stepping : State := (closed 0 (fines 3)).withFetchWord 112 0x00_000003FF_00000005_00000001_93

/-- The premises of the four invariants and of the two whole-machine rules. -/
theorem witness_invariants :
    isNext (step stepping) = true ∧ Memory.wf stepping.mem = true ∧ stepping.mem ≠ [] ∧ LevelsInRange stepping ∧
    LiveCardsComplete stepping ∧ BetweenCommands stepping ∧ isNext (exec (.crateSetLevel 1 5 1023) (closed 0 (fines 3))) = true ∧
    (∀ f, Instr.crateSetLevel 1 5 1023 ≠ .saveConfig f) ∧ (∀ a, Instr.crateSetLevel 1 5 1023 ≠ .cardConstruct a) := by
  refine ⟨?_, ?_, ?_, ?_, ?_, ?_, ?_, nofun, nofun⟩ <;> decide +kernel

/-- A command that writes a switch and a potentiometer: the expander's and the sense chips' cells are not its own. -/
theorem witness_OperationsWriteOnlyTheirDevices :
    (closed 0 (fines 3)).params.Valid ∧ isNext (exec (.crateSetLevel 1 5 1023) (closed 0 (fines 3))) = true ∧
    (∀ r ∈ (Instr.crateSetLevel 1 5 1023).writes, ¬r.Cell (xpCell 0 1)) ∧
    (∀ r ∈ (Instr.crateSetLevel 1 5 1023).writes, ¬r.Cell (snsCfgCell 17 7 + 1)) := by
  refine ⟨by decide +kernel, by decide +kernel, ?_, ?_⟩ <;>
    simp only [Instr.writes, List.forall_mem_cons, RegKind.Cell, swCell, xpCell, potCell, snsCfgCell, List.not_mem_nil,
      IsEmpty.forall_iff, implies_true, and_true] <;> exact ⟨by decide, by decide⟩

theorem witness_HostCommandLeavesNoneConnected :
    found.params.Valid ∧ Memory.wf found.mem = true ∧ NoneConnected found ∧ Instr.crateConstruct.isHost = true ∧
    after (exec .crateConstruct found) (fun t => t.hist.all fun e => !e.isFailedWriteByte ||
      (List.finRange Config.pb.nCards).any fun k => !found.present[k] &&
        e == .bus (.writeByte (0x60 + cardNo k) 0xC0#8) false []) =
      some true := by decide +kernel

theorem witness_PerCardCommands :
    (Instr.crateEnableChannel 3 2 1).cardNamed = some (cardNo 2) ∧ (closed 2 [fine, fail 2, fail 1]).running = none ∧
    (closed 2 [fine, fail 2, fail 1]).params.Valid ∧ Memory.wf (closed 2 [fine, fail 2, fail 1]).mem = true ∧
    NoneConnected (closed 2 [fine, fail 2, fail 1]) ∧ LiveCardsComplete (closed 2 [fine, fail 2, fail 1]) ∧
    isNext (exec (.crateEnableChannel 3 2 1) (closed 2 [fine, fail 2, fail 1])) = true := by decide +kernel

/-- Every domain just outside its bounds; a live card. -/
theorem witness_RefusedHostCommandTouchesNothing :
    (closed 2 []).running = none ∧ (Instr.crateEnableChannel 0 1 1).BadHostArgs ∧ (Instr.crateEnableTestLoad 19 1 0).BadHostArgs ∧
    (Instr.crateIsChannelEnabled 3 0).BadHostArgs ∧ (Instr.crateGetBusVoltage 3 9).BadHostArgs ∧
    (Instr.crateSetLevel 3 1 1024).BadHostArgs ∧ (Instr.crateSetLevel 3 1 (-1)).BadHostArgs ∧
    (Instr.crateEnableChannel 3 1 2).BadHostArgs ∧ (Instr.seekVoltage 3 1 (501 / 100) 1).BadHostArgs ∧
    (Instr.seekCurrent 3 1 201 1).BadHostArgs ∧ (Instr.seekCurrent 3 1 10 0).BadHostArgs ∧
    (Instr.disableAllOutputs 3).BadHostArgs ∧ (Instr.saveConfig 2).BadHostArgs ∧ (Instr.loadConfig 255).BadHostArgs ∧
    (closed 2 []).cards[2].live = true := by
  dsimp only [Instr.BadHostArgs]
  repeat' apply And.intro
  all_goals decide +kernel

/-- Operands at their bounds; card 4 not live, once plugged and once not. -/
theorem witness_CardNotFoundTouchesNothing :
    (closed 2 []).running = none ∧ (Instr.seekVoltage 4 1 5 1).cardNamed = some (cardNo 3) ∧
    ¬(Instr.seekVoltage 4 1 5 1).BadHostArgs ∧ ¬(Instr.seekCurrent 4 8 200 1).BadHostArgs ∧
    ¬(Instr.crateSetLevel 4 1 1023).BadHostArgs ∧ (closed 2 []).cards[3].live = false ∧ (closed 2 []).present[3] = false ∧
    found.running = none ∧ found.cards[1].live = false ∧ found.present[1] = true := by
  dsimp only [Instr.BadHostArgs]
  repeat' apply And.intro
  all_goals decide +kernel

theorem witness_BadCardArgumentsTouchNothing :
    (Instr.isoSet 7 2 0 0).BadCardArgs ∧ (Instr.isoSet 7 1 2 0).BadCardArgs ∧ (Instr.isoSet 7 1 0 (-1)).BadCardArgs ∧
    (Instr.enableChannel 1 0 1).BadCardArgs ∧ (Instr.enableTestLoad 1 8 2).BadCardArgs ∧ (Instr.isChannelEnabled 1 9).BadCardArgs ∧
    (Instr.setLevel 1 5 1024).BadCardArgs ∧ (Instr.setLevel 1 5 (-1)).BadCardArgs ∧ (Instr.setLevelMin 1 0).BadCardArgs ∧
    (Instr.setLevelMax 1 9).BadCardArgs ∧ (Instr.readLevel 1 9).BadCardArgs ∧ (Instr.getBusVoltage 1 0).BadCardArgs ∧
    (Instr.getShuntVoltage 1 9).BadCardArgs ∧ (Instr.getCurrent 1 9).BadCardArgs := by
  dsimp only [Instr.BadCardArgs]
  repeat' apply And.intro
  all_goals decide

theorem witness_NoOperationWithoutProofOfOpen :
    (Instr.setLevel 1 5 700).needsOpen = some (cardNo 0) ∧ (Instr.setLevel 1 5 700).WellFormed ∧
    ¬(Instr.setLevel 1 5 700).BadCardArgs ∧ (closed 0 []).cards[0].iso ≠ some .opened ∧
    (Instr.rawPower 18 8).needsOpen = some (cardNo 17) ∧ (Instr.rawPower 18 8).WellFormed ∧
    ¬(Instr.rawPower 18 8).BadCardArgs ∧ State.reset.cards[17].iso ≠ some .opened := by decide

/-- Cards 1 and 2 plugged and connected. -/
def contended : State :=
  { opened [fine] with present := (opened []).present.set 1 true, mem := Memory.write (opened []).mem (swCell 1) 0x80#8 }

theorem witness_routes :
    (closed 0 []).route 0x20 = .noDevice ∧ (closed 0 []).route 0x62 = .noDevice ∧ contended.route 0x20 = .contention ∧
    ((0x61 : Int) = (closed 0 []).params.isoBase + cardNo 0) ∧
    (∀ i : CardIx, (0x60 : Int) ≠ (closed 0 []).params.isoBase + cardNo i) ∧ (closed 0 []).connectedCards = [] ∧
    (∀ i : CardIx, (0x73 : Int) ≠ contended.params.isoBase + cardNo i) ∧ 2 ≤ contended.connectedCards.length ∧
    (opened []).route 0x20 = .device (.expander 0) ∧ (opened []).route 0x2F = .device (.pot 0 3) ∧
    (opened []).route 0x47 = .device (.sense 0 7) := by decide

/-- `AddressRouting` with one card connected: an address just past the sense chips' is no device's. -/
theorem witness_oneConnected :
    (opened []).params.Valid ∧ (opened []).present[0] = true ∧ ((opened []).devSw 0).getLsbD 7 = true ∧
    (∀ j : CardIx, j ≠ 0 → (opened []).present[j] = true → ((opened []).devSw j).getLsbD 7 = false) ∧
    (∀ j : CardIx, (0x48 : Int) ≠ (opened []).params.isoBase + cardNo j) ∧
    (∀ a ∈ (opened []).params.subBusAddrs, (0x48 : Int) ≠ (a : Int)) ∧ (opened []).route 0x48 = .noDevice := by
  decide +kernel

/-- The refusals of `TransactionNeedsDeviceThatTakesIt`, each just outside what the device takes. -/
theorem witness_refusedAccess :
    (opened []).route 0x61 = .device (.switch 0) ∧ 0x01#8 &&& 0x1F#8 ≠ 0 ∧ (∀ i c, Target.switch 0 ≠ .sense i c) ∧
    (∀ i, Target.expander 0 ≠ .switch i) ∧ 6 ∉ (opened []).params.snsRegs ∧
    (1 ≠ (opened []).params.snsRegCfg ∧ 1 ≠ (opened []).params.snsRegCal) ∧
    blockCells (opened []).params (.expander 0) 3 [0x00#8, 0x00#8].length = none ∧
    blockCells (opened []).params (.pot 0 0) 0 9 = none := by decide

theorem witness_transport :
    NoBusError 1 (opened [fine]) ∧ (opened [fine]).route 0x61 = .device (.switch 0) ∧
    (opened [fine]).route 0x40 = .device (.sense 0 0) ∧ (5 ∈ (opened [fine]).params.snsRegs) ∧
    (2 ∈ (opened [fine]).params.snsRegs ∧ 2 ≠ (opened [fine]).params.snsRegCfg ∧ 2 ≠ (opened [fine]).params.snsRegCal) ∧
    Memory.wf (opened [fine]).mem = true ∧ (opened [fine]).params.Valid ∧ (opened [fine]).present[0] = true ∧
    (0xE0#8 &&& 0x1F#8 = 0) ∧ blockCells (opened [fine]).params (.pot 0 0) 0 8 = some [32, 33, 34, 35, 36, 37, 38, 39] ∧
    blockCells (opened [fine]).params (.expander 0) 3 1 = some [2] := by
  decide +kernel

/-- The premises of a failed write. -/
theorem witness_failedTransport :
    ((opened [fail 1]).answer 0).ok = false ∧ Memory.wf (opened [fail 1]).mem = true ∧
    (opened [fail 1]).route 0x20 = .device (.expander 0) ∧
    (opened [fail 1]).route 0x40 = .device (.sense 0 0) ∧ (opened [fail 1]).route 0x61 = .device (.switch 0) ∧
    (opened [fail 1]).present[0] = true ∧ (opened [fail 1]).params.Valid := by
  decide +kernel

/-- The premises of the single-card operations: `ISO_SET`, `OPEN`, `CLOSE`, expander, potentiometer, sense. -/
theorem witness_openCard :
    Ready (opened (fines 12)) 0 ∧ NoBusError 12 (opened (fines 12)) ∧ (opened (fines 12)).present[0] = true ∧
    (opened (fines 12)).cards[0].chen = some 0 ∧ (opened (fines 12)).cards[0].tsten = some 0 ∧
    (opened (fines 12)).cards[0].curdiv = some 10 ∧ Ready (opened [fail 1]) 0 ∧ ((opened [fail 1]).answer 0).ok = false ∧
    (opened [fail 1]).present[0] = true := by decide +kernel

/-- Card 1 open, its transaction number `k` the first to fail. -/
def openedFails (k : Nat) : State := opened (fines k ++ [fail 0])

/-- The failing clauses of `SENSE_INIT`, the raw reads and the public reads. -/
theorem witness_FirstBusError : ∀ k : Fin 12,
    Ready (openedFails k.val) 0 ∧ FirstBusError k.val (openedFails k.val) ∧
    (openedFails k.val).cards[0].curdiv = some 10 := by decide +kernel

theorem witness_CardConstruct :
    Memory.wf found.mem = true ∧ found.params.Valid ∧ NoneConnected found ∧ found.present[1] = true ∧ NoBusError 27 found ∧
    found.present[0] = false := by decide +kernel

/-- `found`, its transaction number `k` the first to fail, and then `close` for the `CLOSE`. -/
def foundFails (k : Nat) (close : Answer) : State := { found with tape := fines k ++ [fail 1, close] }

/-- At the `OPEN`, in the body's first and last transaction, at the `CLOSE`: absent, and past its `OPEN` the `CLOSE` follows, if it was
not the one that failed. -/
theorem witness_CardConstructAbsent : ∀ k ∈ [0, 1, 25, 26],
    let s := foundFails k (fail 0)
    (Memory.wf s.mem = true ∧ s.params.Valid ∧ NoneConnected s ∧ s.present[1] = true ∧ FirstBusError k s) ∧
    after (exec (.cardConstruct 2) s) (fun t => (t.response, t.cards[1], (bus t).length)) =
      some (some (.ok (.bool false)), Card.blank, if k = 0 ∨ k = 26 then k + 1 else k + 2) := by decide +kernel

theorem witness_CrateConstruct :
    BetweenCommands { found with tape := fines 486 } ∧ NoneConnected { found with tape := fines 486 } ∧
    ({ found with tape := fines 486 } : State).liveCards = [] ∧ NoBusError 486 { found with tape := fines 486 } :=
  ⟨by decide +kernel, by decide +kernel, by decide +kernel, noBusError_fines rfl⟩

/-- The premises of the crate commands, the seeks' and the configuration's among them, but for their operands. -/
theorem witness_CommandReady :
    (CommandReady (two (fines 486)) ∧ LiveCardsPlugged (two (fines 486)) ∧ (two (fines 486)).present[1] = true) ∧
    NoBusError 486 (two (fines 486)) ∧ (two (fines 486)).cards[1].live = true ∧
    (two (fines 486)).cards[0].live = false ∧ (two (fines 486)).cards[1].chen = some 0 ∧
    (two (fines 486)).cards[1].tsten = some 0 ∧ (two (fines 486)).cards[1].curdiv = some 10 ∧
    (∀ (i : CardIx) (c : ChanIx), (two (fines 486)).cards[i].live = true →
      0 ≤ (two (fines 486)).cfg[i][c].level ∧ (two (fines 486)).cfg[i][c].level ≤ 1023) ∧
    LevelsInRange (two (fines 486)) := by
  refine ⟨?_, noBusError_fines rfl, ?_, ?_, ?_, ?_, ?_, ?_, ?_⟩ <;> decide +kernel

/-- The live cards 2 and 5, transaction `k` from now the first to fail. -/
def twoFails (k : Nat) : State := two (fines k ++ [fail 1, fine])

/-- Card 2 was pulled; card 5 is live as well. -/
def pulled : State := { two (fines 3) with present := (two []).present.set 1 false }

/-- The first failure of a bulk command of 8 transactions a card: at the pulled card, at the first card's first transaction of its
body and at its `CLOSE`, at the second card's `OPEN` and in its body. -/
theorem witness_FailsAt :
    CommandReady pulled ∧ FailsAt pulled 8 1 0 ∧ FailsAt pulled 16 1 0 ∧
    CommandReady (twoFails 1) ∧ FailsAt (twoFails 1) 8 1 1 ∧ FailsAt (twoFails 9) 8 1 9 ∧ FailsAt (twoFails 10) 8 4 0 ∧
    FailsAt (twoFails 15) 8 4 5 ∧
    after (exec .enableAllOutputs (twoFails 15))
      (fun t => (t.cards[1].chen, t.cards[4].chen, t.cards[4].iso, t.devXp 4 0, (bus t).length)) =
      some (some 0xFF#8, some 0x0F#8, some .closed, 0xE0#8, 17) := by
  refine ⟨?_, ?_, ?_, ?_, ?_, ?_, ?_, ?_, ?_⟩ <;> decide +kernel

/-- The same of `LOAD_CONFIG` and `DISABLE_ALL_OUTPUTS(1)`, 16 transactions a card; every record is in range. -/
theorem witness_FailsAt_restore :
    (FailsAt (twoFails 9) 16 1 9 ∧ FailsAt (twoFails 17) 16 1 17 ∧ FailsAt (twoFails 18) 16 4 0 ∧ FailsAt (twoFails 20) 16 4 2) ∧
    (∀ (j : CardIx) (c : ChanIx), 0 ≤ (twoFails 20).cfg[j][c].level ∧ (twoFails 20).cfg[j][c].level ≤ 1023) ∧
    after (exec (.loadConfig 1) (twoFails 20)) (fun t => (t.response, t.cards[1].iso, t.cards[4].iso, (bus t).length)) =
      some (some (.failed .busError), some .closed, some .closed, 22) ∧
    after (exec (.disableAllOutputs 1) (twoFails 17)) (fun t => (t.response, t.cards[1].iso, t.cards[4].iso, (bus t).length)) =
      some (some (.failed .busError), some .opened, some .closed, 18) := by
  refine ⟨?_, ?_, ?_, ?_⟩ <;> decide +kernel

/-- Cards 2 and 5 live; channel `c` of card `i` has the stored level `v`. -/
def badRecord (i : CardIx) (c : ChanIx) (v : Int) : State :=
  { two (fines 36) with cfg := (two []).cfg.set i ((two []).cfg[i].set c { output := true, level := v }) }

/-- A stored level just outside its range at both ends: card 2 channel 4, card 5 channel 1. -/
theorem witness_StoredLevelOutOfRange :
    (CommandReady (badRecord 1 3 1024) ∧ Reaches (badRecord 1 3 1024) 16 1 7 ∧ (badRecord 1 3 1024).present[1] = true) ∧
    (∀ d : ChanIx, d < 3 → 0 ≤ (badRecord 1 3 1024).cfg[1][d].level ∧ (badRecord 1 3 1024).cfg[1][d].level ≤ 1023) ∧
    ¬(0 ≤ (badRecord 1 3 1024).cfg[1][3].level ∧ (badRecord 1 3 1024).cfg[1][3].level ≤ 1023) ∧
    after (exec (.loadConfig 1) (badRecord 1 3 1024)) (fun t => (t.response, t.cards[1].iso, t.cards[4].iso, (bus t).length)) =
      some (some (.failed .invalidArgument), some .closed, some .closed, 8) ∧
    (Reaches (badRecord 4 0 (-1)) 16 4 1 ∧ (badRecord 4 0 (-1)).present[4] = true) ∧
    (∀ d : ChanIx, 0 ≤ (badRecord 4 0 (-1)).cfg[1][d].level ∧ (badRecord 4 0 (-1)).cfg[1][d].level ≤ 1023) ∧
    ¬(0 ≤ (badRecord 4 0 (-1)).cfg[4][0].level ∧ (badRecord 4 0 (-1)).cfg[4][0].level ≤ 1023) := by
  refine ⟨?_, ?_, ?_, ?_, ?_, ?_, ?_⟩ <;> decide +kernel

/-- Cards 2 and 9 live, card 5 plugged and new; transaction `k` from now fails. -/
def refreshing (k : Nat) : State :=
  { two (fines k ++ [fail 0]) with
    present := (two []).present.set 8 true
    cards := (State.reset.cards.set 1 known).set 8 known }

/-- The failed probe: of the pulled card 2; of card 9, after card 5 was found, in its `OPEN` and in its `CLOSE`. -/
theorem witness_FailedProbe :
    (pulled.cards[1].live = true ∧ pulled.liveBelow 1 = 0 ∧ pulled.present[1] = false) ∧
    (CommandReady (refreshing 29) ∧ (refreshing 29).cards[8].live = true ∧ (refreshing 29).present[8] = true) ∧
    (∀ j : CardIx, j < 8 → (refreshing 29).cards[j].live = true → (refreshing 29).present[j] = true) ∧
    (2 * (refreshing 29).liveBelow 8 + 27 * ((List.finRange Config.pb.nCards).countP fun j : CardIx =>
      decide (j < 8) && ((refreshing 29).present[j] && !(refreshing 29).cards[j].live)) = 29) ∧
    FirstBusError 29 (refreshing 29) ∧ FirstBusError 30 (refreshing 30) ∧
    after (exec .getAvailableCards (refreshing 29)) (fun t => (t.response, t.cards[4].live, t.cards[8].iso, (bus t).length)) =
      some (some (.failed .busError), true, some .closed, 36) ∧
    after (exec .getAvailableCards (refreshing 30)) (fun t => (t.response, t.liveCards, t.cards[8].iso)) =
      some (some (.failed .busError), [2, 5, 9], some .opened) := by
  refine ⟨?_, ?_, ?_, ?_, ?_, ?_, ?_, ?_⟩ <;> decide +kernel

/-- The state a `LOAD_CONFIG` is run in after `SAVE_CONFIG` in `configured`: card 9 came in between. -/
def loading : State :=
  { two (fines 54) with
    present := (two []).present.set 8 true
    cards := (two []).cards.set 8 known
    cfg := (two []).cfg.set 1 (Vector.ofFn fun c => { output := c.val == 0 || c.val == 2, level := 10 * (c.val + 1) }) }

theorem witness_SaveThenLoadRestores :
    BetweenCommands (configured []) ∧ LiveCardsComplete (configured []) ∧ LevelsInRange (configured []) ∧
    (∀ create : Bool, after (exec (.saveConfig (byteOfBool create)) (configured [])) (fun t =>
      decide (∀ i : CardIx, ∀ c : ChanIx, t.cfg[i][c] = loading.cfg[i][c])) = some true) ∧
    CommandReady loading ∧ loading.cards[8].live = true ∧ (configured []).cards[8].live = false ∧
    after (exec (.loadConfig 1) loading) (fun t => (t.response, t.cards[1].chen, t.cards[1].level[7])) =
      some (some (.ok .nothing), some 0x05#8, some 80) := by
  refine ⟨?_, ?_, ?_, ?_, ?_, ?_, ?_, ?_⟩ <;> decide +kernel

/-- Card 2's `CLOSE` fails on the bus; card 5 is no longer plugged. -/
theorem witness_ShutdownClearsLiveMap :
    (two [fail 0]).running = none ∧ (two [fail 0]).params.Valid ∧ Memory.wf (two [fail 0]).mem = true ∧
    after (exec .shutdown (two [fail 0, fine])) (fun t => (t.response, t.liveCards, bus t)) =
      some (some (.failed .busError), [], [(.writeByte 0x62 0x60#8, false), (.writeByte 0x65 0x60#8, true)]) ∧
    after (exec .shutdown { two [fine] with present := (two []).present.set 4 false })
      (fun t => (t.response, t.liveCards, bus t)) =
      some (some (.failed .busError), [], [(.writeByte 0x62 0x60#8, true), (.writeByte 0x65 0x60#8, false)]) := by
  refine ⟨?_, ?_, ?_, ?_, ?_⟩ <;> decide +kernel

theorem witness_failures :
    CommandReady (closed 0 [fail 0]) ∧ (CommandReady pulled ∧ pulled.cards[1].live = true ∧ pulled.present[1] = false) ∧ (closed 0 [fail 0]).cards[0].live = true ∧ ((closed 0 [fail 0]).answer 0).ok = false ∧
    (Instr.crateSetLevel 1 1 0).cardNamed = some (cardNo 0) ∧ ¬(Instr.crateSetLevel 1 1 0).BadHostArgs ∧
    (CommandReady (closed 0 [fine, fail 1, fine]) ∧ (closed 0 [fine, fail 1, fine]).present[0] = true) ∧ ((closed 0 [fine, fail 1, fine]).answer 0).ok = true ∧
    ((closed 0 [fine, fail 1, fine]).answer 1).ok = false ∧
    after (exec (.crateSetLevel 1 1 0) (closed 0 [fine, fail 1, fine])) (fun t => (t.response, t.cards[0].iso)) =
      some (some (.failed .busError), some .closed) ∧
    (CommandReady (closed 0 [fine, fine, fail 0]) ∧ (closed 0 [fine, fine, fail 0]).present[0] = true) ∧ ((closed 0 [fine, fine, fail 0]).answer 0).ok = true ∧
    after (exec (.crateSetLevel 1 1 0) (closed 0 [fine, fine, fail 0])) (fun t => (t.response, t.cards[0].iso)) =
      some (some (.failed .busError), some .opened) := by
  dsimp only [Instr.BadHostArgs]
  repeat' apply And.intro
  all_goals decide +kernel

/-- Sample 0 at target 0 converges, for both seeks, at the bounds 5 and 200 of the target also. -/
theorem witness_SeekConvergesOnFirstSample :
    (CommandReady (seeking 7 (fines 14)) ∧ (seeking 7 (fines 14)).present[3] = true) ∧ (seeking 7 (fines 14)).cards[3].live = true ∧ NoBusError 14 (seeking 7 (fines 14)) ∧
    (seeking 7 (fines 14)).cards[3].level[0] = some 7 ∧ (seeking 7 (fines 14)).cards[3].curdiv = some 10 ∧
    |(0 : Rat) - busReading (seeking 7 (fines 14)) 1| < 1 / 100 ∧
    |(0 : Rat) - currentReading (seeking 7 (fines 14)) 10 1| < 1 / 100 ∧
    |(5 : Rat) - busReading (seeking 7 (fine :: (six 0x2710#16 ++ [fine]))) 1| < 1 / 100 ∧
    |(200 : Rat) - currentReading (seeking 7 (fine :: (six 2000 ++ [fine]))) 10 1| < 1 / 100 := by decide +kernel

/-- P3's start of iteration 3. -/
def moving : State := seeking 102 (fine :: (six 0x0330#16 ++ [fine] ++ six 0x0338#16 ++ [fine]))

/-- A current of 10 mA, then of 9, at level 0. -/
def falling : State := seeking 0 (fine :: (six 100 ++ [fine] ++ six 90 ++ [fine]))

/-- Upward by voltage; at the floor by current. -/
theorem witness_SeekMovesOneStepTowardTarget :
    (CommandReady moving ∧ moving.present[3] = true ∧ moving.cards[3].live = true ∧ NoBusError 27 moving ∧ moving.cards[3].level[0] = some 102) ∧
    FarFrom (42 / 100) (busReading moving 1) ∧ (103 : Int) = stepToward (42 / 100) (busReading moving 1) 102 1 ∧
    |(42 / 100 : Rat) - busReading moving 14| < 1 / 100 ∧
    (CommandReady falling ∧ falling.present[3] = true ∧ falling.cards[3].live = true ∧ NoBusError 27 falling ∧ falling.cards[3].level[0] = some 0 ∧
      falling.cards[3].curdiv = some 10) ∧
    FarFrom 9 (currentReading falling 10 1) ∧ (0 : Int) = stepToward 9 (currentReading falling 10 1) 0 1 ∧
    |(9 : Rat) - currentReading falling 10 14| < 1 / 100 := by
  refine ⟨?_, ?_, ?_, ?_, ?_, ?_, ?_, ?_⟩ <;> decide +kernel

/-- P3b's iteration 4. -/
def ceiling : State := seeking 1023 (fine :: (six 0x1FE0#16 ++ [fine]))

/-- The same with a `CLOSE` that fails. -/
def ceilingFails : State := seeking 1023 (fine :: (six 0x1FE0#16 ++ [fail 0]))

/-- A current seek at the ceiling: 199 mA, and the `CLOSE`. -/
def ceilingCurrent (close : Answer) : State := seeking 1023 (fine :: (six 1990 ++ [close]))

theorem witness_SeekPastCeilingIsInvalidArgument :
    (CommandReady ceiling ∧ ceiling.cards[3].live = true ∧ ceiling.present[3] = true ∧ NoBusError 13 ceiling ∧ (ceiling.answer 13).ok = true ∧ ceiling.cards[3].level[0] = some 1023) ∧
    1 / 100 ≤ 5 - busReading ceiling 1 ∧
    (CommandReady ceilingFails ∧ ceilingFails.present[3] = true ∧ NoBusError 13 ceilingFails ∧ (ceilingFails.answer 13).ok = false) ∧
    1 / 100 ≤ 5 - busReading ceilingFails 1 ∧
    after (exec (.seekVoltage 4 1 5 1) ceilingFails) (fun t => (t.response, t.cards[3].iso)) =
      some (some (.failed .invalidArgument), some .opened) := by
  refine ⟨?_, ?_, ?_, ?_, ?_⟩ <;> decide +kernel

/-- The current clause, its `CLOSE` done or failed, at the bound 200 of the target. -/
theorem witness_SeekPastCeilingIsInvalidArgument_current : ∀ ok : Bool,
    let s := ceilingCurrent (if ok then fine else fail 0)
    (CommandReady s ∧ s.present[3] = true ∧ NoBusError 13 s ∧ (s.answer 13).ok = ok ∧ s.cards[3].live = true) ∧
    s.cards[3].level[0] = some 1023 ∧ s.cards[3].curdiv = some 10 ∧ 1 / 100 ≤ 200 - currentReading s 10 1 := by
  decide +kernel

/-- A seek that ends, one that ends with a value, and current targets at the bounds of 0.01..0.09, whose mean sample 0.05 is
clamped to 0 (R156). -/
theorem witness_SeekBounds :
    isNext (exec (.seekVoltage 4 1 (42 / 100) 1) (seeking 102 [fine, fail 0, fine])) = true ∧
    after (exec (.seekCurrent 4 1 10 1) (seeking 100 (fine :: (six 100 ++ [fine])))) State.response =
      some (some (.ok (.pair 100 10))) ∧
    [1 / 100, 1 / 20, 9 / 100].map (fun target =>
      after (exec (.seekCurrent 4 1 target 1) (seeking 1023 (fine :: (sampled [1, 1, 1, 0, 0, 0] ++ [fine])))) State.response) =
      List.replicate 3 (some (some (.failed .invalidArgument))) := by decide +kernel

/-- Every sample is 4 V, the target 0, the level 0. -/
def endless : State := seeking 0 (fine :: List.replicate 26625 (read 0x1F40#16))

theorem endless_answer {k : Nat} (h1 : 1 ≤ k) (h2 : k ≤ 26625) : endless.answer k = read 0x1F40#16 := by
  obtain ⟨k, rfl⟩ : ∃ j, k = j + 1 := ⟨k - 1, by omega⟩
  have : (fine :: List.replicate 26625 (read 0x1F40#16))[k + 1]? = some (read 0x1F40#16) := by
    rw [List.getElem?_cons_succ, List.getElem?_replicate, if_pos (by omega)]
  unfold State.answer
  change (match (fine :: List.replicate 26625 (read 0x1F40#16))[k + 1]? with | some a => a | none => _) = _
  rw [this]

theorem endless_reading {n : Nat} (h1 : 1 ≤ n) (h2 : n + 11 ≤ 26625) : busReading endless n = 4 := by
  have h : ∀ k < 6, endless.answer (n + 2 * k + 1) = read 0x1F40#16 := fun k hk => endless_answer (by omega) (by omega)
  unfold busReading meanOfSix
  simp only [h 0 (by decide), h 1 (by decide), h 2 (by decide), h 3 (by decide), h 4 (by decide), h 5 (by decide)]
  decide +kernel

/-- A seek that ends with `SeekNotConverged`: 1 + 2048 × 13 transactions, and the `CLOSE`. -/
theorem witness_SeekNotConverged :
    ∃ t, exec (.seekVoltage (cardNo 3) (chanNo 0) 0 1) endless = .next t ∧
      t.response = some (.failed .seekNotConverged) := by
  have hp : (endless.beginCommand 0x97#8).present[(3 : CardIx)] = true := rfl
  obtain ⟨t, ht, ho, _, hc⟩ := openOp_runs (s := endless.beginCommand 0x97#8) hp rfl
  have hr : Ready t 3 := ready_of_open (s := endless.beginCommand 0x97#8) (by decide) (by decide +kernel) (by decide) hp ho hc
  have e1 := ho.trans (effect_seekStart t 0)
  have hbus (k : Nat) (hk : k < 13 * 2048) : (t.seekStart 0).answer k = read 0x1F40#16 :=
    (e1.answer k).trans (endless_answer (by omega) (by omega))
  have hread (k : Nat) (hk : k < 2048) : busReading (t.seekStart 0) (13 * k) = 4 :=
    (busReading_effect e1 _).trans (endless_reading (by omega) (by omega))
  obtain ⟨u, n, W, es, hu, he⟩ := seekLoop_exhausts (step := 1) (target := 0) (fuel := 2048)
    (senses_getBusVoltageOp 3 0 (t.seekStart 0).cards[(3 : CardIx)].curdiv) (le_refl _)
    (hr.step (effect_seekStart t 0) (by simp) rfl) rfl (fun k => by rw [hbus k.val (by omega)]; rfl) rfl
    fun k hk => by rw [hread k hk]; norm_num
  have hrun : seekOp (cardNo 3) (chanNo 0) 0 1 (getBusVoltageOp (cardNo 3) (chanNo 0)) t =
      .error (.failed .seekNotConverged) u.dropSeek := by
    rw [seekOp_eq (level := 0) (by rw [hc, cards_set_same]; rfl), show Config.pb.seekMaxIter = 2048 from rfl, hu]
  have hexec : exec (.seekVoltage (cardNo 3) (chanNo 0) 0 1) endless = runPerCard 0x97#8 true (cardNo 3)
      (seekOp (cardNo 3) (chanNo 0) 0 1 (getBusVoltageOp (cardNo 3) (chanNo 0))) endless := rfl
  have hpu : u.dropSeek.present[(3 : CardIx)] = true := by
    change u.present[(3 : CardIx)] = true
    rw [(e1.trans he).present]
    exact hp
  rw [hexec]
  cases hok : u.dropSeek.nextAnswer.ok with
  | true =>
    obtain ⟨w, hw, _⟩ := closeOp_runs hpu hok
    exact ⟨_, runPerCard_failed rfl rfl (bracket_body_fails ht hrun hw), rfl⟩
  | false =>
    obtain ⟨w, _, hw, _⟩ := closeOp_fails hpu hok
    exact ⟨_, runPerCard_failed rfl rfl (bracket_both_fail ht hrun hw), rfl⟩

end Sys2Proof.Tests
end

section
/-! What an operation that ends in a next state keeps (`ExecMoves`), for each field that few operations or none may write, and O11. -/

namespace Sys2Proof.Machine

/-! ## The operations that may write the persisted configuration and the live map -/

theorem mayTouch_config {i : Instr} (h : mayTouch i .config) : ∃ f, i = .saveConfig f := by
  cases i with
  | saveConfig f => exact ⟨f, rfl⟩
  | _ => simp [mayTouch] at h

theorem mayTouch_liveMap {i : Instr} (h : mayTouch i .liveMap) :
    (∃ a, i = .cardConstruct a) ∨ i = .crateConstruct ∨ i = .getAvailableCards ∨ i = .shutdown := by
  cases i with
  | cardConstruct a => exact .inl ⟨a, rfl⟩
  | crateConstruct => exact .inr (.inl rfl)
  | getAvailableCards => exact .inr (.inr (.inl rfl))
  | shutdown => exact .inr (.inr (.inr rfl))
  | _ => simp [mayTouch] at h

/-! ## What an operation keeps, its boundaries and its response included -/

section

variable {i : Instr} {s t : State}

/-- R9, R31. -/
theorem ExecMoves.fixed (h : ExecMoves i s t) : t.params = s.params ∧ t.present = s.present ∧ t.inbox = s.inbox :=
  h.induct (R := fun s t => t.params = s.params ∧ t.present = s.present ∧ t.inbox = s.inbox) ⟨rfl, rfl, rfl⟩
    (hstep := fun _ _ ⟨hparams, hpresent, hinbox⟩ ht => by
      obtain ⟨eparams, -, epresent, einbox⟩ := ht.fixed
      exact ⟨eparams.trans hparams, epresent.trans hpresent, einbox.trans hinbox⟩)
    (hb := fun _ _ hu => hu) (he := fun _ _ _ hu => hu) (hr := fun _ _ hu => hu)

/-- R22. -/
theorem ExecMoves.cfg (h : ExecMoves i s t) (hk : ¬mayTouch i .config) : t.cfg = s.cfg :=
  h.induct (R := fun s t => t.cfg = s.cfg) rfl (hstep := fun _ _ hu ht => (ht.cfg hk).trans hu)
    (hb := fun _ _ hu => hu) (he := fun _ _ _ hu => hu) (hr := fun _ _ hu => hu)

/-- R30: the two boundaries of a command append their events as well. -/
theorem ExecMoves.hist (h : ExecMoves i s t) : s.hist <+: t.hist :=
  h.induct (R := fun s t => s.hist <+: t.hist) (List.prefix_refl _) (hstep := fun _ _ hu ht => hu.trans ht.hist)
    (hb := fun _ _ hu => hu.trans (List.prefix_append _ _)) (he := fun _ _ _ hu => hu.trans (List.prefix_append _ _))
    (hr := fun _ _ hu => hu)

/-- R13. -/
theorem ExecMoves.live (h : ExecMoves i s t) (hk : ¬mayTouch i .liveMap) (j : CardIx) :
    t.cards[j].live = s.cards[j].live :=
  h.induct (R := fun s t => t.cards[j].live = s.cards[j].live) rfl
    (hstep := fun _ _ hu ht => (ht.grows hk j).live.trans hu)
    (hb := fun _ _ hu => hu) (he := fun _ _ _ hu => hu) (hr := fun _ _ hu => hu)

end

/-- Settles O11: whatever an operation does is a run of `Touch` updates between its boundaries (`exec_moves`); only `SAVE_CONFIG`
is given leave to write the configuration, and only the constructions and `SHUTDOWN` to write the live map. -/
theorem operationsKeepWhatTheyMayNotWrite : Obligations.OperationsKeepWhatTheyMayNotWrite := by
  intro i s t ht
  have hm : ExecMoves i s t := exec_moves ht
  obtain ⟨hparams, hpresent, hinbox⟩ := hm.fixed
  refine ⟨hparams, hpresent, hinbox, fun hsave => hm.cfg fun hk => ?_, hm.hist,
    fun hcard hcrate hcards hshut => hm.live fun hk => ?_⟩
  · obtain ⟨f, hf⟩ := mayTouch_config hk
    exact hsave f hf
  · obtain ⟨a, ha⟩ | hi | hi | hi := mayTouch_liveMap hk
    · exact hcard a ha
    · exact hcrate hi
    · exact hcards hi
    · exact hshut hi

end Sys2Proof.Machine
end

section
/-! What every step keeps (O7 to O10), and the step on each kind of input (O4 to O6). -/

namespace Sys2Proof.Machine

/-! ## Invariants of a step -/

/-- A property that the environment's inputs, a refusal and every operation keep, every step keeps. -/
theorem step_keeps {P : State → Prop} {s t : State} (h : step s = .next t) (hs : P s)
    (htail : ∀ u rest, P u → P (u.tail rest)) (hplug : ∀ u i p, P u → P (u.plug i p)) (hrestart : ∀ u, P u → P u.restart)
    (hrespond : ∀ u r, P u → P (u.respond r)) (hexec : ∀ i u v, P u → exec i u = .next v → P v) : P t := by
  obtain ⟨-, rfl⟩ | ⟨i, p, rest, -, rfl⟩ | ⟨rest, -, rfl⟩ | ⟨_, _, rest, -, rfl⟩ | ⟨_, _, rest, i, -, hi⟩ := step_cases h
  · exact hs
  · exact hplug _ _ _ (htail _ _ hs)
  · exact hrestart _ (htail _ _ hs)
  · exact hrespond _ _ (htail _ _ hs)
  · exact hexec i _ _ (htail _ _ hs) hi

/-- A property that every update keeps, and that says nothing of what the boundaries and the response write, an operation keeps. -/
theorem exec_keeps {P : State → Prop} {i : Instr} {s t : State} (h : exec i s = .next t) (hs : P s)
    (htouch : ∀ u v, P u → Touch (mayTouch i) u v → P v) (hb : ∀ u op, P u → P (u.beginCommand op))
    (he : ∀ u op r, P u → P (u.endCommand op r)) (hr : ∀ u r, P u → P (u.respond r)) : P t :=
  (exec_moves h).induct (R := fun _ t => P t) hs htouch hb he hr

/-- Settles O7: the only update that writes the memory writes it through `Memory.write` (`Touch.wf`). -/
theorem stepKeepsMemoryCanonical : Obligations.StepKeepsMemoryCanonical := by
  intro s t hs h
  refine step_keeps (P := fun u => Memory.wf u.mem = true) h hs (fun _ _ hu => hu) (fun _ _ _ hu => hu) (fun _ hu => hu)
    (fun _ _ hu => hu) fun i u v hu hv => ?_
  exact exec_keeps (P := fun u => Memory.wf u.mem = true) hv hu (fun _ _ hu ht => ht.wf hu) (fun _ _ hu => hu)
    (fun _ _ _ hu => hu) (fun _ _ hu => hu)

/-- After a restart every cached card is blank (R33). -/
theorem restart_card (s : State) (i : CardIx) : s.restart.cards[i] = Card.blank := by
  simp only [State.restart_cards, Fin.getElem_fin, Vector.getElem_replicate]

@[simp] theorem blank_level (c : ChanIx) : Card.blank.level[c] = none := by
  simp only [Card.blank, Fin.getElem_fin, Vector.getElem_replicate]

/-- Settles O8: a level is cached in range or not at all (`Touch.levels`), and a restart leaves none. -/
theorem stepKeepsLevelsInRange : Obligations.StepKeepsLevelsInRange := by
  intro s t hs h
  refine step_keeps (P := LevelsInRange) h hs (fun _ _ hu => hu) (fun _ _ _ hu => hu) (fun u _ i c v hv => ?_)
    (fun _ _ hu => hu) fun i u v hu hv => ?_
  · rw [restart_card, blank_level] at hv
    cases hv
  · exact exec_keeps (P := LevelsInRange) hv hu (fun _ _ hu ht => ht.levels hu) (fun _ _ hu => hu) (fun _ _ _ hu => hu)
      (fun _ _ hu => hu)

/-- Settles O9: only a complete card becomes live and no field of a live card is emptied (`Touch.complete`); a restart leaves no
card live. -/
theorem stepKeepsLiveCardsComplete : Obligations.StepKeepsLiveCardsComplete := by
  intro s t hs h
  refine step_keeps (P := LiveCardsComplete) h hs (fun _ _ hu => hu) (fun _ _ _ hu => hu) (fun u _ i hl => ?_)
    (fun _ _ hu => hu) fun i u v hu hv => ?_
  · rw [restart_card] at hl
    cases hl
  · exact exec_keeps (P := LiveCardsComplete) hv hu (fun _ _ hu ht => ht.complete hu) (fun _ _ hu => hu)
      (fun _ _ _ hu => hu) (fun _ _ hu => hu)

/-! ## Nothing of a command outlives it -/

/-- R24: the operation ends with `ACC` and `CNT` without a value if it starts so. -/
def Op.DropsAcc {α : Type} (x : Op α) : Prop :=
  ∀ s : State, s.acc = none → s.cnt = none → (endState (x s)).acc = none ∧ (endState (x s)).cnt = none

theorem dropsAcc_of_moves {α : Type} {x : Op α} (h : x.Moves plain) : x.DropsAcc := by
  intro s hacc hcnt
  obtain ⟨eacc, ecnt⟩ := (h s).average_kept id
  exact ⟨eacc.trans hacc, ecnt.trans hcnt⟩

theorem dropsAcc_bind {α β : Type} {x : Op α} {f : α → Op β} (hx : x.DropsAcc) (hf : ∀ v, (f v).DropsAcc) :
    (x >>= f).DropsAcc := by
  intro s hacc hcnt
  have h := hx s hacc hcnt
  rw [Op.bind_apply]
  cases hr : x s with
  | ok v t => rw [hr] at h; exact hf v t h.1 h.2
  | error e t => rw [hr] at h; exact h

theorem dropsAcc_averageOp (sample : Op Rat) : (averageOp sample).DropsAcc := fun s _ _ => averageOp_drops sample s

/-- R152 to R154: a public read run by itself, the shape of all three. -/
theorem dropsAcc_publicRead (a ch : Int) (sample : Op Rat) (g : Rat → Rat) : (do
    checkArg (isChannel ch)
    requireOpen a
    let m ← averageOp sample
    pure (g m) : Op Rat).DropsAcc :=
  dropsAcc_bind (dropsAcc_of_moves (moves_checkArg _)) fun _ =>
    dropsAcc_bind (dropsAcc_of_moves (moves_requireOpen _)) fun _ =>
      dropsAcc_bind (dropsAcc_averageOp _) fun _ => dropsAcc_of_moves (moves_pure _)

/-- An internal operation that takes an average drops it. -/
theorem runInternal_dropsAcc {body : Op Value} {s t : State} (h : body.DropsAcc) (ht : runInternal body s = .next t)
    (hacc : s.acc = none) (hcnt : s.cnt = none) : t.acc = none ∧ t.cnt = none := by
  have hd := h s hacc hcnt
  unfold runInternal at ht
  cases hx : body s with
  | ok v u => rw [hx] at ht hd; cases ht; exact hd
  | error e u =>
    rw [hx] at ht hd
    cases e with
    | failed f => cases ht; exact hd
    | fault r => cases ht

/-- R152 to R154: the internal operations that average. -/
theorem internal_average {i : Instr} (hi : i.isHost = false) (hk : mayTouch i .average) :
    (∃ a ch, i = .getBusVoltage a ch) ∨ (∃ a ch, i = .getShuntVoltage a ch) ∨ ∃ a ch, i = .getCurrent a ch := by
  cases i with
  | getBusVoltage a ch => exact .inl ⟨a, ch, rfl⟩
  | getShuntVoltage a ch => exact .inr (.inl ⟨a, ch, rfl⟩)
  | getCurrent a ch => exact .inr (.inr ⟨a, ch, rfl⟩)
  | crateGetBusVoltage => cases hi
  | crateGetShuntVoltage => cases hi
  | crateGetCurrent => cases hi
  | seekVoltage => cases hi
  | seekCurrent => cases hi
  | _ => simp [mayTouch] at hk

/-- R24: whatever internal operation runs by itself, `ACC` and `CNT` hold no value after it. -/
theorem internal_dropsAcc {i : Instr} {s t : State} (hi : i.isHost = false) (ht : exec i s = .next t)
    (hacc : s.acc = none) (hcnt : s.cnt = none) : t.acc = none ∧ t.cnt = none := by
  have drops : ∀ {x : Op Rat}, x.DropsAcc → (do pure (.real (← x)) : Op Value).DropsAcc := fun h =>
    dropsAcc_bind h fun _ => dropsAcc_of_moves (moves_pure _)
  by_cases hk : mayTouch i .average
  · obtain ⟨a, ch, rfl⟩ | ⟨a, ch, rfl⟩ | ⟨a, ch, rfl⟩ := internal_average hi hk
    · exact runInternal_dropsAcc (drops (dropsAcc_publicRead a ch (busSample a ch) clampMean)) ht hacc hcnt
    · exact runInternal_dropsAcc (drops (dropsAcc_publicRead a ch (shuntSample a ch) clampMean)) ht hacc hcnt
    · exact runInternal_dropsAcc (drops (dropsAcc_publicRead a ch (currentSample a ch) fun m => currentEps (clampMean m)))
        ht hacc hcnt
  · exact exec_keeps (P := fun u => u.acc = none ∧ u.cnt = none) ht ⟨hacc, hcnt⟩
      (fun _ _ hu hm => by
        obtain ⟨eacc, ecnt⟩ := hm.average_kept hk
        exact ⟨eacc.trans hu.1, ecnt.trans hu.2⟩)
      (fun _ _ hu => hu) (fun _ _ _ _ => ⟨rfl, rfl⟩) (fun _ _ hu => hu)

/-- R25: no internal operation writes `ITER` or `L`. -/
theorem internal_not_seek {i : Instr} (hi : i.isHost = false) : ¬mayTouch i .seek := by
  cases i with
  | seekVoltage => cases hi
  | seekCurrent => cases hi
  | _ => simp [mayTouch]

/-- R12, R24, R25: after an operation that ends in a next state nothing that belongs to one command holds a value. -/
theorem exec_betweenCommands {i : Instr} {s t : State} (hs : BetweenCommands s) (ht : exec i s = .next t) :
    BetweenCommands t := by
  obtain ⟨hrun, hacc, hcnt, hiter, hlevel⟩ := hs
  obtain ⟨hi, u, r, hm, rfl⟩ | ⟨-, r, rfl⟩ | ⟨-, u, r, -, rfl⟩ := exec_moves ht
  · obtain ⟨hacc', hcnt'⟩ := internal_dropsAcc hi ht hacc hcnt
    obtain ⟨eiter, elevel⟩ := hm.seek_kept (internal_not_seek hi)
    obtain ⟨-, erun, -, -⟩ := hm.fixed
    exact ⟨erun.trans hrun, hacc', hcnt', eiter.trans hiter, elevel.trans hlevel⟩
  · exact ⟨hrun, hacc, hcnt, hiter, hlevel⟩
  · exact ⟨rfl, rfl, rfl, rfl, rfl⟩

/-- Settles O10: a host command drops everything of its own at its second boundary; an internal operation that averages drops the
average, and no other writes these fields. -/
theorem stepKeepsBetweenCommands : Obligations.StepKeepsBetweenCommands := by
  intro s t hs h
  exact step_keeps (P := BetweenCommands) h hs (fun _ _ hu => hu) (fun _ _ _ hu => hu)
    (fun _ _ => ⟨rfl, rfl, rfl, rfl, rfl⟩) (fun _ _ hu => hu) fun _ _ _ hu hv => exec_betweenCommands hu hv

/-! ## The step on each kind of input -/

/-- R74: what the issuer may issue is accepted. -/
theorem accept_of_decode {who : Issuer} {f : Frame} {i : Instr} (hf : f.decode = .ok i)
    (hw : who = .sequencer ∨ i.isHost = true) : accept who f = .run i := by
  cases who with
  | sequencer => simp [accept, hf]
  | host =>
    have hi : i.isHost = true := hw.resolve_left nofun
    simp [accept, hf, hi]

/-- Settles O4. -/
theorem stepRunsDecodedFrame : Obligations.StepRunsDecodedFrame := by
  intro s who f i rest hin hf hw
  unfold step
  rw [hin]
  simp only [accept_of_decode hf hw]
  rfl

/-- R31. -/
theorem step_plug {s : State} {i : CardIx} {p : Bool} {rest : List Input} (h : s.inbox = .plug i p :: rest) :
    step s = .next ((s.tail rest).plug i p) := by
  unfold step
  rw [h]

/-- R250. -/
theorem step_restart {s : State} {rest : List Input} (h : s.inbox = .restart :: rest) :
    step s = .next (s.tail rest).restart := by
  unfold step
  rw [h]

/-- Log 29. -/
theorem step_idle {s : State} (h : s.inbox = []) : step s = .next s := by
  unfold step
  rw [h]

/-- Settles O5: the three inputs one by one. -/
theorem stepOnOtherInputs : Obligations.StepOnOtherInputs := by
  intro s rest
  refine ⟨step_idle, fun i p h => ⟨_, step_plug h, ?_, fun j hj => ?_, rfl, ?_⟩, fun h => ⟨_, step_restart h, ?_⟩⟩
  · simp only [State.plug_present, Fin.getElem_fin, Vector.getElem_set_self]
  · have hne : i.val ≠ j.val := fun e => hj (Fin.ext e.symm)
    simp only [State.plug_present, Fin.getElem_fin, Vector.getElem_set_ne _ _ hne, State.tail_present]
  · rfl
  · exact ⟨restart_card _, rfl, ⟨rfl, rfl, rfl, rfl, rfl⟩, rfl, rfl, rfl, rfl, rfl, rfl, rfl, rfl⟩

theorem reset_card (i : CardIx) : State.reset.cards[i] = Card.blank := by
  simp only [State.reset, Fin.getElem_fin, Vector.getElem_replicate]

/-- Settles O6: every card is blank at reset. -/
theorem resetState : Obligations.ResetState := by
  refine ⟨fun i => ?_, ⟨rfl, rfl, rfl, rfl, rfl⟩, rfl, State.reset_mem_wf, fun i c v hv => ?_, fun i hl => ?_⟩
  · rw [reset_card]
    exact ⟨rfl, rfl, rfl, rfl, blank_level, rfl, rfl⟩
  · rw [reset_card, blank_level] at hv
    cases hv
  · rw [reset_card] at hl
    cases hl

end Sys2Proof.Machine
end

section
/-! R20, R255: whatever the environment answers, a host command that starts with no sub-bus connected leaves none connected, but
after a failed control write (`Calm`), and O13. -/

namespace Sys2Proof.Machine

variable {α β : Type}

/-! ## Calm runs -/

/-- Leave to make every update. -/
abbrev anyUpdate : Kind → Prop := fun _ => True

theorem Harmless.congr {s t : State} {e : Event} (hpresent : t.present = s.present) (hparams : t.params = s.params)
    (h : Harmless s e) : Harmless t e := by
  unfold Harmless at h ⊢
  rw [hpresent, hparams]
  exact h

/-- After a calm run either no sub-bus is connected, and a calm run goes on being one, or a control write has failed, and the
history, which only grows, goes on saying so. -/
theorem Calm.then_moves {s t u : State} (h : Calm s t) (hm : Moves anyUpdate t u) (hc : NoneConnected t → Calm t u) :
    Calm s u := by
  obtain ⟨eparams, -, epresent, -⟩ := hm.fixed
  obtain ⟨es, hes, hnone⟩ := h.hist
  obtain ⟨es', hes'⟩ := hm.hist
  refine ⟨eparams.trans h.params, epresent.trans h.present, hm.wf h.wf, es ++ es', ?_, fun hall => ?_⟩
  · rw [← hes', hes, List.append_assoc]
  · obtain ⟨es'', hes'', hnone'⟩ := (hc (hnone fun e he => hall e (List.mem_append_left _ he))).hist
    have hsame : es' = es'' := List.append_cancel_left (hes'.trans hes'')
    exact hnone' fun e he => (hall e (List.mem_append_right _ (hsame ▸ he))).congr h.present h.params

/-- A run that changes no device register. -/
theorem Calm.of_spares {s t : State} (hm : Moves anyUpdate s t) (hw : Spares [] s t) (hwf : Memory.wf s.mem = true)
    (hn : NoneConnected s) : Calm s t := by
  obtain ⟨eparams, -, epresent, -⟩ := hm.fixed
  obtain ⟨es, hes⟩ := hm.hist
  have hsame : t.connectedCards = s.connectedCards := State.connectedCards_congr epresent fun i => hw.2 _ nofun
  exact ⟨eparams, epresent, hm.wf hwf, es, hes.symm, fun _ => hsame.trans hn⟩

/-- The end of an operation, when it is no stop of the machine, is calm. -/
def EndsCalm (s : State) : EStateM.Result Stop State α → Prop
  | .ok _ t => Calm s t
  | .error (.failed _) t => Calm s t
  | .error (.fault _) _ => True

/-- From a state with no sub-bus connected the operation runs calmly, whatever the environment answers. -/
structure Op.Rests (x : Op α) : Prop where
  moves : x.Moves anyUpdate
  calm : ∀ s : State, Memory.wf s.mem = true → s.params.Valid → NoneConnected s → EndsCalm s (x s)

theorem EndsCalm.from {s t : State} {r : EStateM.Result Stop State α} (h : Calm s t) (hm : Moves anyUpdate t (endState r))
    (hr : NoneConnected t → EndsCalm t r) : EndsCalm s r := by
  cases r with
  | ok v u => exact h.then_moves hm hr
  | error e u =>
    cases e with
    | failed f => exact h.then_moves hm hr
    | fault q => trivial

theorem rests_bind {x : Op α} {f : α → Op β} (hx : x.Rests) (hf : ∀ v, (f v).Rests) : (x >>= f).Rests := by
  refine ⟨moves_bind hx.moves fun v => (hf v).moves, fun s hwf hv hn => ?_⟩
  have h := hx.calm s hwf hv hn
  rw [Op.bind_apply]
  cases hr : x s with
  | ok v t =>
    rw [hr] at h
    have hc : Calm s t := h
    exact EndsCalm.from hc ((hf v).moves t) ((hf v).calm t hc.wf (hc.params ▸ hv))
  | error e t =>
    rw [hr] at h
    cases e with
    | failed f => exact h
    | fault q => trivial

/-- An operation that changes no device register connects no sub-bus. -/
theorem rests_of_writes_nothing {x : Op α} (hm : x.Moves anyUpdate) (hw : x.Writes []) : x.Rests := by
  refine ⟨hm, fun s hwf hv hn => ?_⟩
  have hc : Calm s (endState (x s)) := .of_spares (hm s) (hw s hv) hwf hn
  cases hr : x s with
  | ok v t => rw [hr] at hc; exact hc
  | error e t =>
    rw [hr] at hc
    cases e with
    | failed f => exact hc
    | fault q => trivial

theorem rests_pure (v : α) : (pure v : Op α).Rests := rests_of_writes_nothing (moves_pure v) (writes_pure v)

theorem rests_get : (get : Op State).Rests := rests_of_writes_nothing moves_get writes_get

theorem rests_raise (f : Failure) : (raise f : Op α).Rests := rests_of_writes_nothing (moves_raise f) (writes_raise f)

theorem rests_emit (e : Event) : (emit e).Rests :=
  rests_of_writes_nothing (moves_emit e fun _ => trivial) (writes_emit e)

theorem rests_forEach {body : α → Op Unit} (h : ∀ x, (body x).Rests) (xs : List α) : (forEach xs body).Rests := by
  induction xs with
  | nil => exact rests_pure _
  | cons x xs ih => exact rests_bind (h x) fun _ => ih

theorem rests_allCards {body : Int → Op Unit} (h : ∀ i : CardIx, (body (cardNo i)).Rests) :
    (forEach allCards body).Rests := by
  rw [forEach_allCards]
  exact rests_forEach h _

/-! ## Brackets, construction, shutdown -/

/-- R183, R20. -/
theorem withOpen_endsCalm {body : Op α} {i : CardIx} {s : State} (hs : body.Serves i) (hwf : Memory.wf s.mem = true)
    (hv : s.params.Valid) (hn : NoneConnected s) : EndsCalm s (withOpen (cardNo i) body s) := by
  have h := withOpen_bracketed hwf hv hn hs
  cases hr : withOpen (cardNo i) body s with
  | ok v t =>
    rw [hr] at h
    exact Around.calm h
  | error e t =>
    rw [hr] at h
    cases e with
    | failed f => exact Around.calm h
    | fault q => trivial

theorem rests_withOpen {body : Op α} {i : CardIx} (hs : body.Serves i) (hm : body.Moves anyUpdate) :
    (withOpen (cardNo i) body).Rests :=
  ⟨moves_withOpen _ hm, fun _ hwf hv hn => withOpen_endsCalm hs hwf hv hn⟩

theorem rests_cardConstructOp (i : CardIx) : (cardConstructOp (cardNo i)).Rests := by
  refine ⟨moves_cardConstructOp trivial _, fun s hwf hv hn => ?_⟩
  obtain ⟨b, t, hrun, hc⟩ := cardConstructOp_calm (i := i) hwf hv hn
  rw [hrun]
  exact hc

/-- R193: `CLOSE`'s control byte connects nothing, whether or not its write succeeds. -/
theorem rests_attempt_closeOp (i : CardIx) : (attempt (closeOp (cardNo i))).Rests := by
  refine ⟨moves_attempt (moves_closeOp _), fun s hwf _ hn => ?_⟩
  obtain ⟨t, ok, W, hrun, -, he, -, hW, -, -⟩ := attempt_closeOp s i
  rw [hrun]
  refine ⟨he.params, he.present, he.wf hwf, _, he.hist, fun _ => ?_⟩
  obtain rfl | rfl := hW
  · exact (he.connectedCards (by simp)).trans hn
  · exact he.connected_close hwf (fun j hj => by rw [connectedCards_eq_nil.mp hn j] at hj; cases hj) (by decide)

theorem rests_forgetCard (a : Int) : (forgetCard a).Rests :=
  rests_of_writes_nothing (moves_forgetCard trivial a) (writes_modify fun s => spares_setCard s a _)

theorem rests_shutdownLoop (is : List CardIx) : ∀ failed, (shutdownLoop (is.map cardNo) failed).Rests := by
  induction is with
  | nil => intro failed; exact rests_pure _
  | cons i is ih =>
    intro failed
    refine rests_bind rests_get fun s => ?_
    split
    · exact rests_bind (rests_attempt_closeOp i) fun _ => rests_bind (rests_forgetCard _) fun _ => ih _
    · exact ih _

theorem rests_shutdownOp : shutdownOp.Rests := by
  refine rests_bind (rests_shutdownLoop _ _) fun failed => ?_
  split
  · exact rests_raise _
  · exact rests_pure _

theorem rests_crateConstructOp : crateConstructOp.Rests :=
  rests_bind (rests_allCards fun i => rests_bind (rests_cardConstructOp i) fun _ => rests_pure _) fun _ =>
    rests_bind rests_get fun _ => rests_pure _

theorem rests_getAvailableCardsOp : getAvailableCardsOp.Rests := by
  refine rests_bind rests_get fun s => rests_bind (rests_allCards fun i => ?_) fun _ =>
    rests_bind rests_get fun _ => rests_pure _
  split
  · exact rests_withOpen (serves_pure _) (moves_pure _)
  · refine rests_bind (rests_cardConstructOp i) fun found => ?_
    split
    · exact rests_emit _
    · exact rests_pure _

/-! ## Commands over the live cards, configuration -/

theorem rests_forLiveCards {act : Int → Op Unit} (hs : ∀ i, (act (cardNo i)).Serves i)
    (hm : ∀ a, (act a).Moves anyUpdate) : (forLiveCards act).Rests := by
  refine rests_bind (rests_allCards fun i => rests_bind rests_get fun s => ?_) fun _ => rests_pure _
  split
  · exact rests_withOpen (hs i) (hm _)
  · exact rests_pure _

theorem serves_forChans {i : CardIx} {act : Int → Op Unit} (h : ∀ c, (act (chanNo c)).Serves i) :
    (forChans act).Serves i := by
  rw [forChans, forEach_allChans]
  exact serves_forEach _ fun c _ => h c

theorem serves_disableOutputsAct (zero : Bool) (i : CardIx) : (disableOutputsAct zero (cardNo i)).Serves i := by
  refine serves_bind (serves_forChans fun c => serves_enableChannelOp c 0) fun _ => ?_
  split
  · exact serves_forChans fun c => serves_setLevelMinOp c
  · exact serves_pure _

theorem serves_loadChannelOp (enable : Bool) (i : CardIx) (c : ChanIx) :
    (loadChannelOp enable (cardNo i) (chanNo c)).Serves i :=
  serves_bind serves_get fun _ => serves_bind (serves_setLevelOp c _) fun _ => serves_enableChannelOp c _

/-- R211: `SAVE_CONFIG` writes no device register. -/
theorem rests_saveConfigOp (create : Bool) : (saveConfigOp create).Rests :=
  rests_of_writes_nothing (moves_saveConfigOp trivial create) (writes_saveConfigOp create)

/-! ## The host commands -/

/-- How a host command comes to a next state: refused before its body runs, or by its body's value or failure. -/
theorem runCommand_inv {op : Byte} {ok : Bool} {found : State → Bool} {body : Op Value} {s t : State}
    (ht : runCommand op ok found body s = .next t) :
    (∃ r, t = s.respond r) ∨ ok = true ∧ ((∃ v u, body (s.beginCommand op) = .ok v u ∧ t = u.endCommand op (.ok v)) ∨
      ∃ f u, body (s.beginCommand op) = .error (.failed f) u ∧ t = u.endCommand op (.failed f)) := by
  unfold runCommand at ht
  cases hr : s.running with
  | some o => rw [hr] at ht; cases ht
  | none =>
    rw [hr] at ht
    cases ok with
    | false => cases ht; exact .inl ⟨_, rfl⟩
    | true =>
      cases hf : found s with
      | false => rw [hf] at ht; cases ht; exact .inl ⟨_, rfl⟩
      | true =>
        rw [hf] at ht
        refine .inr ⟨rfl, ?_⟩
        cases hx : body (s.beginCommand op) with
        | ok v u => simp only [hx] at ht; cases ht; exact .inl ⟨v, u, rfl, rfl⟩
        | error e u =>
          cases e with
          | failed f => simp only [hx] at ht; cases ht; exact .inr ⟨f, u, rfl, rfl⟩
          | fault q => simp only [hx] at ht; cases ht

/-- A host command is as calm as its body. -/
theorem runCommand_calm {op : Byte} {ok : Bool} {found : State → Bool} {body : Op Value} {s t : State}
    (hb : ok = true → ∀ u : State, Memory.wf u.mem = true → u.params.Valid → NoneConnected u → EndsCalm u (body u))
    (hwf : Memory.wf s.mem = true) (hv : s.params.Valid) (hn : NoneConnected s)
    (ht : runCommand op ok found body s = .next t) : Calm s t := by
  have hran : ∀ r u, Calm (s.beginCommand op) u → Calm s (u.endCommand op r) := by
    intro r u hc
    obtain ⟨es, hes, hnone⟩ := hc.hist
    refine ⟨hc.params, hc.present, hc.wf, .commandBegins op :: (es ++ [.commandEnds op r.status]), ?_, fun hall => ?_⟩
    · simp [hes]
    · exact hnone fun e he => hall e (List.mem_cons_of_mem _ (List.mem_append_left _ he))
  obtain ⟨r, rfl⟩ | ⟨hok, ⟨v, u, hu, rfl⟩ | ⟨f, u, hu, rfl⟩⟩ := runCommand_inv ht
  · exact ⟨rfl, rfl, hwf, [], (List.append_nil _).symm, fun _ => hn⟩
  · have hc := hb hok (s.beginCommand op) hwf hv hn
    rw [hu] at hc
    exact hran _ u hc
  · have hc := hb hok (s.beginCommand op) hwf hv hn
    rw [hu] at hc
    exact hran _ u hc

/-- Every per-card host command is one bracket, run only if its card is a card number. -/
theorem perCard_named {x : Instr} {a : Int} (h : x.cardNamed = some a) :
    ∃ (ok : Bool) (body : Op Value), (∀ s, exec x s = runPerCard x.opcode ok a body s) ∧ (ok = true → isCardNo a) := by
  have hcard : ∀ {ok : Bool} {chan : Int}, (ok = true → cardChanOk a chan = true) → ok = true → isCardNo a :=
    fun hok ho => (cardChanOk_iff.mp (hok ho)).1
  cases x with
  | crateEnableChannel =>
    cases h; exact ⟨_, _, fun _ => rfl, hcard fun ho => (Bool.and_eq_true_iff.mp ho).2⟩
  | crateEnableTestLoad =>
    cases h; exact ⟨_, _, fun _ => rfl, hcard fun ho => (Bool.and_eq_true_iff.mp ho).2⟩
  | crateIsChannelEnabled => cases h; exact ⟨_, _, fun _ => rfl, hcard id⟩
  | crateSetLevel => cases h; exact ⟨_, _, fun _ => rfl, hcard fun ho => (Bool.and_eq_true_iff.mp ho).1⟩
  | crateGetBusVoltage => cases h; exact ⟨_, _, fun _ => rfl, hcard id⟩
  | crateGetShuntVoltage => cases h; exact ⟨_, _, fun _ => rfl, hcard id⟩
  | crateGetCurrent => cases h; exact ⟨_, _, fun _ => rfl, hcard id⟩
  | seekVoltage => cases h; exact ⟨_, _, fun _ => rfl, hcard fun ho => (Bool.and_eq_true_iff.mp ho).1⟩
  | seekCurrent => cases h; exact ⟨_, _, fun _ => rfl, hcard fun ho => (Bool.and_eq_true_iff.mp ho).1⟩
  | _ => cases h

/-- R183, R20. -/
theorem perCard_calm {x : Instr} {a : Int} {s t : State} (hx : x.cardNamed = some a) (hwf : Memory.wf s.mem = true)
    (hv : s.params.Valid) (hn : NoneConnected s) (ht : exec x s = .next t) : Calm s t := by
  by_cases ha : isCardNo a
  · obtain ⟨k, hk⟩ := cardIx?_isSome ha
    obtain rfl := cardIx?_eq_some.mp hk
    obtain ⟨ok, body, hform, -, hbody⟩ := perCard_form hx
    rw [hform s] at ht
    exact runCommand_calm (fun hok _ => withOpen_endsCalm (hbody hok).serves) hwf hv hn ht
  · obtain ⟨ok, body, hform, hok⟩ := perCard_named hx
    rw [hform s] at ht
    exact runCommand_calm (fun h => absurd (hok h) ha) hwf hv hn ht

/-- R20: every host command is calm. -/
theorem host_calm {x : Instr} {s t : State} (hx : x.isHost = true) (hwf : Memory.wf s.mem = true) (hv : s.params.Valid)
    (hn : NoneConnected s) (ht : exec x s = .next t) : Calm s t := by
  have command : ∀ {op : Byte} {ok : Bool} {found : State → Bool} {body : Op Value}, body.Rests →
      runCommand op ok found body s = .next t → Calm s t := fun hb => runCommand_calm (fun _ => hb.calm) hwf hv hn
  cases x with
  | crateConstruct => exact command rests_crateConstructOp ht
  | shutdown => exact command rests_shutdownOp ht
  | getAvailableCards => exact command rests_getAvailableCardsOp ht
  | crateEnableChannel => exact perCard_calm rfl hwf hv hn ht
  | crateEnableTestLoad => exact perCard_calm rfl hwf hv hn ht
  | crateIsChannelEnabled => exact perCard_calm rfl hwf hv hn ht
  | crateSetLevel => exact perCard_calm rfl hwf hv hn ht
  | crateGetBusVoltage => exact perCard_calm rfl hwf hv hn ht
  | crateGetShuntVoltage => exact perCard_calm rfl hwf hv hn ht
  | crateGetCurrent => exact perCard_calm rfl hwf hv hn ht
  | seekVoltage => exact perCard_calm rfl hwf hv hn ht
  | seekCurrent => exact perCard_calm rfl hwf hv hn ht
  | disableAllOutputs =>
    exact command (rests_forLiveCards (serves_disableOutputsAct _) fun a => moves_disableOutputsAct _ a) ht
  | enableAllOutputs =>
    exact command (rests_forLiveCards (fun _ => serves_forChans fun c => serves_enableChannelOp c 1)
      fun _ => moves_forEach (fun _ => moves_enableChannelOp _ _ _) _) ht
  | maxOutput =>
    exact command (rests_forLiveCards (fun _ => serves_forChans fun c => serves_setLevelMaxOp c)
      fun _ => moves_forEach (fun _ => moves_setLevelMaxOp _ _) _) ht
  | minOutput =>
    exact command (rests_forLiveCards (fun _ => serves_forChans fun c => serves_setLevelMinOp c)
      fun _ => moves_forEach (fun _ => moves_setLevelMinOp _ _) _) ht
  | enableAllTestLoads =>
    exact command (rests_forLiveCards (fun _ => serves_forChans fun c => serves_enableTestLoadOp c 1)
      fun _ => moves_forEach (fun _ => moves_enableTestLoadOp _ _ _) _) ht
  | disableAllTestLoads =>
    exact command (rests_forLiveCards (fun _ => serves_forChans fun c => serves_enableTestLoadOp c 0)
      fun _ => moves_forEach (fun _ => moves_enableTestLoadOp _ _ _) _) ht
  | saveConfig => exact command (rests_saveConfigOp _) ht
  | loadConfig =>
    exact command (rests_forLiveCards (fun i => serves_forChans fun c => serves_loadChannelOp _ i c)
      fun _ => moves_forEach (fun _ => moves_loadChannelOp _ _ _) _) ht
  | _ => cases hx

/-- Settles O13: a host command is calm (`host_calm`), and of its events none is a failed control write of a plugged card. -/
theorem hostCommandLeavesNoneConnected : Obligations.HostCommandLeavesNoneConnected := by
  intro x s t es hx hv hwf hn ht hes hall
  obtain ⟨es', hes', hnone⟩ := (host_calm hx hwf hv hn ht).hist
  obtain rfl : es = es' := List.append_cancel_left (hes.symm.trans hes')
  exact hnone hall

end Sys2Proof.Machine
end

section
/-! The transport (R101, R103, R105, R106): O22, O25, O26. -/

namespace Sys2Proof.Machine

variable {α : Type}

/-! ## An internal operation that is one operation and the making of its value (log 7) -/

theorem runInternal_value {x : Op α} {g : α → Value} {s t : State} {v : α} (h : x s = .ok v t) :
    runInternal (x >>= fun v => pure (g v)) s = .next (t.respond (.ok (g v))) :=
  runInternal_ok (by rw [Op.bind_ok h]; rfl)

theorem runInternal_failure {x : Op α} {g : α → Value} {s t : State} {f : Failure} (h : x s = .error (.failed f) t) :
    runInternal (x >>= fun v => pure (g v)) s = .next (t.respond (.failed f)) :=
  runInternal_failed (Op.bind_error h)

/-- A read that ran by itself changed the history, the answers taken and the response, and nothing else. -/
theorem received_respond (s : State) (t : Txn) (ok : Bool) (bs : List Byte) (r : Response) :
    (s.received t ok bs).respond r = { s.took 1 with hist := s.hist ++ [.bus t ok bs], response := some r } :=
  (effect_received s t ok bs).respond_eq (scratch_received s t ok bs) (received_cards s t ok bs) r

/-! ## `read_byte` and `read_word` -/

theorem readByteOp_fail {s : State} {addr : Int} {d : Target} (hr : s.route addr = .device d)
    (ho : s.nextAnswer.ok = false) :
    readByteOp addr s = .error (.failed .busError) (s.received (.readByte addr) false []) := by
  simp [readByteOp, Op.bind_apply, reach_device hr, transferRead_fail _ _ ho]

theorem exec_readByte_ok {s : State} {addr : Nat} {d : Target} (hr : s.route addr = .device d)
    (ho : s.nextAnswer.ok = true) :
    let b := s.nextAnswer.word.extractLsb' 0 8
    exec (.readByte addr) s = .next { s.took 1 with
      hist := s.hist ++ [.bus (.readByte addr) true [b]], response := some (.ok (.byte b)) } :=
  (runInternal_value (readByteOp_ok hr ho)).trans (congrArg _ (received_respond _ _ _ _ _))

theorem exec_readByte_fail {s : State} {addr : Nat} {d : Target} (hr : s.route addr = .device d)
    (ho : s.nextAnswer.ok = false) :
    exec (.readByte addr) s = .next { s.took 1 with
      hist := s.hist ++ [.bus (.readByte addr) false []], response := some (.failed .busError) } :=
  (runInternal_failure (readByteOp_fail hr ho)).trans (congrArg _ (received_respond _ _ _ _ _))

theorem exec_readWord_ok {s : State} {addr reg : Nat} {i : CardIx} {c : ChanIx} {r : SnsReg} {w : Half}
    (hr : s.route addr = .device (.sense i c)) (hg : snsReg s.params reg = some r)
    (hw : s.snsContent i c s.nextAnswer.word r = w) (ho : s.nextAnswer.ok = true) :
    exec (.readWord addr reg) s = .next { s.took 1 with
      hist := s.hist ++ [.bus (.readWord addr reg) true [w.extractLsb' 8 8, w.extractLsb' 0 8]],
      response := some (.ok (.word (w.extractLsb' 0 8 ++ w.extractLsb' 8 8))) } := by
  subst hw
  exact (runInternal_value (readWordOp_ok hr hg ho)).trans (congrArg _ (received_respond _ _ _ _ _))

theorem exec_readWord_fail {s : State} {addr reg : Nat} {i : CardIx} {c : ChanIx} {r : SnsReg}
    (hr : s.route addr = .device (.sense i c)) (hg : snsReg s.params reg = some r) (ho : s.nextAnswer.ok = false) :
    exec (.readWord addr reg) s = .next { s.took 1 with
      hist := s.hist ++ [.bus (.readWord addr reg) false []], response := some (.failed .busError) } :=
  (runInternal_failure (readWordOp_fail hr hg ho)).trans (congrArg _ (received_respond _ _ _ _ _))

/-- Settles O22: a byte is drawn; a result register's word is drawn, the word of `CFG` and `CAL` is held. -/
theorem readByteAndReadWordReturnDraws : Obligations.ReadByteAndReadWordReturnDraws := by
  intro s addr
  rw [State.answer_zero]
  intro lo reads
  refine ⟨rfl, fun _ => rfl, fun d hr => ⟨exec_readByte_ok hr, exec_readByte_fail hr⟩, fun i c hr => ⟨fun ho => ?_, ?_⟩⟩
  · refine ⟨fun reg hreg hcfg hcal => ?_, fun hv => ⟨?_, ?_⟩⟩
    · obtain ⟨r, hg, hne⟩ := resultReg_of hreg hcfg hcal
      exact exec_readWord_ok hr hg (snsContent_result hne _ _ _ _) ho
    · exact exec_readWord_ok hr snsReg_cfg rfl ho
    · exact exec_readWord_ok hr (snsReg_cal hv) rfl ho
  · intro ho reg hreg
    obtain ⟨r, hg⟩ := Option.isSome_iff_exists.mp (snsReg_isSome_iff.mpr hreg)
    exact exec_readWord_fail hr hg ho

/-! ## `read_block` -/

/-- Settles O26. -/
theorem readBlockReturnsHeldBytes : Obligations.ReadBlockReturnsHeldBytes := by
  intro s addr reg n d ks hr hn hk bs
  rw [State.answer_zero]
  refine ⟨rfl, fun ho => ?_, fun ho => ?_⟩
  · exact (runInternal_value (readBlockOp_ok hr hn hk ho)).trans (congrArg _ (received_respond _ _ _ _ _))
  · exact (runInternal_failure (readBlockOp_fail hr hn hk ho)).trans (congrArg _ (received_respond _ _ _ _ _))

/-! ## `write_block` -/

/-- The sub-registers of one potentiometer chip have cells of their own. -/
theorem potCell_inj {i : CardIx} {k : PotIx} {a b : SubIx} {j j' : Nat} (hj : j < 4) (hj' : j' < 4)
    (h : potCell i k a j = potCell i k b j') : a = b ∧ j = j' := by
  rw [potCell_val, potCell_val] at h
  refine ⟨Fin.ext ?_, ?_⟩ <;> omega

/-- Different registers of one device are different cells. -/
theorem byteCell_inj {p : Params} {d : Target} {reg reg' k : Nat} (h : byteCell p d reg = some k)
    (h' : byteCell p d reg' = some k) : reg = reg' := by
  cases d with
  | switch => cases h
  | sense => cases h
  | pot i c =>
    obtain ⟨a, j, hj, rfl, rfl⟩ := byteCell_pot_some h
    obtain ⟨b, j', hj', rfl, hcell⟩ := byteCell_pot_some h'
    obtain ⟨rfl, rfl⟩ := potCell_inj hj hj' hcell
    rfl
  | expander i =>
    have hne : xpCell i 0 ≠ xpCell i 1 := by rw [xpCell_val, xpCell_val]; simp
    unfold byteCell at h h'
    split_ifs at h h' <;> simp_all

/-- The cell of a block's register. -/
theorem mem_blockCells {p : Params} {d : Target} {n : Nat} : ∀ {reg : Nat} {ks : List Nat},
    blockCells p d reg n = some ks → ∀ k ∈ ks, ∃ r, reg ≤ r ∧ byteCell p d r = some k := by
  induction n with
  | zero =>
    intro reg ks h k hk
    cases h
    cases hk
  | succ n ih =>
    intro reg ks h k hk
    simp only [blockCells] at h
    split at h
    · next k0 ks0 h0 hs =>
      cases h
      obtain rfl | hk := List.mem_cons.mp hk
      · exact ⟨reg, le_rfl, h0⟩
      · obtain ⟨r, hr, hrk⟩ := ih hs k hk
        exact ⟨r, by omega, hrk⟩
    · cases h

/-- R105: consecutive registers are different cells. -/
theorem blockCells_nodup {p : Params} {d : Target} {n : Nat} : ∀ {reg : Nat} {ks : List Nat},
    blockCells p d reg n = some ks → ks.Nodup := by
  induction n with
  | zero =>
    intro reg ks h
    cases h
    exact List.nodup_nil
  | succ n ih =>
    intro reg ks h
    simp only [blockCells] at h
    split at h
    · next k0 ks0 h0 hs =>
      cases h
      refine List.nodup_cons.mpr ⟨fun hmem => ?_, ih hs⟩
      obtain ⟨r, hr, hrk⟩ := mem_blockCells hs k0 hmem
      have hreg := byteCell_inj h0 hrk
      omega
    · cases h

theorem zip_take_cells {ks : List Nat} {bs : List Byte} {m k : Nat} (h : k ∈ ((ks.zip bs).take m).map Prod.fst) : k ∈ ks := by
  obtain ⟨w, hw, rfl⟩ := List.mem_map.mp h
  exact (List.of_mem_zip (List.mem_of_mem_take hw)).1

/-- R63: a leading run of a block's cells takes its new bytes, the rest holds the old ones. -/
theorem map_read_writeAll_take {ks : List Nat} : ∀ {m : List Host.Cell} {bs : List Byte} (n : Nat),
    Memory.wf m = true → ks.Nodup → ks.length = bs.length →
    ks.map (Memory.read (Memory.writeAll m ((ks.zip bs).take n))) = bs.take n ++ (ks.drop n).map (Memory.read m) := by
  induction ks with
  | nil =>
    intro m bs n _ _ hlen
    obtain rfl := List.eq_nil_of_length_eq_zero hlen.symm
    simp
  | cons k ks ih =>
    intro m bs n hwf hnd hlen
    obtain ⟨b, bs, rfl⟩ := List.exists_cons_of_length_eq_add_one hlen.symm
    obtain ⟨hk, hnd⟩ := List.nodup_cons.mp hnd
    cases n with
    | zero => rfl
    | succ n =>
      have hhead : Memory.read (Memory.writeAll (Memory.write m k b) ((ks.zip bs).take n)) k = b := by
        rw [Memory.read_writeAll_other _ fun h => hk (zip_take_cells h), Memory.read_write_same k b hwf]
      have htail : (ks.drop n).map (Memory.read (Memory.write m k b)) = (ks.drop n).map (Memory.read m) :=
        List.map_congr_left fun j hj =>
          Memory.read_write_other m b fun e => hk (e ▸ List.mem_of_mem_drop hj)
      have hrest := ih (m := Memory.write m k b) n (Memory.wf_write k b hwf) hnd (by simpa using hlen)
      rw [htail] at hrest
      simp only [List.zip_cons_cons, List.take_succ_cons, Memory.writeAll, List.map_cons, List.drop_succ_cons,
        List.cons_append, hhead, hrest]

/-- Settles O25: the whole block is written, or the leading run of it that landed. -/
theorem writeBlockSetsRegisters : Obligations.WriteBlockSetsRegisters := by
  intro s addr reg d bs ks hwf _ hr hb hk same
  rw [State.answer_zero]
  have hlen : ks.length = bs.length := blockCells_length hk
  have hnd : ks.Nodup := blockCells_nodup hk
  have hsame : ∀ (ok : Bool) (n : Nat) (r : Response),
      same ok ((s.wrote (.writeBlock addr reg bs) ok ((ks.zip bs).take n)).respond r) := by
    intro ok n r
    have he := (effect_wrote s (.writeBlock addr reg bs) ok ((ks.zip bs).take n)).respond r
    exact ⟨fun k hk => he.read_other fun h => hk (zip_take_cells h), (State.respond_cards _ r).trans (wrote_cards _ _ _ _), he.hist,
      he.sameElsewhere ((scratch_wrote s _ ok _).respond r), he.took⟩
  have hwhole : (ks.zip bs).take bs.length = ks.zip bs := List.take_of_length_le (by simp)
  refine ⟨rfl, fun ho => ⟨_, runInternal_value (writeBlockOp_ok hr hb hk ho), rfl, ?_, ?_⟩,
    fun ho => ⟨_, min s.nextAnswer.landed bs.length, runInternal_failure (writeBlockOp_fail hr hb hk ho), rfl,
      min_le_right _ _, ?_, hsame false _ _⟩⟩
  · have h := map_read_writeAll_take bs.length hwf hnd hlen
    rwa [hwhole, List.take_length, ← hlen, List.drop_length, List.map_nil, List.append_nil] at h
  · have h := hsame true bs.length (.ok .nothing)
    rwa [hwhole] at h
  · have hmin : ks.drop (min s.nextAnswer.landed bs.length) = ks.drop s.nextAnswer.landed := by
      rw [← hlen]
      rcases le_total s.nextAnswer.landed ks.length with h | h
      · rw [min_eq_left h]
      · rw [min_eq_right h, List.drop_length, List.drop_eq_nil_of_le h]
    rw [hmin, ← List.take_take, List.take_length]
    exact map_read_writeAll_take s.nextAnswer.landed hwf hnd hlen

end Sys2Proof.Machine
end

section
/-! The expander and the potentiometers of one open card, run by themselves (R121 to R136): O29, O31, O34, O35. -/

namespace Sys2Proof.Machine

variable {α : Type} {s : State} {i : CardIx} {n : Nat} {ws : List (Nat × Byte)} {es : List Event}
  {cards : Vector Card Config.pb.nCards}

/-! ## An operation run by itself (log 7) -/

theorem Op.Runs.internal {x : Op α} {v : α} (h : x.Runs s v n ws es cards) (g : α → Value) :
    ∃ t, runInternal (x >>= fun v => pure (g v)) s = .next t ∧ t.response = some (.ok (g v)) ∧ Effect s t n ws es ∧
      SameScratch s t ∧ t.cards = cards := by
  obtain ⟨t, hx, he, hs, hc⟩ := h
  exact ⟨_, runInternal_value hx, rfl, he.respond _, hs.respond _, hc⟩

theorem Op.Fails.internal {x : Op α} (h : x.Fails s n ws es cards) (g : α → Value) :
    ∃ t, runInternal (x >>= fun v => pure (g v)) s = .next t ∧ t.response = some (.failed .busError) ∧
      Effect s t n ws es ∧ SameScratch s t ∧ t.cards = cards := by
  obtain ⟨t, hx, he, hs, hc⟩ := h
  exact ⟨_, runInternal_failure hx, rfl, he.respond _, hs.respond _, hc⟩

/-! ## The expander -/

/-- R121 to R124: two masks written, whoever writes them. -/
structure MasksWritten (s : State) (i : CardIx) (m l : Byte) (t : State) : Prop where
  card : t.cards[i] = { s.cards[i] with chen := some m, tsten := some l }
  others : SameCardsBut i s t
  chen : t.devXp i 0 = ~~~m
  tsten : t.devXp i 1 = ~~~l

/-- R19, R63: a write of two masks that failed. -/
structure MasksFailed (s : State) (i : CardIx) (m l : Byte) (t : State) : Prop where
  cards : t.cards = s.cards
  bytes : (t.devXp i 0 = s.devXp i 0 ∧ t.devXp i 1 = s.devXp i 1) ∨ (t.devXp i 0 = ~~~m ∧ t.devXp i 1 = s.devXp i 1) ∨
    (t.devXp i 0 = ~~~m ∧ t.devXp i 1 = ~~~l)

/-- What is left alone by a write of two masks, whether or not it succeeds. -/
structure MasksFrame (s : State) (i : CardIx) (m l : Byte) (ok : Bool) (t : State) : Prop where
  cells : SameCellsBut [xpCell i 0, xpCell i 1] s t
  hist : t.hist = s.hist ++ [.bus (.writeBlock s.params.xpAddr s.params.xpReg [~~~m, ~~~l]) ok []]
  elsewhere : SameElsewhere s t
  took : Took 1 s t

theorem masksWritten {t : State} {m l : Byte} (hr : Ready s i) (he : Effect s t n [(xpCell i 0, ~~~m), (xpCell i 1, ~~~l)] es)
    (hc : t.cards = s.cards.set i { s.cards[i] with chen := some m, tsten := some l }) : MasksWritten s i m l t where
  card := by rw [hc, cards_set_same]
  others j hj := by rw [hc, cards_set_other _ _ hj]
  chen := (devXp_written he hr.1).1
  tsten := (devXp_written he hr.1).2

theorem masksFrame {t : State} {m l : Byte} {ok : Bool} (hw : XpPartial i m l ws)
    (he : Effect s t 1 ws [.bus (.writeBlock s.params.xpAddr s.params.xpReg [~~~m, ~~~l]) ok []]) (hs : SameScratch s t) :
    MasksFrame s i m l ok t where
  cells k hk := he.read_other fun h => hk (by
    obtain rfl | rfl := xpPartial_cells hw k h <;> simp)
  hist := he.hist
  elsewhere := he.sameElsewhere hs
  took := he.took

theorem xpPartial_whole (i : CardIx) (m l : Byte) : XpPartial i m l [(xpCell i 0, ~~~m), (xpCell i 1, ~~~l)] :=
  .inr (.inr rfl)

/-- An operation that writes two masks, run by itself. -/
theorem writesMasks_ok {x : Op Unit} {m l : Byte} (hr : Ready s i)
    (hx : x.Runs s ⟨⟩ 1 [(xpCell i 0, ~~~m), (xpCell i 1, ~~~l)]
      [.bus (.writeBlock s.params.xpAddr s.params.xpReg [~~~m, ~~~l]) true []]
      (s.cards.set i { s.cards[i] with chen := some m, tsten := some l })) :
    ∃ t, runInternal (x >>= fun _ => pure .nothing) s = .next t ∧ t.response = some (.ok .nothing) ∧
      MasksWritten s i m l t ∧ MasksFrame s i m l true t := by
  obtain ⟨t, ht, hres, he, hs, hc⟩ := hx.internal fun _ => .nothing
  exact ⟨t, ht, hres, masksWritten hr he hc, masksFrame (xpPartial_whole i m l) he hs⟩

theorem writesMasks_fails {x : Op Unit} {m l : Byte} (hr : Ready s i) (hw : XpPartial i m l ws)
    (hx : x.Fails s 1 ws [.bus (.writeBlock s.params.xpAddr s.params.xpReg [~~~m, ~~~l]) false []] s.cards) :
    ∃ t, runInternal (x >>= fun _ => pure .nothing) s = .next t ∧ t.response = some (.failed .busError) ∧
      MasksFailed s i m l t ∧ MasksFrame s i m l false t := by
  obtain ⟨t, ht, hres, he, hs, hc⟩ := hx.internal fun _ => .nothing
  exact ⟨t, ht, hres, ⟨hc, devXp_partial he hr.1 hw⟩, masksFrame hw he hs⟩

/-- Settles O29. -/
theorem xpWriteWritesBothMasks : Obligations.XpWriteWritesBothMasks := by
  intro s i m l hr
  rw [State.answer_zero]
  refine ⟨fun ho => ?_, fun ho => ?_⟩
  · obtain ⟨t, ht, hres, hw, hf⟩ := writesMasks_ok hr (xpWriteOp_runs m l hr ho)
    exact ⟨t, ht, hres, hw.chen, hw.tsten, hw.card, hf.cells, hw.others, hf.hist, hf.elsewhere, hf.took⟩
  · obtain ⟨u, ws, hu, hws, he, hs, hc⟩ := xpWriteOp_fails m l hr ho
    obtain ⟨t, ht, hres, hw, hf⟩ := writesMasks_fails hr hws ⟨u, hu, he, hs, hc⟩
    exact ⟨t, ht, hres, hw.cards, hw.bytes, hf.cells, hf.elsewhere, hf.took⟩

/-- Settles O31: `ENABLE_CHANNEL` and `ENABLE_TEST_LOAD` set one bit of their mask and write both. -/
theorem enableSetsOneMaskBit : Obligations.EnableSetsOneMaskBit := by
  intro s i c on m l hr hm hl
  rw [State.answer_zero]
  intro bit same post failed
  have hbit : ∀ b, bit b (setMaskBit b c on) := fun b d => getLsbD_setMaskBit b c d on
  have hpost : ∀ x {m' l'}, (∃ t, exec x s = .next t ∧ t.response = some (.ok .nothing) ∧ MasksWritten s i m' l' t ∧
      MasksFrame s i m' l' true t) → ∃ t, exec x s = .next t ∧ post m' l' t := by
    rintro x m' l' ⟨t, ht, hres, hw, hf⟩
    exact ⟨t, ht, hres, hw.card, hw.others, hw.chen, hw.tsten, hf.cells, hf.hist, hf.elsewhere, hf.took⟩
  have hfailed : ∀ x {m' l'}, (∃ t, exec x s = .next t ∧ t.response = some (.failed .busError) ∧ MasksFailed s i m' l' t ∧
      MasksFrame s i m' l' false t) → ∃ t, exec x s = .next t ∧ failed m' l' t := by
    rintro x m' l' ⟨t, ht, hres, hw, hf⟩
    exact ⟨t, ht, hres, hw.cards, hw.bytes, hf.cells, hf.hist, hf.elsewhere, hf.took⟩
  refine ⟨fun ho => ⟨?_, ?_⟩, fun ho => ⟨?_, ?_⟩⟩
  · obtain ⟨t, ht, hp⟩ := hpost (.enableChannel _ _ _) (writesMasks_ok hr (enableChannelOp_runs c on hr ho hm hl))
    exact ⟨t, _, ht, hbit m, hp⟩
  · obtain ⟨t, ht, hp⟩ := hpost (.enableTestLoad _ _ _) (writesMasks_ok hr (enableTestLoadOp_runs c on hr ho hm hl))
    exact ⟨t, _, ht, hbit l, hp⟩
  · obtain ⟨ws, hws, hx⟩ := enableChannelOp_fails c on hr ho hm hl
    obtain ⟨t, ht, hp⟩ := hfailed (.enableChannel _ _ _) (writesMasks_fails hr hws hx)
    exact ⟨t, _, ht, hbit m, hp⟩
  · obtain ⟨ws, hws, hx⟩ := enableTestLoadOp_fails c on hr ho hm hl
    obtain ⟨t, ht, hp⟩ := hfailed (.enableTestLoad _ _ _) (writesMasks_fails hr hws hx)
    exact ⟨t, _, ht, hbit l, hp⟩

/-! ## The potentiometers -/

/-- R132: a level write of the bytes `bs`: what is left alone, whether or not it succeeds. -/
structure LevelFrame (s : State) (i : CardIx) (c : ChanIx) (bs : List Byte) (ok : Bool) (t : State) : Prop where
  cells : SameCellsBut (potCells i c) s t
  others : SameCardsBut i s t
  hist : t.hist = s.hist ++
    [.bus (.writeBlock (s.params.potAddr[potChip c] : Nat) s.params.potReg[potSub c] bs) ok []]
  elsewhere : SameElsewhere s t
  took : Took 1 s t

theorem getD_four (f : Nat → Byte) (j : Fin 4) : [f 0, f 1, f 2, f 3].getD j.val 0 = f j.val := by
  fin_cases j <;> rfl

/-- The four bytes of a channel's write, given one by one. -/
def fourBytes (byte : Nat → Byte) : List Byte := [byte 0, byte 1, byte 2, byte 3]

/-- R133 to R135: after a level operation run by itself whose write succeeded. -/
structure LevelWritten (s : State) (i : CardIx) (c : ChanIx) (u : Nat) (byte : Nat → Byte) (t : State) : Prop where
  response : t.response = some (.ok .nothing)
  bytes : ∀ j : Fin 4, t.devPot i c j.val = byte j.val
  card : t.cards[i] = { s.cards[i] with level := s.cards[i].level.set c (some u) }
  frame : LevelFrame s i c (fourBytes byte) true t

/-- R19, R63: after a level operation run by itself whose write failed. -/
structure LevelFailed (s : State) (i : CardIx) (c : ChanIx) (byte : Nat → Byte) (t : State) : Prop where
  response : t.response = some (.failed .busError)
  bytes : ∃ m ≤ 4, ∀ j : Fin 4, t.devPot i c j.val = if j.val < m then byte j.val else s.devPot i c j.val
  card : t.cards[i] = s.cards[i]
  frame : LevelFrame s i c (fourBytes byte) false t

theorem setsLevel_ok {x : Op Unit} {c : ChanIx} {u : Nat} {byte : Nat → Byte} (hr : Ready s i)
    (hx : x.Runs s ⟨⟩ 1 ((potCells i c).zip (fourBytes byte))
      [.bus (.writeBlock (s.params.potAddr[potChip c] : Nat) s.params.potReg[potSub c] (fourBytes byte)) true []]
      (s.cards.set i { s.cards[i] with level := s.cards[i].level.set c (some u) })) :
    ∃ t, runInternal (x >>= fun _ => pure .nothing) s = .next t ∧ LevelWritten s i c u byte t := by
  obtain ⟨t, ht, hres, he, hs, hc⟩ := hx.internal fun _ => .nothing
  refine ⟨t, ht, hres, fun j => (devPot_written he hr.1 j).trans (getD_four byte j), by rw [hc, cards_set_same],
    fun k hk => ?_, fun j hj => ?_, he.hist, he.sameElsewhere hs, he.took⟩
  · exact he.read_other fun h => hk (zip_take_cells (m := 4) (by rwa [List.take_of_length_le (by simp [potCells])]))
  · rw [hc, cards_set_other _ _ hj]

theorem setsLevel_fails {x : Op Unit} {c : ChanIx} {k : Nat} {byte : Nat → Byte} (hr : Ready s i)
    (hx : x.Fails s 1 (((potCells i c).zip (fourBytes byte)).take k)
      [.bus (.writeBlock (s.params.potAddr[potChip c] : Nat) s.params.potReg[potSub c] (fourBytes byte)) false []]
      s.cards) :
    ∃ t, runInternal (x >>= fun _ => pure .nothing) s = .next t ∧ LevelFailed s i c byte t := by
  obtain ⟨t, ht, hres, he, hs, hc⟩ := hx.internal fun _ => .nothing
  obtain ⟨m, hm, hdev⟩ := devPot_partial he hr.1
  refine ⟨t, ht, hres, ⟨m, hm, fun j => ?_⟩, by rw [hc], fun k hk => ?_, fun j _ => by rw [hc], he.hist,
    he.sameElsewhere hs, he.took⟩
  · rw [hdev j, getD_four]
  · exact he.read_other fun h => hk (zip_take_cells h)

/-- R78: the bytes of a level, one by one. -/
theorem potBytes_eq {v : Nat} (hv : v ≤ 1023) (f : Nat → Byte) (hf : ∀ j, f j =
    if j < v / 256 then 0xFF#8 else if j = v / 256 then BitVec.ofNat 8 (v % 256) else 0x00#8) :
    potBytes v = fourBytes f := by
  have hlen : (potBytes v).length = 4 := by
    rw [← patternBytes_potPattern ⟨v, by omega⟩]
    exact patternBytes_length _
  refine List.ext_getElem (by simpa [fourBytes] using hlen) fun j hj hj' => ?_
  have hj4 : j < 4 := by omega
  have h : (potBytes v).getD j 0 = (fourBytes f).getD j 0 :=
    (getD_potBytes hv ⟨j, hj4⟩).trans ((hf j).symm.trans (getD_four f ⟨j, hj4⟩).symm)
  rwa [List.getD_eq_getElem _ _ hj, List.getD_eq_getElem _ _ hj'] at h

/-- Settles O34: three operations that write one pattern each. -/
theorem setLevelWritesPattern : Obligations.SetLevelWritesPattern := by
  intro s i c v hv hr
  rw [State.answer_zero]
  intro same runs
  have hlevel : (0 : Int) ≤ v ∧ (v : Int) ≤ 1023 := by omega
  have hruns : ∀ x u byte, (s.nextAnswer.ok = true → ∃ t, exec x s = .next t ∧ LevelWritten s i c u byte t) →
      (s.nextAnswer.ok = false → ∃ t, exec x s = .next t ∧ LevelFailed s i c byte t) → runs x u byte := by
    intro x u byte hok hfail
    refine ⟨fun ho => ?_, fun ho => ?_⟩
    · obtain ⟨t, ht, hw⟩ := hok ho
      obtain ⟨hcells, hothers, hhist, helse, htook⟩ := hw.frame
      exact ⟨t, ht, hw.response, hw.bytes, hw.card, hcells, hothers, hhist, helse, htook⟩
    · obtain ⟨t, ht, hw⟩ := hfail ho
      obtain ⟨hcells, hothers, hhist, helse, htook⟩ := hw.frame
      exact ⟨t, ht, hw.response, hw.bytes, hw.card, hcells, hothers, hhist, helse, htook⟩
  refine ⟨hruns (.setLevel _ _ _) v (fun j => if j < v / 256 then _ else if j = v / 256 then _ else _)
      (fun ho => ?_) fun ho => ?_,
    hruns (.setLevelMin _ _) 0 (fun _ => 0x00#8) (fun ho => setsLevel_ok hr (setLevelMinOp_runs c hr ho)) fun ho => ?_,
    hruns (.setLevelMax _ _) 1023 (fun _ => 0xFF#8) (fun ho => setsLevel_ok hr (setLevelMaxOp_runs c hr ho)) fun ho => ?_⟩
  · have hx := setLevelOp_runs c hlevel hr ho
    rw [Int.toNat_natCast, potBytes_eq hv _ fun _ => rfl] at hx
    exact setsLevel_ok hr hx
  · obtain ⟨k, hx⟩ := setLevelOp_fails c hlevel hr ho
    rw [Int.toNat_natCast, potBytes_eq hv _ fun _ => rfl] at hx
    exact setsLevel_fails hr hx
  · obtain ⟨k, hx⟩ := setLevelMinOp_fails c hr ho
    exact setsLevel_fails hr hx
  · obtain ⟨k, hx⟩ := setLevelMaxOp_fails c hr ho
    exact setsLevel_fails hr hx

/-- Settles O35. -/
theorem readLevelSumsBytes : Obligations.ReadLevelSumsBytes := by
  intro s i c hr
  rw [State.answer_zero]
  intro v event
  refine ⟨fun ho => ?_, fun ho => ?_⟩
  · obtain ⟨t, ht, hres, he, hs, hc⟩ := (readLevelOp_runs c hr ho).internal fun n => .int n
    exact ⟨t, ht, hres, by rw [hc, cards_set_same]; rfl, he.mem, fun j hj => by rw [hc, cards_set_other _ _ hj], he.hist,
      he.sameElsewhere hs, he.took⟩
  · obtain ⟨t, ht, he, hs, hc⟩ := readLevelOp_fails c hr ho
    exact (runInternal_failure ht).trans (congrArg _ (he.respond_eq hs hc _))

end Sys2Proof.Machine
end

section
/-! A per-card host command that fails: at its `OPEN`, or past it (R183, R228): O49, O50. -/

namespace Sys2Proof.Machine

variable {α : Type} {s : State} {i : CardIx}

/-! ## A failed `OPEN` -/

/-- `OPEN` fails, the card pulled or the write failed: at most the control byte has changed. -/
theorem openOp_fails_or_absent (h : s.present[i] = false ∨ s.nextAnswer.ok = false) :
    ∃ t ws, openOp (cardNo i) s = .error (.failed .busError) t ∧
      (ws = [] ∨ s.present[i] = true ∧ ws = [(swCell i, openByte s.params)]) ∧
      Effect s t (if s.present[i] then 1 else 0) ws
        [.bus (.writeByte (s.params.isoBase + cardNo i) (openByte s.params)) false []] ∧
      SameScratch s t ∧ t.cards = s.cards := by
  cases hp : s.present[i] with
  | false =>
    obtain ⟨t, hrun, he, hs, hc⟩ := openOp_absent hp
    exact ⟨t, [], hrun, .inl rfl, he, hs, hc⟩
  | true =>
    obtain ⟨t, ws, hrun, hws, he, hs, hc⟩ := openOp_fails hp (h.resolve_left (by rw [hp]; decide))
    exact ⟨t, ws, hrun, hws.imp id fun e => ⟨rfl, e⟩, he, hs, hc⟩

/-- A per-card command that passes its checks runs its bracket, and ends with the bracket's value or failure. -/
theorem perCard_runs {x : Instr} (hx : x.cardNamed = some (cardNo i)) (hargs : ¬x.BadHostArgs) :
    ∃ body : Op Value, CardBody i x.isSeek body ∧ ∀ s, exec x s = runPerCard x.opcode true (cardNo i) body s := by
  obtain ⟨ok, body, hform, hok, hbody⟩ := perCard_form hx
  obtain rfl := hok.mpr hargs
  exact ⟨body, hbody rfl, hform⟩

/-- Settles O49. -/
theorem failedOpenEndsCommand : Obligations.FailedOpenEndsCommand := by
  intro x i s hx hargs hready hl hfail
  obtain ⟨hwf, -, hbetween, -, -⟩ := hready
  obtain ⟨body, -, hform⟩ := perCard_runs hx hargs
  rw [State.answer_zero] at hfail
  obtain ⟨t, ws, hrun, hws, he, -, hc⟩ := openOp_fails_or_absent (s := s.beginCommand x.opcode) hfail
  obtain ⟨he', hs'⟩ := endCommand_effect hbetween he (.failed .busError)
  refine ⟨_, (hform s).trans (runPerCard_failed hbetween.1 hl (bracket_acquire_fails hrun)), rfl, hc, he'.hist, ?_, ?_,
    he'.sameElsewhere hs', he'.took⟩
  · intro k hk
    refine he'.read_other fun hmem => hk ?_
    obtain rfl | ⟨-, rfl⟩ := hws
    · cases hmem
    · exact hmem
  · obtain rfl | ⟨hp, rfl⟩ := hws
    · exact .inl (he'.read_other nofun)
    · exact .inr ⟨hp, he'.read_mem hwf (List.nodup_singleton _) (List.mem_singleton.mpr rfl)⟩

/-! ## Past the `OPEN`: the `CLOSE` is always written -/

theorem isFailedWriteByte_of_no_write {e : Event} (h : e.isWriteByte = false) : e.isFailedWriteByte = false := by
  cases e with
  | bus t ok bs =>
    cases t with
    | writeByte => cases h
    | _ => rfl
  | _ => rfl

/-- R12: an operation that starts between commands leaves everything but the cards, the devices, the history and the answers as
it was, if it is not `SAVE_CONFIG`. -/
theorem exec_sameElsewhere {x : Instr} {s t : State} (hb : BetweenCommands s) (ht : exec x s = .next t)
    (hx : ∀ f, x ≠ .saveConfig f) : SameElsewhere s t := by
  obtain ⟨hparams, hpresent, hinbox, hcfg, -, -⟩ := operationsKeepWhatTheyMayNotWrite x s t ht
  obtain ⟨hrun', hacc', hcnt', hiter', hlevel'⟩ := exec_betweenCommands hb ht
  obtain ⟨hrun, hacc, hcnt, hiter, hlevel⟩ := hb
  exact ⟨hparams, hrun'.trans hrun.symm, hcfg hx, hacc'.trans hacc.symm, hcnt'.trans hcnt.symm, hiter'.trans hiter.symm,
    hlevel'.trans hlevel.symm, hpresent, hinbox⟩

/-- The response `r` is how the bracket ended, in the state `t`. -/
def Answers (x : EStateM.Result Stop State Value) (r : Response) (t : State) : Prop :=
  match r with
  | .ok v => x = .ok v t
  | .failed f => x = .error (.failed f) t

theorem runPerCard_answers {op : Byte} {body : Op Value} {r : Response} {t : State} (hr : s.running = none)
    (hl : s.cards[i].live = true) (h : Answers (withOpen (cardNo i) body (s.beginCommand op)) r t) :
    runPerCard op true (cardNo i) body s = .next (t.endCommand op r) := by
  cases r with
  | ok v => exact runPerCard_ok hr hl h
  | failed f => exact runPerCard_failed hr hl h

/-- R228: what the response says of the body's events `es` and of the `CLOSE`. -/
structure Reports (seek closed : Bool) (es : List Event) (r : Response) : Prop where
  bodyFailed : es.any Event.isFailedBus = true → r = .failed .busError
  bothDone : es.any Event.isFailedBus = false → closed = true →
    r ≠ .failed .busError ∧ (seek = false → ∃ v, r = .ok v)
  closeFailed : es.any Event.isFailedBus = false → closed = false →
    (∀ v, r ≠ .ok v) ∧ (seek = false → r = .failed .busError)

/-- R183, R228: the bracket of a per-card command whose `OPEN` succeeded answers, and its response tells how it went. -/
theorem withOpen_answers {seek : Bool} {body : Op Value} (hb : CardBody i seek body) (hwf : Memory.wf s.mem = true)
    (hv : s.params.Valid) (hn : NoneConnected s) (hp : s.present[i] = true) (ho : s.nextAnswer.ok = true)
    (hc : s.cards[i].Complete) :
    ∃ t es closed r, Answers (withOpen (cardNo i) body s) r t ∧ Reports seek closed es r ∧ BodyEvents es ∧ Around i s t ∧
      t.hist = s.hist ++ switchEvent s.params i (openByte s.params) :: (es ++ [closeEvent s.params i closed]) ∧
      t.cards[i].iso = some (if closed then .closed else .opened) ∧
      (t.devSw i = closeByte ∨ closed = false ∧ t.devSw i = openByte s.params) := by
  obtain ⟨t, es, closed, hends, hes, hhist, hiso, hsw, hfail, hok⟩ := withOpen_told hwf hv hn hp ho hc hb.serves hb.tells
  have haround := withOpen_bracketed hwf hv hn hb.serves
  cases hx : withOpen (cardNo i) body s with
  | ok v u =>
    rw [hx] at hends haround
    obtain ⟨rfl, rfl, hnone⟩ := hends
    refine ⟨u, es, true, .ok v, rfl, ⟨fun h => ?_, fun _ _ => ⟨nofun, fun _ => ⟨v, rfl⟩⟩, fun _ h => ?_⟩, hes, haround, hhist,
      hiso, hsw⟩
    · rw [hnone] at h
      cases h
    · cases h
  | error e u =>
    rw [hx] at hends haround hfail hok
    cases e with
    | fault q => exact hends.elim
    | failed f =>
      obtain ⟨rfl, hbus, hother⟩ := hends
      refine ⟨u, es, closed, .failed f, rfl, ⟨fun h => congrArg _ (hbus h), fun h h' => ⟨fun e => ?_, fun hs => ?_⟩,
        fun h h' => ⟨nofun, fun hs => ?_⟩⟩, hes, haround, hhist, hiso, hsw⟩
      · injection e with e
        exact hother h h' e
      · obtain ⟨v, w, hvw⟩ := hok (hb.only hs) h h'
        cases hvw
      · obtain ⟨w, hw⟩ := hfail (hb.only hs) h h'
        cases hw
        rfl

/-- R20: a bracket whose two control writes both succeeded leaves no sub-bus connected. -/
theorem Around.noneConnected {t : State} {es : List Event} {b : Byte} (h : Around i s t)
    (hhist : t.hist = s.hist ++ switchEvent s.params i b :: (es ++ [closeEvent s.params i true])) (hes : BodyEvents es) :
    NoneConnected t := by
  obtain ⟨es', hes', hnone⟩ := h.hist
  obtain rfl := List.append_cancel_left (hes'.symm.trans hhist)
  refine hnone fun e he => .inl ?_
  obtain rfl | he := List.mem_cons.mp he
  · rfl
  · obtain he | he := List.mem_append.mp he
    · exact isFailedWriteByte_of_no_write (hes.noSwitch e he)
    · rw [List.mem_singleton.mp he]
      rfl

theorem not_saveConfig_of_cardNamed {x : Instr} {a : Int} (h : x.cardNamed = some a) (f : Byte) : x ≠ .saveConfig f := by
  rintro rfl
  cases h

/-! ## `CRATE_ENABLE_CHANNEL`, its block write failed -/

/-- `CLOSE` of a plugged card, whatever the environment answers. -/
theorem closeOp_either (hp : s.present[i] = true) :
    ∃ t ws, (if s.nextAnswer.ok then closeOp (cardNo i) s = .ok ⟨⟩ t else closeOp (cardNo i) s = .error (.failed .busError) t) ∧
      Effect s t 1 ws [closeEvent s.params i s.nextAnswer.ok] ∧ SameScratch s t ∧
      (ws = [] ∨ ws = [(swCell i, closeByte)]) ∧ (s.nextAnswer.ok = true → ws = [(swCell i, closeByte)]) ∧
      t.cards = if s.nextAnswer.ok then s.cards.set i { s.cards[i] with iso := some .closed } else s.cards := by
  cases ho : s.nextAnswer.ok with
  | true =>
    obtain ⟨t, hrun, he, hs, hc⟩ := closeOp_runs hp ho
    exact ⟨t, _, hrun, he, hs, .inr rfl, fun _ => rfl, hc⟩
  | false =>
    obtain ⟨t, ws, hrun, hws, he, hs, hc⟩ := closeOp_fails hp ho
    exact ⟨t, ws, hrun, he, hs, hws, nofun, hc⟩

/-- R228: after a body that failed the `CLOSE`'s own failure is dropped. -/
theorem withOpen_body_fails {body : Op α} {t u : State} {f : Failure} (ho : openOp (cardNo i) s = .ok ⟨⟩ t)
    (hb : body t = .error (.failed f) u) (hp : u.present[i] = true) :
    ∃ w ws, withOpen (cardNo i) body s = .error (.failed f) w ∧ Effect u w 1 ws [closeEvent u.params i u.nextAnswer.ok] ∧
      SameScratch u w ∧ (ws = [] ∨ ws = [(swCell i, closeByte)]) ∧ (u.nextAnswer.ok = true → ws = [(swCell i, closeByte)]) ∧
      w.cards = if u.nextAnswer.ok then u.cards.set i { u.cards[i] with iso := some .closed } else u.cards := by
  obtain ⟨w, ws, hw, hrest⟩ := closeOp_either hp
  refine ⟨w, ws, ?_, hrest⟩
  cases hok : u.nextAnswer.ok with
  | true =>
    rw [hok] at hw
    exact bracket_body_fails ho hb hw
  | false =>
    rw [hok] at hw
    exact bracket_both_fail ho hb hw

/-- R184, R19: the bracket of `CRATE_ENABLE_CHANNEL` when its block write, the second transaction, fails. -/
theorem withOpen_enableChannel_fails (c : ChanIx) (on : Bool) {m l : Byte} (hwf : Memory.wf s.mem = true)
    (hv : s.params.Valid) (hn : NoneConnected s) (hp : s.present[i] = true) (hm : s.cards[i].chen = some m)
    (hl : s.cards[i].tsten = some l) (h0 : s.nextAnswer.ok = true) (h1 : (s.answer 1).ok = false) :
    ∃ w ws e, withOpen (cardNo i) (do enableChannelOp (cardNo i) (chanNo c) (byteOfBool on); pure Value.nothing) s =
        .error (.failed .busError) w ∧
      Effect s w 3 ws [switchEvent s.params i (openByte s.params), e, closeEvent s.params i (s.answer 2).ok] ∧
      (∀ k ∈ ws.map Prod.fst, k ∈ [swCell i, xpCell i 0, xpCell i 1]) ∧
      w.cards = s.cards.set i { s.cards[i] with iso := some (if (s.answer 2).ok then .closed else .opened) } ∧
      ((s.answer 2).ok = true → w.devSw i = 0x60#8 ∧ NoneConnected w) := by
  obtain ⟨t, hopen, he, -, hc⟩ := openOp_runs hp h0
  have hr : Ready t i := ready_of_open hwf hv hn hp he hc
  have hcard : t.cards[i] = { s.cards[i] with iso := some .opened } := by rw [hc, cards_set_same]
  have ht1 : t.nextAnswer.ok = false := by rw [he.nextAnswer]; exact h1
  obtain ⟨xs, hxs, u, hu, hxu, -, hcu⟩ := enableChannelOp_fails c on hr ht1 (m := m) (l := l) (by rw [hcard]; exact hm)
    (by rw [hcard]; exact hl)
  have heu := he.trans hxu
  have hru : Ready u i := hr.step hxu (no_switch_of_cells (xpPartial_on hxs)) (by rw [hcu])
  obtain ⟨w, cs, hw, hew, -, hcs, hclosed, hcw⟩ :=
    withOpen_body_fails hopen (Op.bind_error hu) (f := .busError) (by rw [heu.present]; exact hp)
  rw [heu.nextAnswer] at hew hcw hclosed
  rw [heu.params] at hew
  refine ⟨w, _, _, hw, heu.trans hew, fun k hk => ?_, ?_, fun h2 => ?_⟩
  · have hk' : k = swCell i ∨ k ∈ xs.map Prod.fst := by
      obtain rfl | rfl := hcs <;> simpa [or_comm, or_assoc] using hk
    obtain rfl | hk' := hk'
    · simp
    · obtain rfl | rfl := xpPartial_cells hxs k hk' <;> simp
  · rw [hcw, hcu, hc, cards_set_set, cards_set_same]
    cases (s.answer 2).ok <;> rfl
  · obtain rfl := hclosed h2
    exact ⟨hew.read_mem hru.1 (List.nodup_singleton _) (List.mem_singleton.mpr rfl),
      hew.connected_close hru.1 hru.2.2.1.eq (by decide)⟩

/-- Settles O50: the bracket tells (`withOpen_answers`), and of `CRATE_ENABLE_CHANNEL` the failed write besides. -/
theorem failedBodyStillCloses : Obligations.FailedBodyStillCloses := by
  refine ⟨fun x i s hx hargs hready hl hp ho => ?_, fun s i c on hready hl hp h0 h1 => ?_⟩
  · obtain ⟨hwf, hv, hbetween, hn, hcomplete⟩ := hready
    obtain ⟨body, hbody, hform⟩ := perCard_runs hx hargs
    obtain ⟨t, es, closed, r, hans, hrep, hes, haround, hhist, hiso, hsw⟩ :=
      withOpen_answers (s := s.beginCommand x.opcode) hbody hwf hv hn hp (by rwa [State.answer_zero] at ho) (hcomplete i hl)
    have hexec : exec x s = .next (t.endCommand x.opcode r) :=
      (hform s).trans (runPerCard_answers hbetween.1 hl hans)
    refine ⟨_, es, closed, r, hexec, rfl, ?_, hes.noSwitch, hes.upToLast, hrep.bodyFailed,
      fun h => ⟨hrep.bothDone h, hrep.closeFailed h⟩, ?_, ?_, haround.live.trans hl, haround.cards, haround.cells,
      exec_sameElsewhere hbetween hexec (not_saveConfig_of_cardNamed hx)⟩
    · rw [State.endCommand_hist, hhist]
      simp [closeEvent, closeByte]
    · rintro rfl
      exact ⟨hiso, hsw.resolve_right (fun h => by cases h.1), haround.noneConnected hhist hes⟩
    · rintro rfl
      exact ⟨hiso, hsw.symm.imp (fun h => h.2) id⟩
  · obtain ⟨hwf, hv, hbetween, hn, hcomplete⟩ := hready
    obtain ⟨-, hchen, htsten, -⟩ := hcomplete i hl
    obtain ⟨m, hm⟩ := Option.isSome_iff_exists.mp hchen
    obtain ⟨l, hl'⟩ := Option.isSome_iff_exists.mp htsten
    obtain ⟨w, ws, e, hw, he, hcells, hc, hclosed⟩ := withOpen_enableChannel_fails (s := s.beginCommand 0x90#8) c on
      hwf hv hn hp hm hl' (by rwa [State.answer_zero] at h0) h1
    obtain ⟨he', hs'⟩ := endCommand_effect hbetween he (.failed .busError)
    have hargs : (isFlag (byteOfBool on) && cardChanOk (cardNo i) (chanNo c)) = true := by
      rw [isFlag_byteOfBool, cardChanOk_numbers]
      rfl
    have hexec : exec (.crateEnableChannel (cardNo i) (chanNo c) (byteOfBool on)) s =
        .next (w.endCommand 0x90#8 (.failed .busError)) := by
      change runPerCard 0x90#8 (isFlag (byteOfBool on) && cardChanOk (cardNo i) (chanNo c)) _ _ s = _
      rw [hargs]
      exact runPerCard_failed hbetween.1 hl hw
    have hcard : (w.endCommand 0x90#8 (.failed .busError)).cards[i] =
        { s.cards[i] with iso := some (if (s.answer 2).ok then .closed else .opened) } := by
      rw [State.endCommand_cards, hc, cards_set_same]
      rfl
    refine ⟨_, hexec, rfl, by rw [hcard], by rw [hcard], by rw [hcard], ⟨_, _, _, _, he'.hist⟩, fun h2 => ?_,
      fun k hk => he'.read_other fun h => hk (hcells k h), fun j hj => ?_, he'.sameElsewhere hs', he'.took⟩
    · rw [hcard]
      exact ⟨by rw [if_pos h2], hclosed h2⟩
    · rw [State.endCommand_cards, hc, cards_set_other _ _ hj]
      rfl

end Sys2Proof.Machine
end

section
/-! What an operation on an open card's devices does up to its first failed transaction (`Op.Transacts`), and O42: the
construction of a card that fails at any of its 27 transactions (R161, R162). -/

namespace Sys2Proof.Machine

variable {α β : Type} {s t u : State} {i : CardIx}

/-! ## Transactions on an open card, up to the first that fails -/

/-- From `s` to `t`, `n` transactions with card `i`'s devices but its switch, whose events are `es`; nothing of another card has
changed, nor the record of the switch. -/
structure OnCard (i : CardIx) (s t : State) (n : Nat) (es : List Event) : Prop where
  run : ∃ ws, Effect s t n ws es ∧ ∀ k ∈ ws.map Prod.fst, CardCell i k ∧ k ≠ swCell i
  scratch : SameScratch s t
  others : SameCardsBut i s t
  iso : t.cards[i].iso = s.cards[i].iso

theorem OnCard.refl (i : CardIx) (s : State) : OnCard i s s 0 [] :=
  ⟨⟨[], Effect.refl s, nofun⟩, SameScratch.refl s, fun _ _ => rfl, rfl⟩

theorem OnCard.trans {m n : Nat} {es es' : List Event} (h : OnCard i s t m es) (h' : OnCard i t u n es') :
    OnCard i s u (m + n) (es ++ es') := by
  obtain ⟨ws, he, hws⟩ := h.run
  obtain ⟨ws', he', hws'⟩ := h'.run
  refine ⟨⟨ws ++ ws', he.trans he', fun k hk => ?_⟩, h.scratch.trans h'.scratch,
    fun j hj => (h'.others j hj).trans (h.others j hj), h'.iso.trans h.iso⟩
  rw [List.map_append] at hk
  exact (List.mem_append.mp hk).elim (hws k) (hws' k)

theorem OnCard.ready {n : Nat} {es : List Event} (h : OnCard i s t n es) (hr : Ready s i) : Ready t i := by
  obtain ⟨ws, he, hws⟩ := h.run
  exact hr.step he (no_switch_of_cells hws) h.iso

theorem OnCard.of_effect {n : Nat} {ws : List (Nat × Byte)} {es : List Event} {c : Card} (he : Effect s t n ws es)
    (hs : SameScratch s t) (hw : ∀ k ∈ ws.map Prod.fst, CardCell i k ∧ k ≠ swCell i) (hc : t.cards = s.cards.set i c)
    (hiso : c.iso = s.cards[i].iso) : OnCard i s t n es :=
  ⟨⟨ws, he, hw⟩, hs, fun j hj => by rw [hc, cards_set_other _ _ hj], by rw [hc, cards_set_same, hiso]⟩

theorem cards_set_self (v : Vector Card Config.pb.nCards) (i : CardIx) : v.set i v[i] = v := by
  refine cards_ext fun j => ?_
  by_cases h : j = i
  · rw [h, cards_set_same]
  · rw [cards_set_other _ _ h]

/-- On an open card the operation makes `n` transactions, and comes to its end exactly if they all succeed; the first that fails
ends it with `BusError`. -/
def Op.Transacts (i : CardIx) (n : Nat) (x : Op α) : Prop :=
  ∀ s, Ready s i →
    (NoBusError n s → ∃ v t es, x s = .ok v t ∧ OnCard i s t n es ∧ DoneEvents n es) ∧
    ∀ k < n, FirstBusError k s → ∃ t done e, x s = .error (.failed .busError) t ∧ OnCard i s t (k + 1) (done ++ [e]) ∧
      DoneEvents k done ∧ e.isFailedBus = true

theorem transacts_pure (v : α) : (pure v : Op α).Transacts i 0 := fun s _ =>
  ⟨fun _ => ⟨v, s, [], rfl, .refl i s, doneEvents_nil⟩, fun _ hk => absurd hk (Nat.not_lt_zero _)⟩

theorem transacts_get : (get : Op State).Transacts i 0 := fun s _ =>
  ⟨fun _ => ⟨s, s, [], rfl, .refl i s, doneEvents_nil⟩, fun _ hk => absurd hk (Nat.not_lt_zero _)⟩

theorem transacts_modifyCard {f : Card → Card} (hf : ∀ c, (f c).iso = c.iso) :
    (modifyCard (cardNo i) f).Transacts i 0 := by
  refine fun s _ => ⟨fun _ => ⟨⟨⟩, _, [], modifyCard_apply _ _ _, ?_, doneEvents_nil⟩,
    fun _ hk => absurd hk (Nat.not_lt_zero _)⟩
  rw [State.card_cardNo]
  exact .of_effect (effect_setCard s _ _) (scratch_setCard s _ _) nofun (setCard_cards s (cardIx?_cardNo i) _) (hf _)

/-- The first failure of a run of transactions is in its first part or in its second. -/
theorem transacts_bind {m n : Nat} {x : Op α} {f : α → Op β} (hx : x.Transacts i m) (hf : ∀ v, (f v).Transacts i n) :
    (x >>= f).Transacts i (m + n) := by
  have first : ∀ {s : State} {k : Nat}, Ready s i → m ≤ k → NoBusError k s → ∃ v t es, x s = .ok v t ∧
      OnCard i s t m es ∧ DoneEvents m es := fun hr hk hb => (hx _ hr).1 (hb.mono hk)
  refine fun s hr => ⟨fun hb => ?_, fun k hk hfirst => ?_⟩
  · obtain ⟨v, t, es, hxs, hon, hes⟩ := first hr (Nat.le_add_right m n) hb
    obtain ⟨ws, he, -⟩ := hon.run
    obtain ⟨w, u, es', hfs, hon', hes'⟩ := (hf v t (hon.ready hr)).1 ((hb.after he (by omega)).mono (by omega))
    exact ⟨w, u, es ++ es', (Op.bind_ok hxs).trans hfs, hon.trans hon', hes.append hes'⟩
  · by_cases hkm : k < m
    · obtain ⟨t, done, e, hxs, hrest⟩ := (hx s hr).2 k hkm hfirst
      exact ⟨t, done, e, Op.bind_error hxs, hrest⟩
    · obtain ⟨v, t, es, hxs, hon, hes⟩ := first hr (Nat.le_of_not_lt hkm) hfirst.1
      obtain ⟨ws, he, -⟩ := hon.run
      obtain ⟨u, done, e, hfs, hon', hdone, hfail⟩ :=
        (hf v t (hon.ready hr)).2 (k - m) (by omega) (hfirst.after he (by omega))
      refine ⟨u, es ++ done, e, (Op.bind_ok hxs).trans hfs, ?_, ?_, hfail⟩
      · have h := hon.trans hon'
        rwa [show m + (k - m + 1) = k + 1 by omega, ← List.append_assoc] at h
      · have h := hes.append hdone
        rwa [show m + (k - m) = k by omega] at h

theorem transacts_forEach {n : Nat} {body : α → Op Unit} (h : ∀ x, (body x).Transacts i n) (xs : List α) :
    (forEach xs body).Transacts i (n * xs.length) := by
  induction xs with
  | nil => exact transacts_pure _
  | cons x xs ih =>
    have hx := transacts_bind (h x) fun _ => ih
    rwa [show n + n * xs.length = n * (x :: xs).length by rw [List.length_cons]; ring] at hx

theorem transacts_allChans {n : Nat} {body : Int → Op Unit} (h : ∀ c, (body (chanNo c)).Transacts i n) :
    (forEach allChans body).Transacts i (n * 8) := by
  rw [forEach_allChans]
  exact transacts_forEach h (List.finRange Config.pb.nChan)

/-! ## Discovery (R161) -/

/-- An operation of one transaction. -/
theorem transacts_one {x : Op α}
    (hok : ∀ s, Ready s i → s.nextAnswer.ok = true → ∃ v ws e c, x.Runs s v 1 ws [e] (s.cards.set i c) ∧
      (∀ k ∈ ws.map Prod.fst, CardCell i k ∧ k ≠ swCell i) ∧ c.iso = s.cards[i].iso ∧ DoneEvents 1 [e])
    (hfail : ∀ s, Ready s i → s.nextAnswer.ok = false → ∃ ws e, x.Fails s 1 ws [e] s.cards ∧
      (∀ k ∈ ws.map Prod.fst, CardCell i k ∧ k ≠ swCell i) ∧ e.isFailedBus = true) : x.Transacts i 1 := by
  refine fun s hr => ⟨fun hb => ?_, fun k hk hfirst => ?_⟩
  · obtain ⟨v, ws, e, c, ⟨t, hx, he, hs, hc⟩, hws, hiso, hes⟩ := hok s hr (hb.next Nat.one_pos)
    exact ⟨v, t, [e], hx, .of_effect he hs hws hc hiso, hes⟩
  · obtain rfl : k = 0 := by omega
    have ho := hfirst.2
    rw [State.answer_zero] at ho
    obtain ⟨ws, e, ⟨t, hx, he, hs, hc⟩, hws, hf⟩ := hfail s hr ho
    exact ⟨t, [], e, hx, .of_effect he hs hws (hc.trans (cards_set_self _ i).symm) rfl, doneEvents_nil, hf⟩

theorem transacts_xpReadOp : (xpReadOp (cardNo i)).Transacts i 1 :=
  transacts_one (fun _ hr ho => ⟨_, _, _, _, xpReadOp_runs hr ho, nofun, rfl, doneEvents_one _ _⟩)
    fun _ hr ho => ⟨_, _, xpReadOp_fails hr ho, nofun, rfl⟩

theorem transacts_readLevelOp (c : ChanIx) : (readLevelOp (cardNo i) (chanNo c)).Transacts i 1 :=
  transacts_one (fun _ hr ho => ⟨_, _, _, _, readLevelOp_runs c hr ho, nofun, rfl, doneEvents_one _ _⟩)
    fun _ hr ho => ⟨_, _, readLevelOp_fails c hr ho, nofun, rfl⟩

/-- The cells of a sense chip's configuration and calibration are card `i`'s, and no switch. -/
theorem senseCells_on {p : Params} {c : ChanIx} {k : Nat}
    (hk : k ∈ (calWrites p i c ++ cfgWrites p i c).map Prod.fst) : CardCell i k ∧ k ≠ swCell i := by
  have h := senseWrites_cells (p := p) (i := i) (cs := [c]) (k := k) (by simpa [senseWrites] using hk)
  rw [cardCell_iff, swCell_val]
  omega

theorem senseCells_of_part {p : Params} {c : ChanIx} {ws : List (Nat × Byte)}
    (h : ∀ w ∈ ws, w ∈ calWrites p i c ++ cfgWrites p i c) :
    ∀ k ∈ ws.map Prod.fst, CardCell i k ∧ k ≠ swCell i := by
  intro k hk
  obtain ⟨w, hw, rfl⟩ := List.mem_map.mp hk
  exact senseCells_on (List.mem_map_of_mem (h w hw))

/-- R140: the calibration write and then the configuration write. -/
theorem transacts_senseInitOp (c : ChanIx) : (senseInitOp (cardNo i) (chanNo c)).Transacts i 2 := by
  refine fun s hr => ⟨fun hb => ?_, fun k hk hfirst => ?_⟩
  · obtain ⟨t, hx, he, hs, hc⟩ := senseInitOp_runs c hr hb
    exact ⟨_, t, _, hx, .of_effect he hs (fun _ => senseCells_on) (hc.trans (cards_set_self _ i).symm) rfl,
      (doneEvents_one _ _).append (doneEvents_one _ _)⟩
  · obtain rfl | rfl : k = 0 ∨ k = 1 := by omega
    · have ho := hfirst.2
      rw [State.answer_zero] at ho
      obtain ⟨ws, hws, t, hx, he, hs, hc⟩ := senseInitOp_fails_first c hr ho
      refine ⟨t, [], _, hx, .of_effect he hs (senseCells_of_part (p := s.params) (c := c) fun w hw => ?_)
        (hc.trans (cards_set_self _ i).symm) rfl, doneEvents_nil, rfl⟩
      obtain rfl | rfl := hws
      · cases hw
      · exact List.mem_append_left _ hw
    · obtain ⟨ws, hws, t, hx, he, hs, hc⟩ := senseInitOp_fails_second c hr hfirst
      refine ⟨t, [calEvent s.params c], _, hx, .of_effect he hs (senseCells_of_part (p := s.params) (c := c) fun w hw => ?_)
        (hc.trans (cards_set_self _ i).symm) rfl, doneEvents_one _ _, rfl⟩
      obtain rfl | rfl := hws
      · exact List.mem_append_left _ (by simpa using hw)
      · exact hw

/-- R161: the discovery section is 25 transactions. -/
theorem transacts_discoverOp : (discoverOp (cardNo i)).Transacts i 25 :=
  transacts_bind transacts_xpReadOp fun _ =>
    transacts_bind (transacts_allChans (n := 1) (body := fun ch => do let _ ← readLevelOp (cardNo i) ch) fun c =>
        transacts_bind (transacts_readLevelOp c) fun _ => transacts_pure ()) fun _ =>
      transacts_bind (transacts_allChans transacts_senseInitOp) fun _ => transacts_bind transacts_get fun u =>
        transacts_modifyCard
          (f := fun c => { c with curdiv := some u.params.curdiv, pwrmul := some u.params.pwrmul }) fun _ => rfl

/-! ## Construction (R161, R162) -/

/-- The state in which `CARD_CONSTRUCT` makes its first transaction. -/
def State.constructing (s : State) (i : CardIx) : State :=
  s.setCard (cardNo i) { s.card (cardNo i) with iso := some .closed }

/-- R161 `ABSENT0`: the state with card `i` forgotten. -/
def State.forgetting (s : State) (i : CardIx) : State := s.setCard (cardNo i) Card.blank

theorem setIso_constructing (s : State) (i : CardIx) : setIso (cardNo i) .closed s = .ok ⟨⟩ (s.constructing i) :=
  modifyCard_apply _ _ _

theorem forgetCard_forgetting (s : State) (i : CardIx) : forgetCard (cardNo i) s = .ok ⟨⟩ (s.forgetting i) := rfl

theorem cardConstructOp_open_fails (ho : openOp (cardNo i) (s.constructing i) = .error (.failed .busError) t) :
    cardConstructOp (cardNo i) s = .ok false (t.forgetting i) := by
  unfold cardConstructOp
  rw [Op.bind_ok (setIso_constructing s i), Op.bind_ok (attempt_busError ho), if_neg Bool.false_ne_true,
    Op.bind_ok (forgetCard_forgetting t i), Op.pure_apply]

theorem cardConstructOp_discovery_fails {w : State} {closed : Bool}
    (ho : openOp (cardNo i) (s.constructing i) = .ok ⟨⟩ t) (hd : discoverOp (cardNo i) t = .error (.failed .busError) u)
    (hc : attempt (closeOp (cardNo i)) u = .ok closed w) : cardConstructOp (cardNo i) s = .ok false (w.forgetting i) := by
  unfold cardConstructOp
  rw [Op.bind_ok (setIso_constructing s i), Op.bind_ok (attempt_ok ho), if_pos rfl, Op.bind_ok (attempt_busError hd),
    if_neg Bool.false_ne_true, Op.bind_ok hc, Op.bind_ok (forgetCard_forgetting w i), Op.pure_apply]

theorem cardConstructOp_close_fails {w : State} (ho : openOp (cardNo i) (s.constructing i) = .ok ⟨⟩ t)
    (hd : discoverOp (cardNo i) t = .ok ⟨⟩ u) (hc : closeOp (cardNo i) u = .error (.failed .busError) w) :
    cardConstructOp (cardNo i) s = .ok false (w.forgetting i) := by
  unfold cardConstructOp
  rw [Op.bind_ok (setIso_constructing s i), Op.bind_ok (attempt_ok ho), if_pos rfl, Op.bind_ok (attempt_ok hd), if_pos rfl,
    Op.bind_ok (attempt_busError hc), if_neg Bool.false_ne_true, Op.bind_ok (forgetCard_forgetting w i), Op.pure_apply]

/-- From `s` to `t` card `i` was found absent: `n` answers taken, the events `es`, and nothing of another card changed. -/
structure FoundAbsent (i : CardIx) (s t : State) (n : Nat) (es : List Event) : Prop where
  run : ∃ ws, Effect s t n ws es ∧ ∀ k ∈ ws.map Prod.fst, CardCell i k
  scratch : SameScratch s t
  others : SameCardsBut i s t
  card : t.cards[i] = Card.blank

theorem FoundAbsent.forget {n : Nat} {ws : List (Nat × Byte)} {es : List Event}
    (he : Effect (s.constructing i) t n ws es) (hs : SameScratch (s.constructing i) t)
    (hw : ∀ k ∈ ws.map Prod.fst, CardCell i k) (hc : SameCardsBut i (s.constructing i) t) :
    FoundAbsent i s (t.forgetting i) n es where
  run := by
    have h := ((effect_setCard s (cardNo i) { s.card (cardNo i) with iso := some .closed }).trans he).trans
      (effect_setCard t (cardNo i) Card.blank)
    rw [List.append_nil, List.append_nil, List.nil_append, List.nil_append, Nat.zero_add, Nat.add_zero] at h
    exact ⟨ws, h, hw⟩
  scratch := (scratch_setCard s _ _).trans (hs.trans (scratch_setCard t _ _))
  others j hj := by
    rw [State.forgetting, setCard_cards _ (cardIx?_cardNo i), cards_set_other _ _ hj, hc j hj, State.constructing,
      setCard_cards _ (cardIx?_cardNo i), cards_set_other _ _ hj]
  card := by rw [State.forgetting, setCard_cards _ (cardIx?_cardNo i), cards_set_same]

/-- R161: construction writes neither masks nor potentiometers, whatever the environment answers. -/
theorem construct_writes_no {x : Nat} (hx : x < 128 * i.val + 64) (hx' : 128 * i.val < x) :
    ∀ r ∈ [RegKind.switch, RegKind.snsCal, RegKind.snsCfg], ¬r.Cell x := by
  intro r hr hcell
  simp only [List.mem_cons, List.not_mem_nil, or_false] at hr
  obtain rfl | rfl | rfl := hr
  · obtain ⟨j, rfl⟩ := hcell
    rw [swCell_val] at hx hx'
    omega
  · obtain ⟨j, c, hc⟩ := hcell
    have hlt := c.lt
    rw [snsCalCell_val] at hc
    omega
  · obtain ⟨j, c, hc⟩ := hcell
    have hlt := c.lt
    rw [snsCfgCell_val] at hc
    omega

theorem cardConstructOp_keeps {a : Int} {v : Bool} (hv : s.params.Valid) (h : cardConstructOp a s = .ok v t) :
    (∀ j : Fin 2, t.devXp i j = s.devXp i j) ∧ ∀ (c : ChanIx) (j : Fin 4), t.devPot i c j.val = s.devPot i c j.val := by
  have hw : Spares [RegKind.switch, RegKind.snsCal, RegKind.snsCfg] s (endState (cardConstructOp a s)) :=
    writes_cardConstructOp (by simp) (by simp) (by simp) a s hv
  rw [h] at hw
  refine ⟨fun j => hw.2 _ (construct_writes_no (i := i) ?_ ?_), fun c j => hw.2 _ (construct_writes_no (i := i) ?_ ?_)⟩
  · rw [xpCell_val]; omega
  · rw [xpCell_val]; omega
  · rw [potCell_eq]; have hlt := c.lt; omega
  · rw [potCell_eq]; omega

theorem constructing_answer (s : State) (i : CardIx) (k : Nat) : (s.constructing i).answer k = s.answer k := by
  rw [State.constructing, (effect_setCard s (cardNo i) _).answer, Nat.zero_add]

theorem forgetting_devSw (s : State) (i j : CardIx) : (s.forgetting i).devSw j = s.devSw j := by
  rw [State.devSw, State.forgetting, State.setCard_mem]
  rfl

theorem forgetting_noneConnected (h : NoneConnected t) : NoneConnected (t.forgetting i) :=
  ((effect_setCard t (cardNo i) Card.blank).connectedCards (by simp)).trans h

theorem switch_cells {ws : List (Nat × Byte)} {b : Byte} (h : ws = [] ∨ ws = [(swCell i, b)]) :
    ∀ k ∈ ws.map Prod.fst, CardCell i k := by
  obtain rfl | rfl := h
  · nofun
  · intro k hk
    obtain rfl := List.mem_singleton.mp hk
    exact cardCell_swCell i

theorem construction_cells {ws cs : List (Nat × Byte)} {b b' : Byte}
    (hws : ∀ k ∈ ws.map Prod.fst, CardCell i k ∧ k ≠ swCell i) (hcs : cs = [] ∨ cs = [(swCell i, b')]) :
    ∀ k ∈ ([(swCell i, b)] ++ ws ++ cs).map Prod.fst, CardCell i k := by
  intro k hk
  rw [List.map_append, List.map_append, List.mem_append, List.mem_append] at hk
  obtain (hk | hk) | hk := hk
  · exact switch_cells (.inr rfl) k hk
  · exact (hws k hk).1
  · exact switch_cells hcs k hk

/-- The `OPEN` of the construction fails. -/
theorem construct_fails_at_open (hp : s.present[i] = true) (h : (s.answer 0).ok = false) :
    ∃ t, cardConstructOp (cardNo i) s = .ok false t ∧
      FoundAbsent i s t 1 [.bus (.writeByte (s.params.isoBase + cardNo i) (openByte s.params)) false []] := by
  have he0 : Effect s (s.constructing i) 0 [] [] := effect_setCard _ _ _
  have ho : (s.constructing i).nextAnswer.ok = false := by rw [← State.answer_zero, constructing_answer]; exact h
  obtain ⟨t, ws, hrun, hws, he, hs, hc⟩ := openOp_fails (i := i) (by rw [he0.present]; exact hp) ho
  rw [he0.params] at he hws
  exact ⟨_, cardConstructOp_open_fails hrun, .forget he hs (switch_cells hws) fun j _ => by rw [hc]⟩

/-- The `OPEN` of the construction succeeds. -/
theorem construct_opens (hwf : Memory.wf s.mem = true) (hv : s.params.Valid) (hn : NoneConnected s)
    (hp : s.present[i] = true) (h : (s.answer 0).ok = true) :
    ∃ t, openOp (cardNo i) (s.constructing i) = .ok ⟨⟩ t ∧ Ready t i ∧
      Effect (s.constructing i) t 1 [(swCell i, openByte s.params)] [switchEvent s.params i (openByte s.params)] ∧
      SameScratch (s.constructing i) t ∧ SameCardsBut i (s.constructing i) t := by
  have he0 : Effect s (s.constructing i) 0 [] [] := effect_setCard _ _ _
  have ho : (s.constructing i).nextAnswer.ok = true := by rw [← State.answer_zero, constructing_answer]; exact h
  obtain ⟨t, hrun, he, hs, hc⟩ := openOp_runs (i := i) (by rw [he0.present]; exact hp) ho
  have hr : Ready t i := ready_of_open (he0.wf hwf) (by rw [he0.params]; exact hv)
    ((he0.connectedCards (by simp)).trans hn) (by rw [he0.present]; exact hp) he hc
  rw [he0.params] at he
  exact ⟨t, hrun, hr, he, hs, fun j hj => by rw [hc, cards_set_other _ _ hj]⟩

/-- A transaction of the discovery fails, the `k`-th of the construction: the card is closed if the `CLOSE` after it succeeds. -/
theorem construct_fails_in_discovery {k : Nat} (hwf : Memory.wf s.mem = true) (hv : s.params.Valid) (hn : NoneConnected s)
    (hp : s.present[i] = true) (hk : 1 ≤ k ∧ k < 26) (hfirst : FirstBusError k s) :
    ∃ t done e, cardConstructOp (cardNo i) s = .ok false t ∧
      FoundAbsent i s t (k + 2) (done ++ [e] ++ [closeEvent s.params i (s.answer (k + 1)).ok]) ∧ DoneEvents k done ∧
      e.isFailedBus = true ∧ ((s.answer (k + 1)).ok = true → t.devSw i = 0x60#8 ∧ NoneConnected t) := by
  obtain ⟨t, hopen, hr, he, hs, hc⟩ := construct_opens hwf hv hn hp (hfirst.1 ⟨0, by omega⟩)
  have hfirst0 : FirstBusError k (s.constructing i) := by
    simpa only [FirstBusError, NoBusError, constructing_answer] using hfirst
  obtain ⟨u, done, e, hdisc, hon, hdone, hfail⟩ :=
    (transacts_discoverOp t hr).2 (k - 1) (by omega) (hfirst0.after he hk.1)
  obtain ⟨ws, heu, hws⟩ := hon.run
  have hru : Ready u i := hon.ready hr
  have hetu := he.trans heu
  have hpu : u.present[i] = true := by rw [hetu.present, State.constructing, State.setCard_present]; exact hp
  have hpar : u.params = s.params := by rw [hetu.params, State.constructing, State.setCard_params]
  have hans : u.nextAnswer = s.answer (k + 1) := by
    rw [hetu.nextAnswer, constructing_answer, show 1 + (k - 1 + 1) = k + 1 by omega]
  obtain ⟨w, closed, cs, hclose, hclosed, hew, hsw, hcs, hcs', hcw⟩ := attempt_closeOp u i
  rw [hpu, hans, Bool.true_and] at hclosed
  rw [if_pos hpu, hpar, hclosed] at hew
  have hall := hetu.trans hew
  rw [show 1 + (k - 1 + 1) + 1 = k + 2 by omega, ← List.append_assoc [_] done] at hall
  refine ⟨w.forgetting i, switchEvent s.params i (openByte s.params) :: done, e,
    cardConstructOp_discovery_fails hopen hdisc hclose,
    .forget hall (hs.trans (hon.scratch.trans hsw)) (construction_cells hws hcs)
      fun j hj => (hcw j hj).trans ((hon.others j hj).trans (hc j hj)), ?_, hfail, fun h => ?_⟩
  · have h := (event_switch_done s.params i (openByte s.params)).append hdone
    rwa [show 1 + (k - 1) = k by omega] at h
  · obtain rfl := hcs' (hclosed.trans h)
    rw [forgetting_devSw]
    exact ⟨hew.read_mem hru.1 (List.nodup_singleton _) (List.mem_singleton.mpr rfl),
      forgetting_noneConnected (hew.connected_close hru.1 hru.2.2.1.eq (by decide))⟩

/-- The `CLOSE` of the construction, its last transaction, fails. -/
theorem construct_fails_at_close (hwf : Memory.wf s.mem = true) (hv : s.params.Valid) (hn : NoneConnected s)
    (hp : s.present[i] = true) (hfirst : FirstBusError 26 s) :
    ∃ t done, cardConstructOp (cardNo i) s = .ok false t ∧
      FoundAbsent i s t 27 (done ++ [closeEvent s.params i false]) ∧ DoneEvents 26 done := by
  obtain ⟨t, hopen, hr, he, hs, hc⟩ := construct_opens hwf hv hn hp (hfirst.1 ⟨0, by omega⟩)
  have hfirst0 : FirstBusError 26 (s.constructing i) := by
    simpa only [FirstBusError, NoBusError, constructing_answer] using hfirst
  obtain ⟨v, u, es, hdisc, hon, hes⟩ := (transacts_discoverOp t hr).1 (hfirst0.1.after he (by omega))
  obtain ⟨ws, heu, hws⟩ := hon.run
  have hetu := he.trans heu
  have hpu : u.present[i] = true := by rw [hetu.present, State.constructing, State.setCard_present]; exact hp
  have hpar : u.params = s.params := by rw [hetu.params, State.constructing, State.setCard_params]
  have ho : u.nextAnswer.ok = false := by rw [hetu.nextAnswer, constructing_answer]; exact hfirst.2
  obtain ⟨w, cs, hclose, hcs, hew, hsw, hcw⟩ := closeOp_fails hpu ho
  rw [hpar] at hew
  refine ⟨w.forgetting i, switchEvent s.params i (openByte s.params) :: es,
    cardConstructOp_close_fails hopen hdisc hclose,
    .forget (hetu.trans hew) (hs.trans (hon.scratch.trans hsw)) (construction_cells hws hcs)
      fun j hj => (by rw [hcw] : w.cards[j] = u.cards[j]).trans ((hon.others j hj).trans (hc j hj)),
    (event_switch_done s.params i (openByte s.params)).append hes⟩

/-- The construction of a plugged card, transaction `k` of the 27 the first to fail: its `OPEN`, one of the discovery, which
alone is followed by a `CLOSE`, or its `CLOSE`. -/
theorem construct_fails {k : Nat} (hwf : Memory.wf s.mem = true) (hv : s.params.Valid) (hn : NoneConnected s)
    (hp : s.present[i] = true) (hk : k < 27) (hfirst : FirstBusError k s) :
    let releases := decide (1 ≤ k ∧ k < 26)
    let closed := releases && (s.answer (k + 1)).ok
    ∃ t done e, cardConstructOp (cardNo i) s = .ok false t ∧
      FoundAbsent i s t (k + 1 + if releases then 1 else 0)
        (done ++ [e] ++ if releases then [closeEvent s.params i closed] else []) ∧
      DoneEvents k done ∧ e.isFailedBus = true ∧
      (k = 0 → e = .bus (.writeByte (s.params.isoBase + cardNo i) (openByte s.params)) false []) ∧
      (k = 26 → e = closeEvent s.params i false) ∧ (closed = true → t.devSw i = 0x60#8 ∧ NoneConnected t) := by
  intro releases closed
  by_cases hmid : 1 ≤ k ∧ k < 26
  · have hrel : releases = true := decide_eq_true hmid
    have hcl : closed = (s.answer (k + 1)).ok := by rw [show closed = (releases && _) from rfl, hrel, Bool.true_and]
    obtain ⟨t, done, e, hrun, hf, hdone, hfail, hclosed⟩ := construct_fails_in_discovery hwf hv hn hp hmid hfirst
    rw [hrel, hcl]
    exact ⟨t, done, e, hrun, hf, hdone, hfail, fun h => by omega, fun h => by omega, hclosed⟩
  · have hrel : releases = false := decide_eq_false hmid
    have hcl : closed = false := by rw [show closed = (releases && _) from rfl, hrel, Bool.false_and]
    rw [hrel, hcl]
    obtain rfl | rfl : k = 0 ∨ k = 26 := by omega
    · obtain ⟨t, hrun, hf⟩ := construct_fails_at_open hp hfirst.2
      exact ⟨t, [], _, hrun, hf, doneEvents_nil, rfl, fun _ => rfl, fun h => by omega, nofun⟩
    · obtain ⟨t, done, hrun, hf, hdone⟩ := construct_fails_at_close hwf hv hn hp hfirst
      exact ⟨t, done, _, hrun, by simpa using hf, hdone, rfl, fun h => by omega, fun _ => rfl, nofun⟩

/-- Settles O42. -/
theorem cardConstructAbsent : Obligations.CardConstructAbsent := by
  intro s i post
  have hexec : ∀ {t n es}, cardConstructOp (cardNo i) s = .ok false t → FoundAbsent i s t n es →
      exec (.cardConstruct (cardNo i)) s = .next (t.respond (.ok (.bool false))) ∧ post (t.respond (.ok (.bool false))) := by
    intro t n es hrun hf
    obtain ⟨ws, he, -⟩ := hf.run
    exact ⟨runInternal_value hrun, rfl, hf.card, hf.others, he.sameElsewhere hf.scratch⟩
  refine ⟨fun hp => ?_, fun hwf hv hn hp k hk hfirst => ?_⟩
  · obtain ⟨t, hrun, he, hs, hc⟩ := cardConstructOp_absent hp
    have hf : FoundAbsent i s t 0 _ := ⟨⟨[], he, nofun⟩, hs, fun j hj => by rw [hc, cards_set_other _ _ hj],
      by rw [hc, cards_set_same]⟩
    obtain ⟨hx, hpost⟩ := hexec hrun hf
    exact ⟨_, hx, hpost, he.mem, he.hist, he.took⟩
  · intro releases closed
    obtain ⟨t, done, e, hrun, hf, hdone, hfail, hopen, hclose, hclosed⟩ := construct_fails hwf hv hn hp hk hfirst
    obtain ⟨hx, hpost⟩ := hexec hrun hf
    obtain ⟨ws, he, hws⟩ := hf.run
    obtain ⟨hxp, hpot⟩ := cardConstructOp_keeps (i := i) hv hrun
    exact ⟨_, done, e, hx, hpost, hdone.1, hdone.2, hfail, hopen, hclose, he.hist, hclosed,
      fun x hx => he.read_other fun h => hx (hws x h), hxp, hpot, he.took⟩

end Sys2Proof.Machine
end

section
/-! `GET_AVAILABLE_CARDS` (R192, R232): what the probe of each address does, where the pass stands after the first `k` addresses,
and the first failed probe of a live card: O44. -/

namespace Sys2Proof.Machine

variable {s t u : State} {i : CardIx}

/-! ## How many transactions the pass has made -/

/-- How many of the first `k` addresses satisfy `q`. -/
def amongBelow (q : CardIx → Bool) (k : Nat) : Nat := ((List.finRange Config.pb.nCards).take k).countP q

theorem countP_eq_amongBelow (q : CardIx → Bool) (i : CardIx) :
    ((List.finRange Config.pb.nCards).countP fun j => decide (j < i) && q j) = amongBelow q i.val := by
  refine countP_below (rest := (List.finRange Config.pb.nCards).drop (i.val + 1)) ?_ q
  have hdrop := List.drop_eq_getElem_cons (l := List.finRange Config.pb.nCards) (i := i.val) (by simpa using i.lt)
  rw [List.getElem_finRange] at hdrop
  exact (congrArg _ hdrop.symm).trans (List.take_append_drop _ _)

theorem amongBelow_succ (q : CardIx → Bool) (i : CardIx) :
    amongBelow q (i.val + 1) = amongBelow q i.val + if q i then 1 else 0 := by
  have hget : (List.finRange Config.pb.nCards)[i.val]? = some i := by
    rw [List.getElem?_eq_getElem (by simpa using i.lt), List.getElem_finRange]
    rfl
  unfold amongBelow
  rw [List.take_add_one, List.countP_append, hget]
  simp [List.countP_cons]

theorem amongBelow_mono (q : CardIx → Bool) {a b : Nat} (h : a ≤ b) : amongBelow q a ≤ amongBelow q b :=
  (List.take_sublist_take_left h).countP_le

/-- R192: card `i` is plugged and not live. -/
def State.isNew (s : State) (i : CardIx) : Bool := s.present[i] && !s.cards[i].live

/-- The transactions of a pass up to address `k`: 2 for each live card, 27 for each new one. -/
def State.probes (s : State) (k : Nat) : Nat := 2 * s.liveAmong k + 27 * amongBelow s.isNew k

/-- The transactions of one probe. -/
def State.probesOf (s : State) (i : CardIx) : Nat := if s.cards[i].live then 2 else if s.present[i] then 27 else 0

theorem probes_succ (s : State) (i : CardIx) : s.probes (i.val + 1) = s.probes i.val + s.probesOf i := by
  unfold State.probes State.probesOf
  rw [liveAmong_succ, amongBelow_succ, State.isNew]
  cases s.cards[i].live <;> cases s.present[i] <;> simp <;> omega

theorem probes_mono (s : State) {a b : Nat} (h : a ≤ b) : s.probes a ≤ s.probes b :=
  Nat.add_le_add (Nat.mul_le_mul_left _ (liveAmong_mono s h)) (Nat.mul_le_mul_left _ (amongBelow_mono _ h))

theorem probesOf_le (s : State) (i : CardIx) : s.probesOf i ≤ 27 := by
  unfold State.probesOf
  split
  · omega
  · split <;> omega

theorem probes_le (s : State) : ∀ k ≤ 18, s.probes k ≤ 27 * k
  | 0, _ => by simp [State.probes, State.liveAmong, amongBelow]
  | k + 1, hk => by
    have h := probes_succ s ⟨k, hk⟩
    have h1 := probesOf_le s ⟨k, hk⟩
    have h2 := probes_le s k (by omega)
    simp only at h
    omega

/-! ## The probe of one address -/

/-- The card a successful probe of address `i` leaves. -/
def State.refreshed (s : State) (i : CardIx) : Card :=
  if s.cards[i].live then { s.cards[i] with iso := some .closed }
  else if s.present[i] then { discovered s i s.cards[i] with live := true, iso := some .closed }
  else Card.blank

theorem live_case (hl : s.cards[i].live = true) :
    s.probesOf i = 2 ∧ s.refreshed i = { s.cards[i] with iso := some .closed } ∧ s.isNew i = false :=
  ⟨if_pos hl, if_pos hl, by rw [State.isNew, hl, Bool.not_true, Bool.and_false]⟩

theorem new_case (hl : s.cards[i].live = false) (hp : s.present[i] = true) :
    s.probesOf i = 27 ∧ s.refreshed i = { discovered s i s.cards[i] with live := true, iso := some .closed } ∧
      s.isNew i = true := by
  have hnl : ¬s.cards[i].live = true := by rw [hl]; decide
  exact ⟨(if_neg hnl).trans (if_pos hp), (if_neg hnl).trans (if_pos hp), by rw [State.isNew, hl, hp]; rfl⟩

theorem absent_case (hl : s.cards[i].live = false) (hp : s.present[i] = false) :
    s.probesOf i = 0 ∧ s.refreshed i = Card.blank ∧ s.isNew i = false := by
  have hnl : ¬s.cards[i].live = true := by rw [hl]; decide
  have hnp : ¬s.present[i] = true := by rw [hp]; decide
  exact ⟨(if_neg hnl).trans (if_neg hnp), (if_neg hnl).trans (if_neg hnp), by rw [State.isNew, hp, Bool.false_and]⟩

/-- The probe of address `i` from `t`, in a pass that began in `s`. -/
structure Probed (s : State) (i : CardIx) (t u : State) : Prop where
  run : ∃ ws es, Effect t u (s.probesOf i) ws es ∧ (∀ x ∈ ws.map Prod.fst, CardCell i x) ∧
    ∀ j : CardIx, .cardDiscovered (cardNo j) ∈ es ↔ j = i ∧ s.isNew i = true
  scratch : SameScratch t u
  cards : u.cards = t.cards.set i (s.refreshed i)
  closed : NoneConnected u

/-- The body of the pass (R192), `known` the cards that were live when it began. -/
def refreshOne (known : List Int) (a : Int) : Op Unit := do
  if known.contains a then withOpen a (pure ())
  else if ← cardConstructOp a then emit (.cardDiscovered a)

theorem getAvailableCardsOp_apply (s : State) :
    getAvailableCardsOp s = (do forEach allCards (refreshOne s.liveCards); pure (Value.cards (← get).liveCards)) s := rfl

theorem cardNo_inj {i j : CardIx} : cardNo i = cardNo j ↔ i = j :=
  ⟨fun h => Option.some_inj.mp (by rw [← cardIx?_cardNo i, h, cardIx?_cardNo]), congrArg _⟩

theorem liveCards_contains (s : State) (i : CardIx) : s.liveCards.contains (cardNo i) = s.cards[i].live := by
  have hall : cardNo i ∈ allCards := List.mem_map_of_mem (List.mem_finRange i)
  rw [Bool.eq_iff_iff, List.contains_iff_mem, State.liveCards, List.mem_filter, State.live, State.card_cardNo]
  exact ⟨fun h => h.2, fun h => ⟨hall, h⟩⟩

theorem refreshOne_live (hl : s.cards[i].live = true) :
    refreshOne s.liveCards (cardNo i) = withOpen (cardNo i) (pure ()) := by
  rw [refreshOne, liveCards_contains, if_pos hl]

theorem refreshOne_other (hl : s.cards[i].live = false) :
    refreshOne s.liveCards (cardNo i) =
      cardConstructOp (cardNo i) >>= fun found => if found then emit (.cardDiscovered (cardNo i)) else pure () := by
  rw [refreshOne, liveCards_contains, if_neg (by rw [hl]; decide)]

theorem not_mem_of_isBus {es : List Event} {a : Int} (h : ∀ e ∈ es, e.isBus = true) : .cardDiscovered a ∉ es := fun hm => by
  cases h _ hm

/-- The probe of a live card begins: its `OPEN`. -/
theorem probe_opens (hm : Memory.wf t.mem = true) (hv : t.params.Valid) (hn : NoneConnected t) (hp : t.present[i] = true)
    (ho : (t.answer 0).ok = true) :
    ∃ u, openOp (cardNo i) t = .ok ⟨⟩ u ∧ Ready u i ∧
      Effect t u 1 [(swCell i, openByte t.params)] [switchEvent t.params i (openByte t.params)] ∧ SameScratch t u ∧
      u.cards = t.cards.set i { t.cards[i] with iso := some .opened } := by
  obtain ⟨u, hu, he, hs, hc⟩ := openOp_runs hp (by rw [← State.answer_zero]; exact ho)
  exact ⟨u, hu, ready_of_open hm hv hn hp he hc, he, hs, hc⟩

theorem probe_live (hm : Memory.wf t.mem = true) (hv : t.params.Valid) (hn : NoneConnected t) (hp : t.present[i] = true)
    (hl : s.cards[i].live = true) (hc : t.cards[i] = s.cards[i]) (hb : NoBusError 2 t) :
    ∃ u, withOpen (cardNo i) (pure ()) t = .ok ⟨⟩ u ∧ Probed s i t u := by
  obtain ⟨v, hv', hr, he, hs, hcv⟩ := probe_opens hm hv hn hp (hb ⟨0, by omega⟩)
  obtain ⟨u, hu, heu, hsu, hcu⟩ := withOpen_ok hv' (Op.pure_apply () v) (by rw [he.present]; exact hp)
    (by rw [he.nextAnswer]; exact hb ⟨1, by omega⟩)
  obtain ⟨hcount, hcard, hnew⟩ := live_case hl
  have hall : Effect t u 2 _ _ := he.trans heu
  rw [← hcount] at hall
  refine ⟨u, hu, ⟨_, _, hall, ?_, fun j => ⟨fun h => ?_, fun h => ?_⟩⟩, hs.trans hsu, ?_,
    heu.connected_close hr.1 hr.2.2.1.eq (by decide)⟩
  · simpa using cardCell_swCell i
  · exact absurd h (not_mem_of_isBus (by simp [switchEvent, Event.isBus]))
  · exact absurd h.2 (by rw [hnew]; decide)
  · rw [hcu, hcv, cards_set_same, cards_set_set, hcard, hc]

theorem discovered_congr (hp : t.params = s.params) (hc : t.cards[i] = s.cards[i])
    (hmem : ∀ k, CardCell i k → Memory.read t.mem k = Memory.read s.mem k) :
    discovered t i t.cards[i] = discovered s i s.cards[i] := by
  have hxp : ∀ j : Fin 2, t.devXp i j = s.devXp i j := fun j => hmem _ (cardCell_xpCell i j)
  have hpot : ∀ c, t.potSum i c = s.potSum i c := fun c => potSum_congr fun j hj => hmem _ (cardCell_potCell i c hj)
  simp only [discovered, hp, hc, hxp, hpot]

theorem probe_new (hm : Memory.wf t.mem = true) (hv : t.params.Valid) (hn : NoneConnected t) (hpt : t.present[i] = true)
    (hl : s.cards[i].live = false) (hp : s.present[i] = true) (hd : discovered t i t.cards[i] = discovered s i s.cards[i])
    (hb : NoBusError 27 t) : ∃ u, refreshOne s.liveCards (cardNo i) t = .ok ⟨⟩ u ∧ Probed s i t u := by
  obtain ⟨v, es, hrun, he, hcount, hlen, hs, hc, hnv⟩ := cardConstructOp_present hm hv hn hpt hb
  have hbus := List.countP_eq_length.mp (hcount.trans hlen.symm)
  obtain ⟨hn27, hcard, hnew⟩ := new_case hl hp
  have hall : Effect t _ 27 _ _ := he.trans (effect_event v (.cardDiscovered (cardNo i)))
  rw [← hn27] at hall
  refine ⟨_, by rw [refreshOne_other hl, Op.bind_ok hrun, if_pos rfl, emit_apply],
    ⟨_, _, hall, fun x hx => ?_, fun j => ?_⟩, ⟨hs.acc, hs.cnt, hs.iter, hs.seekLevel⟩, ?_, ?_⟩
  · rw [List.append_nil] at hx
    obtain rfl | hx := bracket_cells hx
    · exact cardCell_swCell i
    · have := senseWrites_cells hx
      rw [cardCell_iff]
      omega
  · rw [List.mem_append, List.mem_singleton, Event.cardDiscovered.injEq, cardNo_inj]
    exact ⟨fun h => ⟨h.resolve_left (not_mem_of_isBus hbus), hnew⟩, fun h => .inr h.1⟩
  · rw [hcard, ← hd]
    exact hc
  · exact ((effect_event v _).connectedCards (by simp)).trans hnv

theorem probe_absent (hn : NoneConnected t) (hpt : t.present[i] = false) (hl : s.cards[i].live = false)
    (hp : s.present[i] = false) : ∃ u, refreshOne s.liveCards (cardNo i) t = .ok ⟨⟩ u ∧ Probed s i t u := by
  obtain ⟨u, hrun, he, hs, hc⟩ := cardConstructOp_absent hpt
  obtain ⟨hn0, hcard, hnew⟩ := absent_case hl hp
  rw [← hn0] at he
  refine ⟨u, by rw [refreshOne_other hl, Op.bind_ok hrun, if_neg Bool.false_ne_true, Op.pure_apply],
    ⟨_, _, he, nofun, fun j => ⟨fun h => ?_, fun h => ?_⟩⟩, hs, hcard ▸ hc, (he.connectedCards (by simp)).trans hn⟩
  · exact absurd h (not_mem_of_isBus (by simp [Event.isBus]))
  · exact absurd h.2 (by rw [hnew]; decide)

/-! ## The pass -/

/-- Where the pass that began in `s` stands when it has passed the first `k` addresses. -/
structure PassedTo (s : State) (k : Nat) (t : State) : Prop where
  run : ∃ ws es, Effect s t (s.probes k) ws es ∧ (∀ x ∈ ws.map Prod.fst, ∃ j : CardIx, j.val < k ∧ CardCell j x) ∧
    ∀ j : CardIx, .cardDiscovered (cardNo j) ∈ es ↔ j.val < k ∧ s.isNew j = true
  scratch : SameScratch s t
  cards : ∀ j : CardIx, t.cards[j] = if j.val < k then s.refreshed j else s.cards[j]
  closed : NoneConnected t

theorem passedTo_zero (hn : NoneConnected s) : PassedTo s 0 s := by
  refine ⟨⟨[], [], ?_, nofun, by simp⟩, SameScratch.refl s, by simp, hn⟩
  rw [Nat.le_zero.mp (probes_le s 0 (Nat.zero_le _))]
  exact Effect.refl s

theorem PassedTo.next (h : PassedTo s i.val t) (hp : Probed s i t u) : PassedTo s (i.val + 1) u := by
  obtain ⟨ws, es, he, hws, hes⟩ := h.run
  obtain ⟨ws', es', he', hws', hes'⟩ := hp.run
  refine ⟨⟨ws ++ ws', es ++ es', ?_, fun x hx => ?_, fun j => ?_⟩, h.scratch.trans hp.scratch, fun j => ?_, hp.closed⟩
  · rw [probes_succ]
    exact he.trans he'
  · rw [List.map_append] at hx
    obtain hx | hx := List.mem_append.mp hx
    · obtain ⟨j, hj, hc⟩ := hws x hx
      exact ⟨j, by omega, hc⟩
    · exact ⟨i, by omega, hws' x hx⟩
  · rw [List.mem_append, hes, hes']
    constructor
    · rintro (⟨hj, hnew⟩ | ⟨rfl, hnew⟩)
      · exact ⟨by omega, hnew⟩
      · exact ⟨by omega, hnew⟩
    · rintro ⟨hj, hnew⟩
      by_cases e : j = i
      · exact .inr ⟨e, e ▸ hnew⟩
      · exact .inl ⟨by have := Fin.val_ne_of_ne e; omega, hnew⟩
  · rw [hp.cards]
    by_cases e : j = i
    · rw [e, cards_set_same, if_pos (by omega)]
    · have := Fin.val_ne_of_ne e
      rw [cards_set_other _ _ e, h.cards j]
      simp only [show j.val < i.val + 1 ↔ j.val < i.val by omega]

theorem PassedTo.card (h : PassedTo s i.val t) : t.cards[i] = s.cards[i] := by rw [h.cards i, if_neg (lt_irrefl _)]

/-- The cells of the addresses still to come are as they were. -/
theorem PassedTo.cells {k : Nat} {j : CardIx} (h : PassedTo s k t) (hj : k ≤ j.val) {x : Nat} (hx : CardCell j x) :
    Memory.read t.mem x = Memory.read s.mem x := by
  obtain ⟨ws, es, he, hws, -⟩ := h.run
  refine he.read_other fun hmem => ?_
  obtain ⟨j', hj', hx'⟩ := hws x hmem
  rw [cardCell_unique hx hx'] at hj
  omega

/-- One address more, its card plugged if it is live, no transaction failing. -/
theorem PassedTo.round (h : PassedTo s i.val t) (hm : Memory.wf s.mem = true) (hv : s.params.Valid)
    (hp : s.cards[i].live = true → s.present[i] = true) (hb : NoBusError (s.probes (i.val + 1)) s) :
    ∃ u, refreshOne s.liveCards (cardNo i) t = .ok ⟨⟩ u ∧ PassedTo s (i.val + 1) u := by
  obtain ⟨ws, es, he, -, -⟩ := h.run
  rw [probes_succ] at hb
  have hbt : NoBusError (s.probesOf i) t := (hb.after he (by omega)).mono (by omega)
  have hmt := he.wf hm
  have hvt : t.params.Valid := by rw [he.params]; exact hv
  have hprobe : ∃ u, refreshOne s.liveCards (cardNo i) t = .ok ⟨⟩ u ∧ Probed s i t u := by
    cases hl : s.cards[i].live with
    | true =>
      rw [(live_case hl).1] at hbt
      rw [refreshOne_live hl]
      exact probe_live hmt hvt h.closed (by rw [he.present]; exact hp hl) hl h.card hbt
    | false =>
      cases hpi : s.present[i] with
      | true =>
        rw [(new_case hl hpi).1] at hbt
        exact probe_new hmt hvt h.closed (by rw [he.present]; exact hpi) hl hpi
          (discovered_congr he.params h.card fun _ => h.cells (le_refl _)) hbt
      | false => exact probe_absent h.closed (by rw [he.present]; exact hpi) hl hpi
  obtain ⟨u, hu, hpu⟩ := hprobe
  exact ⟨u, hu, h.next hpu⟩

/-! ## The first failed probe of a live card -/

/-- The probe of card `i` from `t` failed, at its `OPEN` (`k` = 0) or at its `CLOSE` (`k` = 1). -/
structure ProbeFailed (i : CardIx) (k : Nat) (t u : State) : Prop where
  run : ∃ ws es, Effect t u (k + if t.present[i] then 1 else 0) ws
      (es ++ [.bus (.writeByte (t.params.isoBase + cardNo i) (if k = 0 then openByte t.params else closeByte)) false []]) ∧
    (∀ x ∈ ws.map Prod.fst, x = swCell i) ∧ ∀ e ∈ es, e.isBus = true
  scratch : SameScratch t u
  cards : u.cards = t.cards.set i (if k = 0 then t.cards[i] else { t.cards[i] with iso := some .opened })

theorem probe_fails_at_open (h : t.present[i] = false ∨ t.nextAnswer.ok = false) :
    ∃ u, withOpen (cardNo i) (pure ()) t = .error (.failed .busError) u ∧ ProbeFailed i 0 t u := by
  obtain ⟨u, ws, hrun, hws, he, hs, hc⟩ := openOp_fails_or_absent h
  refine ⟨u, bracket_acquire_fails hrun, ⟨ws, [], ?_, ?_, nofun⟩, hs, hc.trans (cards_set_self _ i).symm⟩
  · rw [Nat.zero_add]
    exact he
  · obtain rfl | ⟨-, rfl⟩ := hws <;> simp

theorem probe_fails_at_close (hm : Memory.wf t.mem = true) (hv : t.params.Valid) (hn : NoneConnected t)
    (hp : t.present[i] = true) (hf : FirstBusError 1 t) :
    ∃ u, withOpen (cardNo i) (pure ()) t = .error (.failed .busError) u ∧ ProbeFailed i 1 t u := by
  obtain ⟨v, hopen, -, he, hs, hcv⟩ := probe_opens hm hv hn hp (hf.1 ⟨0, by omega⟩)
  obtain ⟨u, ws, hclose, hws, heu, hsu, hcu⟩ := closeOp_fails (s := v) (i := i) (by rw [he.present]; exact hp)
    (by rw [he.nextAnswer]; exact hf.2)
  rw [he.params] at heu
  refine ⟨u, bracket_release_fails hopen (Op.pure_apply () v) hclose,
    ⟨[(swCell i, openByte t.params)] ++ ws, [switchEvent t.params i (openByte t.params)], ?_, ?_, ?_⟩, hs.trans hsu,
    hcu.trans hcv⟩
  · rw [hp]
    exact he.trans heu
  · obtain rfl | rfl := hws <;> simp
  · simp [switchEvent, Event.isBus]

theorem PassedTo.fails {k : Nat} (h : PassedTo s i.val t) (hm : Memory.wf s.mem = true) (hv : s.params.Valid)
    (hl : s.cards[i].live = true) (hk : k ≤ 1) (hb : NoBusError (s.probes i.val + k) s)
    (hf : if s.present[i] then (s.answer (s.probes i.val + k)).ok = false else k = 0) :
    ∃ u, refreshOne s.liveCards (cardNo i) t = .error (.failed .busError) u ∧ ProbeFailed i k t u := by
  obtain ⟨ws, es, he, -, -⟩ := h.run
  rw [refreshOne_live hl]
  obtain rfl | rfl : k = 0 ∨ k = 1 := by omega
  · refine probe_fails_at_open ?_
    cases hp : s.present[i] with
    | false => exact .inl (by rw [he.present]; exact hp)
    | true =>
      rw [if_pos hp] at hf
      exact .inr (by rw [he.nextAnswer]; exact hf)
  · have hp : s.present[i] = true := by
      by_contra hp
      rw [if_neg hp] at hf
      cases hf
    rw [if_pos hp] at hf
    exact probe_fails_at_close (he.wf hm) (by rw [he.params]; exact hv) h.closed (by rw [he.present]; exact hp)
      ⟨(hb.after he (by omega)).mono (by omega), by rw [he.answer]; exact hf⟩

/-! ## The command -/

/-- The whole pass. -/
theorem pass_runs (hm : Memory.wf s.mem = true) (hv : s.params.Valid) (hn : NoneConnected s) (hplug : LiveCardsPlugged s)
    (hb : NoBusError 486 s) : ∃ t, forEach allCards (refreshOne s.liveCards) s = .ok ⟨⟩ t ∧ PassedTo s 18 t := by
  rw [forEach_allCards]
  refine forEach_upTo (n := Config.pb.nCards) (PassedTo s) (fun j t h => h.round hm hv (hplug j) (hb.mono ?_)) (passedTo_zero hn)
  have hj : j.val + 1 ≤ 18 := j.isLt
  have := probes_le s (j.val + 1) hj
  omega

/-- The pass up to the first failed probe, of the live card `i`. -/
theorem pass_fails {k : Nat} (hm : Memory.wf s.mem = true) (hv : s.params.Valid) (hn : NoneConnected s)
    (hplug : ∀ j : CardIx, j < i → s.cards[j].live = true → s.present[j] = true) (hl : s.cards[i].live = true)
    (hk : k ≤ 1) (hb : NoBusError (s.probes i.val + k) s)
    (hf : if s.present[i] then (s.answer (s.probes i.val + k)).ok = false else k = 0) :
    ∃ u, forEach allCards (refreshOne s.liveCards) s = .error (.failed .busError) u ∧
      ∃ t, PassedTo s i.val t ∧ ProbeFailed i k t u := by
  rw [forEach_allCards]
  refine forEach_stops (PassedTo s) i (fun j hj t h => h.round hm hv (hplug j hj) (hb.mono ?_)) (fun t h => ?_) (passedTo_zero hn)
  · exact (probes_mono s hj).trans (Nat.le_add_right _ _)
  · obtain ⟨u, hu, hfail⟩ := h.fails hm hv hl hk hb hf
    exact ⟨u, hu, t, h, hfail⟩

theorem refreshed_visited (s : State) (i : CardIx) :
    (s.cards[i].live = true → s.refreshed i = { s.cards[i] with iso := some .closed }) ∧
    (s.present[i] = true → s.cards[i].live = false → (s.refreshed i).live = true ∧ (s.refreshed i).Complete ∧
      (s.refreshed i).iso = some .closed ∧ (s.refreshed i).chen = some (~~~(s.devXp i 0)) ∧
      (s.refreshed i).tsten = some (~~~(s.devXp i 1))) ∧
    (s.present[i] = false → s.cards[i].live = false → s.refreshed i = Card.blank) := by
  refine ⟨fun hl => (live_case hl).2.1, fun hp hl => ?_, fun hp hl => (absent_case hl hp).2.1⟩
  rw [(new_case hl hp).2.1]
  exact ⟨rfl, ⟨rfl, rfl, rfl, fun k => by simp [discovered], rfl, rfl⟩, rfl, rfl, rfl⟩

theorem refreshed_live (hp : s.cards[i].live = true → s.present[i] = true) : (s.refreshed i).live = s.present[i] := by
  cases hl : s.cards[i].live with
  | true => rw [(live_case hl).2.1, hp hl]; exact hl
  | false =>
    cases hpi : s.present[i] with
    | true => rw [(new_case hl hpi).2.1]
    | false => rw [(absent_case hl hpi).2.1]; rfl

theorem isNew_iff : s.isNew i = true ↔ s.present[i] = true ∧ s.cards[i].live = false := by
  rw [State.isNew, Bool.and_eq_true, Bool.not_eq_true']

theorem getAvailableCards_ok (hr : s.running = none)
    (h : forEach allCards (refreshOne (s.beginCommand 0x82#8).liveCards) (s.beginCommand 0x82#8) = .ok ⟨⟩ t) :
    exec .getAvailableCards s = .next (t.endCommand 0x82#8 (.ok (.cards t.liveCards))) := by
  refine runCommand_ok hr rfl ?_
  rw [getAvailableCardsOp_apply, Op.bind_ok h, Op.get_bind, Op.pure_apply]

theorem getAvailableCards_failed {f : Failure} (hr : s.running = none)
    (h : forEach allCards (refreshOne (s.beginCommand 0x82#8).liveCards) (s.beginCommand 0x82#8) = .error (.failed f) t) :
    exec .getAvailableCards s = .next (t.endCommand 0x82#8 (.failed f)) := by
  refine runCommand_failed hr rfl ?_
  rw [getAvailableCardsOp_apply, Op.bind_error h]

/-- Settles O44: the pass stands where `PassedTo` says at every address, the last or that of the first failed probe. -/
theorem getAvailableCardsAddsPluggedCards : Obligations.GetAvailableCardsAddsPluggedCards := by
  intro s hready visited
  obtain ⟨hwf, hv, hbetween, hn, -⟩ := hready
  have hstart : PassedTo (s.beginCommand 0x82#8) 0 (s.beginCommand 0x82#8) := passedTo_zero hn
  refine ⟨fun hplug hb => ?_, fun i k hl hk hplug => ?_⟩
  · obtain ⟨t, hrun, hpass⟩ := pass_runs (s := s.beginCommand 0x82#8) hwf hv hn hplug hb
    have hcard : ∀ j : CardIx, t.cards[j] = s.refreshed j := fun j => (hpass.cards j).trans (if_pos j.isLt)
    obtain ⟨ws, es, he, -, hes⟩ := hpass.run
    obtain ⟨he', hs'⟩ := endCommand_effect hbetween he (.ok (.cards t.liveCards))
    refine ⟨_, getAvailableCards_ok hbetween.1 hrun, rfl,
      fun j => (congrArg Card.live (hcard j)).trans (refreshed_live (hplug j)), fun j => ?_,
      ⟨_, he'.hist, fun j => ?_⟩, hpass.closed, he'.sameElsewhere hs'⟩
    · have := refreshed_visited s j
      rwa [← hcard j] at this
    · have h : .cardDiscovered (cardNo j) ∈ es ↔ j.val < 18 ∧ s.isNew j = true := hes j
      have hj : j.val < 18 := j.isLt
      rw [← isNew_iff]
      simpa [hj] using h
  · intro found reached hb hf
    have hreached : reached = (s.beginCommand 0x82#8).probes i.val + k := by
      rw [show reached = 2 * s.liveBelow i + 27 * found + k from rfl, liveAmong_eq,
        show found = amongBelow s.isNew i.val from countP_eq_amongBelow _ i]
      rfl
    obtain ⟨u, hrun, t, hpass, hprobe⟩ := pass_fails (s := s.beginCommand 0x82#8) hwf hv hn hplug hl hk (hreached ▸ hb)
      (hreached ▸ hf)
    obtain ⟨ws, es, he, hws, hes⟩ := hpass.run
    obtain ⟨ws', es', he', hws', hes'⟩ := hprobe.run
    rw [he.present, he.params] at he'
    obtain ⟨hall, hs⟩ := endCommand_effect hbetween (he.trans he') (.failed .busError)
    have hother : ∀ j : CardIx, j ≠ i → u.cards[j] = t.cards[j] := fun j hj => by rw [hprobe.cards, cards_set_other _ _ hj]
    have hlater : ∀ (j : CardIx) (x : Nat), i ≤ j → CardCell j x → x ≠ swCell i →
        Memory.read u.mem x = Memory.read s.mem x := fun j x hj hx hne =>
      (he'.read_other fun h => hne (hws' x h)).trans (hpass.cells hj hx)
    refine ⟨_, .commandBegins 0x82#8 :: (es ++ es'), getAvailableCards_failed hbetween.1 hrun, rfl, fun j hj => ?_, ?_,
      fun j hj => ⟨?_, fun x hx => ?_⟩, ?_, fun j => ?_, fun x hx hne => hlater i x (le_refl _) hx hne,
      hall.sameElsewhere hs, ?_⟩
    · have := refreshed_visited s j
      rwa [show s.refreshed j = u.cards[j] from
        ((hother j (ne_of_lt hj)).trans ((hpass.cards j).trans (if_pos hj))).symm] at this
    · exact (by rw [hprobe.cards, cards_set_same, hpass.card] : u.cards[i] = _)
    · exact (hother j (ne_of_gt hj)).trans ((hpass.cards j).trans (if_neg (not_lt_of_gt hj)))
    · exact hlater j x (le_of_lt hj) hx fun e => ne_of_gt hj (cardCell_unique hx (e ▸ cardCell_swCell i))
    · rw [hall.hist]
      simp [closeByte, Response.status]
    · have h : .cardDiscovered (cardNo j) ∈ es ↔ j < i ∧ s.isNew j = true := hes j
      rw [← isNew_iff, ← h]
      simp [not_mem_of_isBus hes']
    · have := hall.took
      rwa [← Nat.add_assoc, ← hreached] at this

end Sys2Proof.Machine
end

section
/-! The kinds of device register each operation writes (R54, R62), and that a per-card host command stays on its own card (R44, R183):
O12, O15. -/

namespace Sys2Proof.Machine

variable {α : Type} {ks : List RegKind} {s t : State}

/-! ## The kinds of register an operation writes -/

/-- An internal operation that is one operation and the making of its value (log 7). -/
theorem spares_of_internal {x : Op α} {g : α → Value} (hv : s.params.Valid) (hx : x.Writes ks)
    (ht : runInternal (x >>= fun v => pure (g v)) s = .next t) : Spares ks s t :=
  writes_runInternal hv (writes_bind hx fun _ => writes_pure _) ht

/-- R183: a per-card command whose body is one operation and the making of its value; the bracket writes the switch. -/
theorem spares_of_perCard {op : Byte} {ok : Bool} {a : Int} {x : Op α} {g : α → Value} (hv : s.params.Valid)
    (hsw : RegKind.switch ∈ ks) (hx : x.Writes ks)
    (ht : runPerCard op ok a (x >>= fun v => pure (g v)) s = .next t) : Spares ks s t :=
  writes_runCommand hv (writes_withOpen hsw a (writes_bind hx fun _ => writes_pure _)) ht

/-- R202, R203. -/
theorem spares_of_seek {op : Byte} {ok : Bool} {a ch : Int} {target : Rat} {step : Int} {sense : Op Rat}
    (hv : s.params.Valid) (hsw : RegKind.switch ∈ ks) (hpot : RegKind.pot ∈ ks) (hs : sense.Writes ks)
    (ht : runPerCard op ok a (seekOp a ch target step sense) s = .next t) : Spares ks s t :=
  writes_runCommand hv (writes_withOpen hsw a (writes_seekOp hpot hs _ _ _ _)) ht

/-- R191: a command over the live cards that does the same on each channel. -/
theorem spares_of_bulk {op : Byte} {ok : Bool} {act : Int → Int → Op Unit} (hv : s.params.Valid)
    (hsw : RegKind.switch ∈ ks) (ha : ∀ a ch, (act a ch).Writes ks)
    (ht : runCommand op ok noCardNeeded (forLiveCards fun a => forChans (act a)) s = .next t) : Spares ks s t :=
  writes_runCommand hv (writes_forLiveCards hsw fun a => writes_forEach (ha a) _) ht

/-- R104, whichever register is written. -/
theorem writes_writeWordOp_any (hcfg : RegKind.snsCfg ∈ ks) (hcal : RegKind.snsCal ∈ ks) (addr : Int) (reg : Nat) (w : Half) :
    (writeWordOp addr reg w).Writes ks :=
  fun s hv => writes_writeWordOp (reg := fun _ => reg) w (fun _ _ _ => hcfg) (fun _ _ _ => hcal) s hv

theorem Target.BlockKind.cases {d : Target} {r : RegKind} (h : d.BlockKind r) : r = .expander ∨ r = .pot := by
  cases d with
  | switch => exact h.elim
  | expander => exact .inl h
  | pot => exact .inr h
  | sense => exact h.elim

/-- R105, whichever device is reached. -/
theorem writes_writeBlockOp_any (hxp : RegKind.expander ∈ ks) (hpot : RegKind.pot ∈ ks) (addr : Int) (reg : Nat)
    (bs : List Byte) : (writeBlockOp addr reg bs).Writes ks := by
  refine fun s hv => writes_writeBlockOp (addr := fun _ => addr) (reg := fun _ => reg) bs (fun _ _ _ _ _ hr => ?_) s hv
  obtain rfl | rfl := hr.cases
  · exact hxp
  · exact hpot

/-- R194: only with `zero_level` are levels written. -/
theorem spares_of_disableAllOutputs {z : Byte} (hv : s.params.Valid) (ht : exec (.disableAllOutputs z) s = .next t) :
    Spares (Instr.disableAllOutputs z).writes s t := by
  refine writes_runCommand hv (writes_forLiveCards ?_ fun a => writes_disableOutputsAct ?_ (fun hz => ?_) a) ht
  · simp only [Instr.writes]
    split <;> simp
  · simp only [Instr.writes]
    split <;> simp
  · obtain rfl : z = 1 := of_decide_eq_true hz
    simp [Instr.writes]

/-- R54, R62: every operation writes only the kinds of device register its own rule writes. -/
theorem exec_spares {i : Instr} (hv : s.params.Valid) (ht : exec i s = .next t) : Spares i.writes s t := by
  cases i with
  | readByte => exact spares_of_internal hv (writes_readByteOp _) ht
  | writeByte => exact spares_of_internal hv (writes_writeByteOp (.head _) _ _) ht
  | readWord => exact spares_of_internal hv (writes_readWordOp _ _) ht
  | writeWord => exact spares_of_internal hv (writes_writeWordOp_any (.head _) (.tail _ (.head _)) _ _ _) ht
  | writeBlock => exact spares_of_internal hv (writes_writeBlockOp_any (.head _) (.tail _ (.head _)) _ _ _) ht
  | readBlock => exact spares_of_internal hv (writes_readBlockOp _ _ _) ht
  | isoSet => exact spares_of_internal hv (writes_isoSetOp (.head _) _ _ _ _) ht
  | openCard => exact spares_of_internal hv (writes_openOp (.head _) _) ht
  | closeCard => exact spares_of_internal hv (writes_closeOp (.head _) _) ht
  | xpWrite => exact spares_of_internal hv (writes_xpWriteOp (.head _) _ _ _) ht
  | xpRead => exact spares_of_internal hv (writes_xpReadOp _) ht
  | enableChannel => exact spares_of_internal hv (writes_enableChannelOp (.head _) _ _ _) ht
  | enableTestLoad => exact spares_of_internal hv (writes_enableTestLoadOp (.head _) _ _ _) ht
  | isChannelEnabled => exact spares_of_internal hv (writes_isChannelEnabledOp _ _) ht
  | setLevel => exact spares_of_internal hv (writes_setLevelOp (.head _) _ _ _) ht
  | setLevelMin => exact spares_of_internal hv (writes_setLevelMinOp (.head _) _ _) ht
  | setLevelMax => exact spares_of_internal hv (writes_setLevelMaxOp (.head _) _ _) ht
  | readLevel => exact spares_of_internal hv (writes_readLevelOp _ _) ht
  | potWrite => exact spares_of_internal hv (writes_potWriteOp (.head _) _ _ _) ht
  | senseInit => exact spares_of_internal hv (writes_senseInitOp (.head _) (.tail _ (.head _)) _ _) ht
  | rawShunt => exact spares_of_internal hv (writes_rawShuntOp _ _) ht
  | rawBus => exact spares_of_internal hv (writes_rawBusOp (.head _) _ _) ht
  | rawCurrent => exact spares_of_internal hv (writes_rawCurrentOp (.head _) _ _) ht
  | rawPower => exact spares_of_internal hv (writes_rawPowerOp (.head _) _ _) ht
  | getBusVoltage => exact spares_of_internal hv (writes_getBusVoltageOp (.head _) _ _) ht
  | getShuntVoltage => exact spares_of_internal hv (writes_getShuntVoltageOp _ _) ht
  | getCurrent => exact spares_of_internal hv (writes_getCurrentOp (.head _) _ _) ht
  | cardConstruct =>
    exact spares_of_internal hv
      (writes_cardConstructOp (.head _) (.tail _ (.head _)) (.tail _ (.tail _ (.head _))) _) ht
  | crateConstruct =>
    exact writes_runCommand hv
      (writes_crateConstructOp (.head _) (.tail _ (.head _)) (.tail _ (.tail _ (.head _)))) ht
  | shutdown => exact writes_runCommand hv (writes_shutdownOp (.head _)) ht
  | getAvailableCards =>
    exact writes_runCommand hv
      (writes_getAvailableCardsOp (.head _) (.tail _ (.head _)) (.tail _ (.tail _ (.head _)))) ht
  | crateEnableChannel => exact spares_of_perCard hv (.head _) (writes_enableChannelOp (.tail _ (.head _)) _ _ _) ht
  | crateEnableTestLoad => exact spares_of_perCard hv (.head _) (writes_enableTestLoadOp (.tail _ (.head _)) _ _ _) ht
  | crateIsChannelEnabled => exact spares_of_perCard hv (.head _) (writes_isChannelEnabledOp _ _) ht
  | crateSetLevel => exact spares_of_perCard hv (.head _) (writes_setLevelOp (.tail _ (.head _)) _ _ _) ht
  | crateGetBusVoltage => exact spares_of_perCard hv (.head _) (writes_getBusVoltageOp (.tail _ (.head _)) _ _) ht
  | crateGetShuntVoltage => exact spares_of_perCard hv (.head _) (writes_getShuntVoltageOp _ _) ht
  | crateGetCurrent => exact spares_of_perCard hv (.head _) (writes_getCurrentOp (.tail _ (.head _)) _ _) ht
  | seekVoltage =>
    exact spares_of_seek hv (.head _) (.tail _ (.head _))
      (writes_getBusVoltageOp (.tail _ (.tail _ (.head _))) _ _) ht
  | seekCurrent =>
    exact spares_of_seek hv (.head _) (.tail _ (.head _))
      (writes_getCurrentOp (.tail _ (.tail _ (.head _))) _ _) ht
  | disableAllOutputs => exact spares_of_disableAllOutputs hv ht
  | enableAllOutputs => exact spares_of_bulk hv (.head _) (fun a ch => writes_enableChannelOp (.tail _ (.head _)) a ch 1) ht
  | maxOutput => exact spares_of_bulk hv (.head _) (fun a ch => writes_setLevelMaxOp (.tail _ (.head _)) a ch) ht
  | minOutput => exact spares_of_bulk hv (.head _) (fun a ch => writes_setLevelMinOp (.tail _ (.head _)) a ch) ht
  | enableAllTestLoads =>
    exact spares_of_bulk hv (.head _) (fun a ch => writes_enableTestLoadOp (.tail _ (.head _)) a ch 1) ht
  | disableAllTestLoads =>
    exact spares_of_bulk hv (.head _) (fun a ch => writes_enableTestLoadOp (.tail _ (.head _)) a ch 0) ht
  | saveConfig => exact writes_runCommand hv (writes_saveConfigOp _) ht
  | loadConfig =>
    exact spares_of_bulk hv (.head _)
      (fun a ch => writes_loadChannelOp (.tail _ (.head _)) (.tail _ (.tail _ (.head _))) _ a ch) ht

/-- Settles O12: `exec_spares`, at one cell. -/
theorem operationsWriteOnlyTheirDevices : Obligations.OperationsWriteOnlyTheirDevices :=
  fun _ _ _ k hv ht hk => (exec_spares hv ht).2 k hk

/-! ## A per-card host command and the other cards -/

/-- R44, R183: nothing of a card other than `i` differs, neither its cached state nor a device register. -/
def OtherCardsKept (i : CardIx) (s t : State) : Prop :=
  ∀ j : CardIx, j ≠ i → t.cards[j] = s.cards[j] ∧ ∀ x, CardCell j x → Memory.read t.mem x = Memory.read s.mem x

theorem Around.otherCardsKept {i : CardIx} (h : Around i s t) : OtherCardsKept i s t :=
  fun j hj => ⟨h.cards j hj, fun x hx => h.cells x fun hi => hj (cardCell_unique hx hi)⟩

/-- R183: whatever its body, served by card `i`, and the environment do, a per-card command keeps the other cards. -/
theorem runPerCard_otherCardsKept {op : Byte} {ok : Bool} {i : CardIx} {body : Op Value} (hb : ok = true → body.Serves i)
    (hwf : Memory.wf s.mem = true) (hv : s.params.Valid) (hn : NoneConnected s)
    (ht : runPerCard op ok (cardNo i) body s = .next t) : OtherCardsKept i s t := by
  have hbracket : ok = true → Bracketed i (s.beginCommand op) (withOpen (cardNo i) body (s.beginCommand op)) :=
    fun hok => withOpen_bracketed (s := s.beginCommand op) hwf hv hn (hb hok)
  obtain ⟨r, rfl⟩ | ⟨hok, ⟨v, u, hu, rfl⟩ | ⟨f, u, hu, rfl⟩⟩ := runCommand_inv ht
  · exact fun _ _ => ⟨rfl, fun _ _ => rfl⟩
  · have haround : Around i (s.beginCommand op) u := by have h := hbracket hok; rwa [hu] at h
    exact haround.otherCardsKept
  · have haround : Around i (s.beginCommand op) u := by have h := hbracket hok; rwa [hu] at h
    exact haround.otherCardsKept

/-- Settles O15: the command is one bracket around a body that its card serves. -/
theorem perCardCommandTouchesOneCard : Obligations.PerCardCommandTouchesOneCard := by
  intro x i s t hx hv hwf hn ht
  obtain ⟨ok, body, hform, -, hbody⟩ := perCard_form hx
  rw [hform s] at ht
  exact runPerCard_otherCardsKept (fun hok => (hbody hok).serves) hwf hv hn ht

end Sys2Proof.Machine
end

section
/-! What a bus address leads to (R42, R43), and transactions that no device, two devices or the wrong device would take (R100, R52):
O20, O21. -/

namespace Sys2Proof.Machine

variable {s : State} {addr : Int}

/-! ## The transactions that stop before a device takes them -/

/-- R100 step 1: each of the six primitives first looks for its device, and how it goes when that fails is said once for all. -/
theorem transactions_of_reach {addr reg n : Nat} {b : Byte} {w : Half} {bs : List Byte} {out : Txn → Result}
    (h : ∀ {α : Type} (txn : Txn) (f : Target → Op α) (g : α → Value),
      runInternal (reach txn addr >>= f >>= fun v => pure (g v)) s = out txn) :
    exec (.readByte addr) s = out (.readByte addr) ∧ exec (.writeByte addr b) s = out (.writeByte addr b) ∧
      exec (.readWord addr reg) s = out (.readWord addr reg) ∧
      exec (.writeWord addr reg w) s = out (.writeWord addr reg w) ∧
      exec (.writeBlock addr reg bs) s = out (.writeBlock addr reg bs) ∧
      exec (.readBlock addr reg n) s = out (.readBlock addr reg n) :=
  ⟨h _ _ _, h _ _ _, h _ _ _, h _ _ _, h _ _ _, h _ _ _⟩

section

variable {d : Target} {reg n : Nat} {b : Byte} {w : Half} {bs : List Byte}

/-- U5: the bits of a control byte without a meaning are bits 4..0. -/
theorem isoLowBits_eq (b : Byte) : isoLowBits b = b &&& 0x1F#8 := rfl

/-- R52, U5. -/
theorem writeByteOp_refuses (hr : s.route addr = .device d) (h : (∀ i, d ≠ .switch i) ∨ b &&& 0x1F#8 ≠ 0) :
    writeByteOp addr b s = .error (.failed .invalidArgument) s := by
  unfold writeByteOp
  rw [Op.bind_ok (reach_device hr)]
  cases d with
  | switch i =>
    have hb : isoLowBits b ≠ 0 := isoLowBits_eq b ▸ h.resolve_left fun h => h i rfl
    dsimp only
    rw [decide_eq_false hb]
    rfl
  | expander => rfl
  | pot => rfl
  | sense => rfl

/-- R52, U21. -/
theorem readWordOp_refuses (hr : s.route addr = .device d) (h : (∀ i c, d ≠ .sense i c) ∨ reg ∉ s.params.snsRegs) :
    readWordOp addr reg s = .error (.failed .invalidArgument) s := by
  unfold readWordOp
  rw [Op.bind_ok (reach_device hr)]
  cases d with
  | sense i c =>
    have hreg : reg ∉ s.params.snsRegs := h.resolve_left fun h => h i c rfl
    have hg : snsReg s.params reg = none := Option.not_isSome_iff_eq_none.mp fun hs => hreg (snsReg_isSome_iff.mp hs)
    dsimp only
    rw [Op.get_bind, hg]
    rfl
  | switch => rfl
  | expander => rfl
  | pot => rfl

theorem snsReg_eq_cfg {p : Params} (h : snsReg p reg = some .cfg) : reg = p.snsRegCfg := by
  unfold snsReg at h
  split_ifs at h <;> simp_all

theorem snsReg_eq_cal {p : Params} (h : snsReg p reg = some .cal) : reg = p.snsRegCal := by
  unfold snsReg at h
  split_ifs at h <;> simp_all

/-- R52, U21: of a sense chip's registers only `CFG` and `CAL` are written. -/
theorem writeWordOp_refuses (hr : s.route addr = .device d)
    (h : (∀ i c, d ≠ .sense i c) ∨ reg ≠ s.params.snsRegCfg ∧ reg ≠ s.params.snsRegCal) :
    writeWordOp addr reg w s = .error (.failed .invalidArgument) s := by
  unfold writeWordOp
  rw [Op.bind_ok (reach_device hr)]
  cases d with
  | sense i c =>
    obtain ⟨hcfg, hcal⟩ := h.resolve_left fun h => h i c rfl
    dsimp only
    rw [Op.get_bind]
    cases hg : snsReg s.params reg with
    | none => rfl
    | some r =>
      cases r with
      | cfg => exact absurd (snsReg_eq_cfg hg) hcfg
      | cal => exact absurd (snsReg_eq_cal hg) hcal
      | shunt => rfl
      | bus => rfl
      | power => rfl
      | current => rfl
  | switch => rfl
  | expander => rfl
  | pot => rfl

/-- R52, U21, R100: a block of no byte, or one that runs over registers the device does not have. -/
theorem writeBlockOp_refuses (hr : s.route addr = .device d) (h : bs = [] ∨ blockCells s.params d reg bs.length = none) :
    writeBlockOp addr reg bs s = .error (.failed .invalidArgument) s := by
  unfold writeBlockOp
  rw [Op.bind_ok (reach_device hr)]
  cases bs with
  | nil => rfl
  | cons x xs =>
    have hk := h.resolve_left (List.cons_ne_nil x xs)
    rw [List.isEmpty_cons, Bool.not_false, checkArg_true, Op.pure_bind, Op.get_bind, hk]
    rfl

theorem readBlockOp_refuses (hr : s.route addr = .device d) (h : n = 0 ∨ blockCells s.params d reg n = none) :
    readBlockOp addr reg n s = .error (.failed .invalidArgument) s := by
  unfold readBlockOp
  rw [Op.bind_ok (reach_device hr)]
  cases n with
  | zero => rfl
  | succ n =>
    have hk := h.resolve_left (Nat.succ_ne_zero n)
    rw [decide_eq_true (Nat.le_add_left 1 n), checkArg_true, Op.pure_bind, Op.get_bind, hk]
    rfl

end

/-- Settles O20: no device and contention end every primitive alike; what a reached device refuses, each primitive says for itself. -/
theorem transactionNeedsDeviceThatTakesIt : Obligations.TransactionNeedsDeviceThatTakesIt := by
  intro s addr reg n b w bs all
  refine ⟨fun hr => ?_, fun hr => ?_, ?_⟩
  · exact transactions_of_reach fun _ _ _ => runInternal_failure (Op.bind_error (reach_noDevice hr))
  · exact transactions_of_reach fun _ _ _ => runInternal_fault (Op.bind_error (Op.bind_error (reach_contention hr)))
  · intro d hr refused
    exact ⟨fun h => runInternal_failure (writeByteOp_refuses hr h), fun h => runInternal_failure (readWordOp_refuses hr h),
      fun h => runInternal_failure (writeWordOp_refuses hr h), fun h => runInternal_failure (writeBlockOp_refuses hr h),
      fun h => runInternal_failure (readBlockOp_refuses hr h)⟩

/-! ## Routes -/

/-- R42: the switch addresses. -/
theorem switchAt_eq_some {p : Params} {i : CardIx} : switchAt p addr = some i ↔ addr = p.isoBase + cardNo i := by
  unfold switchAt
  rw [cardIx?_eq_some]
  constructor <;> intro h <;> omega

theorem switchAt_eq_none {p : Params} (h : ∀ i : CardIx, addr ≠ p.isoBase + cardNo i) : switchAt p addr = none :=
  Option.eq_none_iff_forall_ne_some.mpr fun i hi => h i (switchAt_eq_some.mp hi)

/-- R43: a card is connected if it is plugged and its enable bit is 1. -/
theorem connected_iff {i : CardIx} : s.connected i = true ↔ s.present[i] = true ∧ (s.devSw i).getLsbD 7 = true :=
  Bool.and_eq_true_iff

/-- R43, |C| = 0. -/
theorem route_none_connected (ha : switchAt s.params addr = none) (hc : s.connectedCards = []) :
    s.route addr = .noDevice := by
  simp only [State.route, ha, hc]

/-- R43, |C| ≥ 2. -/
theorem route_contention (ha : switchAt s.params addr = none) (hc : 2 ≤ s.connectedCards.length) :
    s.route addr = .contention := by
  match h : s.connectedCards with
  | [] => rw [h] at hc; simp at hc
  | [_] => rw [h] at hc; simp at hc
  | _ :: _ :: _ => simp only [State.route, ha, h]

/-- R44: the 13 addresses are all a card's sub-bus has. -/
theorem localDevice_none {p : Params} (i : CardIx) (h : ∀ a ∈ p.subBusAddrs, addr ≠ (a : Int)) :
    localDevice p i addr = none := by
  have hpot : ∀ k ∈ List.finRange Config.pb.potChips, ¬decide (addr = ((p.potAddr[k] : Nat) : Int)) = true :=
    fun k _ hk => h _ (potAddr_mem p k) (of_decide_eq_true hk)
  have hsns : ∀ c ∈ List.finRange Config.pb.nChan, ¬decide (addr = ((p.snsAddr[c] : Nat) : Int)) = true :=
    fun c _ hc => h _ (snsAddr_mem p c) (of_decide_eq_true hc)
  unfold localDevice
  rw [if_neg (h _ (xpAddr_mem p)), List.find?_eq_none.mpr hpot, List.find?_eq_none.mpr hsns]

/-- R44: a device found on card `i`'s sub-bus is a device of card `i`. -/
theorem localDevice_on {p : Params} {i : CardIx} {d : Target} (h : localDevice p i addr = some d) : d.On i := by
  unfold localDevice at h
  split at h
  · cases h; rfl
  · split at h
    · cases h; rfl
    · split at h
      · cases h; rfl
      · cases h

/-- R43, |C| = 1, at an address of no device. -/
theorem route_no_local {i : CardIx} (ha : switchAt s.params addr = none) (hc : s.connectedCards = [i])
    (h : localDevice s.params i addr = none) : s.route addr = .noDevice := by
  simp only [State.route, ha, hc, h]

/-- R42, R43: a device that is no switch is one of the one connected card. -/
theorem route_device_on {d : Target} (h : s.route addr = .device d) (hd : ∀ i, d ≠ .switch i) :
    ∃ i, s.connectedCards = [i] ∧ d.On i := by
  unfold State.route at h
  split at h
  · split at h
    · cases h; exact absurd rfl (hd _)
    · cases h
  · split at h
    · cases h
    · next i hc =>
      split at h
      · next t ht => cases h; exact ⟨i, hc, localDevice_on ht⟩
      · cases h
    · cases h

/-- Settles O21: a switch address by `switchAt`, any other by how many cards are connected. -/
theorem addressRouting : Obligations.AddressRouting := by
  intro s addr
  refine ⟨?_, fun ha => ?_, fun i hv hp hsw hother => ?_, fun i k c h => ?_⟩
  · rintro i rfl
    exact route_switch s (cardIx?_cardNo i)
  · exact ⟨route_none_connected (switchAt_eq_none ha), route_contention (switchAt_eq_none ha)⟩
  · have hc : s.connectedCards = [i] := connectedCards_eq_singleton fun j => by
      rw [connected_iff]
      refine ⟨fun ⟨hpj, hswj⟩ => ?_, ?_⟩
      · by_contra hj
        rw [hother j hj hpj] at hswj
        cases hswj
      · rintro rfl
        exact ⟨hp, hsw⟩
    refine ⟨?_, ?_, ?_, fun ha hsub => route_no_local (switchAt_eq_none ha) hc (localDevice_none i hsub)⟩
    · rintro rfl
      exact route_xp hv hc
    · rintro k rfl
      exact route_pot hv hc k
    · rintro c rfl
      exact route_sns hv hc c
  · have hc : s.connectedCards = [i] := by
      obtain h | h | h := h
      all_goals
        obtain ⟨j, hc, hon⟩ := route_device_on h nofun
        obtain rfl : i = j := hon
        exact hc
    obtain ⟨hp, hsw⟩ := connected_iff.mp (mem_connectedCards.mp (hc ▸ List.mem_singleton.mpr rfl))
    exact ⟨hp, hsw, fun j hpj hswj => OnlyConnected.eq hc j (connected_iff.mpr ⟨hpj, hswj⟩)⟩

end Sys2Proof.Machine
end

section
/-! Registers of one open card written by an operation run by itself: the four bytes of a pattern (R132) and the two words of a sense
chip (R140): O33, O38. -/

namespace Sys2Proof.Machine

variable {s t : State} {i : CardIx} {c : ChanIx} {n : Nat} {ws : List (Nat × Byte)} {es : List Event}

/-! ## The potentiometers -/

/-- Settles O33: a failed write is a whole one cut off after the bytes that landed. -/
theorem potWriteWritesFourBytes : Obligations.PotWriteWritesFourBytes := by
  intro s i c p hr byte same
  rw [State.answer_zero]
  have hbytes : patternBytes p = fourBytes byte := rfl
  have hsame : ∀ {ok m t}, Effect s t 1 (((potCells i c).zip (fourBytes byte)).take m)
      [.bus (.writeBlock (s.params.potAddr[potChip c] : Nat) s.params.potReg[potSub c] (fourBytes byte)) ok []] →
      SameScratch s t → t.cards = s.cards → same ok t := fun he hs hc =>
    ⟨fun k hk => he.read_other fun h => hk (zip_take_cells h), hc, he.hist, he.sameElsewhere hs, he.took⟩
  refine ⟨fun ho => ?_, fun ho => ?_⟩
  · have hx := potWriteOp_runs c p hr ho
    rw [hbytes] at hx
    obtain ⟨t, ht, hres, he, hs, hc⟩ := hx.internal fun _ => .nothing
    exact ⟨t, ht, hres, fun j => (devPot_written he hr.1 j).trans (getD_four byte j), hsame (m := 4) he hs hc⟩
  · obtain ⟨m, hx⟩ := potWriteOp_fails c p hr ho
    rw [hbytes] at hx
    obtain ⟨t, ht, hres, he, hs, hc⟩ := hx.internal fun _ => .nothing
    obtain ⟨k, hk, hdev⟩ := devPot_partial he hr.1
    exact ⟨t, ht, hres, ⟨k, hk, fun j => by rw [hdev j, getD_four]⟩, hsame he hs hc⟩

/-! ## The sense chips -/

/-- R29: a 16-bit register that a run wrote. -/
theorem Effect.read_half {k : Nat} {v : Half} (h : Effect s t n ws es) (hm : Memory.wf s.mem = true)
    (hnd : (ws.map Prod.fst).Nodup) (hk : ∀ w ∈ halfCells k v, w ∈ ws) :
    Memory.read t.mem k ++ Memory.read t.mem (k + 1) = v := by
  rw [h.read_mem hm hnd (hk (k, v.extractLsb' 8 8) (by simp [halfCells])),
    h.read_mem hm hnd (hk (k + 1, v.extractLsb' 0 8) (by simp [halfCells]))]
  exact append_extract v

theorem calWrites_cells (p : Params) (i : CardIx) (c : ChanIx) :
    (calWrites p i c).map Prod.fst = [snsCalCell i c, snsCalCell i c + 1] := rfl

theorem cfgWrites_cells (p : Params) (i : CardIx) (c : ChanIx) :
    (cfgWrites p i c).map Prod.fst = [snsCfgCell i c, snsCfgCell i c + 1] := rfl

/-- R140: what the calibration write alone leaves of a chip's two words. -/
theorem Effect.calibrated (h : Effect s t n (calWrites s.params i c) es) (hm : Memory.wf s.mem = true) :
    t.devSnsCal i c = s.params.calWord ∧ t.devSnsCfg i c = s.devSnsCfg i c := by
  have hkept : ∀ b : Fin 2, Memory.read t.mem (snsCfgCell i c + b.val) = Memory.read s.mem (snsCfgCell i c + b.val) :=
    fun b => h.read_other fun hk => by
      simp only [calWrites_cells, List.mem_cons, List.not_mem_nil, or_false, snsCalCell_val, snsCfgCell_val] at hk
      omega
  exact ⟨h.read_half hm (by simp [calWrites_cells]) fun _ => id, congrArg₂ (· ++ ·) (hkept 0) (hkept 1)⟩

/-- R140: the cells of a chip's two words are four different ones. -/
theorem senseInit_nodup (p : Params) (i : CardIx) (c : ChanIx) :
    ((calWrites p i c ++ cfgWrites p i c).map Prod.fst).Nodup := by
  simp only [List.map_append, calWrites_cells, cfgWrites_cells, snsCalCell_val, snsCfgCell_val, List.cons_append,
    List.nil_append, List.nodup_cons, List.mem_cons, List.not_mem_nil, or_false, not_or, List.nodup_nil,
    not_false_eq_true, and_true]
  omega

/-- R140: what both writes leave. -/
theorem Effect.initialised (h : Effect s t n (calWrites s.params i c ++ cfgWrites s.params i c) es)
    (hm : Memory.wf s.mem = true) : t.devSnsCal i c = s.params.calWord ∧ t.devSnsCfg i c = s.params.cfgWord :=
  ⟨h.read_half hm (senseInit_nodup _ i c) fun _ hw => List.mem_append_left _ hw,
    h.read_half hm (senseInit_nodup _ i c) fun _ hw => List.mem_append_right _ hw⟩

/-- Settles O38: by where the first failure comes, if any; a write that fails leaves nothing of its word or all of it. -/
theorem senseInitWritesBothWords : Obligations.SenseInitWritesBothWords := by
  intro s i c hr cal cfg post
  have hpost : ∀ {t r n cells ws es}, t.response = some r → Effect s t n ws es → SameScratch s t → t.cards = s.cards →
      (∀ k ∈ ws.map Prod.fst, k ∈ cells) → post r n cells es t := fun hres he hs hc hcells =>
    ⟨hres, hc, fun k hk => he.read_other fun h => hk (hcells k h), he.hist, he.sameElsewhere hs, he.took⟩
  refine ⟨fun hb => ?_, fun hf => ?_, fun hf => ?_⟩
  · obtain ⟨t, ht, hres, he, hs, hc⟩ := (senseInitOp_runs c hr hb).internal fun _ => .nothing
    obtain ⟨hcal, hcfg⟩ := he.initialised hr.1
    exact ⟨t, ht, hcal, hcfg, hpost hres he hs hc fun _ => id⟩
  · obtain ⟨ws, hws, hx⟩ := senseInitOp_fails_first c hr (by rw [← State.answer_zero]; exact hf.2)
    obtain ⟨t, ht, hres, he, hs, hc⟩ := hx.internal fun _ => .nothing
    refine ⟨t, ht, ?_, hpost hres he hs hc ?_⟩
    · obtain rfl | rfl := hws
      · left
        unfold State.devSnsCal
        rw [he.mem]
        rfl
      · exact .inr (he.calibrated hr.1).1
    · obtain rfl | rfl := hws
      · nofun
      · exact fun _ => id
  · obtain ⟨ws, hws, hx⟩ := senseInitOp_fails_second c hr hf
    obtain ⟨t, ht, hres, he, hs, hc⟩ := hx.internal fun _ => .nothing
    obtain rfl | rfl := hws
    · rw [List.append_nil] at he
      obtain ⟨hcal, hcfg⟩ := he.calibrated hr.1
      exact ⟨t, ht, hcal, .inl hcfg, hpost hres he hs hc fun _ hk => List.mem_append_left _ hk⟩
    · obtain ⟨hcal, hcfg⟩ := he.initialised hr.1
      exact ⟨t, ht, hcal, .inr hcfg, hpost hres he hs hc fun _ => id⟩

end Sys2Proof.Machine
end

section
/-! Frames (R70, R72, R74): O1, O2, O3. -/

namespace Sys2Proof

namespace Laws.Encoding

/-- R70, R72: the frame of a well-formed operation decodes to it. -/
theorem frame_decode : ∀ i : Instr, Statement i
  | .readByte addr => readByte addr
  | .writeByte addr b => writeByte addr b
  | .readWord addr reg => readWord addr reg
  | .writeWord addr reg w => writeWord addr reg w
  | .writeBlock addr reg bs => writeBlock addr reg bs
  | .readBlock addr reg len => readBlock addr reg len
  | .isoSet a en aux1 aux2 => isoSet a en aux1 aux2
  | .openCard a => openCard a
  | .closeCard a => closeCard a
  | .xpWrite a chen tsten => xpWrite a chen tsten
  | .xpRead a => xpRead a
  | .enableChannel a ch on => enableChannel a ch on
  | .enableTestLoad a ch on => enableTestLoad a ch on
  | .isChannelEnabled a ch => isChannelEnabled a ch
  | .setLevel a ch v => setLevel a ch v
  | .setLevelMin a ch => setLevelMin a ch
  | .setLevelMax a ch => setLevelMax a ch
  | .readLevel a ch => readLevel a ch
  | .potWrite a ch p => potWrite a ch p
  | .senseInit a ch => senseInit a ch
  | .rawShunt a ch => rawShunt a ch
  | .rawBus a ch => rawBus a ch
  | .rawCurrent a ch => rawCurrent a ch
  | .rawPower a ch => rawPower a ch
  | .getBusVoltage a ch => getBusVoltage a ch
  | .getShuntVoltage a ch => getShuntVoltage a ch
  | .getCurrent a ch => getCurrent a ch
  | .cardConstruct a => cardConstruct a
  | .crateConstruct => crateConstruct
  | .shutdown => shutdown
  | .getAvailableCards => getAvailableCards
  | .crateEnableChannel c ch flag => crateEnableChannel c ch flag
  | .crateEnableTestLoad c ch flag => crateEnableTestLoad c ch flag
  | .crateIsChannelEnabled c ch => crateIsChannelEnabled c ch
  | .crateSetLevel c ch v => crateSetLevel c ch v
  | .crateGetBusVoltage c ch => crateGetBusVoltage c ch
  | .crateGetShuntVoltage c ch => crateGetShuntVoltage c ch
  | .crateGetCurrent c ch => crateGetCurrent c ch
  | .seekVoltage c ch target step => seekVoltage c ch target step
  | .seekCurrent c ch target step => seekCurrent c ch target step
  | .disableAllOutputs flag => disableAllOutputs flag
  | .enableAllOutputs => enableAllOutputs
  | .maxOutput => maxOutput
  | .minOutput => minOutput
  | .enableAllTestLoads => enableAllTestLoads
  | .disableAllTestLoads => disableAllTestLoads
  | .saveConfig flag => saveConfig flag
  | .loadConfig flag => loadConfig flag

end Laws.Encoding

theorem fitsRval_zero : fitsRval 0 := by decide

/-- Only the seeks carry a rational; every other frame's `rval` is 0. -/
theorem Instr.frame_fitsRval {i : Instr} (h : i.WellFormed) : fitsRval i.frame.rval := by
  cases i with
  | seekVoltage => exact h.2.2.1
  | seekCurrent => exact h.2.2.1
  | _ => exact fitsRval_zero

/-- Settles O1: the frame is read back from its bytes (`Frame.ofBytes_toBytes`), the operation from its frame. -/
theorem decodeOfEncode : Obligations.DecodeOfEncode := by
  intro i h
  rw [decode, encode, Frame.ofBytes_toBytes _ (Instr.frame_fitsRval h)]
  exact Laws.Encoding.frame_decode i h

/-- Settles O2. -/
theorem decodeSampleFrames : Obligations.DecodeSampleFrames := by
  unfold Obligations.DecodeSampleFrames
  decide

namespace Machine

/-- R72: the opcodes of the 20 host commands. -/
def hostOpcodes : List Nat :=
  [0x80, 0x81, 0x82, 0x90, 0x91, 0x92, 0x93, 0x94, 0x95, 0x96, 0x97, 0x98, 0xA0, 0xA1, 0xA2, 0xA3, 0xA4, 0xA5, 0xB0, 0xB1]

theorem opcode_mem_hostOpcodes {i : Instr} (h : i.isHost = true) : i.opcode.toNat ∈ hostOpcodes := by
  revert h
  cases i <;> simp [Instr.isHost, Instr.opcode, isHostOpcode, hostOpcodes]

/-- R74: a host frame is refused unless it is a host command's. -/
theorem accept_host_refuses {f : Frame} (h : f.op.toNat ∉ hostOpcodes) : accept .host f = .refuse := by
  unfold accept
  cases hd : f.decode with
  | error e => rfl
  | ok i =>
    have hi : i.isHost = false := Bool.eq_false_iff.mpr fun hh =>
      h (Frame.decode_opcode hd ▸ opcode_mem_hostOpcodes hh)
    simp [hi]

/-- Settles O3. -/
theorem hostFrameNeedsHostOpcode : Obligations.HostFrameNeedsHostOpcode := by
  intro s f rest hin hop
  unfold step
  simp only [hin, accept_host_refuses hop]
  rfl

end Machine

end Sys2Proof
end

section
/-! Operands an internal operation checks (R73, R110, R123, R133, R163): O18. -/

namespace Sys2Proof.Machine

variable {α β : Type}

/-- R222: the operation ends with `InvalidArgument` at once, whatever the state. -/
def Op.Refuses (x : Op α) : Prop := ∀ s : State, x s = .error (.failed .invalidArgument) s

theorem refuses_checkArg {ok : Bool} {f : Unit → Op α} (h : ok = false ∨ (f ⟨⟩).Refuses) : (checkArg ok >>= f).Refuses := by
  obtain rfl | h := h
  · exact fun _ => rfl
  · cases ok with
    | true => exact h
    | false => exact fun _ => rfl

theorem refuses_asBool {b : Option Bool} {f : Bool → Op α} (h : b = none ∨ ∀ v, (f v).Refuses) :
    (asBool b >>= f).Refuses := by
  obtain rfl | h := h
  · exact fun _ => rfl
  · cases b with
    | none => exact fun _ => rfl
    | some v => exact h v

theorem isChannel_eq_false {ch : Int} (h : ¬isChanNo ch) : isChannel ch = false :=
  Bool.eq_false_iff.mpr fun h' => h (isChannel_iff.mp h')

theorem isLevel_eq_false {v : Int} (h : ¬(0 ≤ v ∧ v ≤ 1023)) : isLevel v = false :=
  Bool.eq_false_iff.mpr fun h' => h (isLevel_iff.mp h')

theorem boolOfByte_eq_none {b : Byte} (h : NotBool b) : boolOfByte b = none := by
  rw [boolOfByte, if_neg h.1, if_neg h.2]

theorem boolOfInt_eq_none {x : Int} (h : NotBoolInt x) : boolOfInt x = none := by
  rw [boolOfInt, if_neg h.1, if_neg h.2]

/-- An operation that checks its channel first. -/
theorem refuses_channel {ch : Int} {f : Unit → Op α} (h : ¬isChanNo ch) : (checkArg (isChannel ch) >>= f).Refuses :=
  refuses_checkArg (.inl (isChannel_eq_false h))

/-- R123, R124: an operation that checks its channel and then a boolean. -/
theorem refuses_channel_flag {ch : Int} {on : Byte} {f : Bool → Op α} (h : ¬isChanNo ch ∨ NotBool on) :
    (checkArg (isChannel ch) >>= fun _ => asBool (boolOfByte on) >>= f).Refuses :=
  refuses_checkArg (h.imp isChannel_eq_false fun hon => refuses_asBool (.inl (boolOfByte_eq_none hon)))

theorem refuses_isoSetOp {a : Int} {en : Byte} {aux1 aux2 : Int} (h : NotBool en ∨ NotBoolInt aux1 ∨ NotBoolInt aux2) :
    (isoSetOp a en aux1 aux2).Refuses :=
  refuses_asBool (h.imp boolOfByte_eq_none fun h _ => refuses_asBool (h.imp boolOfInt_eq_none fun h _ =>
    refuses_asBool (.inl (boolOfInt_eq_none h))))

theorem refuses_setLevelOp {a ch v : Int} (h : ¬isChanNo ch ∨ ¬(0 ≤ v ∧ v ≤ 1023)) : (setLevelOp a ch v).Refuses :=
  refuses_checkArg (h.imp isChannel_eq_false fun hv => refuses_checkArg (.inl (isLevel_eq_false hv)))

/-- An internal operation that refuses its operands, run by itself (log 7). -/
theorem Op.Refuses.internal {x : Op α} (h : x.Refuses) (g : α → Value) (s : State) :
    runInternal (x >>= fun v => pure (g v)) s = .next { s with response := some (.failed .invalidArgument) } :=
  runInternal_failure (h s)

/-- Settles O18: each operation's own checks come before anything else it does. -/
theorem badCardArgumentsTouchNothing : Obligations.BadCardArgumentsTouchNothing := by
  intro i s h
  cases i with
  | isoSet => exact (refuses_isoSetOp h).internal (fun _ => .nothing) s
  | enableChannel a ch on => exact Op.Refuses.internal (x := enableChannelOp a ch on) (refuses_channel_flag h) (fun _ => .nothing) s
  | enableTestLoad a ch on => exact Op.Refuses.internal (x := enableTestLoadOp a ch on) (refuses_channel_flag h) (fun _ => .nothing) s
  | isChannelEnabled a ch => exact Op.Refuses.internal (x := isChannelEnabledOp a ch) (refuses_channel h) .bool s
  | setLevel => exact (refuses_setLevelOp h).internal (fun _ => .nothing) s
  | setLevelMin a ch => exact Op.Refuses.internal (x := setLevelMinOp a ch) (refuses_channel h) (fun _ => .nothing) s
  | setLevelMax a ch => exact Op.Refuses.internal (x := setLevelMaxOp a ch) (refuses_channel h) (fun _ => .nothing) s
  | readLevel a ch => exact Op.Refuses.internal (x := readLevelOp a ch) (refuses_channel h) (fun v => .int v) s
  | getBusVoltage a ch => exact Op.Refuses.internal (x := getBusVoltageOp a ch) (refuses_channel h) .real s
  | getShuntVoltage a ch => exact Op.Refuses.internal (x := getShuntVoltageOp a ch) (refuses_channel h) .real s
  | getCurrent a ch => exact Op.Refuses.internal (x := getCurrentOp a ch) (refuses_channel h) .real s
  | _ => exact h.elim

end Sys2Proof.Machine
end

section
/-! `ISO_SET`, the patterns of the levels, and the raw reads of an open card (R75, R79, R81, R82): O27, O37, O39. -/

namespace Sys2Proof.Machine

variable {α : Type} {s : State} {i : CardIx}

/-! ## The control byte (R75) -/

theorem getLsbD_isoCtl : ∀ (en aux1 aux2 : Bool) (j : Fin 8), (isoCtl en aux1 aux2).getLsbD j.val =
    if j.val = 7 then en else if j.val = 6 then !aux2 else if j.val = 5 then !aux1 else false := by
  decide

/-- R110. -/
theorem isoSetOp_runs (hp : s.present[i] = true) (ho : s.nextAnswer.ok = true) (en aux1 aux2 : Bool) :
    (isoSetOp (cardNo i) (byteOfBool en) (if aux1 then 1 else 0) (if aux2 then 1 else 0)).Runs s ⟨⟩ 1
      [(swCell i, isoCtl en aux1 aux2)] [switchEvent s.params i (isoCtl en aux1 aux2)] s.cards := by
  obtain ⟨t, ht, hrest⟩ := switchWrite_runs hp (isoLowBits_isoCtl en aux1 aux2) ho
  exact ⟨t, by rw [isoSetOp_eq (boolOfByte_byteOfBool en) (boolOfInt_ite aux1) (boolOfInt_ite aux2), ht], hrest⟩

/-- Settles O27. -/
theorem isoSetWritesControlByte : Obligations.IsoSetWritesControlByte := by
  intro s i en aux1 aux2 hm hp hb
  obtain ⟨t, ht, hres, he, hs, hc⟩ := (isoSetOp_runs hp (hb.next (by omega)) en aux1 aux2).internal fun _ => .nothing
  exact ⟨t, _, ht, hres, he.read_mem hm (by simp) (List.mem_singleton.mpr rfl), getLsbD_isoCtl en aux1 aux2,
    fun k hk => he.read_other hk, hc, he.hist, he.sameElsewhere hs, he.took⟩

/-! ## The patterns of the levels (R79, R138) -/

/-- R79: the three pairs of neighbouring levels that have the same bytes. -/
def AtBoundary (v w : Nat) : Prop := (v = 255 ∧ w = 256) ∨ (v = 511 ∧ w = 512) ∨ (v = 767 ∧ w = 768)

theorem byteSum_pattern {v : Nat} (hv : v ≤ 1023) : byteSum (patternBytes (potPattern v)) = v - v / 256 :=
  byteSum_patternBytes_potPattern ⟨v, by omega⟩

theorem patternBytes_eq_of_atBoundary {v w : Nat} (h : AtBoundary v w) :
    patternBytes (potPattern v) = patternBytes (potPattern w) := by
  obtain ⟨rfl, rfl⟩ | ⟨rfl, rfl⟩ | ⟨rfl, rfl⟩ := h <;> decide

/-- Settles O37: the byte sum of a level is `v - v / 256`, so equal patterns, whose sums are equal, meet at a boundary only. -/
theorem levelPatternsCollideOnlyAtBoundaries : Obligations.LevelPatternsCollideOnlyAtBoundaries := by
  intro v w hvw hw
  have hsum : byteSum (patternBytes (potPattern v)) = byteSum (patternBytes (potPattern w)) ↔ AtBoundary v w := by
    rw [byteSum_pattern (by omega), byteSum_pattern hw, AtBoundary]
    omega
  refine ⟨⟨fun h => hsum.mp (congrArg byteSum h), patternBytes_eq_of_atBoundary⟩, ?_, hsum⟩
  rw [byteSum_pattern (by omega), byteSum_pattern hw]
  omega

/-! ## The raw reads (R141 to R146) -/

/-- R146: a raw read that rewrites the calibration word and goes on with `y`, one read: the rewrite fails, or the read does. -/
theorem calibratedRead_fails {c : ChanIx} {x : Op Int} {y : ChanIx → Op Int} {reg : Params → Nat} (hr : Ready s i)
    (hx : x = (do requireOpen (cardNo i); let k ← chanIx (chanNo c); calibrate k; y k))
    (hy : ∀ t, Ready t i → t.nextAnswer.ok = false →
      (y c).Fails t 1 [] [senseFailed t.params c (reg t.params)] t.cards) :
    (FirstBusError 0 s → ∃ ws, (ws = [] ∨ ws = calWrites s.params i c) ∧ x.Fails s 1 ws [calFailed s.params c] s.cards) ∧
    (FirstBusError 1 s → x.Fails s 2 (calWrites s.params i c)
      [calEvent s.params c, senseFailed s.params c (reg s.params)] s.cards) := by
  simp only [hx, chanIx_chanNo, Op.pure_bind]
  refine ⟨fun hf => ?_, fun hf => ?_⟩
  · obtain ⟨ws, hws, h⟩ := calibrate_fails c hr (by rw [← State.answer_zero]; exact hf.2)
    exact ⟨ws, hws, h.bind.then hr.requireOpen⟩
  · have h := calThen_fails (c := c) (y := y c) hr hf.1 fun t hrt hp _ hn => hp ▸ hy t hrt (hn ▸ hf.2)
    rw [List.append_nil] at h
    exact h.then hr.requireOpen

/-- Settles O39: three reads after a calibration rewrite, by where the first failure comes, and one read alone. -/
theorem rawReadsReturnSignedRegister : Obligations.RawReadsReturnSignedRegister := by
  intro s i c hr readEvent readFails cal post reads
  have hpost : ∀ {t r n ws es}, t.response = some r → Effect s t n ws es → SameScratch s t → t.cards = s.cards →
      (ws = [] ∨ ws = calWrites s.params i c) → post r n es t := fun hres he hs hc hws =>
    ⟨hres, hc, fun k hk => he.read_other fun h => hk (by obtain rfl | rfl := hws; exacts [absurd h List.not_mem_nil, h]), he.hist,
      he.sameElsewhere hs, he.took⟩
  have hreads : ∀ {x : Op Int} {y : ChanIx → Op Int} {reg : Params → Nat} {op : Instr} {n : Int},
      exec op s = runInternal (x >>= fun v => pure (.int v)) s →
      x = (do requireOpen (cardNo i); let k ← chanIx (chanNo c); calibrate k; y k) →
      (∀ t, Ready t i → t.nextAnswer.ok = false → (y c).Fails t 1 [] [senseFailed t.params c (reg t.params)] t.cards) →
      (NoBusError 2 s → x.Runs s n 2 (calWrites s.params i c)
        [calEvent s.params c, senseEvent s.params c (reg s.params) (s.answer 1).word] s.cards) →
      reads op (reg s.params) n := by
    intro x y reg op n hop hx hy hruns
    obtain ⟨hfirst, hsecond⟩ := calibratedRead_fails hr hx hy
    refine ⟨fun hb => ?_, fun hf => ?_, fun hf => ?_⟩
    · obtain ⟨t, ht, hres, he, hs, hc⟩ := (hruns hb).internal .int
      exact ⟨t, hop.trans ht, (he.calibrated hr.1).1, hpost hres he hs hc (.inr rfl)⟩
    · obtain ⟨ws, hws, h⟩ := hfirst hf
      obtain ⟨t, ht, hres, he, hs, hc⟩ := h.internal .int
      refine ⟨t, hop.trans ht, ?_, hpost hres he hs hc hws⟩
      obtain rfl | rfl := hws
      · exact .inl (by unfold State.devSnsCal; rw [he.mem]; rfl)
      · exact .inr (he.calibrated hr.1).1
    · obtain ⟨t, ht, hres, he, hs, hc⟩ := (hsecond hf).internal .int
      exact ⟨t, hop.trans ht, (he.calibrated hr.1).1, hpost hres he hs hc (.inr rfl)⟩
  have hread : ∀ {reg : Params → Nat}, (∀ p : Params, p.Valid → ResultReg p (reg p)) → ∀ t, Ready t i →
      t.nextAnswer.ok = false → (readSense c reg).Fails t 1 [] [senseFailed t.params c (reg t.params)] t.cards :=
    fun hg t hrt ho => readSense_fails c (hg _ hrt.2.1) hrt ho
  refine ⟨fun hb => ?_, fun hf => ?_, ?_, ?_, ?_⟩
  · obtain ⟨t, ht, he, hs, hc⟩ := rawShuntOp_runs c hr (hb.next (by omega))
    rw [State.answer_zero]
    exact (runInternal_value (g := .int) ht).trans (congrArg _ (he.respond_eq hs hc _))
  · obtain ⟨t, ht, he, hs, hc⟩ := rawShuntOp_fails c hr (by rw [← State.answer_zero]; exact hf.2)
    exact (runInternal_failure (g := .int) ht).trans (congrArg _ (he.respond_eq hs hc _))
  · exact hreads (reg := Params.snsRegBus) rfl rfl
      (fun t hrt ho => (hread (fun _ hv => (snsRegs_distinct hv).2.1) t hrt ho).bind) (rawBusOp_runs c hr)
  · exact hreads (reg := Params.snsRegCurrent) rfl rfl (hread fun _ hv => (snsRegs_distinct hv).2.2.2)
      (rawCurrentOp_runs c hr)
  · exact hreads (reg := Params.snsRegPower) rfl rfl (hread fun _ hv => (snsRegs_distinct hv).2.2.1)
      (rawPowerOp_runs c hr)

end Sys2Proof.Machine
end

section
/-! Commands over the live cards (R191): a body that is known transaction by transaction on one open card (`BulkAct`) is known of the
whole command, whether it comes to its end (`BulkDone`) or to its first failure (`StoppedAt`). -/

namespace Sys2Proof.Machine

variable {s : State} {n : Nat} {act : Int → Op Unit} {card : Nat → CardIx → Card} {dev : Nat → CardIx → State → Prop}
  {ok : Nat → CardIx → Prop} {op : Byte} {i : CardIx} {k : Nat}

/-- A live card's masks. -/
theorem CommandReady.masks (hr : CommandReady s) (hl : s.cards[i].live = true) :
    ∃ m l, s.cards[i].chen = some m ∧ s.cards[i].tsten = some l := by
  obtain ⟨-, -, -, -, hcomplete⟩ := hr
  obtain ⟨-, hchen, htsten, -⟩ := hcomplete i hl
  obtain ⟨m, hm⟩ := Option.isSome_iff_exists.mp hchen
  obtain ⟨l, hl⟩ := Option.isSome_iff_exists.mp htsten
  exact ⟨m, l, hm, hl⟩

/-- What a body of `n` transactions does on a live card of `s` that has just been opened: `card a j` is card `j`'s cached state, and
`dev a j` what its devices hold, when the first `a` transactions are done. `ok a j` is what the first `a` and the one after them need. -/
structure BulkAct (s : State) (n : Nat) (act : Int → Op Unit) (card : Nat → CardIx → Card)
    (dev : Nat → CardIx → State → Prop) (ok : Nat → CardIx → Prop) : Prop where
  stable : DevStable dev
  runs : ∀ j u, s.cards[j].live = true → ok n j → Opened s j u → NoBusError n u →
    ∃ v, act (cardNo j) u = .ok ⟨⟩ v ∧ ChanLoop u j n { card n j with iso := some .opened } v ∧ dev n j v
  fails : ∀ j u a, s.cards[j].live = true → a < n → ok a j → Opened s j u → FirstBusError a u →
    ∃ v, act (cardNo j) u = .error (.failed .busError) v ∧
      ChanStop u j .busError a { card a j with iso := some .opened } v ∧ dev a j v

/-- What a command over the live cards leaves that came to its end: every live card has the cached state `card` but is closed, its
devices meet `dev`, and the cards not live are untouched. -/
structure BulkDone (s : State) (card : CardIx → Card) (dev : CardIx → State → Prop) (t : State) : Prop where
  response : t.response = some (.ok .nothing)
  cards : ∀ i : CardIx, t.cards[i] = if s.cards[i].live then { card i with iso := some .closed } else s.cards[i]
  switch : ∀ i : CardIx, s.cards[i].live = true → t.devSw i = closeByte
  devices : ∀ i : CardIx, s.cards[i].live = true → dev i t
  others : ∀ i : CardIx, s.cards[i].live = false → ∀ k, CardCell i k → Memory.read t.mem k = Memory.read s.mem k
  closed : NoneConnected t
  elsewhere : SameElsewhere s t

/-- R191: no transaction fails. -/
theorem BulkAct.command_runs (h : BulkAct s n act card dev ok) (hr : CommandReady s) (hp : LiveCardsPlugged s)
    (hb : NoBusError ((n + 2) * 18) s) (hok : ∀ j : CardIx, s.cards[j].live = true → ok n j) :
    ∃ t, runCommand op true noCardNeeded (forLiveCards act) s = .next t ∧ BulkDone s (card n) (dev n) t := by
  obtain ⟨t, ht, hres, hcards, hdev, hn, hs⟩ := runBulk_runs (op := op) (act := act) (N := n)
    (F := fun i : CardIx => if s.cards[i].live then { card n i with iso := some .closed } else s.cards[i])
    (dev := fun i t => (s.cards[i].live = true → t.devSw i = closeByte ∧ dev n i t) ∧
      (s.cards[i].live = false → ∀ k, CardCell i k → Memory.read t.mem k = Memory.read s.mem k)) hr hp hb
    (fun i hl => if_neg (by rw [hl]; exact Bool.false_ne_true))
    (fun i t u hk hd => ⟨fun hl => ⟨(hk _ (cardCell_swCell i)).trans (hd.1 hl).1,
      h.stable n i t u (fun k hc _ => hk k hc) (hd.1 hl).2⟩, fun hl k hc => (hk k hc).trans (hd.2 hl k hc)⟩)
    (fun i t hl hk => ⟨fun hl' => absurd (hl'.symm.trans hl) (by decide), fun _ => hk⟩)
    (fun i u hl hru hcu hcfg hmem hbu => by
      obtain ⟨v, hv, hloop, hdv⟩ := h.runs i u hl (hok i hl) ⟨hru, hcu, hcfg, hmem⟩ hbu
      exact ⟨v, _, hv, hloop, if_pos hl, fun w hw hsw => ⟨fun _ => ⟨hsw, h.stable n i v w (fun k _ hne => hw k hne) hdv⟩,
        fun hl' => absurd (hl.symm.trans hl') (by decide)⟩⟩)
  exact ⟨t, ht, hres, hcards, fun i hl => ((hdev i).1 hl).1, fun i hl => ((hdev i).1 hl).2, fun i hl => (hdev i).2 hl, hn, hs⟩

/-- R191, R229: the first transaction that fails is number `k` of card `i`'s bracket. -/
theorem BulkAct.command_fails (h : BulkAct s n act card dev ok) (hr : CommandReady s) (hf : FailsAt s n i k)
    (hbelow : ∀ j < i, s.cards[j].live = true → ok n j) (hat : ∀ a, k = a + 1 → ok a i) :
    ∃ t, runCommand op true noCardNeeded (forLiveCards act) s = .next t ∧ StoppedAt s t op .busError n i k card dev := by
  obtain ⟨hreach, hk, hfail⟩ := hf
  refine runBulk_stops hr h.stable hreach hk (fun hne => absurd rfl hne) ?_ (fun j u hl hj hou hb => ?_)
    fun u h1 hn hou hb hans => ?_
  · cases hp : s.present[i] with
    | true => exact fun _ => by rwa [hp] at hfail
    | false => exact ⟨by rwa [hp] at hfail, rfl⟩
  · refine h.runs j u hl ?_ hou hb
    obtain hj | ⟨rfl, hk⟩ := hj
    · exact hbelow j hj hl
    · exact hat n hk
  · exact h.fails i u (k - 1) hreach.1 (by omega) (hat _ (by omega)) hou ⟨hb, hans rfl⟩

end Sys2Proof.Machine
end

section
/-! `ENABLE_ALL_OUTPUTS`, `DISABLE_ALL_OUTPUTS` (R194, R195): O51. -/

namespace Sys2Proof.Machine

variable {s u v : State} {i : CardIx} {on z : Bool} {m l : Byte} {k : Nat}

/-- A live card when the first `m` transactions of its body are done: eight enables, then the eight levels. -/
def switchedCard (s : State) (on : Bool) (m : Nat) (i : CardIx) : Card :=
  { s.cards[i] with chen := s.cards[i].chen.map (maskUpTo m fun _ => on)
                    level := levelsUpTo (m - 8) (fun _ => 0) s.cards[i].level }

/-- What its devices hold then: the expander's bytes are those of the last write done or of the one that failed. -/
def SwitchedDev (s : State) (on z : Bool) (m : Nat) (i : CardIx) (t : State) : Prop :=
  (∀ b ∈ s.cards[i].chen, t.devXp i 0 = (if m = 0 then s.devXp i 0 else ~~~(maskUpTo m (fun _ => on) b)) ∨
    t.devXp i 0 = ~~~(maskUpTo (m + 1) (fun _ => on) b)) ∧
  (∀ l ∈ s.cards[i].tsten, t.devXp i 1 = ~~~l ∨ (m = 0 ∧ t.devXp i 1 = s.devXp i 1)) ∧
  (∀ (c : ChanIx) (j : Fin 4), (c.val + 8 < m → t.devPot i c j.val = 0x00#8) ∧
    (m < c.val + 8 ∨ z = false → t.devPot i c j.val = s.devPot i c j.val))

theorem switchedDev_stable (s : State) (on z : Bool) : DevStable (SwitchedDev s on z) := by
  intro m j t u hk h
  obtain ⟨hxp, hpot⟩ := same_bytes hk
  simpa only [SwitchedDev, hxp, hpot] using h

/-- From the eighth channel on, a mask of one value is all ones or all zeros. -/
theorem maskUpTo_const {n : Nat} (hn : 8 ≤ n) (on : Bool) (b : Byte) :
    maskUpTo n (fun _ => on) b = if on then 0xFF#8 else 0x00#8 := by
  rw [maskUpTo_full hn (le_refl 8)]
  refine byte_ext fun d => ?_
  rw [getLsbD_maskUpTo, if_pos d.lt]
  revert d
  cases on <;> decide

theorem levelsUpTo_const (v : Nat) (L : Vector (Option Nat) Config.pb.nChan) :
    levelsUpTo 8 (fun _ => v) L = Vector.replicate Config.pb.nChan (some v) :=
  levels_ext fun c => by
    rw [levelsUpTo_get, if_pos c.lt]
    simp

/-- The cached state during the eight enables. -/
theorem Opened.card_switched (hou : Opened s i u) (hm : s.cards[i].chen = some m) (hl : s.cards[i].tsten = some l) (hk : k ≤ 8) :
    { u.cards[i] with chen := some (maskUpTo k (fun _ => on) m), tsten := some l } =
      { switchedCard s on k i with iso := some .opened } := by
  rw [hou.card, switchedCard, hm, ← hl, Nat.sub_eq_zero_of_le hk, levelsUpTo_zero]
  rfl

/-- The cached state during the eight levels after them. -/
theorem Opened.card_zeroed (hou : Opened s i u) (hm : s.cards[i].chen = some m) (hl : s.cards[i].tsten = some l) (k : Nat) :
    { u.cards[i] with chen := some (maskUpTo 8 (fun _ => on) m), tsten := some l,
                      level := levelsUpTo k (fun _ => 0) u.cards[i].level } =
      { switchedCard s on (8 + k) i with iso := some .opened } := by
  rw [hou.card, switchedCard, hm, ← hl, Nat.add_sub_cancel_left, maskUpTo_full (le_refl 8) (Nat.le_add_right 8 k)]
  rfl

/-- The devices during the eight enables, the last one done or failed. -/
theorem Opened.dev_switched (hou : Opened s i u) (hm : s.cards[i].chen = some m) (hl : s.cards[i].tsten = some l) (hk : k ≤ 8)
    (h0 : v.devXp i 0 = (if k = 0 then u.devXp i 0 else ~~~(maskUpTo k (fun _ => on) m)) ∨
      v.devXp i 0 = ~~~(maskUpTo (k + 1) (fun _ => on) m))
    (h1 : v.devXp i 1 = ~~~l ∨ (k = 0 ∧ v.devXp i 1 = u.devXp i 1)) (hp : SamePots i u v) : SwitchedDev s on z k i v := by
  rw [hou.xp] at h0 h1
  refine ⟨fun b hb => ?_, fun b hb => ?_, fun c j => ⟨fun h => absurd h (by omega), fun _ => (hp c j).trans (hou.pots c j)⟩⟩
  · obtain rfl := Option.some.inj (hm.symm.trans hb)
    exact h0
  · obtain rfl := Option.some.inj (hl.symm.trans hb)
    exact h1

theorem MaskLoop.xp1_or {f : ChanIx → Bool} (h : MaskLoop s i f m l k v) :
    v.devXp i 1 = ~~~l ∨ (k = 0 ∧ v.devXp i 1 = s.devXp i 1) := by
  have h1 := h.xp1
  split_ifs at h1 with hk
  · exact .inr ⟨hk, h1⟩
  · exact .inl h1

/-- The devices during the eight levels, the last one done or failed. -/
theorem Opened.dev_zeroed {w : State} (hou : Opened s i u) (hm : s.cards[i].chen = some m) (hl : s.cards[i].tsten = some l)
    (h : MaskLoop u i (fun _ => on) m l 8 v) (hxp : ∀ j : Fin 2, w.devXp i j = v.devXp i j)
    (hsent : ∀ (c : ChanIx) (j : Fin 4), c.val < k → w.devPot i c j.val = 0x00#8)
    (hrest : ∀ (c : ChanIx) (j : Fin 4), k < c.val → w.devPot i c j.val = v.devPot i c j.val) :
    SwitchedDev s on true (8 + k) i w := by
  refine ⟨fun b hb => .inl ?_, fun b hb => .inl ?_, fun c j => ⟨fun hc => hsent c j (by omega), fun hc => ?_⟩⟩
  · obtain rfl := Option.some.inj (hm.symm.trans hb)
    rw [hxp, h.xp0, if_neg (by omega), if_neg (by omega), maskUpTo_full (le_refl 8) (Nat.le_add_right 8 k)]
  · obtain rfl := Option.some.inj (hl.symm.trans hb)
    rw [hxp, h.xp1, if_neg (by omega)]
  · rw [hrest c j (by obtain hc | hc := hc; exacts [by omega, absurd hc (by decide)]), h.pots c j, hou.pots c j]

/-- R194, R195: the eight enables of every live card. -/
theorem bulkAct_switch (hr : CommandReady s) (on z : Bool) :
    BulkAct s 8 (fun a => forChans fun ch => enableChannelOp a ch (byteOfBool on)) (switchedCard s on) (SwitchedDev s on z)
      fun _ _ => True where
  stable := switchedDev_stable s on z
  runs j u hlive _ hou hb := by
    obtain ⟨m, l, hm, hl, hmu, hlu⟩ := hou.masks hr hlive
    obtain ⟨v, hv, h⟩ := switchChans_runs on hou.ready hb hmu hlu
    exact ⟨v, hv, hou.card_switched hm hl (le_refl 8) ▸ h.loop, hou.dev_switched hm hl (le_refl 8) (.inl h.xp0) h.xp1_or h.pots⟩
  fails j u a hlive ha _ hou hf := by
    obtain ⟨m, l, hm, hl, hmu, hlu⟩ := hou.masks hr hlive
    obtain ⟨v, hv, h⟩ := switchChans_fails on hou.ready ha hf hmu hlu
    exact ⟨v, hv, hou.card_switched hm hl (le_of_lt ha) ▸ h.stop, hou.dev_switched hm hl (le_of_lt ha) h.xp0 h.xp1 h.pots⟩

theorem disableOutputsAct_false :
    disableOutputsAct false = fun a => forChans fun ch => enableChannelOp a ch (byteOfBool false) := by
  funext a
  exact bind_pure _

/-- R194: with `zero_level`, the eight enables and then the eight levels. -/
theorem bulkAct_zero (hr : CommandReady s) :
    BulkAct s 16 (disableOutputsAct true) (switchedCard s false) (SwitchedDev s false true) fun _ _ => True where
  stable := switchedDev_stable s false true
  runs j u hlive _ hou hb := by
    obtain ⟨m, l, hm, hl, hmu, hlu⟩ := hou.masks hr hlive
    obtain ⟨v, hv, h⟩ := switchChans_runs false hou.ready (hb.mono (by omega)) hmu hlu
    obtain ⟨w, hw, g⟩ := levelChans_runs (levelOp_min j) (h.loop.ready hou.ready rfl) (h.loop.after hb (by omega))
    have hloop := h.loop.trans g.loop
    rw [h.loop.card, hou.card_zeroed hm hl] at hloop
    exact ⟨w, (Op.bind_ok hv).trans hw, hloop,
      hou.dev_zeroed hm hl h g.xp g.sent fun c j hc => g.rest c j (le_of_lt hc)⟩
  fails j u a hlive ha _ hou hf := by
    by_cases h8 : a < 8
    · obtain ⟨v, hv, hrest⟩ := (bulkAct_switch hr false true).fails j u a hlive h8 trivial hou hf
      exact ⟨v, Op.bind_error hv, hrest⟩
    · obtain ⟨k, rfl⟩ := Nat.exists_eq_add_of_le (Nat.le_of_not_lt h8)
      obtain ⟨m, l, hm, hl, hmu, hlu⟩ := hou.masks hr hlive
      obtain ⟨v, hv, h⟩ := switchChans_runs false hou.ready (hf.1.mono (by omega)) hmu hlu
      obtain ⟨W, es, he, -, -⟩ := h.loop.run
      have hfv := hf.after he (by omega)
      rw [Nat.add_sub_cancel_left] at hfv
      obtain ⟨w, hw, g⟩ := levelChans_fails (levelOp_min j) (h.loop.ready hou.ready rfl) (by omega) hfv
      have hstop := h.loop.stop g.stop
      rw [h.loop.card, hou.card_zeroed hm hl] at hstop
      exact ⟨w, (Op.bind_ok hv).trans hw, hstop, hou.dev_zeroed hm hl h g.xp g.sent g.rest⟩

/-- R194: `DISABLE_ALL_OUTPUTS`, with `zero_level` or without. -/
theorem bulkAct_disable (hr : CommandReady s) (z : Bool) :
    BulkAct s (if z then 16 else 8) (disableOutputsAct z) (switchedCard s false) (SwitchedDev s false z) fun _ _ => True := by
  cases z with
  | true => exact bulkAct_zero hr
  | false =>
    rw [disableOutputsAct_false]
    exact bulkAct_switch hr false false

/-- Settles O51: both commands are a `BulkAct`; past its eight enables a card's mask is all ones or all zeros. -/
theorem bulkOutputCommands : Obligations.BulkOutputCommands := by
  intro s zero hr post switched sent
  have hpost : ∀ {on z : Bool} {n : Nat} {t : State}, n = (if z then 16 else 8) →
      BulkDone s (switchedCard s on n) (SwitchedDev s on z n) t → post (if on then 0xFF#8 else 0x00#8) z t := by
    intro on z n t hn h
    have h8 : 8 ≤ n := by rw [hn]; split <;> omega
    refine ⟨h.response, fun i => ?_, fun i hlive => ?_, h.others, h.closed, h.elsewhere⟩
    · rw [h.cards i]
      split
      · next hlive =>
        obtain ⟨m, -, hm, -⟩ := hr.masks hlive
        have hlevel : levelsUpTo (n - 8) (fun _ => 0) s.cards[i].level =
            if z then Vector.replicate Config.pb.nChan (some 0) else s.cards[i].level := by
          cases z with
          | true => rw [hn]; exact levelsUpTo_const 0 _
          | false => rw [hn]; exact levelsUpTo_zero _ _
        rw [switchedCard, hm, Option.map_some, maskUpTo_const h8, hlevel]
      · rfl
    · obtain ⟨m, -, hm, -⟩ := hr.masks hlive
      obtain ⟨hchen, htsten, hpots⟩ := h.devices i hlive
      refine ⟨?_, h.switch i hlive, fun l hl => (htsten l hl).resolve_right fun h0 => absurd h0.1 (by omega), fun c j => ?_⟩
      · have hxp := hchen m hm
        rwa [if_neg (by omega), maskUpTo_const h8, maskUpTo_const (by omega), or_self] at hxp
      · cases z with
        | true => exact (hpots c j).1 (by rw [hn, if_pos rfl]; have := ChanIx.lt c; omega)
        | false => exact (hpots c j).2 (.inr rfl)
  have hdisable : ∀ t, exec (.disableAllOutputs (byteOfBool zero)) s = .next t ↔
      runCommand 0xA0#8 true noCardNeeded (forLiveCards (disableOutputsAct zero)) s = .next t := fun t => by
    change execDisableAllOutputs (byteOfBool zero) s = .next t ↔ _
    rw [execDisableAllOutputs, isFlag_byteOfBool, flagSet_byteOfBool]
  simp only [hdisable]
  refine ⟨fun hp hb => ⟨?_, ?_⟩, fun i k hf => ?_, fun i k hf => ?_⟩
  · obtain ⟨t, ht, h⟩ := (bulkAct_switch hr true false).command_runs hr hp (hb.mono (by omega)) fun _ _ => trivial
    exact ⟨t, ht, hpost (on := true) (z := false) rfl h⟩
  · obtain ⟨t, ht, h⟩ := (bulkAct_disable hr zero).command_runs hr hp (hb.mono (by split <;> omega)) fun _ _ => trivial
    exact ⟨t, ht, hpost (on := false) (z := zero) rfl h⟩
  · exact (bulkAct_switch hr true false).command_fails hr hf (fun _ _ _ => trivial) fun _ _ => trivial
  · exact (bulkAct_disable hr zero).command_fails hr hf (fun _ _ _ => trivial) fun _ _ => trivial

end Sys2Proof.Machine
end

section
/-! `MAX_OUTPUT`, `MIN_OUTPUT`, `ENABLE_ALL_TEST_LOADS`, `DISABLE_ALL_TEST_LOADS` (R196 to R199): O52. -/

namespace Sys2Proof.Machine

variable {s u v : State} {i : CardIx} {on : Bool} {m l : Byte} {k : Nat}

/-! ## The levels (R196, R197) -/

/-- A live card when the levels of the first `m` channels are set to `x`. -/
def leveledCard (s : State) (x : Nat) (m : Nat) (i : CardIx) : Card :=
  { s.cards[i] with level := levelsUpTo m (fun _ => x) s.cards[i].level }

/-- What its devices hold then: nothing is said of the four bytes of channel `m`, whose write may have failed. -/
def LeveledDev (s : State) (b : Byte) (m : Nat) (i : CardIx) (t : State) : Prop :=
  (∀ (c : ChanIx) (j : Fin 4), (c.val < m → t.devPot i c j.val = b) ∧
    (m < c.val → t.devPot i c j.val = s.devPot i c j.val)) ∧ (∀ j : Fin 2, t.devXp i j = s.devXp i j)

theorem leveledDev_stable (s : State) (b : Byte) : DevStable (LeveledDev s b) := by
  intro m j t u hk h
  obtain ⟨hxp, hpot⟩ := same_bytes hk
  simpa only [LeveledDev, hxp, hpot] using h

theorem Opened.card_leveled (hou : Opened s i u) (x k : Nat) :
    { u.cards[i] with level := levelsUpTo k (fun _ => x) u.cards[i].level } =
      { leveledCard s x k i with iso := some .opened } := by
  rw [hou.card, leveledCard]

theorem Opened.dev_leveled {b : Byte} (hou : Opened s i u) (hxp : ∀ j : Fin 2, v.devXp i j = u.devXp i j)
    (hsent : ∀ (c : ChanIx) (j : Fin 4), c.val < k → v.devPot i c j.val = b)
    (hrest : ∀ (c : ChanIx) (j : Fin 4), k < c.val → v.devPot i c j.val = u.devPot i c j.val) : LeveledDev s b k i v :=
  ⟨fun c j => ⟨hsent c j, fun hc => (hrest c j hc).trans (hou.pots c j)⟩, fun j => (hxp j).trans (hou.xp j)⟩

/-- R196, R197: an operation that sets one level to `x`, with bytes `b`, on the eight channels of every live card. -/
theorem bulkAct_levels {op : Int → Int → Op Unit} {x : Nat} {b : Byte} (s : State)
    (hop : ∀ i : CardIx, LevelOp (op (cardNo i)) i x b) :
    BulkAct s 8 (fun a => forChans fun ch => op a ch) (leveledCard s x) (LeveledDev s b) fun _ _ => True where
  stable := leveledDev_stable s b
  runs j u _ _ hou hb := by
    obtain ⟨v, hv, h⟩ := levelChans_runs (hop j) hou.ready hb
    exact ⟨v, hv, hou.card_leveled x 8 ▸ h.loop, hou.dev_leveled h.xp h.sent fun c j hc => h.rest c j (le_of_lt hc)⟩
  fails j u a _ ha _ hou hf := by
    obtain ⟨v, hv, h⟩ := levelChans_fails (hop j) hou.ready ha hf
    exact ⟨v, hv, hou.card_leveled x a ▸ h.stop, hou.dev_leveled h.xp h.sent h.rest⟩

/-! ## The test loads (R198, R199) -/

/-- A live card when the test loads of the first `m` channels are switched. -/
def loadedCard (s : State) (on : Bool) (m : Nat) (i : CardIx) : Card :=
  { s.cards[i] with tsten := s.cards[i].tsten.map (maskUpTo m fun _ => on) }

/-- What its devices hold then: the expander's bytes are those of the last write done or of the one that failed. -/
def LoadedDev (s : State) (on : Bool) (m : Nat) (i : CardIx) (t : State) : Prop :=
  (∀ l ∈ s.cards[i].tsten, t.devXp i 1 = (if m = 0 then s.devXp i 1 else ~~~(maskUpTo m (fun _ => on) l)) ∨
    t.devXp i 1 = ~~~(maskUpTo (m + 1) (fun _ => on) l)) ∧
  (∀ b ∈ s.cards[i].chen, t.devXp i 0 = ~~~b ∨ (m = 0 ∧ t.devXp i 0 = s.devXp i 0)) ∧
  (∀ (c : ChanIx) (j : Fin 4), t.devPot i c j.val = s.devPot i c j.val)

theorem loadedDev_stable (s : State) (on : Bool) : DevStable (LoadedDev s on) := by
  intro m j t u hk h
  obtain ⟨hxp, hpot⟩ := same_bytes hk
  simpa only [LoadedDev, hxp, hpot] using h

theorem Opened.card_loaded (hou : Opened s i u) (hm : s.cards[i].chen = some m) (hl : s.cards[i].tsten = some l) (k : Nat) :
    { u.cards[i] with chen := some m, tsten := some (maskUpTo k (fun _ => on) l) } =
      { loadedCard s on k i with iso := some .opened } := by
  rw [hou.card, loadedCard, hl, ← hm]
  rfl

theorem Opened.dev_loaded (hou : Opened s i u) (hm : s.cards[i].chen = some m) (hl : s.cards[i].tsten = some l)
    (h0 : v.devXp i 0 = ~~~m ∨ (k = 0 ∧ v.devXp i 0 = u.devXp i 0))
    (h1 : v.devXp i 1 = (if k = 0 then u.devXp i 1 else ~~~(maskUpTo k (fun _ => on) l)) ∨
      v.devXp i 1 = ~~~(maskUpTo (k + 1) (fun _ => on) l)) (hp : SamePots i u v) : LoadedDev s on k i v := by
  rw [hou.xp] at h0 h1
  refine ⟨fun b hb => ?_, fun b hb => ?_, fun c j => (hp c j).trans (hou.pots c j)⟩
  · obtain rfl := Option.some.inj (hl.symm.trans hb)
    exact h1
  · obtain rfl := Option.some.inj (hm.symm.trans hb)
    exact h0

theorem LoadLoop.xp0_or {f : ChanIx → Bool} (h : LoadLoop s i f m l k v) :
    v.devXp i 0 = ~~~m ∨ (k = 0 ∧ v.devXp i 0 = s.devXp i 0) := by
  have h0 := h.xp0
  split_ifs at h0 with hk
  · exact .inr ⟨hk, h0⟩
  · exact .inl h0

/-- R198, R199: the eight test loads of every live card. -/
theorem bulkAct_loads (hr : CommandReady s) (on : Bool) :
    BulkAct s 8 (fun a => forChans fun ch => enableTestLoadOp a ch (byteOfBool on)) (loadedCard s on) (LoadedDev s on)
      fun _ _ => True where
  stable := loadedDev_stable s on
  runs j u hlive _ hou hb := by
    obtain ⟨m, l, hm, hl, hmu, hlu⟩ := hou.masks hr hlive
    obtain ⟨v, hv, h⟩ := switchLoads_runs on hou.ready hb hmu hlu
    exact ⟨v, hv, hou.card_loaded hm hl 8 ▸ h.loop, hou.dev_loaded hm hl h.xp0_or (.inl h.xp1) h.pots⟩
  fails j u a hlive ha _ hou hf := by
    obtain ⟨m, l, hm, hl, hmu, hlu⟩ := hou.masks hr hlive
    obtain ⟨v, hv, h⟩ := switchLoads_fails on hou.ready ha hf hmu hlu
    exact ⟨v, hv, hou.card_loaded hm hl a ▸ h.stop, hou.dev_loaded hm hl h.xp0 h.xp1 h.pots⟩

/-- Settles O52: the four commands are a `BulkAct` each. -/
theorem bulkLevelAndTestLoadCommands : Obligations.BulkLevelAndTestLoadCommands := by
  intro s hr post levels loads leveled levelsSent loaded loadsSent
  have hlevels : ∀ {x b t}, BulkDone s (leveledCard s x 8) (LeveledDev s b 8) t →
      post (levels x) (fun i t => ∀ (c : ChanIx) (j : Fin 4), t.devPot i c j.val = b) t := fun {x b t} h =>
    ⟨h.response, fun i => by rw [h.cards i, leveledCard, levelsUpTo_const],
      fun i hlive c j => ((h.devices i hlive).1 c j).1 c.lt, h.others, h.closed, h.elsewhere⟩
  have hloads : ∀ {on t}, BulkDone s (loadedCard s on 8) (LoadedDev s on 8) t →
      post (loads (if on then 0xFF#8 else 0x00#8)) (fun i t => t.devXp i 1 = ~~~(if on then 0xFF#8 else 0x00#8)) t := by
    intro on t h
    refine ⟨h.response, fun i => ?_, fun i hlive => ?_, h.others, h.closed, h.elsewhere⟩
    · rw [h.cards i]
      split
      · next hlive =>
        obtain ⟨-, l, -, hl⟩ := hr.masks hlive
        rw [loadedCard, hl, Option.map_some, maskUpTo_const (le_refl 8)]
      · rfl
    · obtain ⟨-, l, -, hl⟩ := hr.masks hlive
      have hxp := (h.devices i hlive).1 l hl
      rwa [if_neg (by omega), maskUpTo_const (le_refl 8), maskUpTo_const (by omega), or_self] at hxp
  have hmax := bulkAct_levels (op := setLevelMaxOp) s levelOp_max
  have hmin := bulkAct_levels (op := setLevelMinOp) s levelOp_min
  refine ⟨rfl, fun hp hb => ⟨?_, ?_, ?_, ?_⟩, fun i k hf => ⟨?_, ?_, ?_, ?_⟩⟩
  · obtain ⟨t, ht, h⟩ := hmax.command_runs hr hp hb fun _ _ => trivial
    exact ⟨t, ht, hlevels h⟩
  · obtain ⟨t, ht, h⟩ := hmin.command_runs hr hp hb fun _ _ => trivial
    exact ⟨t, ht, hlevels h⟩
  · obtain ⟨t, ht, h⟩ := (bulkAct_loads hr true).command_runs hr hp hb fun _ _ => trivial
    exact ⟨t, ht, hloads h⟩
  · obtain ⟨t, ht, h⟩ := (bulkAct_loads hr false).command_runs hr hp hb fun _ _ => trivial
    exact ⟨t, ht, hloads h⟩
  · exact hmax.command_fails hr hf (fun _ _ _ => trivial) fun _ _ => trivial
  · exact hmin.command_fails hr hf (fun _ _ _ => trivial) fun _ _ => trivial
  · exact (bulkAct_loads hr true).command_fails hr hf (fun _ _ _ => trivial) fun _ _ => trivial
  · exact (bulkAct_loads hr false).command_fails hr hf (fun _ _ _ => trivial) fun _ _ => trivial

end Sys2Proof.Machine
end

section
/-! `LOAD_CONFIG` (R212): O59. -/

namespace Sys2Proof.Machine

variable {s u v : State} {i : CardIx} {en : Bool} {m l : Byte} {k : Nat}

/-- A live card when the first `m` transactions of its restore are done: channel `c`'s level is the `2c`-th, its mask the next. -/
def restoredCard (s : State) (en : Bool) (m : Nat) (i : CardIx) : Card :=
  { s.cards[i] with chen := s.cards[i].chen.map (maskUpTo (m / 2) (s.restoreOn en i))
                    level := levelsUpTo ((m + 1) / 2) (s.restoreLevel i) s.cards[i].level }

/-- What its devices hold then: nothing is said of the four bytes of the level whose write may have failed. -/
def RestoredDev (s : State) (en : Bool) (m : Nat) (i : CardIx) (t : State) : Prop :=
  (∀ b ∈ s.cards[i].chen, t.devXp i 0 = (if m < 2 then s.devXp i 0 else ~~~(maskUpTo (m / 2) (s.restoreOn en i) b)) ∨
    (m % 2 = 1 ∧ t.devXp i 0 = ~~~(maskUpTo (m / 2 + 1) (s.restoreOn en i) b))) ∧
  (∀ l ∈ s.cards[i].tsten, t.devXp i 1 = ~~~l ∨ (m < 2 ∧ t.devXp i 1 = s.devXp i 1)) ∧
  (∀ (c : ChanIx) (j : Fin 4), (2 * c.val < m → t.devPot i c j.val =
      if j.val < s.restoreLevel i c / 256 then 0xFF#8
      else if j.val = s.restoreLevel i c / 256 then BitVec.ofNat 8 (s.restoreLevel i c % 256) else 0x00#8) ∧
    (m < 2 * c.val → t.devPot i c j.val = s.devPot i c j.val))

/-- The same, and a level that was refused has left its potentiometer alone (R222). -/
def RefusedDev (s : State) (en : Bool) (i : CardIx) (c : ChanIx) (m : Nat) (j : CardIx) (t : State) : Prop :=
  RestoredDev s en m j t ∧ (j = i → ∀ x : Fin 4, t.devPot i c x.val = s.devPot i c x.val)

theorem restoredDev_stable (s : State) (en : Bool) : DevStable (RestoredDev s en) := by
  intro m j t u hk h
  obtain ⟨hxp, hpot⟩ := same_bytes hk
  simpa only [RestoredDev, hxp, hpot] using h

theorem refusedDev_stable (s : State) (en : Bool) (i : CardIx) (c : ChanIx) : DevStable (RefusedDev s en i c) := by
  rintro m j t u hk ⟨h, hrefused⟩
  refine ⟨restoredDev_stable s en m j t u hk h, ?_⟩
  rintro rfl x
  exact ((same_bytes hk).2 c x).trans (hrefused rfl x)

theorem State.RecordInRange.restoreLevel_le {c : ChanIx} (h : s.RecordInRange i c) : s.restoreLevel i c ≤ 1023 :=
  Int.toNat_le.mpr h.2

theorem Opened.restoreOn (hou : Opened s i u) (en : Bool) : u.restoreOn en i = s.restoreOn en i := by
  funext c
  rw [State.restoreOn, State.restoreOn, hou.cfg]

theorem Opened.restoreLevel (hou : Opened s i u) : u.restoreLevel i = s.restoreLevel i := by
  funext c
  rw [State.restoreLevel, State.restoreLevel, hou.cfg]

theorem Opened.recordInRange (hou : Opened s i u) (c : ChanIx) : u.RecordInRange i c ↔ s.RecordInRange i c := by
  rw [State.RecordInRange, State.RecordInRange, hou.cfg]

/-- The cached state during the restore. -/
theorem Opened.card_restored (hou : Opened s i u) (hm : s.cards[i].chen = some m) (hl : s.cards[i].tsten = some l) (en : Bool)
    (k : Nat) :
    { u.cards[i] with chen := some (maskUpTo (k / 2) (u.restoreOn en i) m), tsten := some l,
                      level := levelsUpTo ((k + 1) / 2) (u.restoreLevel i) u.cards[i].level } =
      { restoredCard s en k i with iso := some .opened } := by
  rw [hou.card, hou.restoreOn, hou.restoreLevel, restoredCard, hm, ← hl]
  rfl

/-- A restore at its end is one that stopped with all 16 transactions done, but for the way it ended. -/
theorem Opened.dev_restored (hou : Opened s i u) (hm : s.cards[i].chen = some m) (hl : s.cards[i].tsten = some l)
    (h0 : v.devXp i 0 = (if k < 2 then u.devXp i 0 else ~~~(maskUpTo (k / 2) (u.restoreOn en i) m)) ∨
      (k % 2 = 1 ∧ v.devXp i 0 = ~~~(maskUpTo (k / 2 + 1) (u.restoreOn en i) m)))
    (h1 : v.devXp i 1 = ~~~l ∨ (k < 2 ∧ v.devXp i 1 = u.devXp i 1))
    (hsent : ∀ (c : ChanIx) (j : Fin 4), 2 * c.val < k → v.devPot i c j.val = (potBytes (u.restoreLevel i c)).getD j.val 0)
    (hrest : ∀ (c : ChanIx) (j : Fin 4), k < 2 * c.val → v.devPot i c j.val = u.devPot i c j.val)
    (hrec : ∀ c : ChanIx, 2 * c.val < k → s.RecordInRange i c) : RestoredDev s en k i v := by
  rw [hou.xp, hou.restoreOn] at h0
  rw [hou.xp] at h1
  refine ⟨fun b hb => ?_, fun b hb => ?_, fun c j => ⟨fun hc => ?_, fun hc => (hrest c j hc).trans (hou.pots c j)⟩⟩
  · obtain rfl := Option.some.inj (hm.symm.trans hb)
    exact h0
  · obtain rfl := Option.some.inj (hl.symm.trans hb)
    exact h1
  · rw [hsent c j hc, hou.restoreLevel, getD_potBytes (hrec c hc).restoreLevel_le]

/-- R212: the 16 transactions of every live card. What the first `a` and the one after them need is the records they read. -/
theorem bulkAct_restore (hr : CommandReady s) (en : Bool) :
    BulkAct s 16 (fun a => forChans fun ch => loadChannelOp en a ch) (restoredCard s en) (RestoredDev s en)
      fun a j => ∀ c : ChanIx, 2 * c.val ≤ a → s.RecordInRange j c where
  stable := restoredDev_stable s en
  runs j u hlive hok hou hb := by
    obtain ⟨m, l, hm, hl, hmu, hlu⟩ := hou.masks hr hlive
    obtain ⟨v, hv, h⟩ := restoreChans_runs en hou.ready hb hmu hlu fun c =>
      (hou.recordInRange c).mpr (hok c (by have := ChanIx.lt c; omega))
    exact ⟨v, hv, hou.card_restored hm hl en 16 ▸ h.loop, hou.dev_restored hm hl (.inl h.xp0) h.xp1_or h.sent
      (fun c j hc => h.rest c j (le_of_lt hc)) fun c hc => hok c (le_of_lt hc)⟩
  fails j u a hlive ha hok hou hf := by
    obtain ⟨m, l, hm, hl, hmu, hlu⟩ := hou.masks hr hlive
    obtain ⟨v, hv, h⟩ := restoreChans_fails en hou.ready ha hf hmu hlu fun c hc => (hou.recordInRange c).mpr (hok c hc)
    exact ⟨v, hv, hou.card_restored hm hl en a ▸ h.stop, hou.dev_restored hm hl h.xp0 h.xp1 h.sent h.rest fun c hc =>
      hok c (le_of_lt hc)⟩

theorem exec_loadConfig (s : State) (en : Bool) : exec (.loadConfig (byteOfBool en)) s =
    runCommand 0xB1#8 true noCardNeeded (forLiveCards fun a => forChans fun ch => loadChannelOp en a ch) s := by
  change execLoadConfig (byteOfBool en) s = _
  rw [execLoadConfig, isFlag_byteOfBool, flagSet_byteOfBool]

/-- R212, R222, U17: the first stored level out of range ends the command, its card opened and closed again. -/
theorem loadConfig_refused {c : ChanIx} (hr : CommandReady s) (en : Bool) (hreach : Reaches s 16 i (2 * c.val + 1))
    (hplug : s.present[i] = true) (hbelow : ∀ j : CardIx, j < i → s.cards[j].live = true → ∀ c, s.RecordInRange j c)
    (hrec : ∀ d < c, s.RecordInRange i d) (hv : ¬s.RecordInRange i c) :
    ∃ t, exec (.loadConfig (byteOfBool en)) s = .next t ∧
      StoppedAt s t 0xB1#8 .invalidArgument 16 i (2 * c.val + 1) (restoredCard s en) (RefusedDev s en i c) := by
  have hc := ChanIx.lt c
  rw [exec_loadConfig]
  refine runBulk_stops hr (refusedDev_stable s en i c) hreach (by omega) (fun _ => by omega) ?_ (fun j u hlive hj hou hb => ?_)
    fun u _ _ hou hb _ => ?_
  · rw [if_pos hplug]
    exact fun h => absurd h (by decide)
  · have hji : j < i := hj.resolve_right fun h => by omega
    obtain ⟨v, hv, hloop, hdev⟩ := (bulkAct_restore hr en).runs j u hlive (fun d _ => hbelow j hji hlive d) hou hb
    exact ⟨v, hv, hloop, hdev, fun h => absurd h (Fin.ne_of_lt hji)⟩
  · obtain ⟨m, l, hm, hl, hmu, hlu⟩ := hou.masks hr hreach.1
    obtain ⟨v, hv, h, hpot⟩ := restoreChans_refused en c hou.ready hb hmu hlu
      (fun d hd => (hou.recordInRange d).mpr (hrec d hd)) fun h => hv ((hou.recordInRange c).mp h)
    exact ⟨v, hv, hou.card_restored hm hl en (2 * c.val) ▸ h.stop, hou.dev_restored hm hl h.xp0 h.xp1 h.sent h.rest fun d hd =>
      hrec d (Fin.lt_def.mpr (by omega)), fun _ x => (hpot x).trans (hou.pots c x)⟩

/-- Settles O59: the restore is a `BulkAct` for as long as the records it reads are in range, and a record out of range is met
before its channel's first transaction. -/
theorem loadConfigRestoresLiveCards : Obligations.LoadConfigRestoresLiveCards := by
  intro s en hr inRange pattern on restored sent
  refine ⟨fun hp hb hrec => ?_, fun i k hf hbelow hat => ?_, fun i c hreach hplug hbelow hrec hv =>
    loadConfig_refused hr en hreach hplug hbelow hrec hv⟩
  · obtain ⟨t, ht, h⟩ := (bulkAct_restore hr en).command_runs (op := 0xB1#8) hr hp hb fun j hlive c _ => hrec j c hlive
    refine ⟨t, (exec_loadConfig s en).trans ht, h.response, fun i hlive => ?_, fun i hlive => ⟨?_, h.others i hlive⟩, h.closed,
      h.elsewhere⟩
    · obtain ⟨m, l, hm, hl⟩ := hr.masks hlive
      have hcard := h.cards i
      rw [if_pos hlive, restoredCard] at hcard
      obtain ⟨hxp0, hxp1, hpots⟩ := h.devices i hlive
      refine ⟨maskUpTo 8 (s.restoreOn en i) m, l, by rw [hcard, hm]; rfl, fun c => ?_, fun c => ?_, hl, by rw [hcard, ← hl],
        by rw [hcard, ← hlive], by rw [hcard], (hxp0 m hm).resolve_right fun h => absurd h.1 (by decide),
        (hxp1 l hl).resolve_right fun h => absurd h.1 (by decide), h.switch i hlive, fun c j =>
        (hpots c j).1 (by have := ChanIx.lt c; omega)⟩
      · rw [getLsbD_maskUpTo, if_pos c.lt]
        rfl
      · rw [hcard]
        exact (levelsUpTo_get 8 (s.restoreLevel i) _ c).trans (if_pos c.lt)
    · rw [h.cards i, if_neg (by rw [hlive]; decide)]
  · rw [exec_loadConfig]
    exact (bulkAct_restore hr en).command_fails hr hf (fun j hj hlive c _ => hbelow j hj hlive c) fun a ha c hc =>
      hat c (by omega)

end Sys2Proof.Machine
end

section
/-! One register written by one transaction (R102, R104): O23, O24. -/

namespace Sys2Proof.Machine

variable {s t : State} {txn : Txn} {e : Event} {cells ws : List (Nat × Byte)}

/-! ## A transaction that writes one register, of one byte or two (R63) -/

/-- R102, R104. -/
theorem registerWrite_runs {x : Op Unit} (hx : x s = transferWrite txn [cells] s) (ho : s.nextAnswer.ok = true) :
    x.Runs s ⟨⟩ 1 cells [.bus txn true []] s.cards :=
  ⟨_, by rw [hx, transferWrite_ok txn [cells] ho, List.flatten_singleton], effect_wrote _ _ _ _, scratch_wrote _ _ _ _,
    wrote_cards _ _ _ _⟩

/-- R63: a register's bytes land together or not at all. -/
theorem registerWrite_fails {x : Op Unit} (hx : x s = transferWrite txn [cells] s) (ho : s.nextAnswer.ok = false) :
    ∃ ws, (ws = [] ∨ ws = cells) ∧ x.Fails s 1 ws [.bus txn false []] s.cards :=
  ⟨_, take_singleton_flatten cells s.nextAnswer.landed, _, hx.trans (transferWrite_fail txn [cells] ho), effect_wrote _ _ _ _,
    scratch_wrote _ _ _ _, wrote_cards _ _ _ _⟩

/-- What one transaction on one register leaves alone, whether or not it succeeds. -/
theorem Effect.register_frame (he : Effect s t 1 ws [e]) (hs : SameScratch s t) (hc : t.cards = s.cards)
    (hws : ws = [] ∨ ws = cells) :
    SameCellsBut (cells.map Prod.fst) s t ∧ t.cards = s.cards ∧ t.hist = s.hist ++ [e] ∧ SameElsewhere s t ∧ Took 1 s t := by
  refine ⟨fun k hk => he.read_other fun hmem => ?_, hc, he.hist, he.sameElsewhere hs, he.took⟩
  obtain rfl | rfl := hws
  · cases hmem
  · exact hk hmem

/-! ## `write_byte` -/

/-- R102: at a switch, a control byte whose bits 4..0 are 0 is one write of the control register. -/
theorem writeByteOp_switch {addr : Int} {i : CardIx} {b : Byte} (hr : s.route addr = .device (.switch i))
    (hb : b &&& 0x1F#8 = 0) : writeByteOp addr b s = transferWrite (.writeByte addr b) [[(swCell i, b)]] s := by
  unfold writeByteOp
  rw [Op.bind_ok (reach_device hr)]
  dsimp only
  rw [isoLowBits_eq, decide_eq_true hb, checkArg_true, Op.pure_bind]

/-- Settles O23: the control register is one cell, and a failed write leaves it the old byte or the new. -/
theorem writeByteSetsSwitch : Obligations.WriteByteSetsSwitch := by
  intro s addr i b hwf haddr hp hb same
  rw [State.answer_zero]
  have hr : s.route (addr : Int) = .device (.switch i) := haddr ▸ route_cardNo hp
  have hwrite := writeByteOp_switch hr hb
  have hset : ∀ {t es}, Effect s t 1 [(swCell i, b)] es → t.devSw i = b := fun he =>
    he.read_mem hwf (List.nodup_singleton _) (List.mem_singleton.mpr rfl)
  refine ⟨rfl, fun ho => ?_, fun ho => ?_⟩
  · obtain ⟨t, ht, hres, he, hs, hc⟩ := (registerWrite_runs hwrite ho).internal fun _ => .nothing
    refine ⟨t, ht, hres, hset he, ?_, he.register_frame hs hc (.inr rfl)⟩
    rw [he.connected_switch hwf, if_pos rfl, hp, Bool.true_and]
    rfl
  · obtain ⟨ws, hws, hx⟩ := registerWrite_fails hwrite ho
    obtain ⟨t, ht, hres, he, hs, hc⟩ := hx.internal fun _ => .nothing
    refine ⟨t, ht, hres, ?_, he.register_frame hs hc hws⟩
    obtain rfl | rfl := hws
    · exact .inl (he.read_other nofun)
    · exact .inr (hset he)

/-! ## `write_word` -/

/-- R104: at a sense chip's calibration or configuration register, the word with its bytes swapped is one write of it. -/
theorem writeWordOp_sense {addr : Int} {i : CardIx} {c : ChanIx} (hv : s.params.Valid)
    (hr : s.route addr = .device (.sense i c)) (w : Half) (cal : Bool) :
    let reg := if cal then s.params.snsRegCal else s.params.snsRegCfg
    writeWordOp addr reg w s = transferWrite (.writeWord addr reg w)
      [halfCells (if cal then snsCalCell i c else snsCfgCell i c) (bswap16 w)] s := by
  intro reg
  unfold writeWordOp
  rw [Op.bind_ok (reach_device hr)]
  dsimp only
  rw [Op.get_bind]
  cases cal with
  | false =>
    have hg : snsReg s.params reg = some .cfg := snsReg_cfg
    rw [hg]
    rfl
  | true =>
    have hg : snsReg s.params reg = some .cal := snsReg_cal hv
    rw [hg]
    rfl

/-- Settles O24: the two registers differ in their cell alone, and a failed write leaves the old word or the new. -/
theorem writeWordSetsSenseRegister : Obligations.WriteWordSetsSenseRegister := by
  intro s addr i c w cal hwf hv hr reg cell content same
  rw [State.answer_zero]
  have hwrite := writeWordOp_sense hv hr w cal
  have hcontent : ∀ t, content t = Memory.read t.mem cell ++ Memory.read t.mem (cell + 1) := fun t => by
    cases cal <;> rfl
  have hset : ∀ {t es}, Effect s t 1 (halfCells cell (bswap16 w)) es → content t = bswap16 w := fun he =>
    (hcontent _).trans (he.read_half hwf (by simp [halfCells]) fun _ => id)
  refine ⟨rfl, fun ho => ?_, fun ho => ?_⟩
  · obtain ⟨t, ht, hres, he, hs, hc⟩ := (registerWrite_runs hwrite ho).internal fun _ => .nothing
    exact ⟨t, ht, hres, hset he, he.register_frame hs hc (.inr rfl)⟩
  · obtain ⟨ws, hws, hx⟩ := registerWrite_fails hwrite ho
    obtain ⟨t, ht, hres, he, hs, hc⟩ := hx.internal fun _ => .nothing
    refine ⟨t, ht, hres, ?_, he.register_frame hs hc hws⟩
    obtain rfl | rfl := hws
    · left
      rw [hcontent, hcontent, he.mem]
      rfl
    · exact .inr (hset he)

end Sys2Proof.Machine
end

section
/-! `OPEN` and `CLOSE` run by themselves, whether or not their one control write succeeds (R111, R112, R115): O28. -/

namespace Sys2Proof.Machine

variable {s t : State} {i : CardIx} {n : Nat} {ws : List (Nat × Byte)} {es : List Event} {b : Byte}

theorem Effect.devSw_written (he : Effect s t n [(swCell i, b)] es) (hm : Memory.wf s.mem = true) : t.devSw i = b :=
  he.read_mem hm (List.nodup_singleton _) (List.mem_singleton.mpr rfl)

/-- R63, R115. -/
theorem Effect.devSw_old_or_new (he : Effect s t n ws es) (hm : Memory.wf s.mem = true) (hws : ws = [] ∨ ws = [(swCell i, b)]) :
    t.devSw i = s.devSw i ∨ t.devSw i = b := by
  obtain rfl | rfl := hws
  · exact .inl (he.read_other nofun)
  · exact .inr (he.devSw_written hm)

/-- R43: a plugged card is connected exactly when bit 7 of its control byte is set. -/
theorem connected_of_present (hp : t.present[i] = true) : t.connected i = (t.devSw i).getLsbD 7 := by
  rw [State.connected, hp, Bool.true_and]
  rfl

/-- Settles O28: `OPEN` and `CLOSE` are the same control write and record, of other values. -/
theorem openAndCloseWriteAndRecord : Obligations.OpenAndCloseWriteAndRecord := by
  intro s i hm hp post failed
  rw [State.answer_zero]
  have hpost : ∀ {x : Op Unit} {v : Iso} {b : Byte},
      x.Runs s ⟨⟩ 1 [(swCell i, b)] [switchEvent s.params i b] (s.cards.set i { s.cards[i] with iso := some v }) →
      ∃ t, runInternal (x >>= fun _ => pure .nothing) s = .next t ∧ post v b t := by
    intro x v b hx
    obtain ⟨t, ht, hres, he, hs, hc⟩ := hx.internal fun _ => .nothing
    have hsw : t.devSw i = b := he.devSw_written hm
    refine ⟨t, ht, hres, hsw, ?_, ?_, fun k hk => he.read_other hk, fun j hj => ?_, he.hist, he.sameElsewhere hs, he.took⟩
    · rw [connected_of_present (he.present ▸ hp), hsw]
    · rw [hc, cards_set_same]
    · rw [hc, cards_set_other _ _ hj]
  have hfailed : ∀ {x : Op Unit} {b : Byte} {ws : List (Nat × Byte)} {e : Event}, (ws = [] ∨ ws = [(swCell i, b)]) →
      x.Fails s 1 ws [e] s.cards → ∃ t, runInternal (x >>= fun _ => pure .nothing) s = .next t ∧ failed b t := by
    intro x b ws e hws hx
    obtain ⟨t, ht, hres, he, hs, hc⟩ := hx.internal fun _ => .nothing
    obtain ⟨hcells, hcards, -, helse, htook⟩ := he.register_frame hs hc hws
    exact ⟨t, ht, hres, hcards, he.devSw_old_or_new hm hws, hcells, helse, htook⟩
  refine ⟨fun ho => ⟨hpost (openOp_runs hp ho), hpost (closeOp_runs hp ho)⟩, fun ho => ⟨?_, ?_⟩⟩
  · obtain ⟨t, ws, hrun, hws, hrest⟩ := openOp_fails hp ho
    exact hfailed hws ⟨t, hrun, hrest⟩
  · obtain ⟨t, ws, hrun, hws, hrest⟩ := closeOp_fails hp ho
    exact hfailed hws ⟨t, hrun, hrest⟩

end Sys2Proof.Machine
end

section
/-! `SHUTDOWN` (R193): O45. -/

namespace Sys2Proof.Machine

variable {s t : State}

theorem shutLoop_nil (s : State) : ShutLoop s [] s where
  run := ⟨[], Effect.refl s, nofun⟩
  scratch := SameScratch.refl s
  cards _ := (if_neg fun h => nomatch h.1).symm
  switch _ := nofun

/-- R193: a remembered `BusError` is the command's answer. -/
theorem exec_shutdown {allClosed : Bool} (hr : s.running = none)
    (h : shutdownLoop allCards false (s.beginCommand 0x81#8) = .ok (!allClosed) t) :
    exec .shutdown s = .next (t.endCommand 0x81#8 (if allClosed then .ok .nothing else .failed .busError)) := by
  cases allClosed with
  | true => exact runCommand_ok hr rfl (Op.bind_ok h)
  | false => exact runCommand_failed hr rfl (Op.bind_ok h)

/-- R193: the loop over all addresses, from the command's start. It has failed when not every `CLOSE` succeeded. -/
theorem shutdownLoop_allCards (s : State) :
    ∃ t, shutdownLoop allCards false s =
        .ok (!((List.finRange Config.pb.nCards).filter fun i => s.cards[i].live).all s.shutdownOk) t ∧
      ShutLoop s (List.finRange Config.pb.nCards) t := by
  obtain ⟨t, ht, hdone⟩ := shutdownLoop_runs (List.finRange Config.pb.nCards) [] false s rfl (shutLoop_nil s)
  refine ⟨t, ?_, hdone⟩
  rw [allCards, ht, List.not_all_eq_any_not, List.any_filter, Bool.false_or]

theorem liveCards_eq_nil (h : ∀ i : CardIx, t.cards[i].live = false) : t.liveCards = [] := by
  refine List.filter_eq_nil_iff.mpr fun a ha => ?_
  obtain ⟨i, -, rfl⟩ := List.mem_map.mp ha
  rw [State.live, State.card_cardNo, h i]
  exact Bool.false_ne_true

/-- Settles O45: the loop stands where `ShutLoop` says when it has passed every address. -/
theorem shutdownClearsLiveMap : Obligations.ShutdownClearsLiveMap := by
  intro s hr _ closes r
  obtain ⟨t, hrun, hdone⟩ := shutdownLoop_allCards (s.beginCommand 0x81#8)
  obtain ⟨W, he, hW⟩ := hdone.run
  have hcard : ∀ i : CardIx, t.cards[i] = if s.cards[i].live then Card.blank else s.cards[i] := fun i =>
    (hdone.cards i).trans (by simp)
  have hcloses : ∀ {i : CardIx}, i ∈ closes ↔ s.cards[i].live = true := fun {i} => by simp [closes]
  refine ⟨t.endCommand 0x81#8 r, exec_shutdown hr hrun, ⟨rfl, liveCards_eq_nil fun i => ?_⟩, hcard, ?_, rfl,
    fun hm i hi => ?_, fun k hk => ?_, he.cfg, he.params, he.present, he.inbox⟩
  · change t.cards[i].live = false
    rw [hcard i]
    split
    · rfl
    · next h => exact Bool.eq_false_iff.mpr h
  · rw [State.endCommand_hist, he.hist, List.append_assoc, State.beginCommand_hist, ← List.append_cons]
    rfl
  · obtain hnew | ⟨hfailed, hold⟩ := hdone.switch hm i (List.mem_finRange i) (hcloses.mp hi)
    · exact ⟨fun _ => hnew, .inr hnew⟩
    · exact ⟨fun hok => absurd (hfailed.symm.trans hok) Bool.false_ne_true, .inl hold⟩
  · refine he.read_other fun hmem => ?_
    obtain ⟨j, -, hlive, hkj⟩ := hW k hmem
    exact hk j (hcloses.mpr hlive) hkj

end Sys2Proof.Machine
end

section
/-! The expander's read, which adopts what the device holds, and its query, which asks the cache alone (R122, R125): O30, O32. -/

namespace Sys2Proof.Machine

/-- Settles O30: the read writes no register, so a failed one leaves its event and its answer alone. -/
theorem xpReadAdoptsDeviceMasks : Obligations.XpReadAdoptsDeviceMasks := by
  intro s i hr
  rw [State.answer_zero]
  refine ⟨fun ho => ?_, fun ho => ?_⟩
  · obtain ⟨t, ht, hres, he, hs, hc⟩ := (xpReadOp_runs hr ho).internal fun _ => .nothing
    exact ⟨t, ht, hres, by rw [hc, cards_set_same], he.mem, fun j hj => by rw [hc, cards_set_other _ _ hj], he.hist,
      he.sameElsewhere hs, he.took⟩
  · obtain ⟨t, ht, he, hs, hc⟩ := xpReadOp_fails hr ho
    exact (runInternal_failure ht).trans (congrArg _ (he.respond_eq hs hc _))

/-- Settles O32: the query ends in the state it began in. -/
theorem isChannelEnabledAnswersCachedBit : Obligations.IsChannelEnabledAnswersCachedBit :=
  fun _ _ c _ hm => runInternal_value (isChannelEnabledOp_ok c hm)

end Sys2Proof.Machine
end

section
/-! `READ_LEVEL` right after `SET_LEVEL` (R137): O36. -/

namespace Sys2Proof.Machine

variable {s t : State} {i : CardIx} {c : ChanIx} {n : Nat} {es : List Event}

/-- R80, R132: after a pattern is written the channel's sub-registers sum to the pattern's bytes. -/
theorem potSum_written {p : Word} (he : Effect s t n ((potCells i c).zip (patternBytes p)) es)
    (hm : Memory.wf s.mem = true) : t.potSum i c = byteSum (patternBytes p) := by
  obtain ⟨b0, b1, b2, b3, hp⟩ : ∃ b0 b1 b2 b3, patternBytes p = [b0, b1, b2, b3] := ⟨_, _, _, _, rfl⟩
  rw [hp] at he ⊢
  have hbyte : ∀ j : Fin 4, t.devPot i c j.val = [b0, b1, b2, b3].getD j.val 0 := devPot_written he hm
  have h0 : t.devPot i c 0 = b0 := hbyte 0
  have h1 : t.devPot i c 1 = b1 := hbyte 1
  have h2 : t.devPot i c 2 = b2 := hbyte 2
  have h3 : t.devPot i c 3 = b3 := hbyte 3
  simp only [State.potSum, h0, h1, h2, h3, byteSum, Nat.add_assoc, Nat.add_zero]

/-- R79, R137: the sum a channel's sub-registers hold once the level `v` is written. -/
theorem potSum_of_level {v : Nat} (hv : v ≤ 1023) (he : Effect s t n ((potCells i c).zip (potBytes v)) es)
    (hm : Memory.wf s.mem = true) : t.potSum i c = v - v / 256 := by
  rw [← patternBytes_potPattern ⟨v, by omega⟩] at he
  rw [potSum_written he hm, byteSum_pattern hv]

/-- The cached level of a channel just cached. -/
theorem level_of_cached {x : Nat} (hc : t.cards = s.cards.set i { s.cards[i] with level := s.cards[i].level.set c (some x) }) :
    t.cards[i].level[c] = some x := by
  rw [hc, cards_set_same]
  exact Vector.getElem_set_self _

/-- Settles O36: the write leaves the card ready and the second answer good, so the read sums the bytes just written. -/
theorem levelRoundTripCorrected : Obligations.LevelRoundTripCorrected := by
  intro s i c v hv hr hb
  obtain ⟨t, ht, -, het, -, hct⟩ :=
    (setLevelOp_runs c (v := (v : Int)) (by omega) hr (hb.next (by omega))).internal fun _ => .nothing
  rw [Int.toNat_natCast] at het hct
  have hrt : Ready t i := hr.step het (no_switch_of_cells pot_cells) (by rw [hct, cards_set_same])
  have hbt : NoBusError 1 t := hb.after het (by omega)
  obtain ⟨u, hu, hres, -, -, hcu⟩ := (readLevelOp_runs c hrt (hbt.next (by omega))).internal fun x => .int x
  rw [potSum_of_level hv het hr.1] at hres hcu
  exact ⟨t, u, ht, level_of_cached hct, hu, hres, level_of_cached hcu⟩

end Sys2Proof.Machine
end

section
/-! The public reads `GET_BUS_VOLTAGE`, `GET_SHUNT_VOLTAGE` and `GET_CURRENT` run by themselves (R151 to R158): O40. -/

namespace Sys2Proof.Machine

variable {s t : State} {i : CardIx} {c : ChanIx} {n delays : Nat} {ws : List (Nat × Byte)}

/-- R151, R158: what a public read leaves, whether it comes to its end or to its first failure: `n` transactions and `delays`
delays, cell writes among `ws`, nothing cached, `ACC` and `CNT` dropped. -/
structure ReadLeaves (s t : State) (n delays : Nat) (ws : List (Nat × Byte)) : Prop where
  run : ∃ W es, Effect s t n W es ∧ (∀ w ∈ W, w ∈ ws) ∧ es.countP Event.isBus = n ∧
    es.countP Event.isSampleDelay = delays ∧ es.length = n + delays
  cards : t.cards = s.cards
  iter : t.iter = s.iter
  seekLevel : t.seekLevel = s.seekLevel
  acc : t.acc = none
  cnt : t.cnt = none

theorem PublicRead.leaves (h : PublicRead s t n ws) : ReadLeaves s t n 5 ws where
  run := by
    obtain ⟨W, es, he, hW, hbus, hdelays, hlength, -⟩ := h.run
    exact ⟨W, es, he, hW, hbus, hdelays, hlength⟩
  cards := h.cards
  iter := h.iter
  seekLevel := h.seekLevel
  acc := h.acc
  cnt := h.cnt

theorem FailedRead.leaves (h : FailedRead s t n delays ws) : ReadLeaves s t n delays ws :=
  ⟨h.run, h.cards, h.iter, h.seekLevel, h.acc, h.cnt⟩

/-- The cells a read may write are those it lists. -/
theorem ReadLeaves.sameCells (h : ReadLeaves s t n delays ws) : SameCellsBut (ws.map Prod.fst) s t := by
  obtain ⟨W, es, he, hW, -⟩ := h.run
  refine fun k hk => he.read_other fun hkW => ?_
  obtain ⟨w, hw, rfl⟩ := List.mem_map.mp hkW
  exact hk (List.mem_map_of_mem (hW w hw))

/-- R153: a read that lists no cell writes no device register. -/
theorem ReadLeaves.mem_eq (h : ReadLeaves s t n delays []) : t.mem = s.mem := by
  obtain ⟨W, es, he, hW, -⟩ := h.run
  obtain rfl : W = [] := List.eq_nil_iff_forall_not_mem.mpr fun w hw => nomatch hW w hw
  exact he.mem

/-- Settles O40: a public read comes to its end or to its first failure, and `ReadLeaves` says of both what they leave. -/
theorem publicReadsAverageSix : Obligations.PublicReadsAverageSix := by
  intro s i c d hr hd post cal
  have hpost : ∀ {t r n delays ws}, ReadLeaves s t n delays ws → post r n delays (t.respond r) := by
    intro t r n delays ws h
    obtain ⟨W, es, he, -, hbus, hdelays, hlength⟩ := h.run
    exact ⟨rfl, h.cards, he.params, he.running, he.cfg, h.iter, h.seekLevel, he.present, he.inbox, h.acc, h.cnt,
      ⟨es, he.hist, hbus, hdelays, hlength⟩, he.took⟩
  have hcal : ∀ {t r n delays}, ReadLeaves s t n delays (calWrites s.params i c) → cal (t.respond r) := fun h => h.sameCells
  refine ⟨fun hb => ⟨?_, ?_⟩, fun hb => ?_, fun k hk hf => ⟨?_, ?_⟩, fun k hk hf => ?_⟩
  · obtain ⟨t, ht, h⟩ := getBusVoltageOp_runs c hr hb
    exact ⟨_, runInternal_value ht, hpost h.leaves, hcal h.leaves⟩
  · obtain ⟨t, ht, h⟩ := getCurrentOp_runs c hr hb hd
    exact ⟨_, runInternal_value ht, hpost h.leaves, hcal h.leaves⟩
  · obtain ⟨t, ht, h⟩ := getShuntVoltageOp_runs c hr hb
    exact ⟨_, runInternal_value ht, hpost h.leaves, h.leaves.mem_eq⟩
  · obtain ⟨t, ht, h⟩ := getBusVoltageOp_fails c hr hk hf
    exact ⟨_, runInternal_failure ht, hpost h.leaves, hcal h.leaves⟩
  · obtain ⟨t, ht, h⟩ := getCurrentOp_fails c hr hk hd hf
    exact ⟨_, runInternal_failure ht, hpost h.leaves, hcal h.leaves⟩
  · obtain ⟨t, ht, h⟩ := getShuntVoltageOp_fails c hr hk hf
    exact ⟨_, runInternal_failure ht, hpost h.leaves, h.leaves.mem_eq⟩

end Sys2Proof.Machine
end

section
/-! A seek that succeeds (R201 to R206): O57. -/

namespace Sys2Proof.Machine

variable {α β : Type}

/-! ## Nothing sensed is cached (R158) -/

/-- However it ends, the operation changes no cached field of any card. -/
def Op.KeepsCards (x : Op α) : Prop := ∀ s, (endState (x s)).cards = s.cards

theorem Op.KeepsCards.ok {x : Op α} {s t : State} {v : α} (h : x.KeepsCards) (hx : x s = .ok v t) : t.cards = s.cards := by
  have := h s
  rwa [hx] at this

theorem keepsCards_bind {x : Op α} {f : α → Op β} (hx : x.KeepsCards) (hf : ∀ v, (f v).KeepsCards) :
    (x >>= f).KeepsCards := by
  intro s
  have h := hx s
  rw [Op.bind_apply]
  cases hr : x s with
  | ok v t => rw [hr] at h; exact (hf v t).trans h
  | error e t => rw [hr] at h; exact h

theorem keepsCards_pure (v : α) : (pure v : Op α).KeepsCards := fun _ => rfl

theorem keepsCards_raise (f : Failure) : (raise f : Op α).KeepsCards := fun _ => rfl

theorem keepsCards_halt (r : Fault) : (halt r : Op α).KeepsCards := fun _ => rfl

theorem keepsCards_get : (get : Op State).KeepsCards := fun _ => rfl

theorem keepsCards_emit (e : Event) : (emit e).KeepsCards := fun _ => rfl

theorem keepsCards_draw : draw.KeepsCards := fun s => (tookAnswer_kept s).2.2.2

theorem keepsCards_modify {g : State → State} (h : ∀ s, (g s).cards = s.cards) : (modify g : Op PUnit).KeepsCards := h

theorem keepsCards_checkArg (b : Bool) : (checkArg b).KeepsCards := by
  cases b
  · exact keepsCards_raise _
  · exact keepsCards_pure _

theorem keepsCards_readField (field : State → Option α) : (readField field).KeepsCards := by
  refine keepsCards_bind keepsCards_get fun s => ?_
  cases field s
  · exact keepsCards_halt _
  · exact keepsCards_pure _

theorem keepsCards_chanIx (ch : Int) : (chanIx ch).KeepsCards := by
  unfold chanIx
  split
  · exact keepsCards_pure _
  · exact keepsCards_halt _

theorem keepsCards_requireOpen (a : Int) : (requireOpen a).KeepsCards := by
  refine keepsCards_bind keepsCards_get fun s => ?_
  split
  · exact keepsCards_pure _
  · exact keepsCards_halt _

theorem keepsCards_forEach {body : α → Op Unit} (h : ∀ x, (body x).KeepsCards) (xs : List α) :
    (forEach xs body).KeepsCards := by
  induction xs with
  | nil => exact keepsCards_pure _
  | cons x xs ih => exact keepsCards_bind (h x) fun _ => ih

theorem keepsCards_dropAfter {drop : State → State} {body : Op α} (hd : ∀ s, (drop s).cards = s.cards)
    (hb : body.KeepsCards) : (dropAfter drop body).KeepsCards := by
  intro s
  have h := hb s
  unfold dropAfter
  cases hx : body s with
  | ok v t => rw [hx] at h; exact (hd t).trans h
  | error e t => rw [hx] at h; exact (hd t).trans h

theorem keepsCards_reach (t : Txn) (addr : Int) : (reach t addr).KeepsCards := by
  refine keepsCards_bind keepsCards_get fun s => ?_
  split
  · exact keepsCards_pure _
  · exact keepsCards_bind (keepsCards_emit _) fun _ => keepsCards_raise _
  · exact keepsCards_halt _

theorem keepsCards_transferWrite (t : Txn) (regs : List (List (Nat × Byte))) : (transferWrite t regs).KeepsCards := by
  refine keepsCards_bind keepsCards_draw fun ans => ?_
  split
  · exact keepsCards_bind (keepsCards_modify fun _ => rfl) fun _ => keepsCards_emit _
  · exact keepsCards_bind (keepsCards_modify fun _ => rfl) fun _ =>
      keepsCards_bind (keepsCards_emit _) fun _ => keepsCards_raise _

theorem keepsCards_transferRead (t : Txn) (f : State → Answer → List Byte) : (transferRead t f).KeepsCards := by
  refine keepsCards_bind keepsCards_draw fun ans => ?_
  split
  · exact keepsCards_bind keepsCards_get fun s => keepsCards_bind (keepsCards_emit _) fun _ => keepsCards_pure _
  · exact keepsCards_bind (keepsCards_emit _) fun _ => keepsCards_raise _

theorem keepsCards_readWordOp (addr : Int) (reg : Nat) : (readWordOp addr reg).KeepsCards := by
  refine keepsCards_bind (keepsCards_reach _ _) fun d => ?_
  split
  · refine keepsCards_bind keepsCards_get fun _ => ?_
    split
    · exact keepsCards_bind (keepsCards_transferRead _ _) fun _ => keepsCards_pure _
    · exact keepsCards_raise _
  · exact keepsCards_raise _

theorem keepsCards_writeWordOp (addr : Int) (reg : Nat) (w : Half) : (writeWordOp addr reg w).KeepsCards := by
  refine keepsCards_bind (keepsCards_reach _ _) fun d => ?_
  split
  · refine keepsCards_bind keepsCards_get fun s => ?_
    dsimp only
    split
    · exact keepsCards_transferWrite _ _
    · exact keepsCards_transferWrite _ _
    · exact keepsCards_raise _
  · exact keepsCards_raise _

theorem keepsCards_calibrate (c : ChanIx) : (calibrate c).KeepsCards :=
  keepsCards_bind keepsCards_get fun _ => keepsCards_writeWordOp _ _ _

theorem keepsCards_readSense (c : ChanIx) (reg : Params → Nat) : (readSense c reg).KeepsCards :=
  keepsCards_bind keepsCards_get fun _ => keepsCards_bind (keepsCards_readWordOp _ _) fun _ => keepsCards_pure _

/-- R148. -/
theorem keepsCards_busSample (a ch : Int) : (busSample a ch).KeepsCards := by
  have hraw : (rawBusOp a ch).KeepsCards :=
    keepsCards_bind (keepsCards_requireOpen _) fun _ => keepsCards_bind (keepsCards_chanIx _) fun _ =>
      keepsCards_bind (keepsCards_calibrate _) fun _ => keepsCards_bind (keepsCards_readSense _ _) fun _ => keepsCards_pure _
  exact keepsCards_bind hraw fun _ => keepsCards_bind keepsCards_get fun _ => keepsCards_pure _

/-- R149. -/
theorem keepsCards_currentSample (a ch : Int) : (currentSample a ch).KeepsCards := by
  have hraw : (rawCurrentOp a ch).KeepsCards :=
    keepsCards_bind (keepsCards_requireOpen _) fun _ => keepsCards_bind (keepsCards_chanIx _) fun _ =>
      keepsCards_bind (keepsCards_calibrate _) fun _ => keepsCards_readSense _ _
  exact keepsCards_bind hraw fun _ => keepsCards_bind (keepsCards_readField _) fun _ => keepsCards_pure _

theorem keepsCards_takeSample {sample : Op Rat} (h : sample.KeepsCards) (k : Nat) : (takeSample sample k).KeepsCards := by
  have hrest : (do
      let x ← sample
      modify fun s => { s with acc := s.acc.map (· + x), cnt := s.cnt.map (· + 1) } : Op PUnit).KeepsCards :=
    keepsCards_bind h fun _ => keepsCards_modify fun _ => rfl
  unfold takeSample
  split
  · exact keepsCards_bind keepsCards_get fun _ => keepsCards_bind (keepsCards_emit _) fun _ => hrest
  · exact hrest

/-- R151. -/
theorem keepsCards_averageOp {sample : Op Rat} (h : sample.KeepsCards) : (averageOp sample).KeepsCards :=
  keepsCards_dropAfter (fun _ => rfl) <| keepsCards_bind (keepsCards_modify fun _ => rfl) fun _ =>
    keepsCards_bind (keepsCards_forEach (keepsCards_takeSample h) _) fun _ =>
      keepsCards_bind (keepsCards_readField _) fun _ => keepsCards_pure _

/-- R152. -/
theorem keepsCards_getBusVoltageOp (a ch : Int) : (getBusVoltageOp a ch).KeepsCards :=
  keepsCards_bind (keepsCards_checkArg _) fun _ => keepsCards_bind (keepsCards_requireOpen _) fun _ =>
    keepsCards_bind (keepsCards_averageOp (keepsCards_busSample _ _)) fun _ => keepsCards_pure _

/-- R154. -/
theorem keepsCards_getCurrentOp (a ch : Int) : (getCurrentOp a ch).KeepsCards :=
  keepsCards_bind (keepsCards_checkArg _) fun _ => keepsCards_bind (keepsCards_requireOpen _) fun _ =>
    keepsCards_bind (keepsCards_averageOp (keepsCards_currentSample _ _)) fun _ => keepsCards_pure _

/-! ## The seek (R201) -/

variable {s t : State} {i : CardIx} {c : ChanIx} {target : Rat} {step : Int} {sense : Op Rat} {v : Value}

/-- R201: the working level `L` is the level cached for the channel. -/
def State.AtCachedLevel (s : State) (i : CardIx) (c : ChanIx) : Prop :=
  ∃ level : Nat, s.seekLevel = some (level : Int) ∧ s.cards[i].level[c] = some level

/-- R206: `v` is a level and a sample: the level is the one `t` caches for the channel, the sample one that `sense` answered, within
0.01 of the target. -/
def Sought (i : CardIx) (c : ChanIx) (target : Rat) (sense : Op Rat) (v : Value) (t : State) : Prop :=
  ∃ (level : Nat) (x : Rat), v = .pair level x ∧ |target - x| < 1 / 100 ∧ t.cards[i].level[c] = some level ∧
    ∃ a b, sense a = .ok x b

/-- R133: a level written is the level cached, from whatever state. -/
theorem setLevelOp_ok_caches {x : Int} {w : Unit} (h : setLevelOp (cardNo i) (chanNo c) x s = .ok w t) :
    ∃ level : Nat, x = level ∧ t.cards[i].level[c] = some level := by
  unfold setLevelOp at h
  rw [isChannel_chanNo, checkArg_true, Op.pure_bind] at h
  cases hx : isLevel x with
  | false => rw [hx] at h; cases h
  | true =>
    have hnonneg : 0 ≤ x := (isLevel_iff.mp hx).1
    rw [hx, checkArg_true, Op.pure_bind] at h
    obtain ⟨_, s1, -, h⟩ := bind_ok_inv h
    obtain ⟨_, s2, -, h⟩ := bind_ok_inv h
    rw [chanIx_chanNo, Op.pure_bind] at h
    cases h
    refine ⟨x.toNat, (Int.toNat_of_nonneg hnonneg).symm, level_of_cached (s := s2) ?_⟩
    rw [setCard_cards _ (cardIx?_cardNo i), State.card_cardNo]

/-- R201: the loop moves the working level and the cached level together, and ends well at a converged sample only. -/
theorem seekLoop_ok_inv (hm : sense.Moves averaging) (hk : sense.KeepsCards) :
    ∀ {fuel : Nat} {s : State}, s.AtCachedLevel i c →
      seekLoop (cardNo i) (chanNo c) target step sense fuel s = .ok v t → Sought i c target sense v t := by
  intro fuel
  induction fuel with
  | zero => intro s _ h; cases h
  | succ fuel ih =>
    intro s ⟨level, hl, hcached⟩ h
    cases hx : sense s.settled with
    | error e u => rw [seekLoop_senseFails hx] at h; cases h
    | ok x u =>
      have hlu : u.seekLevel = some (level : Int) := ((hm.ok hx).seek_kept (by decide)).2.trans hl
      have hcu : u.cards = s.settled.cards := hk.ok hx
      cases hconv : seekConverged target x with
      | true =>
        rw [seekLoop_converges hx hlu hconv] at h
        cases h
        refine ⟨level, x, rfl, (seekConverged_iff target x).mp hconv, ?_, s.settled, u, hx⟩
        change u.cards[i].level[c] = some level
        rw [hcu]
        exact hcached
      | false =>
        cases hset : setLevelOp (cardNo i) (chanNo c) (seekMove target x level step)
            (u.counted.withLevel (seekMove target x level step)) with
        | error e w => rw [seekLoop_setFails hx hlu hconv hset] at h; cases h
        | ok _ w =>
          rw [seekLoop_moves hx hlu hconv hset] at h
          obtain ⟨next, hnext, hcw⟩ := setLevelOp_ok_caches hset
          have hmoves : Moves plain _ w := (moves_setLevelOp _ _ _).ok hset
          have hlw : w.seekLevel = some (seekMove target x level step) := (hmoves.seek_kept id).2
          exact ih ⟨next, hlw.trans (congrArg some hnext), hcw⟩ h

theorem seekOp_ok_inv (hm : sense.Moves averaging) (hk : sense.KeepsCards)
    (h : seekOp (cardNo i) (chanNo c) target step sense s = .ok v t) : Sought i c target sense v t := by
  cases hl : s.cards[i].level[c] with
  | none =>
    have hnone : cachedLevel (cardNo i) c s = .error (.fault .noValue) s :=
      readField_of_none (by rw [State.card_cardNo]; exact hl)
    simp only [seekOp, dropAfter, chanIx_chanNo, Op.pure_bind, Op.bind_error hnone] at h
    cases h
  | some level =>
    rw [seekOp_eq hl] at h
    cases hloop : seekLoop (cardNo i) (chanNo c) target step sense Config.pb.seekMaxIter (s.seekStart level) with
    | error e u => rw [hloop] at h; cases h
    | ok w u =>
      rw [hloop] at h
      cases h
      have hsought : Sought i c target sense v u := seekLoop_ok_inv (s := s.seekStart level) hm hk ⟨level, rfl, hl⟩ hloop
      exact hsought

/-! ## The command around it (R183, R202, R203) -/

/-- R222, R228: a command that answers with a value has run its body to that value. -/
theorem runCommand_ok_inv {op : Byte} {ok : Bool} {found : State → Bool} {body : Op Value}
    (ht : runCommand op ok found body s = .next t) (hv : t.response = some (.ok v)) :
    ∃ u, body (s.beginCommand op) = .ok v u ∧ t = u.endCommand op (.ok v) := by
  unfold runCommand at ht
  cases hr : s.running with
  | some o => rw [hr] at ht; cases ht
  | none =>
    rw [hr] at ht
    dsimp only at ht
    split at ht
    · cases ht; cases hv
    · split at ht
      · cases ht; cases hv
      · cases hx : body (s.beginCommand op) with
        | ok w u => rw [hx] at ht; cases ht; cases hv; exact ⟨u, rfl, rfl⟩
        | error e u =>
          rw [hx] at ht
          cases e with
          | failed f => cases ht; cases hv
          | fault r => cases ht

/-- R112: a `CLOSE` that came to its end leaves the cached levels. -/
theorem closeOp_ok_level {w : Unit} (h : closeOp (cardNo i) s = .ok w t) : t.cards[i].level = s.cards[i].level := by
  obtain ⟨hp, ho⟩ := closeOp_ok_inv h
  obtain ⟨u, hu, -, -, hc⟩ := closeOp_runs hp ho
  cases hu.symm.trans h
  rw [hc, cards_set_same]

theorem seekCommand_ok_inv {op : Byte} {ok : Bool} (hm : sense.Moves averaging) (hk : sense.KeepsCards)
    (ht : runPerCard op ok (cardNo i) (seekOp (cardNo i) (chanNo c) target step sense) s = .next t)
    (hv : t.response = some (.ok v)) : Sought i c target sense v t := by
  obtain ⟨u, hu, rfl⟩ := runCommand_ok_inv ht hv
  obtain ⟨_, w, -, hseek, hclose⟩ := withOpen_ok_inv hu
  obtain ⟨level, x, hpair, hconv, hcached, hsense⟩ := seekOp_ok_inv hm hk hseek
  refine ⟨level, x, hpair, hconv, ?_, hsense⟩
  change u.cards[i].level[c] = some level
  rw [closeOp_ok_level hclose, hcached]

/-- R154, R156: a current read is 0 or at least 0.1. -/
theorem getCurrentOp_ok_range {a ch : Int} {x : Rat} (h : getCurrentOp a ch s = .ok x t) : x = 0 ∨ 1 / 10 ≤ x := by
  unfold getCurrentOp at h
  obtain ⟨_, _, -, h⟩ := bind_ok_inv h
  obtain ⟨_, _, -, h⟩ := bind_ok_inv h
  obtain ⟨m, _, -, h⟩ := bind_ok_inv h
  cases h
  rw [currentEps_eq]
  split
  · exact .inl rfl
  · next hm => exact .inr (not_lt.mp hm)

/-- R156: no such read lies within 0.01 of a target in 0.01..0.09. -/
theorem farFrom_of_dead_band {x : Rat} (hx : x = 0 ∨ 1 / 10 ≤ x) (hlow : 1 / 100 ≤ target) (hhigh : target ≤ 9 / 100) :
    FarFrom target x := by
  intro hnear
  obtain ⟨hbelow, habove⟩ := abs_lt.mp hnear
  obtain rfl | hx := hx <;> linarith

/-- Settles O57: both seeks end as `Sought` says; the sample of a current seek is a current read, which the dead band excludes. -/
theorem seekSuccessIsWithinTolerance : Obligations.SeekSuccessIsWithinTolerance := by
  intro i s t k c target step v hi ht hv
  obtain rfl | rfl := hi
  · obtain ⟨level, x, hpair, hconv, hcached, -⟩ :=
      seekCommand_ok_inv (moves_getBusVoltageOp (by exact rfl) _ _) (keepsCards_getBusVoltageOp _ _) ht hv
    exact ⟨level, x, hpair, hconv, hcached, fun h => nomatch h.1⟩
  · obtain ⟨level, x, hpair, hconv, hcached, a, b, hsense⟩ :=
      seekCommand_ok_inv (moves_getCurrentOp (by exact rfl) _ _) (keepsCards_getCurrentOp _ _) ht hv
    exact ⟨level, x, hpair, hconv, hcached, fun ⟨_, hlow, hhigh⟩ =>
      farFrom_of_dead_band (getCurrentOp_ok_range hsense) hlow hhigh hconv⟩

end Sys2Proof.Machine
end

section
/-! The proof of open (R165, U8), and per-card host commands, which never lack it (R183, R228, R239): O19, O14. -/

namespace Sys2Proof.Machine

variable {α : Type} {s : State} {a ch : Int}

/-! ## A card that is not open -/

/-- R165, U8: in `s` the operation stops for want of card `a`'s proof of open, if it is wanting. -/
def Op.NeedsOpen (a : Int) (s : State) (x : Op α) : Prop :=
  (s.card a).iso ≠ some .opened → x s = .error (.fault .notOpen) s

/-- An operation that asks for the proof first of all. -/
theorem needsOpen_requireOpen (f : Unit → Op α) : (requireOpen a >>= f).NeedsOpen a s :=
  fun h => Op.bind_error (requireOpen_of_not_open h)

/-- An operation that checks an argument first, which is in order. -/
theorem needsOpen_checkArg {ok : Bool} {f : Unit → Op α} (hok : ok = true) (hf : (f ⟨⟩).NeedsOpen a s) :
    (checkArg ok >>= f).NeedsOpen a s := by
  rwa [hok, checkArg_true, Op.pure_bind]

/-- R163: an operation on a channel that checks its number and then asks for the proof. -/
theorem needsOpen_channel (f : Unit → Op α) (hch : isChanNo ch) :
    (checkArg (isChannel ch) >>= fun _ => requireOpen a >>= f).NeedsOpen a s :=
  needsOpen_checkArg (isChannel_iff.mpr hch) (needsOpen_requireOpen f)

theorem exists_boolOfByte_eq_some {b : Byte} (h : ¬NotBool b) : ∃ v, boolOfByte b = some v :=
  Option.isSome_iff_exists.mp (isFlag_iff.mpr h)

/-- R123, R124: an operation that checks its channel and a boolean, and then asks for the proof. -/
theorem needsOpen_channel_flag {on : Byte} (f : Bool → Unit → Op α) (h : ¬(¬isChanNo ch ∨ NotBool on)) :
    (checkArg (isChannel ch) >>= fun _ => asBool (boolOfByte on) >>= fun b => requireOpen a >>= f b).NeedsOpen a s := by
  obtain ⟨hch, hon⟩ := not_or.mp h
  obtain ⟨v, hv⟩ := exists_boolOfByte_eq_some hon
  refine needsOpen_checkArg (isChannel_iff.mpr (not_not.mp hch)) ?_
  rw [hv, asBool_some, Op.pure_bind]
  exact needsOpen_requireOpen (f v)

theorem needsOpen_setLevelOp {v : Int} (h : ¬(¬isChanNo ch ∨ ¬(0 ≤ v ∧ v ≤ 1023))) : (setLevelOp a ch v).NeedsOpen a s := by
  obtain ⟨hch, hv⟩ := not_or.mp h
  exact needsOpen_checkArg (isChannel_iff.mpr (not_not.mp hch))
    (needsOpen_checkArg (isLevel_iff.mpr (not_not.mp hv)) (needsOpen_requireOpen _))

/-- Such an operation, run by itself (log 7). -/
theorem Op.NeedsOpen.internal {x : Op α} (hx : x.NeedsOpen a s) (h : (s.card a).iso ≠ some .opened) (g : α → Value) :
    runInternal (x >>= fun v => pure (g v)) s = .fault .notOpen :=
  runInternal_fault (Op.bind_error (hx h))

/-- Settles O19: each operation asks for the proof as soon as it has checked its own operands. -/
theorem noOperationWithoutProofOfOpen : Obligations.NoOperationWithoutProofOfOpen := by
  intro x k s hx _ hargs hiso
  have hshut : ∀ {a : Int}, some a = some (cardNo k) → (s.card a).iso ≠ some .opened := by
    rintro a ⟨⟩
    rwa [State.card_cardNo]
  cases x with
  | xpWrite a chen tsten =>
    exact Op.NeedsOpen.internal (x := xpWriteOp a chen tsten) (needsOpen_requireOpen _) (hshut hx) fun _ => .nothing
  | xpRead a => exact Op.NeedsOpen.internal (x := xpReadOp a) (needsOpen_requireOpen _) (hshut hx) fun _ => .nothing
  | enableChannel a ch on =>
    exact Op.NeedsOpen.internal (x := enableChannelOp a ch on) (needsOpen_channel_flag _ hargs) (hshut hx) fun _ => .nothing
  | enableTestLoad a ch on =>
    exact Op.NeedsOpen.internal (x := enableTestLoadOp a ch on) (needsOpen_channel_flag _ hargs) (hshut hx) fun _ => .nothing
  | setLevel => exact (needsOpen_setLevelOp hargs).internal (hshut hx) fun _ => .nothing
  | setLevelMin a ch =>
    exact Op.NeedsOpen.internal (x := setLevelMinOp a ch) (needsOpen_channel _ (not_not.mp hargs)) (hshut hx) fun _ => .nothing
  | setLevelMax a ch =>
    exact Op.NeedsOpen.internal (x := setLevelMaxOp a ch) (needsOpen_channel _ (not_not.mp hargs)) (hshut hx) fun _ => .nothing
  | readLevel a ch =>
    exact Op.NeedsOpen.internal (x := readLevelOp a ch) (needsOpen_channel _ (not_not.mp hargs)) (hshut hx) fun v => .int v
  | potWrite a ch p =>
    exact Op.NeedsOpen.internal (x := potWriteOp a ch p) (needsOpen_requireOpen _) (hshut hx) fun _ => .nothing
  | senseInit a ch => exact Op.NeedsOpen.internal (x := senseInitOp a ch) (needsOpen_requireOpen _) (hshut hx) fun _ => .nothing
  | rawShunt a ch => exact Op.NeedsOpen.internal (x := rawShuntOp a ch) (needsOpen_requireOpen _) (hshut hx) .int
  | rawBus a ch => exact Op.NeedsOpen.internal (x := rawBusOp a ch) (needsOpen_requireOpen _) (hshut hx) .int
  | rawCurrent a ch => exact Op.NeedsOpen.internal (x := rawCurrentOp a ch) (needsOpen_requireOpen _) (hshut hx) .int
  | rawPower a ch => exact Op.NeedsOpen.internal (x := rawPowerOp a ch) (needsOpen_requireOpen _) (hshut hx) .int
  | getBusVoltage a ch =>
    exact Op.NeedsOpen.internal (x := getBusVoltageOp a ch) (needsOpen_channel _ (not_not.mp hargs)) (hshut hx) .real
  | getShuntVoltage a ch =>
    exact Op.NeedsOpen.internal (x := getShuntVoltageOp a ch) (needsOpen_channel _ (not_not.mp hargs)) (hshut hx) .real
  | getCurrent a ch =>
    exact Op.NeedsOpen.internal (x := getCurrentOp a ch) (needsOpen_channel _ (not_not.mp hargs)) (hshut hx) .real
  | _ => cases hx

/-! ## A per-card host command -/

/-- R227: a command whose body, when it runs at all, does not stop the machine ends with a response. -/
theorem runCommand_responds {op : Byte} {ok : Bool} {found : State → Bool} {body : Op Value} (hr : s.running = none)
    (hb : ok = true → found s = true → ∀ q t, body (s.beginCommand op) ≠ .error (.fault q) t) :
    ∃ t r, runCommand op ok found body s = .next t ∧ t.response = some r := by
  cases ok with
  | false => exact ⟨_, _, runCommand_badArgs hr, rfl⟩
  | true =>
    cases hf : found s with
    | false => exact ⟨_, _, runCommand_notFound hr hf, rfl⟩
    | true =>
      cases hx : body (s.beginCommand op) with
      | ok v t => exact ⟨_, _, runCommand_ok hr hf hx, rfl⟩
      | error e t =>
        cases e with
        | failed f => exact ⟨_, _, runCommand_failed hr hf hx, rfl⟩
        | fault q => exact absurd hx (hb rfl hf q t)

/-- R183: the bracket around a body that its card serves stops only for want of a cached value, and a live card has them all. -/
theorem withOpen_no_fault {i : CardIx} {body : Op α} (hs : body.Serves i) (hwf : Memory.wf s.mem = true) (hv : s.params.Valid)
    (hn : NoneConnected s) (hc : s.cards[i].Complete) (q : Fault) (t : State) :
    withOpen (cardNo i) body s ≠ .error (.fault q) t := by
  intro hx
  have hb := withOpen_bracketed hwf hv hn hs
  rw [hx] at hb
  exact hb hc

/-- Settles O14: a card that is named by no number is refused; any other is served inside one bracket. -/
theorem perCardCommandAlwaysResponds : Obligations.PerCardCommandAlwaysResponds := by
  intro x s hx hr hv hwf hn hcomplete
  obtain ⟨a, ha⟩ := Option.ne_none_iff_exists'.mp hx
  by_cases hcard : isCardNo a
  · obtain ⟨k, hk⟩ := cardIx?_isSome hcard
    obtain rfl := cardIx?_eq_some.mp hk
    obtain ⟨ok, body, hform, -, hbody⟩ := perCard_form ha
    rw [hform s]
    refine runCommand_responds hr fun hok hfound => ?_
    have hlive : s.cards[k].live = true := by rwa [cardFound, State.live, State.card_cardNo] at hfound
    exact withOpen_no_fault (s := s.beginCommand x.opcode) (hbody hok).serves hwf hv hn (hcomplete k hlive)
  · obtain ⟨ok, body, hform, hok⟩ := perCard_named ha
    rw [hform s]
    exact runCommand_responds hr fun h => absurd (hok h) hcard

end Sys2Proof.Machine
end

section
/-! A successful construction (R161): O41. -/

namespace Sys2Proof.Machine

variable {s t : State} {i : CardIx} {c : ChanIx} {p : Params} {n : Nat} {es : List Event}

/-- R161: the cells a construction writes, in order: the switch, every sense chip's two words, the switch again. -/
def constructWrites (p : Params) (i : CardIx) : List (Nat × Byte) :=
  (swCell i, openByte p) :: (senseWrites p i (List.finRange Config.pb.nChan) ++ [(swCell i, closeByte)])

/-- A construction writes cells of its own card only. -/
theorem constructWrites_cells {k : Nat} (hk : k ∈ (constructWrites p i).map Prod.fst) : CardCell i k := by
  obtain rfl | hk := bracket_cells hk
  · exact cardCell_swCell i
  · have hcell := senseWrites_cells hk
    rw [cardCell_iff]
    omega

/-- The cells of the sense chips of different channels are different ones. -/
theorem senseWrites_nodup {cs : List ChanIx} (h : cs.Nodup) : ((senseWrites p i cs).map Prod.fst).Nodup := by
  rw [senseWrites, List.map_flatten, List.map_map, ← List.flatMap_def, List.nodup_flatMap]
  refine ⟨fun c _ => senseInit_nodup p i c, h.imp fun {c d} hne k hc hd => ?_⟩
  have hval : c.val ≠ d.val := fun e => hne (Fin.ext e)
  simp only [Function.comp, List.map_append, calWrites_cells, cfgWrites_cells, snsCalCell_val, snsCfgCell_val,
    List.cons_append, List.nil_append, List.mem_cons, List.not_mem_nil, or_false] at hc hd
  omega

/-- R140: what a construction leaves in a cell of a sense chip is what its initialisation wrote there. -/
theorem Effect.read_constructed (he : Effect s t n (constructWrites p i) es) (hm : Memory.wf s.mem = true) {w : Nat × Byte}
    (hw : w ∈ calWrites p i c ++ cfgWrites p i c) : Memory.read t.mem w.1 = w.2 := by
  rw [bracket_read_other hm (senseCells_on (List.mem_map_of_mem hw)).2 he.mem]
  exact Memory.read_writeAll_mem hm (senseWrites_nodup (List.nodup_finRange _))
    (List.mem_flatten_of_mem (List.mem_map_of_mem (List.mem_finRange c)) hw)

/-- R161, R140: after a construction every sense chip holds both its words. -/
theorem Effect.constructed_words (he : Effect s t n (constructWrites p i) es) (hm : Memory.wf s.mem = true) (c : ChanIx) :
    t.devSnsCal i c = p.calWord ∧ t.devSnsCfg i c = p.cfgWord := by
  have hword : ∀ {k : Nat} {v : Half}, (∀ w ∈ halfCells k v, w ∈ calWrites p i c ++ cfgWrites p i c) →
      Memory.read t.mem k ++ Memory.read t.mem (k + 1) = v := by
    intro k v h
    rw [he.read_constructed hm (h (k, v.extractLsb' 8 8) (by simp [halfCells])),
      he.read_constructed hm (h (k + 1, v.extractLsb' 0 8) (by simp [halfCells]))]
    exact append_extract v
  exact ⟨hword fun _ => List.mem_append_left _, hword fun _ => List.mem_append_right _⟩

/-- Settles O41: the 27 transactions of `cardConstructOp_present`, by what they leave in the cache and in each register. -/
theorem cardConstructPresent : Obligations.CardConstructPresent := by
  intro s i hm hv hn hp hb
  obtain ⟨t, es, hrun, he, hcount, hlen, hs, hc, hnone⟩ := cardConstructOp_present hm hv hn hp hb
  obtain ⟨hxp, hpot⟩ := cardConstructOp_keeps (i := i) hv hrun
  replace he : Effect s t 27 (constructWrites s.params i) es := he
  have hcard : (t.respond (.ok (.bool true))).cards[i] = { discovered s i s.cards[i] with live := true, iso := some .closed } := by
    rw [State.respond_cards, hc, cards_set_same]
  have hlevel : ∀ c : ChanIx, (discovered s i s.cards[i]).level[c] = some (s.potSum i c) := fun c => by simp [discovered]
  have hothers : SameCardsBut i s t := fun j hj => by rw [hc, cards_set_other _ _ hj]
  refine ⟨_, runInternal_value hrun, rfl, ?_⟩
  rw [hcard]
  exact ⟨rfl, rfl, rfl, rfl, hlevel, rfl, rfl, he.constructed_words hm, bracket_read_switch hm he.mem, hnone, hothers,
    fun k hk => he.read_other fun h => hk (constructWrites_cells h), hxp 0, hxp 1, hpot, ⟨es, he.hist, hcount, hlen⟩,
    he.sameElsewhere hs, he.took⟩

end Sys2Proof.Machine
end

section
/-! Host commands that are refused (R180, R181, R182, R200): O16, O17. -/

namespace Sys2Proof.Machine

variable {s : State} {a ch : Int}

theorem isCard_eq_false (h : ¬isCardNo a) : isCard a = false := Bool.eq_false_iff.mpr fun h' => h (isCard_iff.mp h')

theorem isFlag_eq_false {b : Byte} (h : NotBool b) : isFlag b = false := by
  rw [isFlag, boolOfByte_eq_none h]
  rfl

/-- R181: one of a command's two checks fails. -/
theorem and_eq_false_of {p q : Bool} (h : p = false ∨ q = false) : (p && q) = false := Bool.and_eq_false_iff.mpr h

theorem cardChanOk_eq_false (h : ¬isCardNo a ∨ ¬isChanNo ch) : cardChanOk a ch = false :=
  and_eq_false_of (h.imp isCard_eq_false isChannel_eq_false)

theorem flagCardChan_eq_false {f : Byte} (h : ¬isCardNo a ∨ ¬isChanNo ch ∨ NotBool f) :
    (isFlag f && cardChanOk a ch) = false :=
  and_eq_false_of ((or_assoc.mpr h).symm.imp isFlag_eq_false cardChanOk_eq_false)

theorem cardChanLevel_eq_false {v : Int} (h : ¬isCardNo a ∨ ¬isChanNo ch ∨ ¬(0 ≤ v ∧ v ≤ 1023)) :
    (cardChanOk a ch && isLevel v) = false :=
  and_eq_false_of ((or_assoc.mpr h).imp cardChanOk_eq_false isLevel_eq_false)

/-- R200: the two further checks of a seek, whichever its range of targets is. -/
theorem cardChanSeek_eq_false {ok : Bool} {P Q : Prop} (hok : ok = true ↔ P ∧ Q)
    (h : ¬isCardNo a ∨ ¬isChanNo ch ∨ ¬P ∨ ¬Q) : (cardChanOk a ch && ok) = false :=
  and_eq_false_of ((or_assoc.mpr h).imp cardChanOk_eq_false fun h =>
    Bool.eq_false_iff.mpr fun ht => not_and_or.mpr h (hok.mp ht))

theorem runCommand_refuses {op : Byte} {ok : Bool} {found : State → Bool} {body : Op Value} (hr : s.running = none)
    (hok : ok = false) :
    runCommand op ok found body s = .next { s with response := some (.failed .invalidArgument) } := by
  rw [hok]
  exact runCommand_badArgs hr

/-- R13: with no live address listed, no card is live. -/
theorem not_live_of_liveCards_nil (h : s.liveCards = []) (i : CardIx) : s.cards[i].live = false := by
  rw [← liveCards_contains, h]
  rfl

/-- Settles O16: each command makes its checks before it begins. -/
theorem refusedHostCommandTouchesNothing : Obligations.RefusedHostCommandTouchesNothing := by
  intro s hr
  refine ⟨fun x h => ?_, fun k hk => ?_⟩
  · cases x with
    | crateEnableChannel => exact runCommand_refuses hr (flagCardChan_eq_false h)
    | crateEnableTestLoad => exact runCommand_refuses hr (flagCardChan_eq_false h)
    | crateIsChannelEnabled => exact runCommand_refuses hr (cardChanOk_eq_false h)
    | crateSetLevel => exact runCommand_refuses hr (cardChanLevel_eq_false h)
    | crateGetBusVoltage => exact runCommand_refuses hr (cardChanOk_eq_false h)
    | crateGetShuntVoltage => exact runCommand_refuses hr (cardChanOk_eq_false h)
    | crateGetCurrent => exact runCommand_refuses hr (cardChanOk_eq_false h)
    | seekVoltage => exact runCommand_refuses hr (cardChanSeek_eq_false (seekVoltageArgs_iff _ _) h)
    | seekCurrent => exact runCommand_refuses hr (cardChanSeek_eq_false (seekCurrentArgs_iff _ _) h)
    | disableAllOutputs => exact runCommand_refuses hr (isFlag_eq_false h)
    | saveConfig => exact runCommand_refuses hr (isFlag_eq_false h)
    | loadConfig => exact runCommand_refuses hr (isFlag_eq_false h)
    | _ => exact h.elim
  · refine runCommand_refuses hr (isEmpty_false_of_ne fun hnil => ?_)
    have hdead := not_live_of_liveCards_nil hnil k
    rw [hk] at hdead
    cases hdead

/-- Settles O17: its checks passed, the command looks the card up before it begins. -/
theorem cardNotFoundTouchesNothing : Obligations.CardNotFoundTouchesNothing := by
  intro s x k hr hx hargs hl
  obtain ⟨body, -, hform⟩ := perCard_runs hx hargs
  rw [hform s]
  refine runCommand_notFound hr ?_
  rw [cardFound, State.live, State.card_cardNo, hl]

end Sys2Proof.Machine
end

section
/-! `CRATE_CONSTRUCT` (R180): O43. -/

namespace Sys2Proof.Machine

variable {s t : State} {i : CardIx}

/-- The round of one address in a crate with no card live: what `GET_AVAILABLE_CARDS` leaves there too. -/
theorem cardRound_first (hm : Memory.wf t.mem = true) (hv : t.params.Valid) (hn : NoneConnected t) (hparams : t.params = s.params)
    (hpresent : t.present = s.present) (hcard : t.cards[i] = s.cards[i])
    (hmem : ∀ k, CardCell i k → Memory.read t.mem k = Memory.read s.mem k) (hl : s.cards[i].live = false)
    (hb : NoBusError 27 t) :
    ∃ u, (do let _ ← cardConstructOp (cardNo i) : Op Unit) t = .ok ⟨⟩ u ∧
      CardRound 27 s.refreshed (fun _ _ => True) (fun _ _ => True) i t u := by
  cases hp : s.present[i] with
  | true =>
    obtain ⟨u, hu, hround⟩ := cardRound_construct (F := s.refreshed) (dev := fun _ _ => True) hm hv hn (by rw [hpresent, hp]) hb
      hparams hcard hmem (new_case hl hp).2.1 fun _ _ _ => trivial
    exact ⟨u, Op.bind_ok hu, hround.ev_mono (fun _ _ => trivial) (le_refl _)⟩
  | false =>
    obtain ⟨u, hu, hround⟩ := cardRound_absent (F := s.refreshed) (dev := fun _ _ => True) (N := 27) hn (by rw [hpresent, hp])
      (absent_case hl hp).2.1 fun _ _ => trivial
    exact ⟨u, Op.bind_ok hu, hround.ev_mono (fun _ _ => trivial) (le_refl _)⟩

/-- R180: the pass over the 18 addresses. -/
theorem crateConstructOp_runs (hm : Memory.wf s.mem = true) (hv : s.params.Valid) (hn : NoneConnected s)
    (hl : ∀ i : CardIx, s.cards[i].live = false) (hb : NoBusError 486 s) :
    ∃ t n W es, crateConstructOp s = .ok (.cards t.liveCards) t ∧ Effect s t n W es ∧
      (∀ i : CardIx, t.cards[i] = s.refreshed i) ∧ NoneConnected t := by
  obtain ⟨t, ht, hloop⟩ := forCards_runs (body := fun a => do let _ ← cardConstructOp a) (F := s.refreshed)
    (dev := fun _ _ => True) (ev := fun _ _ => True) (N := 27) hm hn hb (fun _ _ _ _ _ => trivial)
    fun i t hmt hnt hpt _ hprt hct hmemt hbt => cardRound_first hmt (by rwa [hpt]) hnt hpt hprt hct hmemt (hl i) hbt
  obtain ⟨n, W, es, he, -⟩ := hloop.run
  refine ⟨t, n, W, es, ?_, he, fun i => (hloop.cards i).trans (if_pos (List.mem_finRange i)), hloop.closed⟩
  rw [crateConstructOp, Op.bind_ok ht]
  rfl

/-- Settles O43: each address is left as `State.refreshed` says, with no card live before. -/
theorem crateConstructFindsPluggedCards : Obligations.CrateConstructFindsPluggedCards := by
  intro s hm hv hbetween hn hnil hb
  have hdead := not_live_of_liveCards_nil hnil
  obtain ⟨t, n, W, es, hrun, he, hcard, hnone⟩ :=
    crateConstructOp_runs (s := s.beginCommand 0x80#8) hm hv hn hdead hb
  obtain ⟨he', hs'⟩ := endCommand_effect hbetween he (.ok (.cards t.liveCards))
  have hexec : exec .crateConstruct s = .next (t.endCommand 0x80#8 (.ok (.cards t.liveCards))) := by
    change runCommand 0x80#8 s.liveCards.isEmpty noCardNeeded crateConstructOp s = _
    rw [hnil]
    exact runCommand_ok hbetween.1 rfl hrun
  have hleft : ∀ i : CardIx, (t.endCommand 0x80#8 (.ok (.cards t.liveCards))).cards[i] = s.refreshed i := hcard
  refine ⟨_, hexec, rfl, fun i => ?_, fun i hp => ?_, fun i hp => ?_, hnone, he'.sameElsewhere hs'⟩
  · rw [hleft]
    exact refreshed_live fun hl => absurd (hl.symm.trans (hdead i)) (by decide)
  · obtain ⟨-, hnew, -⟩ := refreshed_visited s i
    rw [hleft]
    exact (hnew hp (hdead i)).2
  · rw [hleft]
    exact (absent_case (hdead i) hp).2.1

end Sys2Proof.Machine
end

section
/-! Per-card host commands whose transactions all succeed (R183 to R190): O46, O47, O48. -/

namespace Sys2Proof.Machine

variable {α : Type} {s t : State} {i : CardIx} {c : ChanIx} {op : Byte} {n : Nat} {W : List (Nat × Byte)} {es : List Event}
  {card : Card} {v : Value}

/-! ## What such a command leaves -/

/-- R183: a per-card command answered `v` after `n` transactions of its body with cell writes `W` and events `es`, which left the
card's cached state `card`. -/
structure PerCardDone (s : State) (i : CardIx) (op : Byte) (n : Nat) (v : Value) (W : List (Nat × Byte)) (es : List Event)
    (card : Card) (t : State) : Prop where
  response : t.response = some (.ok v)
  card : t.cards[i] = { card with iso := some .closed }
  others : SameCardsBut i s t
  switch : t.devSw i = 0x60#8
  cells : ∀ k, k ≠ swCell i → Memory.read t.mem k = Memory.read (Memory.writeAll s.mem W) k
  closed : NoneConnected t
  hist : t.hist = s.hist ++ commandTrace s.params op i es
  elsewhere : SameElsewhere s t
  took : Took (n + 2) s t

theorem perCardDone_of_effect (hm : Memory.wf s.mem = true) (hres : t.response = some (.ok v))
    (he : Effect s t (n + 2) ((swCell i, openByte s.params) :: (W ++ [(swCell i, closeByte)])) (commandTrace s.params op i es))
    (hs : SameScratch s t) (hc : t.cards = s.cards.set i { card with iso := some .closed }) (hn : NoneConnected t) :
    PerCardDone s i op n v W es card t where
  response := hres
  card := by rw [hc, cards_set_same]
  others j hj := by rw [hc, cards_set_other _ _ hj]
  switch := bracket_read_switch hm he.mem
  cells _ hk := bracket_read_other hm hk he.mem
  closed := hn
  hist := he.hist
  elsewhere := he.sameElsewhere hs
  took := he.took

theorem PerCardDone.sameCells (h : PerCardDone s i op n v W es card t) {ks : List Nat} (hks : ∀ k ∈ W.map Prod.fst, k ∈ ks) :
    SameCellsBut (swCell i :: ks) s t := by
  intro k hk
  obtain ⟨hsw, hk⟩ := not_or.mp (List.mem_cons.not.mp hk)
  rw [h.cells k hsw, Memory.read_writeAll_other _ fun hW => hk (hks k hW)]

/-- The state whose registers hold what the body wrote. -/
theorem effect_writeAll (s : State) (W : List (Nat × Byte)) :
    Effect s { s with mem := Memory.writeAll s.mem W } 0 W [] := by
  refine ⟨rfl, rfl, rfl, rfl, rfl, rfl, (List.append_nil _).symm, ?_, ?_⟩ <;> rw [State.took_zero]

theorem cards_eq_set (h : t.cards[i] = card) : t.cards = t.cards.set i card := by
  rw [← h, cards_set_self]

/-- R183: a per-card command that passes its checks and whose body is the operation `x` and the making of its value. `Q` is
whatever is known of the body's writes and events. -/
theorem runPerCard_done {x : Op α} {g : α → Value} {a : α} (Q : List (Nat × Byte) → List Event → Prop) (h : CommandReady s)
    (hl : s.cards[i].live = true) (hp : s.present[i] = true) (hb : NoBusError (n + 2) s)
    (hx : ∀ t, Ready t i → Effect (s.beginCommand op) t 1 [(swCell i, openByte s.params)]
        [switchEvent s.params i (openByte s.params)] → t.cards[i] = { s.cards[i] with iso := some .opened } →
      NoBusError n t → ∃ u W es, x t = .ok a u ∧ Effect t u n W es ∧ u.cards = t.cards.set i card ∧
        (∀ k ∈ W.map Prod.fst, CardCell i k ∧ k ≠ swCell i) ∧ Q W es) :
    ∃ t W es, runPerCard op true (cardNo i) (x >>= fun v => pure (g v)) s = .next t ∧
      PerCardDone s i op n (g a) W es card t ∧ Q W es := by
  obtain ⟨t, v, W, es, card', hrun, hres, he, hs, hc, hnone, rfl, rfl, hQ⟩ :=
    runPerCard_runs (op := op) (body := x >>= fun v => pure (g v)) (fun v W es card' => v = g a ∧ card' = card ∧ Q W es)
      h hl hp hb fun t hr he hct => by
        obtain ⟨u, W, es, hu, heu, hcu, hW, hQ⟩ :=
          hx t hr he (by rw [hct, cards_set_same]) ((NoBusError.after (s := s.beginCommand op) hb he (by omega)).mono (by omega))
        exact ⟨u, _, W, es, card, by rw [Op.bind_ok hu]; rfl, heu, by rw [hcu, hct, cards_set_set],
          no_switch_of_cells hW, rfl, rfl, hQ⟩
  exact ⟨t, W, es, hrun, perCardDone_of_effect h.1 hres he hs hc hnone, hQ⟩

/-- The same of an operation whose writes and events are known. -/
theorem runPerCard_runs_done {x : Op α} {g : α → Value} {a : α} (h : CommandReady s) (hl : s.cards[i].live = true)
    (hp : s.present[i] = true) (hb : NoBusError (n + 2) s) (hW : ∀ k ∈ W.map Prod.fst, CardCell i k ∧ k ≠ swCell i)
    (hx : ∀ t, Ready t i → t.params = s.params → t.cards[i] = { s.cards[i] with iso := some .opened } → NoBusError n t →
      x.Runs t a n W es (t.cards.set i card)) :
    ∃ t, runPerCard op true (cardNo i) (x >>= fun v => pure (g v)) s = .next t ∧
      PerCardDone s i op n (g a) W es card t := by
  obtain ⟨t, _, _, hrun, hdone, rfl, rfl⟩ := runPerCard_done (op := op) (g := g) (fun W' es' => W' = W ∧ es' = es) h hl hp hb
    fun t hr he hct hbt => by
      obtain ⟨u, hu, heu, -, hcu⟩ := hx t hr he.params hct hbt
      exact ⟨u, W, es, hu, heu, hcu, hW, rfl, rfl⟩
  exact ⟨t, hrun, hdone⟩

/-- R181: a per-card command whose operands are in order. -/
theorem runPerCard_passes {ok : Bool} {body : Op Value} (hok : ok = true)
    (h : runPerCard op true (cardNo i) body s = .next t) : runPerCard op ok (cardNo i) body s = .next t := by
  rw [hok]
  exact h

/-- R181: the card and the channel of a command are in order, and so is what else it checks. -/
theorem cardChanAnd_numbers {ok : Bool} (hok : ok = true) : (cardChanOk (cardNo i) (chanNo c) && ok) = true :=
  Bool.and_eq_true_iff.mpr ⟨cardChanOk_numbers i c, hok⟩

/-! ## The expander's commands (R184 to R186) -/

theorem flagCardChan_numbers (i : CardIx) (c : ChanIx) (on : Bool) :
    (isFlag (byteOfBool on) && cardChanOk (cardNo i) (chanNo c)) = true :=
  Bool.and_eq_true_iff.mpr ⟨isFlag_byteOfBool on, cardChanOk_numbers i c⟩

theorem PerCardDone.devXp {m l : Byte} (h : PerCardDone s i op n v [(xpCell i 0, m), (xpCell i 1, l)] es card t)
    (hm : Memory.wf s.mem = true) : t.devXp i 0 = m ∧ t.devXp i 1 = l := by
  obtain ⟨h0, h1⟩ := devXp_written (effect_writeAll s [(xpCell i 0, m), (xpCell i 1, l)]) hm
  exact ⟨(h.cells _ (swCell_ne_xpCell i i 0).symm).trans h0, (h.cells _ (swCell_ne_xpCell i i 1).symm).trans h1⟩

/-- Settles O46: each body is one operation on the open card. -/
theorem crateEnableCommands : Obligations.CrateEnableCommands := by
  intro s i c on m l hready hl hp hb hm hlm post
  have hpost : ∀ {op m' l' t}, PerCardDone s i op 1 .nothing [(xpCell i 0, ~~~m'), (xpCell i 1, ~~~l')]
      [.bus (.writeBlock s.params.xpAddr s.params.xpReg [~~~m', ~~~l']) true []]
      { s.cards[i] with iso := some .opened, chen := some m', tsten := some l' } t → post op m' l' t := fun hd =>
    ⟨hd.response, hd.card, (hd.devXp hready.1).1, (hd.devXp hready.1).2, hd.switch, hd.sameCells fun _ => id, hd.others,
      hd.closed, hd.hist, hd.elsewhere, hd.took⟩
  refine ⟨?_, ?_, ?_⟩
  · obtain ⟨t, ht, hd⟩ := runPerCard_runs_done (op := 0x90#8) (g := fun _ => .nothing) hready hl hp hb xp_cells
      fun t hr hpt hct hbt => by
        have hx := enableChannelOp_runs c on hr (hbt.next (by omega)) (by rw [hct]; exact hm) (by rw [hct]; exact hlm)
        rwa [hpt, hct] at hx
    exact ⟨t, setMaskBit m c on, runPerCard_passes (flagCardChan_numbers i c on) ht,
      fun d => getLsbD_setMaskBit m c d on, hpost hd⟩
  · obtain ⟨t, ht, hd⟩ := runPerCard_runs_done (op := 0x91#8) (g := fun _ => .nothing) hready hl hp hb xp_cells
      fun t hr hpt hct hbt => by
        have hx := enableTestLoadOp_runs c on hr (hbt.next (by omega)) (by rw [hct]; exact hm) (by rw [hct]; exact hlm)
        rwa [hpt, hct] at hx
    exact ⟨t, setMaskBit l c on, runPerCard_passes (flagCardChan_numbers i c on) ht,
      fun d => getLsbD_setMaskBit l c d on, hpost hd⟩
  · obtain ⟨t, ht, hd⟩ := runPerCard_runs_done (op := 0x92#8) (n := 0) (W := []) (es := []) (g := .bool)
      (card := { s.cards[i] with iso := some .opened }) hready hl hp (hb.mono (by omega)) nofun fun t _ _ hct _ =>
        ⟨t, isChannelEnabledOp_ok c (by rw [hct]; exact hm), Effect.refl t, SameScratch.refl t, cards_eq_set hct⟩
    exact ⟨t, runPerCard_passes (cardChanOk_numbers i c) ht, hd.response, hd.card, hd.switch, hd.sameCells nofun, hd.others,
      hd.closed, hd.hist, hd.elsewhere, hd.took⟩

/-! ## The level (R187) -/

/-- R78: byte `j` of the level `v`. -/
def levelByte (v j : Nat) : Byte :=
  if j < v / 256 then 0xFF#8 else if j = v / 256 then BitVec.ofNat 8 (v % 256) else 0x00#8

/-- The event of a successful write of a channel's four bytes. -/
def potEvent (p : Params) (c : ChanIx) (bs : List Byte) : Event :=
  .bus (.writeBlock (p.potAddr[potChip c] : Nat) p.potReg[potSub c] bs) true []

theorem PerCardDone.devPot {byte : Nat → Byte}
    (h : PerCardDone s i op n v ((potCells i c).zip (fourBytes byte)) es card t) (hm : Memory.wf s.mem = true) (j : Fin 4) :
    t.devPot i c j.val = byte j.val :=
  (h.cells _ (swCell_ne_potCell i i _ _ j.isLt).symm).trans
    ((devPot_written (effect_writeAll s ((potCells i c).zip (fourBytes byte))) hm j).trans (getD_four byte j))

/-- Settles O47: its body is one `SET_LEVEL` on the open card. -/
theorem crateSetLevelSetsLevel : Obligations.CrateSetLevelSetsLevel := by
  intro s i c v hv hready hl hp hb
  have hlevel : (0 : Int) ≤ v ∧ (v : Int) ≤ 1023 := by omega
  obtain ⟨t, ht, hd⟩ := runPerCard_runs_done (op := 0x93#8) (x := setLevelOp (cardNo i) (chanNo c) v)
    (W := (potCells i c).zip (fourBytes (levelByte v)))
    (es := [potEvent s.params c (fourBytes (levelByte v))]) (g := fun _ => .nothing)
    (card := { s.cards[i] with iso := some .opened, level := s.cards[i].level.set c (some v) }) hready hl hp hb pot_cells
    fun t hr hpt hct hbt => by
      have hx := setLevelOp_runs c hlevel hr (hbt.next (by omega))
      rw [hpt, hct, Int.toNat_natCast, potBytes_eq hv (levelByte v) fun _ => rfl] at hx
      exact hx
  have hbytes := hd.devPot hready.1
  refine ⟨t, runPerCard_passes (cardChanAnd_numbers (isLevel_iff.mpr hlevel)) ht, hd.response, hd.card, hbytes, hd.switch,
    hd.sameCells fun k hk => ?_, hd.others, ?_, hd.closed, hd.elsewhere, hd.took⟩
  · obtain ⟨w, hw, rfl⟩ := List.mem_map.mp hk
    exact (List.of_mem_zip hw).1
  · rw [hd.hist, show t.devPot i c 0 = _ from hbytes 0, show t.devPot i c 1 = _ from hbytes 1,
      show t.devPot i c 2 = _ from hbytes 2, show t.devPot i c 3 = _ from hbytes 3]
    rfl

/-! ## The reads (R188 to R190) -/

theorem countP_isBus_commandTrace (p : Params) :
    (commandTrace p op i es).countP Event.isBus = es.countP Event.isBus + 2 := by
  simp [commandTrace, switchEvent, Event.isBus, List.countP_cons]

/-- The cells of some of the calibration register's writes. -/
theorem calCells_of_part {p : Params} (h : ∀ w ∈ W, w ∈ calWrites p i c) :
    ∀ k ∈ W.map Prod.fst, k ∈ [snsCalCell i c, snsCalCell i c + 1] := by
  intro k hk
  obtain ⟨w, hw, rfl⟩ := List.mem_map.mp hk
  exact List.mem_map_of_mem (h w hw)

/-- A read command: its body is a public read of `n` transactions that answers `r` and writes no cell but the calibration
register's. -/
theorem runPerCard_reads {x : Op Rat} {r : Rat} {ws : List (Nat × Byte)} (h : CommandReady s) (hl : s.cards[i].live = true)
    (hp : s.present[i] = true) (hb : NoBusError (n + 2) s) (hws : ∀ w ∈ ws, w ∈ calWrites s.params i c)
    (hx : ∀ t, Ready t i → Effect (s.beginCommand op) t 1 [(swCell i, openByte s.params)]
        [switchEvent s.params i (openByte s.params)] → t.cards[i] = { s.cards[i] with iso := some .opened } →
      NoBusError n t → ∃ u, x t = .ok r u ∧ PublicRead t u n ws) :
    ∃ t W es, runPerCard op true (cardNo i) (x >>= fun v => pure (.real v)) s = .next t ∧
      PerCardDone s i op n (.real r) W es { s.cards[i] with iso := some .opened } t ∧
      (∀ k ∈ W.map Prod.fst, k ∈ [snsCalCell i c, snsCalCell i c + 1]) ∧ es.countP Event.isBus = n := by
  refine runPerCard_done (fun W es => (∀ k ∈ W.map Prod.fst, k ∈ [snsCalCell i c, snsCalCell i c + 1]) ∧
    es.countP Event.isBus = n) h hl hp hb fun t hr he hct hbt => ?_
  obtain ⟨u, hu, hread⟩ := hx t hr he hct hbt
  obtain ⟨W, es, heu, hW, hbus, -⟩ := hread.run
  have hcal : ∀ w ∈ W, w ∈ calWrites s.params i c := fun w hw => hws w (hW w hw)
  exact ⟨u, W, es, hu, heu, hread.cards.trans (cards_eq_set hct),
    senseCells_of_part fun w hw => List.mem_append_left _ (hcal w hw), calCells_of_part hcal, hbus⟩

/-- Settles O48: each body is one public read, its answers those that come after the `OPEN`'s. -/
theorem crateReadCommands : Obligations.CrateReadCommands := by
  intro s i c d hready hl hp hb hd post
  have hpost : ∀ {op n r t}, (∃ W es, PerCardDone s i op n (.real r) W es { s.cards[i] with iso := some .opened } t ∧
      (∀ k ∈ W.map Prod.fst, k ∈ [snsCalCell i c, snsCalCell i c + 1]) ∧ es.countP Event.isBus = n) → post (n + 2) r t := by
    rintro op n r t ⟨W, es, hdone, hW, hbus⟩
    exact ⟨hdone.response, hdone.card, hdone.others, hdone.switch, hdone.sameCells hW,
      ⟨_, hdone.hist, by rw [countP_isBus_commandTrace, hbus]⟩, hdone.elsewhere, hdone.took⟩
  refine ⟨?_, ?_, ?_⟩
  · obtain ⟨t, W, es, ht, hdone⟩ := runPerCard_reads (op := 0x94#8) hready hl hp hb (fun _ => id) fun t hr he _ hbt => by
      obtain ⟨u, hu, hread⟩ := getBusVoltageOp_runs c hr hbt
      rw [busReading_effect he] at hu
      rw [he.params] at hread
      exact ⟨u, hu, hread⟩
    exact ⟨t, runPerCard_passes (cardChanOk_numbers i c) ht, hpost ⟨W, es, hdone⟩⟩
  · obtain ⟨t, W, es, ht, hdone⟩ := runPerCard_reads (op := 0x95#8) (c := c) (n := 6) (ws := []) hready hl hp
      (hb.mono (by omega)) nofun fun t hr he _ hbt => by
      obtain ⟨u, hu, hread⟩ := getShuntVoltageOp_runs c hr hbt
      rw [shuntReading_effect he] at hu
      exact ⟨u, hu, hread⟩
    exact ⟨t, runPerCard_passes (cardChanOk_numbers i c) ht, hpost ⟨W, es, hdone⟩⟩
  · obtain ⟨t, W, es, ht, hdone⟩ := runPerCard_reads (op := 0x96#8) hready hl hp hb (fun _ => id) fun t hr he hct hbt => by
      obtain ⟨u, hu, hread⟩ := getCurrentOp_runs c hr hbt (d := d) (by rw [hct]; exact hd)
      rw [currentReading_effect he] at hu
      rw [he.params] at hread
      exact ⟨u, hu, hread⟩
    exact ⟨t, runPerCard_passes (cardChanOk_numbers i c) ht, hpost ⟨W, es, hdone⟩⟩

end Sys2Proof.Machine
end

section
/-! A seek whose next level exceeds 1023 (R204): O55. -/

namespace Sys2Proof.Machine

variable {s t : State} {i : CardIx} {c : ChanIx} {op : Byte} {d : Option Rat} {target : Rat} {step : Int} {sense : Op Rat}
  {reading : State → Nat → Rat} {level : Nat}

/-! ## The seek on an open card -/

/-- R201: below the target by 0.01 or more, the level moves up. -/
theorem seekMove_up {x : Rat} {l : Int} (h : 1 / 100 ≤ target - x) :
    seekConverged target x = false ∧ seekMove target x l step = l + step := by
  refine ⟨?_, ?_⟩
  · rw [Bool.eq_false_iff, Ne, seekConverged_iff]
    exact fun hnear => absurd (abs_lt.mp hnear).2 (not_lt.mpr h)
  · rw [seekMove_eq, stepToward, if_neg (by linarith)]

/-- An operation of 12 transactions that ended with `InvalidArgument`: it has written calibration registers at most, and nothing
cached. -/
def Op.RefusedAfterRead {α : Type} (x : Op α) (s : State) (i : CardIx) (c : ChanIx) : Prop :=
  ∃ u W es, x s = .error (.failed .invalidArgument) u ∧ Effect s u 12 W es ∧ (∀ w ∈ W, w ∈ calWrites s.params i c) ∧
    u.cards = s.cards

/-- R204: the first iteration. -/
theorem seekLoop_past_ceiling {fuel : Nat} {l : Int} (h : Senses sense i c d reading) (hr : Ready s i)
    (hd : s.cards[i].curdiv = d) (hb : NoBusError 12 s) (hl : s.seekLevel = some l) (hfar : 1 / 100 ≤ target - reading s 0)
    (hceil : 1023 < l + step) :
    (seekLoop (cardNo i) (chanNo c) target step sense (fuel + 1)).RefusedAfterRead s i c := by
  obtain ⟨u, W, es, hu, he, -, hW, hc, hlu⟩ := h.iterate hr hd hb
  obtain ⟨hconv, hmove⟩ := seekMove_up (l := l) (step := step) hfar
  have hrefused : (setLevelOp (cardNo i) (chanNo c) (seekMove target (reading s 0) l step)).Refuses :=
    refuses_setLevelOp (.inr (by omega))
  have hall := he.trans ((effect_counted u).trans (effect_withLevel u.counted (seekMove target (reading s 0) l step)))
  exact ⟨_, _, _, seekLoop_setFails hu (hlu.trans hl) hconv (hrefused _), hall, by simpa using hW, hc⟩

theorem seekOp_past_ceiling (h : Senses sense i c d reading) (hr : Ready s i) (hd : s.cards[i].curdiv = d)
    (hb : NoBusError 12 s) (hl : s.cards[i].level[c] = some level) (hfar : 1 / 100 ≤ target - reading s 0)
    (hceil : 1023 < level + step) : (seekOp (cardNo i) (chanNo c) target step sense).RefusedAfterRead s i c := by
  have hstart := effect_seekStart s level
  obtain ⟨u, W, es, hu, he, hW, hc⟩ := seekLoop_past_ceiling (s := s.seekStart level) (fuel := 2047) h
    (hr.step hstart nofun rfl) hd (hb.after hstart (by omega)) rfl (by rw [h.shift hstart]; exact hfar) hceil
  refine ⟨u.dropSeek, _, _, ?_, (hstart.trans he).trans (effect_dropSeek u), ?_, hc⟩
  · rw [seekOp_eq hl, show Config.pb.seekMaxIter = 2047 + 1 from rfl, hu]
  · rw [List.nil_append, List.append_nil]
    exact hW

/-! ## The command around it -/

/-- R183, R228: what a per-card command leaves whose body was so refused: the card is closed if the `CLOSE` succeeds. -/
structure ClosedAfterRefusal (s : State) (i : CardIx) (c : ChanIx) (t : State) : Prop where
  response : t.response = some (.failed .invalidArgument)
  card : t.cards[i] = { s.cards[i] with iso := some (if (s.answer 13).ok then .closed else .opened) }
  closed : (s.answer 13).ok = true → t.devSw i = 0x60#8 ∧ NoneConnected t
  others : SameCardsBut i s t
  cells : SameCellsBut [swCell i, snsCalCell i c, snsCalCell i c + 1] s t
  elsewhere : SameElsewhere s t
  took : Took 14 s t

theorem runPerCard_refusedAfterRead {body : Op Value} (h : CommandReady s) (hl : s.cards[i].live = true)
    (hp : s.present[i] = true) (hb : NoBusError 13 s)
    (hbody : ∀ t, Ready t i → Effect (s.beginCommand op) t 1 [(swCell i, openByte s.params)]
        [switchEvent s.params i (openByte s.params)] → t.cards[i] = { s.cards[i] with iso := some .opened } →
      NoBusError 12 t → body.RefusedAfterRead t i c) :
    ∃ t, runPerCard op true (cardNo i) body s = .next t ∧ ClosedAfterRefusal s i c t := by
  obtain ⟨hm, hv, hbetween, hn, -⟩ := h
  obtain ⟨t, hopen, he, -, hct⟩ := openOp_runs (s := s.beginCommand op) hp (NoBusError.next (s := s.beginCommand op) hb (by omega))
  have hr : Ready t i := ready_of_open (s := s.beginCommand op) hm hv hn hp he hct
  have hcard : t.cards[i] = { s.cards[i] with iso := some .opened } := by rw [hct, cards_set_same]; rfl
  obtain ⟨u, W, es, hu, heu, hW, hcu⟩ := hbody t hr he hcard (NoBusError.after (s := s.beginCommand op) hb he (by omega))
  have hru : Ready u i := hr.step heu
    (no_switch_of_cells (senseCells_of_part fun w hw => List.mem_append_left _ (hW w hw))) (by rw [hcu])
  obtain ⟨w, ws, hw, hew, -, hws, hclosed, hcw⟩ :=
    withOpen_body_fails hopen hu (by rw [heu.present, he.present]; exact hp)
  have hok : u.nextAnswer.ok = (s.answer 13).ok := congrArg Answer.ok (he.trans heu).nextAnswer
  rw [hok] at hclosed hcw
  obtain ⟨hall, hs⟩ := endCommand_effect hbetween ((he.trans heu).trans hew) (.failed .invalidArgument)
  refine ⟨_, runPerCard_failed hbetween.1 hl hw, rfl, ?_, fun h13 => ?_, fun j hj => ?_, fun k hk => ?_,
    hall.sameElsewhere hs, hall.took⟩
  · rw [State.endCommand_cards, hcw, hcu]
    split
    · rw [cards_set_same, hcard]
    · exact hcard
  · obtain rfl := hclosed h13
    exact ⟨hew.read_mem hru.1 (List.nodup_singleton _) (List.mem_singleton.mpr rfl),
      hew.connected_close hru.1 hru.2.2.1.eq (by decide)⟩
  · have hother : u.cards[j] = s.cards[j] := by
      rw [hcu, hct, cards_set_other _ _ hj]
      rfl
    rw [State.endCommand_cards, hcw]
    split
    · rw [cards_set_other _ _ hj, hother]
    · exact hother
  · obtain ⟨hsw, hk⟩ := not_or.mp (List.mem_cons.not.mp hk)
    have hkW : k ∉ W.map Prod.fst := fun h => hk (calCells_of_part hW k h)
    refine hall.read_other ?_
    obtain rfl | rfl := hws <;> simpa [hsw] using hkW

theorem seekCommand_past_ceiling (h : Senses sense i c d reading) (hready : CommandReady s) (hl : s.cards[i].live = true)
    (hp : s.present[i] = true) (hb : NoBusError 13 s) (hlevel : s.cards[i].level[c] = some level)
    (hd : s.cards[i].curdiv = d) (hfar : 1 / 100 ≤ target - reading (s.beginCommand op) 1) (hceil : 1023 < level + step) :
    ∃ t, runPerCard op true (cardNo i) (seekOp (cardNo i) (chanNo c) target step sense) s = .next t ∧
      ClosedAfterRefusal s i c t :=
  runPerCard_refusedAfterRead hready hl hp hb fun t hr he hct hbt =>
    seekOp_past_ceiling h hr (by rw [hct]; exact hd) hbt (by rw [hct]; exact hlevel) (by rw [h.shift he]; exact hfar) hceil

/-- Settles O55: both seeks sense, refuse the next level, and release the card. -/
theorem seekPastCeilingIsInvalidArgument : Obligations.SeekPastCeilingIsInvalidArgument := by
  intro s i c level target step hready hl hp hb hlevel h0 hstep hceil post
  have hpost : ∀ {t}, ClosedAfterRefusal s i c t → post t := fun h =>
    ⟨h.response, h.card, h.closed, h.others, h.cells, h.elsewhere, h.took⟩
  refine ⟨fun h5 hfar => ?_, fun d hd h200 hfar => ?_⟩
  · obtain ⟨t, ht, hleft⟩ := seekCommand_past_ceiling (op := 0x97#8) (senses_getBusVoltageOp i c _) hready hl hp hb hlevel rfl
      hfar hceil
    exact ⟨t, runPerCard_passes (cardChanAnd_numbers ((seekVoltageArgs_iff target step).mpr ⟨⟨h0, h5⟩, hstep⟩)) ht,
      hpost hleft⟩
  · obtain ⟨t, ht, hleft⟩ := seekCommand_past_ceiling (op := 0x98#8) (senses_getCurrentOp i c d) hready hl hp hb hlevel hd
      hfar hceil
    exact ⟨t, runPerCard_passes (cardChanAnd_numbers ((seekCurrentArgs_iff target step).mpr ⟨⟨h0, h200⟩, hstep⟩)) ht,
      hpost hleft⟩

end Sys2Proof.Machine
end

section
/-! A seek that converges on its first sample or after one move (R201 to R203, R206): O53, O54. -/

namespace Sys2Proof.Machine

variable {s t : State} {i : CardIx} {c : ChanIx} {op : Byte} {d : Option Rat} {target : Rat} {step l : Int} {sense : Op Rat}
  {reading : State → Nat → Rat} {level next n fuel : Nat} {v : Value} {W : List (Nat × Byte)} {es : List Event} {card : Card}

/-! ## The seek on an open card -/

/-- R201, R206: the iteration whose sample is within 0.01 of the target. -/
theorem seekLoop_converges_runs (h : Senses sense i c d reading) (hr : Ready s i) (hd : s.cards[i].curdiv = d)
    (hb : NoBusError 12 s) (hl : s.seekLevel = some l) (hnear : |target - reading s 0| < 1 / 100) :
    ∃ u W es, seekLoop (cardNo i) (chanNo c) target step sense (fuel + 1) s = .ok (.pair l (reading s 0)) u ∧
      Effect s u 12 W es ∧ (∀ w ∈ W, w ∈ calWrites s.params i c) ∧ u.cards = s.cards := by
  obtain ⟨u, W, es, hu, he, -, hW, hc, hlu⟩ := h.iterate hr hd hb
  exact ⟨_, _, _, seekLoop_converges hu (hlu.trans hl) ((seekConverged_iff target _).mpr hnear), he.trans (effect_counted u),
    by simpa using hW, hc⟩

/-- R201: the iteration that moves the level to `next`. The rest of the loop runs from the state it leaves. -/
theorem seekLoop_moves_runs (h : Senses sense i c d reading) (hr : Ready s i) (hd : s.cards[i].curdiv = d)
    (hb : NoBusError 13 s) (hl : s.seekLevel = some l) (hfar : FarFrom target (reading s 0))
    (hnext : (next : Int) = stepToward target (reading s 0) l step) (hmax : next ≤ 1023) :
    ∃ u W es, seekLoop (cardNo i) (chanNo c) target step sense (fuel + 1) s =
        seekLoop (cardNo i) (chanNo c) target step sense fuel u ∧
      Effect s u 13 (W ++ (potCells i c).zip (potBytes next)) es ∧ (∀ w ∈ W, w ∈ calWrites s.params i c) ∧ Ready u i ∧
      u.seekLevel = some (next : Int) ∧
      u.cards = s.cards.set i { s.cards[i] with level := s.cards[i].level.set c (some next) } := by
  obtain ⟨u, W, es, hu, he, hsw, hW, hc, hlu⟩ := h.iterate hr hd (hb.mono (by omega))
  have hconv : seekConverged target (reading s 0) = false :=
    Bool.eq_false_iff.mpr fun hnear => hfar ((seekConverged_iff target _).mp hnear)
  have hmove : seekMove target (reading s 0) l step = (next : Int) := (seekMove_eq _ _ _ _).trans hnext.symm
  have he1 := he.trans ((effect_counted u).trans (effect_withLevel u.counted next))
  have hc1 : (u.counted.withLevel next).cards = s.cards := hc
  have hr1 : Ready (u.counted.withLevel next) i := hr.step he1 (by simpa using hsw) (by rw [hc1])
  obtain ⟨w, hw, hew, hs, hcw⟩ := setLevelOp_runs c (v := (next : Int)) (by omega) hr1
    ((hb.after he1 (by omega)).next (by omega))
  rw [Int.toNat_natCast] at hew hcw
  refine ⟨w, W, _, seekLoop_moves hu (hlu.trans hl) hconv (by rw [hmove]; exact hw), by simpa using he1.trans hew, hW,
    hr1.step hew (no_switch_of_cells pot_cells) (by rw [hcw, cards_set_same]), hs.seekLevel, by rw [hcw, hc1]⟩

theorem seekOp_ok {u : State} (hl : s.cards[i].level[c] = some level)
    (h : seekLoop (cardNo i) (chanNo c) target step sense Config.pb.seekMaxIter (s.seekStart level) = .ok v u)
    (he : Effect (s.seekStart level) u n W es) :
    seekOp (cardNo i) (chanNo c) target step sense s = .ok v u.dropSeek ∧ Effect s u.dropSeek n W es := by
  refine ⟨by rw [seekOp_eq hl, h], ?_⟩
  simpa using (effect_seekStart s level).trans (he.trans (effect_dropSeek u))

/-- R206: the first sample converges. -/
theorem seekOp_converges (h : Senses sense i c d reading) (hr : Ready s i) (hd : s.cards[i].curdiv = d)
    (hb : NoBusError 12 s) (hl : s.cards[i].level[c] = some level) (hnear : |target - reading s 0| < 1 / 100) :
    ∃ u W es, seekOp (cardNo i) (chanNo c) target step sense s = .ok (.pair level (reading s 0)) u ∧ Effect s u 12 W es ∧
      (∀ w ∈ W, w ∈ calWrites s.params i c) ∧ u.cards = s.cards := by
  have hstart := effect_seekStart s level
  rw [← h.shift hstart 0] at hnear ⊢
  obtain ⟨u, W, es, hu, he, hW, hc⟩ := seekLoop_converges_runs (s := s.seekStart level) (step := step) (fuel := 2047) h
    (hr.step hstart nofun rfl) hd (hb.after hstart (by omega)) rfl hnear
  obtain ⟨hrun, heff⟩ := seekOp_ok hl hu he
  exact ⟨_, W, es, hrun, heff, hW, hc⟩

/-- The cell writes of a seek that moved the level once: calibrations, the level's pattern, calibrations. -/
def MovedWrites (p : Params) (i : CardIx) (c : ChanIx) (next : Nat) (W : List (Nat × Byte)) : Prop :=
  ∃ W1 W2, W = W1 ++ (potCells i c).zip (potBytes next) ++ W2 ∧ (∀ w ∈ W1, w ∈ calWrites p i c) ∧
    ∀ w ∈ W2, w ∈ calWrites p i c

/-- R201, R206: the first sample moves the level, the second converges. -/
theorem seekOp_moves (h : Senses sense i c d reading) (hr : Ready s i) (hd : s.cards[i].curdiv = d)
    (hb : NoBusError 25 s) (hl : s.cards[i].level[c] = some level) (hfar : FarFrom target (reading s 0))
    (hnext : (next : Int) = stepToward target (reading s 0) level step) (hmax : next ≤ 1023)
    (hnear : |target - reading s 13| < 1 / 100) :
    ∃ u W es, seekOp (cardNo i) (chanNo c) target step sense s = .ok (.pair next (reading s 13)) u ∧ Effect s u 25 W es ∧
      MovedWrites s.params i c next W ∧
      u.cards = s.cards.set i { s.cards[i] with level := s.cards[i].level.set c (some next) } := by
  have hstart := effect_seekStart s level
  have hb' : NoBusError 25 (s.seekStart level) := hb.after hstart (by omega)
  obtain ⟨u, W1, es1, hu, heu, hW1, hru, hlu, hcu⟩ := seekLoop_moves_runs (s := s.seekStart level) (fuel := 2047) h
    (hr.step hstart nofun rfl) hd (hb'.mono (by omega)) rfl (by rw [h.shift hstart]; exact hfar)
    (by rw [h.shift hstart]; exact hnext) hmax
  have hsample : reading u 0 = reading s 13 := h.shift (hstart.trans heu) 0
  obtain ⟨w, W2, es2, hw, hew, hW2, hcw⟩ := seekLoop_converges_runs (target := target) (step := step) (fuel := 2046) h hru
    (by rw [hcu, cards_set_same]; exact hd) (hb'.after heu (by omega)) hlu (by rw [hsample]; exact hnear)
  rw [heu.params] at hW2
  rw [hsample] at hw
  obtain ⟨hrun, heff⟩ := seekOp_ok hl (hu.trans hw) (heu.trans hew)
  exact ⟨_, _, _, hrun, heff, ⟨W1, W2, rfl, hW1, hW2⟩, hcw.trans hcu⟩

/-! ## What a seek that moved has written -/

theorem MovedWrites.cell_cases {p : Params} {k : Nat} (h : MovedWrites p i c next W) (hk : k ∈ W.map Prod.fst) :
    k ∈ (calWrites p i c).map Prod.fst ∨ k ∈ ((potCells i c).zip (potBytes next)).map Prod.fst := by
  obtain ⟨W1, W2, rfl, hW1, hW2⟩ := h
  obtain ⟨w, hw, rfl⟩ := List.mem_map.mp hk
  obtain hw | hw := List.mem_append.mp hw
  · obtain hw | hw := List.mem_append.mp hw
    · exact .inl (List.mem_map_of_mem (hW1 w hw))
    · exact .inr (List.mem_map_of_mem hw)
  · exact .inl (List.mem_map_of_mem (hW2 w hw))

theorem MovedWrites.cells {p : Params} (h : MovedWrites p i c next W) :
    ∀ k ∈ W.map Prod.fst, k ∈ [snsCalCell i c, snsCalCell i c + 1] ++ potCells i c := by
  intro k hk
  obtain hk | hk := h.cell_cases hk
  · exact List.mem_append_left _ hk
  · obtain ⟨w, hw, rfl⟩ := List.mem_map.mp hk
    exact List.mem_append_right _ (List.of_mem_zip hw).1

theorem MovedWrites.on_card {p : Params} (h : MovedWrites p i c next W) :
    ∀ k ∈ W.map Prod.fst, CardCell i k ∧ k ≠ swCell i := by
  intro k hk
  obtain hk | hk := h.cell_cases hk
  · exact senseCells_of_part (p := p) (c := c) (fun w => List.mem_append_left _) k hk
  · exact pot_cells k hk

/-- R78: the second sample's calibrations leave the level's bytes where the move put them. -/
theorem MovedWrites.read_pot {p : Params} (h : MovedWrites p i c next W) (hmax : next ≤ 1023)
    (hm : Memory.wf s.mem = true) (j : Fin 4) :
    Memory.read (Memory.writeAll s.mem W) (potCell i (potChip c) (potSub c) j.val) = levelByte next j.val := by
  obtain ⟨W1, W2, rfl, -, hW2⟩ := h
  have h1 := effect_writeAll s W1
  have hpot := devPot_level hmax (effect_writeAll { s with mem := Memory.writeAll s.mem W1 } _) (h1.wf hm) (c := c) (i := i) j
  have hcal : potCell i (potChip c) (potSub c) j.val ∉ W2.map Prod.fst := by
    intro hk
    have hk := calCells_of_part hW2 _ hk
    rw [potCell_eq, snsCalCell_val, List.mem_pair] at hk
    have := j.isLt
    have := ChanIx.lt c
    omega
  rw [Memory.writeAll_append, Memory.read_writeAll_other _ hcal, Memory.writeAll_append]
  exact hpot.trans (getD_potBytes hmax j)

/-! ## The command around it (R183, R202, R203) -/

/-- R183: a per-card command whose body answers the value itself. -/
theorem runPerCard_value_done {body : Op Value} (Q : List (Nat × Byte) → Prop) (h : CommandReady s)
    (hl : s.cards[i].live = true) (hp : s.present[i] = true) (hb : NoBusError (n + 2) s)
    (hbody : ∀ t, Ready t i → Effect (s.beginCommand op) t 1 [(swCell i, openByte s.params)]
        [switchEvent s.params i (openByte s.params)] → t.cards[i] = { s.cards[i] with iso := some .opened } →
      NoBusError n t → ∃ u W es, body t = .ok v u ∧ Effect t u n W es ∧ u.cards = t.cards.set i card ∧
        (∀ k ∈ W.map Prod.fst, CardCell i k ∧ k ≠ swCell i) ∧ Q W) :
    ∃ t W es, runPerCard op true (cardNo i) body s = .next t ∧ PerCardDone s i op n v W es card t ∧ Q W := by
  have hrun := runPerCard_done (x := body) (g := id) (fun W _ => Q W) h hl hp hb hbody
  simpa only [id_eq, bind_pure] using hrun

theorem seekCommand_converges (h : Senses sense i c d reading) (hready : CommandReady s) (hl : s.cards[i].live = true)
    (hp : s.present[i] = true) (hb : NoBusError 14 s) (hlevel : s.cards[i].level[c] = some level)
    (hd : s.cards[i].curdiv = d) (hnear : |target - reading (s.beginCommand op) 1| < 1 / 100) :
    ∃ t W es, runPerCard op true (cardNo i) (seekOp (cardNo i) (chanNo c) target step sense) s = .next t ∧
      PerCardDone s i op 12 (.pair level (reading (s.beginCommand op) 1)) W es { s.cards[i] with iso := some .opened } t ∧
      ∀ k ∈ W.map Prod.fst, k ∈ [snsCalCell i c, snsCalCell i c + 1] := by
  refine runPerCard_value_done _ hready hl hp hb fun t hr he hct hbt => ?_
  have hsample : reading t 0 = reading (s.beginCommand op) 1 := h.shift he 0
  rw [← hsample] at hnear ⊢
  obtain ⟨u, W, es, hu, heu, hW, hcu⟩ :=
    seekOp_converges (step := step) h hr (by rw [hct]; exact hd) hbt (by rw [hct]; exact hlevel) hnear
  exact ⟨u, W, es, hu, heu, hcu.trans (cards_eq_set hct),
    senseCells_of_part fun w hw => List.mem_append_left _ (hW w hw), calCells_of_part hW⟩

theorem seekCommand_moves (h : Senses sense i c d reading) (hready : CommandReady s) (hl : s.cards[i].live = true)
    (hp : s.present[i] = true) (hb : NoBusError 27 s) (hlevel : s.cards[i].level[c] = some level)
    (hd : s.cards[i].curdiv = d) (hfar : FarFrom target (reading (s.beginCommand op) 1))
    (hnext : (next : Int) = stepToward target (reading (s.beginCommand op) 1) level step) (hmax : next ≤ 1023)
    (hnear : |target - reading (s.beginCommand op) 14| < 1 / 100) :
    ∃ t W es, runPerCard op true (cardNo i) (seekOp (cardNo i) (chanNo c) target step sense) s = .next t ∧
      PerCardDone s i op 25 (.pair next (reading (s.beginCommand op) 14)) W es
        { s.cards[i] with iso := some .opened, level := s.cards[i].level.set c (some next) } t ∧
      MovedWrites s.params i c next W := by
  refine runPerCard_value_done _ hready hl hp hb fun t hr he hct hbt => ?_
  have hfirst : reading t 0 = reading (s.beginCommand op) 1 := h.shift he 0
  have hsecond : reading t 13 = reading (s.beginCommand op) 14 := h.shift he 13
  rw [← hfirst] at hfar hnext
  rw [← hsecond] at hnear ⊢
  obtain ⟨u, W, es, hu, heu, hW, hcu⟩ :=
    seekOp_moves h hr (by rw [hct]; exact hd) hbt (by rw [hct]; exact hlevel) hfar hnext hmax hnear
  rw [he.params] at hW
  exact ⟨u, W, es, hu, heu, by rw [hcu, hct], hW.on_card, hW⟩

/-- Settles O53: both seeks sense once and answer the cached level. -/
theorem seekConvergesOnFirstSample : Obligations.SeekConvergesOnFirstSample := by
  intro s i c level d target step hready hl hp hb hlevel hd h0 hstep post
  have hpost : ∀ {op x t W es}, PerCardDone s i op 12 (.pair level x) W es { s.cards[i] with iso := some .opened } t →
      (∀ k ∈ W.map Prod.fst, k ∈ [snsCalCell i c, snsCalCell i c + 1]) → post x t := fun h hW =>
    ⟨h.response, h.card, h.others, h.switch, h.sameCells hW, h.elsewhere, h.took⟩
  refine ⟨fun h5 hnear => ?_, fun h200 hnear => ?_⟩
  · obtain ⟨t, W, es, ht, hdone, hW⟩ :=
      seekCommand_converges (op := 0x97#8) (senses_getBusVoltageOp i c _) hready hl hp hb hlevel rfl hnear
    exact ⟨t, runPerCard_passes (cardChanAnd_numbers ((seekVoltageArgs_iff target step).mpr ⟨⟨h0, h5⟩, hstep⟩)) ht,
      hpost hdone hW⟩
  · obtain ⟨t, W, es, ht, hdone, hW⟩ :=
      seekCommand_converges (op := 0x98#8) (senses_getCurrentOp i c d) hready hl hp hb hlevel hd hnear
    exact ⟨t, runPerCard_passes (cardChanAnd_numbers ((seekCurrentArgs_iff target step).mpr ⟨⟨h0, h200⟩, hstep⟩)) ht,
      hpost hdone hW⟩

/-- Settles O54: both seeks sense, move the level once, and sense again. -/
theorem seekMovesOneStepTowardTarget : Obligations.SeekMovesOneStepTowardTarget := by
  intro s i c level next target step hready hl hp hb hlevel h0 hstep hmax moves post
  have hpost : ∀ {op x t W es}, PerCardDone s i op 25 (.pair next x) W es
      { s.cards[i] with iso := some .opened, level := s.cards[i].level.set c (some next) } t →
      MovedWrites s.params i c next W → post x t := fun h hW =>
    ⟨h.response, h.card, h.others,
      fun j => (h.cells _ (swCell_ne_potCell i i _ _ j.isLt).symm).trans (hW.read_pot hmax hready.1 j),
      h.switch, h.sameCells hW.cells, h.elsewhere, h.took⟩
  refine ⟨fun h5 ⟨hfar, hnext, hnear⟩ => ?_, fun d hd h200 ⟨hfar, hnext, hnear⟩ => ?_⟩
  · obtain ⟨t, W, es, ht, hdone, hW⟩ := seekCommand_moves (op := 0x97#8) (senses_getBusVoltageOp i c _) hready hl hp hb hlevel
      rfl hfar hnext hmax hnear
    exact ⟨t, runPerCard_passes (cardChanAnd_numbers ((seekVoltageArgs_iff target step).mpr ⟨⟨h0, h5⟩, hstep⟩)) ht,
      hpost hdone hW⟩
  · obtain ⟨t, W, es, ht, hdone, hW⟩ := seekCommand_moves (op := 0x98#8) (senses_getCurrentOp i c d) hready hl hp hb hlevel
      hd hfar hnext hmax hnear
    exact ⟨t, runPerCard_passes (cardChanAnd_numbers ((seekCurrentArgs_iff target step).mpr ⟨⟨h0, h200⟩, hstep⟩)) ht,
      hpost hdone hW⟩

end Sys2Proof.Machine
end

section
/-! The iterations of a seek are bounded (R205, R207): O56. -/

namespace Sys2Proof.Machine

variable {α β : Type}

/-! ## Only the loop itself fails with `SeekNotConverged` (R224) -/

/-- The operation ends, if with a failure, with another than `SeekNotConverged`. -/
def Op.NeverExhausts (x : Op α) : Prop := ∀ s t, x s ≠ .error (.failed .seekNotConverged) t

theorem neverExhausts_pure (v : α) : (pure v : Op α).NeverExhausts := fun _ _ h => by cases h

theorem neverExhausts_get : (get : Op State).NeverExhausts := fun _ _ h => by cases h

theorem neverExhausts_modify (g : State → State) : (modify g : Op PUnit).NeverExhausts := fun _ _ h => by cases h

theorem neverExhausts_draw : draw.NeverExhausts := fun _ _ h => by cases h

theorem neverExhausts_halt (r : Fault) : (halt r : Op α).NeverExhausts := fun _ _ h => by cases h

theorem neverExhausts_raise {f : Failure} (hf : f ≠ .seekNotConverged) : (raise f : Op α).NeverExhausts := fun _ _ h => by
  cases h
  exact hf rfl

theorem neverExhausts_bind {x : Op α} {f : α → Op β} (hx : x.NeverExhausts) (hf : ∀ v, (f v).NeverExhausts) :
    (x >>= f).NeverExhausts := by
  intro s t h
  rw [Op.bind_apply] at h
  cases hr : x s with
  | ok v u => rw [hr] at h; exact hf v u t h
  | error e u => rw [hr] at h; cases h; exact hx s t hr

theorem neverExhausts_checkArg (b : Bool) : (checkArg b).NeverExhausts := by
  cases b
  · exact neverExhausts_raise (by decide)
  · exact neverExhausts_pure _

theorem neverExhausts_asBool (b : Option Bool) : (asBool b).NeverExhausts := by
  cases b
  · exact neverExhausts_raise (by decide)
  · exact neverExhausts_pure _

theorem neverExhausts_readField (field : State → Option α) : (readField field).NeverExhausts := by
  refine neverExhausts_bind neverExhausts_get fun s => ?_
  cases field s
  · exact neverExhausts_halt _
  · exact neverExhausts_pure _

theorem neverExhausts_chanIx (ch : Int) : (chanIx ch).NeverExhausts := by
  unfold chanIx
  split
  · exact neverExhausts_pure _
  · exact neverExhausts_halt _

theorem neverExhausts_requireOpen (a : Int) : (requireOpen a).NeverExhausts := by
  refine neverExhausts_bind neverExhausts_get fun s => ?_
  split
  · exact neverExhausts_pure _
  · exact neverExhausts_halt _

theorem neverExhausts_forEach {body : α → Op Unit} (h : ∀ x, (body x).NeverExhausts) (xs : List α) :
    (forEach xs body).NeverExhausts := by
  induction xs with
  | nil => exact neverExhausts_pure _
  | cons x xs ih => exact neverExhausts_bind (h x) fun _ => ih

theorem neverExhausts_dropAfter {drop : State → State} {body : Op α} (hb : body.NeverExhausts) :
    (dropAfter drop body).NeverExhausts := by
  intro s t h
  unfold dropAfter at h
  cases hx : body s with
  | ok v u => rw [hx] at h; cases h
  | error e u => rw [hx] at h; cases h; exact hb s u hx

/-! ### One bus transaction -/

/-- The failing step of a transaction. -/
theorem neverExhausts_emit_raise (e : Event) : (do emit e; raise .busError : Op α).NeverExhausts :=
  neverExhausts_bind (neverExhausts_modify _) fun _ => neverExhausts_raise (by decide)

theorem neverExhausts_reach (tx : Txn) (addr : Int) : (reach tx addr).NeverExhausts := by
  refine neverExhausts_bind neverExhausts_get fun s => ?_
  split
  · exact neverExhausts_pure _
  · exact neverExhausts_emit_raise _
  · exact neverExhausts_halt _

theorem neverExhausts_transferWrite (tx : Txn) (regs : List (List (Nat × Byte))) : (transferWrite tx regs).NeverExhausts := by
  refine neverExhausts_bind neverExhausts_draw fun ans => ?_
  split
  · exact neverExhausts_bind (neverExhausts_modify _) fun _ => neverExhausts_modify _
  · exact neverExhausts_bind (neverExhausts_modify _) fun _ => neverExhausts_emit_raise _

theorem neverExhausts_transferRead (tx : Txn) (f : State → Answer → List Byte) : (transferRead tx f).NeverExhausts := by
  refine neverExhausts_bind neverExhausts_draw fun ans => ?_
  split
  · exact neverExhausts_bind neverExhausts_get fun _ => neverExhausts_bind (neverExhausts_modify _) fun _ =>
      neverExhausts_pure _
  · exact neverExhausts_emit_raise _

theorem neverExhausts_writeByteOp (addr : Int) (b : Byte) : (writeByteOp addr b).NeverExhausts := by
  refine neverExhausts_bind (neverExhausts_reach _ _) fun d => ?_
  split
  · exact neverExhausts_bind (neverExhausts_checkArg _) fun _ => neverExhausts_transferWrite _ _
  · exact neverExhausts_raise (by decide)

theorem neverExhausts_readWordOp (addr : Int) (reg : Nat) : (readWordOp addr reg).NeverExhausts := by
  refine neverExhausts_bind (neverExhausts_reach _ _) fun d => ?_
  split
  · refine neverExhausts_bind neverExhausts_get fun _ => ?_
    split
    · exact neverExhausts_bind (neverExhausts_transferRead _ _) fun _ => neverExhausts_pure _
    · exact neverExhausts_raise (by decide)
  · exact neverExhausts_raise (by decide)

theorem neverExhausts_writeWordOp (addr : Int) (reg : Nat) (w : Half) : (writeWordOp addr reg w).NeverExhausts := by
  refine neverExhausts_bind (neverExhausts_reach _ _) fun d => ?_
  split
  · refine neverExhausts_bind neverExhausts_get fun s => ?_
    dsimp only
    split
    · exact neverExhausts_transferWrite _ _
    · exact neverExhausts_transferWrite _ _
    · exact neverExhausts_raise (by decide)
  · exact neverExhausts_raise (by decide)

theorem neverExhausts_writeBlockOp (addr : Int) (reg : Nat) (bs : List Byte) : (writeBlockOp addr reg bs).NeverExhausts := by
  refine neverExhausts_bind (neverExhausts_reach _ _) fun d => neverExhausts_bind (neverExhausts_checkArg _) fun _ =>
    neverExhausts_bind neverExhausts_get fun s => ?_
  split
  · exact neverExhausts_transferWrite _ _
  · exact neverExhausts_raise (by decide)

/-! ### One card -/

theorem neverExhausts_isoSetOp (a : Int) (en : Byte) (aux1 aux2 : Int) : (isoSetOp a en aux1 aux2).NeverExhausts :=
  neverExhausts_bind (neverExhausts_asBool _) fun _ => neverExhausts_bind (neverExhausts_asBool _) fun _ =>
    neverExhausts_bind (neverExhausts_asBool _) fun _ => neverExhausts_bind neverExhausts_get fun _ =>
      neverExhausts_writeByteOp _ _

theorem neverExhausts_openOp (a : Int) : (openOp a).NeverExhausts := by
  refine neverExhausts_bind neverExhausts_get fun s => ?_
  dsimp only
  split
  · exact neverExhausts_bind (neverExhausts_isoSetOp _ _ _ _) fun _ => neverExhausts_modify _
  · exact neverExhausts_bind (neverExhausts_isoSetOp _ _ _ _) fun _ => neverExhausts_modify _

theorem neverExhausts_closeOp (a : Int) : (closeOp a).NeverExhausts :=
  neverExhausts_bind (neverExhausts_isoSetOp _ _ _ _) fun _ => neverExhausts_modify _

theorem neverExhausts_setLevelOp (a ch v : Int) : (setLevelOp a ch v).NeverExhausts := by
  have hpot : ∀ p, (potWriteOp a ch p).NeverExhausts := fun _ =>
    neverExhausts_bind (neverExhausts_requireOpen _) fun _ => neverExhausts_bind (neverExhausts_chanIx _) fun _ =>
      neverExhausts_bind neverExhausts_get fun _ => neverExhausts_writeBlockOp _ _ _
  exact neverExhausts_bind (neverExhausts_checkArg _) fun _ => neverExhausts_bind (neverExhausts_checkArg _) fun _ =>
    neverExhausts_bind (neverExhausts_requireOpen _) fun _ => neverExhausts_bind (hpot _) fun _ =>
      neverExhausts_bind (neverExhausts_chanIx _) fun _ => neverExhausts_modify _

theorem neverExhausts_calibrate (c : ChanIx) : (calibrate c).NeverExhausts :=
  neverExhausts_bind neverExhausts_get fun _ => neverExhausts_writeWordOp _ _ _

theorem neverExhausts_readSense (c : ChanIx) (reg : Params → Nat) : (readSense c reg).NeverExhausts :=
  neverExhausts_bind neverExhausts_get fun _ => neverExhausts_bind (neverExhausts_readWordOp _ _) fun _ =>
    neverExhausts_pure _

/-- R148. -/
theorem neverExhausts_busSample (a ch : Int) : (busSample a ch).NeverExhausts := by
  have hraw : (rawBusOp a ch).NeverExhausts :=
    neverExhausts_bind (neverExhausts_requireOpen _) fun _ => neverExhausts_bind (neverExhausts_chanIx _) fun _ =>
      neverExhausts_bind (neverExhausts_calibrate _) fun _ => neverExhausts_bind (neverExhausts_readSense _ _) fun _ =>
        neverExhausts_pure _
  exact neverExhausts_bind hraw fun _ => neverExhausts_bind neverExhausts_get fun _ => neverExhausts_pure _

/-- R149. -/
theorem neverExhausts_currentSample (a ch : Int) : (currentSample a ch).NeverExhausts := by
  have hraw : (rawCurrentOp a ch).NeverExhausts :=
    neverExhausts_bind (neverExhausts_requireOpen _) fun _ => neverExhausts_bind (neverExhausts_chanIx _) fun _ =>
      neverExhausts_bind (neverExhausts_calibrate _) fun _ => neverExhausts_readSense _ _
  exact neverExhausts_bind hraw fun _ => neverExhausts_bind (neverExhausts_readField _) fun _ => neverExhausts_pure _

theorem neverExhausts_takeSample {sample : Op Rat} (h : sample.NeverExhausts) (k : Nat) :
    (takeSample sample k).NeverExhausts := by
  have hrest : (do
      let x ← sample
      modify fun s => { s with acc := s.acc.map (· + x), cnt := s.cnt.map (· + 1) } : Op PUnit).NeverExhausts :=
    neverExhausts_bind h fun _ => neverExhausts_modify _
  unfold takeSample
  split
  · exact neverExhausts_bind neverExhausts_get fun _ => neverExhausts_bind (neverExhausts_modify _) fun _ => hrest
  · exact hrest

/-- R151. -/
theorem neverExhausts_averageOp {sample : Op Rat} (h : sample.NeverExhausts) : (averageOp sample).NeverExhausts :=
  neverExhausts_dropAfter <| neverExhausts_bind (neverExhausts_modify _) fun _ =>
    neverExhausts_bind (neverExhausts_forEach (neverExhausts_takeSample h) _) fun _ =>
      neverExhausts_bind (neverExhausts_readField _) fun _ => neverExhausts_pure _

/-- R152, R154: the shape of both public reads a seek senses with. -/
theorem neverExhausts_publicRead {sample : Op Rat} (h : sample.NeverExhausts) (a ch : Int) (g : Rat → Rat) :
    (do
      checkArg (isChannel ch)
      requireOpen a
      let m ← averageOp sample
      pure (g m) : Op Rat).NeverExhausts :=
  neverExhausts_bind (neverExhausts_checkArg _) fun _ => neverExhausts_bind (neverExhausts_requireOpen _) fun _ =>
    neverExhausts_bind (neverExhausts_averageOp h) fun _ => neverExhausts_pure _

theorem neverExhausts_getBusVoltageOp (a ch : Int) : (getBusVoltageOp a ch).NeverExhausts :=
  neverExhausts_publicRead (neverExhausts_busSample a ch) a ch clampMean

theorem neverExhausts_getCurrentOp (a ch : Int) : (getCurrentOp a ch).NeverExhausts :=
  neverExhausts_publicRead (neverExhausts_currentSample a ch) a ch fun m => currentEps (clampMean m)

/-! ## Counting the iterations by their settle delays (R201) -/

variable {s t : State} {n : Nat}

/-- The settle delays made so far. -/
def State.settles (s : State) : Nat := s.hist.countP Event.isSettle

/-- How an operation ended that began in `s`: after at most `n` settle delays, and if with `SeekNotConverged`, then after `n`. -/
structure SettledWithin (n : Nat) (s : State) (r : EStateM.Result Stop State α) : Prop where
  atMost : (endState r).settles ≤ s.settles + n
  exhausted : ∀ t, r = .error (.failed .seekNotConverged) t → t.settles = s.settles + n

/-- The operation always ends so. -/
def Op.SettlesWithin (n : Nat) (x : Op α) : Prop := ∀ s, SettledWithin n s (x s)

/-- Leave to make every update but a settle delay. -/
abbrev unsettled : Kind → Prop := fun k => k ≠ .settle

/-- The operation makes no settle delay and does not fail with `SeekNotConverged`. -/
structure Op.Unsettled (x : Op α) : Prop where
  moves : x.Moves unsettled
  neverExhausts : x.NeverExhausts

theorem Op.Unsettled.settles {x : Op α} (h : x.Unsettled) (s : State) : (endState (x s)).settles = s.settles :=
  (h.moves s).settles fun h => h rfl

theorem Op.Unsettled.within {x : Op α} (h : x.Unsettled) (n : Nat) : x.SettlesWithin n := fun s =>
  ⟨le_trans (le_of_eq (h.settles s)) (Nat.le_add_right _ _), fun t ht => absurd ht (h.neverExhausts s t)⟩

theorem settledWithin_ok {v : α} (h : t.settles ≤ s.settles + n) :
    SettledWithin n s (.ok v t : EStateM.Result Stop State α) :=
  ⟨h, fun _ ht => by cases ht⟩

theorem settledWithin_fault {q : Fault} (h : t.settles ≤ s.settles + n) :
    SettledWithin n s (.error (.fault q) t : EStateM.Result Stop State α) :=
  ⟨h, fun _ ht => by cases ht⟩

/-- The same failure in another state, with as many settle delays made. -/
theorem SettledWithin.failed {f : Failure} {u : State} (h : SettledWithin n s (.error (.failed f) u : EStateM.Result Stop State α))
    (ht : t.settles = u.settles) : SettledWithin n s (.error (.failed f) t : EStateM.Result Stop State β) := by
  refine ⟨ht.trans_le h.atMost, fun t' ht' => ?_⟩
  cases ht'
  exact ht.trans (h.exhausted u rfl)

/-- A run that began with operations that make no settle delay. -/
theorem SettledWithin.from {r : EStateM.Result Stop State α} (hs : t.settles = s.settles) (h : SettledWithin n t r) :
    SettledWithin n s r :=
  ⟨hs ▸ h.atMost, hs ▸ h.exhausted⟩

theorem settlesWithin_bind {x : Op α} {f : α → Op β} (hx : x.Unsettled) (hf : ∀ v, (f v).SettlesWithin n) :
    (x >>= f).SettlesWithin n := by
  intro s
  have hsettles := hx.settles s
  have hwithin := hx.within n s
  rw [Op.bind_apply]
  cases hr : x s with
  | ok v u => rw [hr] at hsettles; exact (hf v u).from hsettles
  | error e u =>
    rw [hr] at hwithin
    cases e with
    | failed f => exact hwithin.failed rfl
    | fault q => exact settledWithin_fault hwithin.atMost

theorem settlesWithin_dropAfter {drop : State → State} {body : Op α} (hd : ∀ s, (drop s).hist = s.hist)
    (hb : body.SettlesWithin n) : (dropAfter drop body).SettlesWithin n := by
  have hdrop : ∀ u, (drop u).settles = u.settles := fun u => congrArg (List.countP Event.isSettle) (hd u)
  intro s
  have h := hb s
  unfold dropAfter
  cases hx : body s with
  | ok v u => rw [hx] at h; exact settledWithin_ok ((hdrop u).trans_le h.atMost)
  | error e u =>
    rw [hx] at h
    cases e with
    | failed f => exact h.failed (hdrop u)
    | fault q => exact settledWithin_fault ((hdrop u).trans_le h.atMost)

/-- R183, R228: a release that makes no settle delay adds none, and `SeekNotConverged` is then the body's. -/
theorem settlesWithin_releaseAfter {release : Op Unit} {body : Op α} (hr : release.Unsettled) (hb : body.SettlesWithin n) :
    (releaseAfter release body).SettlesWithin n := by
  intro s
  have h := hb s
  unfold releaseAfter
  cases hx : body s with
  | ok v u =>
    rw [hx] at h
    have hsettles := hr.settles u
    dsimp only
    cases hru : release u with
    | ok w t => rw [hru] at hsettles; exact settledWithin_ok (hsettles.trans_le h.atMost)
    | error e t =>
      rw [hru] at hsettles
      refine ⟨hsettles.trans_le h.atMost, fun t' ht => ?_⟩
      cases ht
      exact absurd hru (hr.neverExhausts u t)
  | error e u =>
    rw [hx] at h
    cases e with
    | fault q => exact h
    | failed f =>
      have hsettles := hr.settles u
      dsimp only
      cases hru : release u with
      | ok w t => rw [hru] at hsettles; exact h.failed hsettles
      | error g t =>
        rw [hru] at hsettles
        cases g with
        | failed g => exact h.failed hsettles
        | fault q => exact settledWithin_fault (hsettles.trans_le h.atMost)

/-! ## The seek -/

variable {sense : Op Rat} {card chan : Int} {target : Rat} {step : Int}

theorem unsettled_setLevelOp (a ch v : Int) : (setLevelOp a ch v).Unsettled :=
  ⟨moves_setLevelOp _ _ _, neverExhausts_setLevelOp _ _ _⟩

theorem unsettled_readField (field : State → Option α) : (readField field).Unsettled :=
  ⟨moves_readField _, neverExhausts_readField _⟩

/-- R25. -/
theorem unsettled_modify {g : State → State} (h : ∀ s, ∃ iter l, g s = { s with iter := iter, seekLevel := l }) :
    (modify g : Op PUnit).Unsettled := by
  refine ⟨moves_modify fun s => ?_, neverExhausts_modify g⟩
  obtain ⟨iter, l, hg⟩ := h s
  rw [hg]
  exact .one (.seek s iter l (by decide))

/-- R201, R205: one settle delay for every iteration, and `SeekNotConverged` when none is left. -/
theorem settlesWithin_seekLoop (hs : sense.Unsettled) (fuel : Nat) :
    (seekLoop card chan target step sense fuel).SettlesWithin fuel := by
  induction fuel with
  | zero => exact fun s => ⟨le_refl _, fun t h => by cases h; rfl⟩
  | succ fuel ih =>
    intro s
    have hdelay : s.settled.settles = s.settles + 1 := by
      simp [State.settles, State.settled, Event.isSettle]
    have hrest : SettledWithin fuel s.settled (seekLoop card chan target step sense (fuel + 1) s) := by
      unfold seekLoop
      rw [Op.bind_ok (emit_apply _ _)]
      refine settlesWithin_bind hs (fun x => settlesWithin_bind (unsettled_modify fun s => ⟨_, s.seekLevel, rfl⟩) fun _ =>
        settlesWithin_bind (unsettled_readField _) fun level => ?_) s.settled
      split
      · exact Op.Unsettled.within ⟨moves_pure _, neverExhausts_pure _⟩ fuel
      · exact settlesWithin_bind (unsettled_modify fun s => ⟨s.iter, _, rfl⟩) fun _ =>
          settlesWithin_bind (unsettled_setLevelOp _ _ _) fun _ => ih
    refine ⟨le_trans hrest.atMost (by omega), fun t h => ?_⟩
    rw [hrest.exhausted t h]
    omega

theorem settlesWithin_seekOp (hs : sense.Unsettled) : (seekOp card chan target step sense).SettlesWithin 2048 :=
  settlesWithin_dropAfter (fun _ => rfl) <| settlesWithin_bind ⟨moves_chanIx _, neverExhausts_chanIx _⟩ fun _ =>
    settlesWithin_bind (unsettled_readField _) fun _ => settlesWithin_bind (unsettled_modify fun _ => ⟨_, _, rfl⟩) fun _ =>
      settlesWithin_seekLoop hs 2048

theorem settlesWithin_withOpen {body : Op α} (hb : body.SettlesWithin n) (a : Int) : (withOpen a body).SettlesWithin n :=
  settlesWithin_bind ⟨moves_openOp _, neverExhausts_openOp _⟩ fun _ =>
    settlesWithin_releaseAfter ⟨moves_closeOp _, neverExhausts_closeOp _⟩ hb

/-! ## The command around it (R202, R203) -/

/-- R222, R223: a command that was refused does not answer `SeekNotConverged`; its body has failed with it. -/
theorem runCommand_exhausted_inv {op : Byte} {ok : Bool} {found : State → Bool} {body : Op Value}
    (ht : runCommand op ok found body s = .next t) (hr : t.response = some (.failed .seekNotConverged)) :
    ∃ u, body (s.beginCommand op) = .error (.failed .seekNotConverged) u ∧
      t = u.endCommand op (.failed .seekNotConverged) := by
  unfold runCommand at ht
  cases hrun : s.running with
  | some o => rw [hrun] at ht; cases ht
  | none =>
    rw [hrun] at ht
    dsimp only at ht
    split at ht
    · cases ht; cases hr
    · split at ht
      · cases ht; cases hr
      · cases hx : body (s.beginCommand op) with
        | ok w u => rw [hx] at ht; cases ht; cases hr
        | error e u =>
          rw [hx] at ht
          cases e with
          | failed f => cases ht; cases hr; exact ⟨u, rfl, rfl⟩
          | fault r => cases ht

theorem settles_beginCommand (s : State) (op : Byte) : (s.beginCommand op).settles = s.settles := by
  simp [State.settles, Event.isSettle]

theorem settles_endCommand (s : State) (op : Byte) (r : Response) : (s.endCommand op r).settles = s.settles := by
  simp [State.settles, Event.isSettle]

/-- A command that ends in a next state ended as its body did, or was refused. -/
theorem runCommand_settledWithin {op : Byte} {ok : Bool} {found : State → Bool} {body : Op Value}
    (hb : body.SettlesWithin n) (ht : runCommand op ok found body s = .next t) :
    t.settles ≤ s.settles + n ∧ (t.response = some (.failed .seekNotConverged) → t.settles = s.settles + n) := by
  obtain ⟨hmost, hexact⟩ := (hb (s.beginCommand op)).from (settles_beginCommand s op)
  refine ⟨?_, fun hr => ?_⟩
  · obtain ⟨r, rfl⟩ | ⟨-, ⟨v, u, hu, rfl⟩ | ⟨f, u, hu, rfl⟩⟩ := runCommand_inv ht
    · exact Nat.le_add_right _ _
    · rw [hu] at hmost
      exact (settles_endCommand _ _ _).trans_le hmost
    · rw [hu] at hmost
      exact (settles_endCommand _ _ _).trans_le hmost
  · obtain ⟨u, hu, rfl⟩ := runCommand_exhausted_inv ht hr
    exact (settles_endCommand _ _ _).trans (hexact u hu)

/-- R202, R203: whatever the operands and the state, either seek. -/
theorem seek_settledWithin {i : Instr}
    (hi : i = .seekVoltage card chan target step ∨ i = .seekCurrent card chan target step) (ht : exec i s = .next t) :
    t.settles ≤ s.settles + 2048 ∧
      (t.response = some (.failed .seekNotConverged) → t.settles = s.settles + 2048) := by
  obtain rfl | rfl := hi
  · exact runCommand_settledWithin (settlesWithin_withOpen (settlesWithin_seekOp
      ⟨moves_getBusVoltageOp (by decide) _ _, neverExhausts_getBusVoltageOp _ _⟩) _) ht
  · exact runCommand_settledWithin (settlesWithin_withOpen (settlesWithin_seekOp
      ⟨moves_getCurrentOp (by decide) _ _, neverExhausts_getCurrentOp _ _⟩) _) ht

/-- Settles O56: every iteration makes one settle delay, and nothing else of the command makes any. -/
theorem seekIterationsAreBounded : Obligations.SeekIterationsAreBounded := by
  intro i s t es card chan target step hi ht hhist
  obtain ⟨hmost, hexact⟩ := seek_settledWithin hi ht
  have hes : t.settles = s.settles + es.countP Event.isSettle := by
    rw [State.settles, hhist, List.countP_append, State.settles]
  refine ⟨by omega, fun hr => ?_⟩
  have := hexact hr
  omega

end Sys2Proof.Machine
end

section
/-! `SAVE_CONFIG`, and a `LOAD_CONFIG` after it (R211, R213, R214): O58, O60. -/

namespace Sys2Proof.Machine

variable {s t u v : State} {i : CardIx} {c : ChanIx} {m : Byte} {level : Nat} {en : Bool}

/-! ## The records -/

theorem setCfgEntry_cardNo (s : State) (i : CardIx) (c : ChanIx) (e : CfgEntry) :
    s.setCfgEntry (cardNo i) (chanNo c) e = { s with cfg := s.cfg.set i (s.cfg[i].set c e) } := by
  simp only [State.setCfgEntry, cardIx?_cardNo, chanIx?_chanNo]

theorem record_set (r : Vector (Vector CfgEntry Config.pb.nChan) Config.pb.nCards) (i j : CardIx) (c k : ChanIx) (e : CfgEntry) :
    (r.set i (r[i].set c e))[j][k] = if j = i ∧ k = c then e else r[j][k] := by
  by_cases hj : j = i
  · subst hj
    by_cases hk : k = c
    · subst hk; simp
    · have : c.val ≠ k.val := fun e => hk (Fin.ext e.symm)
      simp [hk, this]
  · have : i.val ≠ j.val := fun e => hj (Fin.ext e.symm)
    simp [hj, this]

/-- R211: `e` is the record of channel `c` of a card cached as `card`. -/
def Card.RecordedAs (card : Card) (c : ChanIx) (e : CfgEntry) : Prop :=
  (∃ m, card.chen = some m ∧ e.output = m.getLsbD c.val) ∧ ∃ v : Nat, card.level[c] = some v ∧ e.level = v

/-- R211: one channel of a card whose mask and level are cached. -/
theorem saveChannelOp_runs (hm : s.cards[i].chen = some m) (hl : s.cards[i].level[c] = some level) :
    saveChannelOp (cardNo i) (chanNo c) s = .ok ⟨⟩
      { s with cfg := s.cfg.set i (s.cfg[i].set c { output := m.getLsbD c.val, level := level }) } := by
  have hcached : cachedLevel (cardNo i) c s = .ok level s := readField_of_some (by rw [State.card_cardNo]; exact hl)
  rw [← setCfgEntry_cardNo]
  unfold saveChannelOp
  rw [Op.bind_ok (isChannelEnabledOp_ok c hm), chanIx_chanNo, Op.pure_bind, Op.bind_ok hcached]
  rfl

/-- R211: from `s` to `t`, the records of the channels of which `P` holds were taken, and nothing else was done. -/
structure SavedWhere (P : CardIx → ChanIx → Prop) (s t : State) : Prop where
  frame : t = { s with cfg := t.cfg }
  saved : ∀ i c, P i c → s.cards[i].RecordedAs c t.cfg[i][c]
  kept : ∀ i c, ¬P i c → t.cfg[i][c] = s.cfg[i][c]

theorem SavedWhere.cards {P : CardIx → ChanIx → Prop} (h : SavedWhere P s t) : t.cards = s.cards := by
  rw [h.frame]

theorem SavedWhere.refl (s : State) : SavedWhere (fun _ _ => False) s s := ⟨rfl, fun _ _ h => h.elim, fun _ _ _ => rfl⟩

theorem SavedWhere.congr {P Q : CardIx → ChanIx → Prop} (h : SavedWhere P s t) (hPQ : ∀ i c, P i c ↔ Q i c) :
    SavedWhere Q s t :=
  ⟨h.frame, fun i c hq => h.saved i c ((hPQ i c).mpr hq), fun i c hq => h.kept i c fun hp => hq ((hPQ i c).mp hp)⟩

theorem SavedWhere.trans {P Q : CardIx → ChanIx → Prop} (h : SavedWhere P s t) (h' : SavedWhere Q t u) :
    SavedWhere (fun i c => P i c ∨ Q i c) s u := by
  refine ⟨?_, fun i c hpq => ?_, fun i c hpq => ?_⟩
  · rw [h'.frame, h.frame]
  · by_cases hq : Q i c
    · have := h'.saved i c hq
      rwa [h.cards] at this
    · rw [h'.kept i c hq]
      exact h.saved i c (hpq.resolve_right hq)
  · obtain ⟨hp, hq⟩ := not_or.mp hpq
    exact (h'.kept i c hq).trans (h.kept i c hp)

theorem saveChannelOp_saved (hc : s.cards[i].Complete) (c : ChanIx) :
    ∃ t, saveChannelOp (cardNo i) (chanNo c) s = .ok ⟨⟩ t ∧ SavedWhere (fun j k => j = i ∧ k = c) s t := by
  obtain ⟨-, hchen, -, hlevel, -, -⟩ := hc
  obtain ⟨m, hm⟩ := Option.isSome_iff_exists.mp hchen
  obtain ⟨v, hv⟩ := Option.isSome_iff_exists.mp (hlevel c)
  refine ⟨_, saveChannelOp_runs hm hv, rfl, ?_, fun j k hjk => (record_set s.cfg i j c k _).trans (if_neg hjk)⟩
  rintro _ _ ⟨rfl, rfl⟩
  rw [record_set, if_pos ⟨rfl, rfl⟩]
  exact ⟨⟨m, hm, rfl⟩, v, hv, rfl⟩

/-- R211: the eight channels of a card. -/
theorem saveChannels_saved (hc : s.cards[i].Complete) :
    ∃ t, forEach allChans (fun ch => saveChannelOp (cardNo i) ch) s = .ok ⟨⟩ t ∧ SavedWhere (fun j _ => j = i) s t := by
  rw [forEach_allChans]
  obtain ⟨t, ht, hsaved⟩ := forEach_runs (all := List.finRange Config.pb.nChan)
    (body := fun c => saveChannelOp (cardNo i) (chanNo c)) (fun done t => SavedWhere (fun j k => j = i ∧ k ∈ done) s t)
    (fun done c rest t _ ht => by
      obtain ⟨u, hu, hsaved⟩ := saveChannelOp_saved (s := t) (i := i) (by rw [ht.cards]; exact hc) c
      refine ⟨u, hu, (ht.trans hsaved).congr fun j k => ?_⟩
      rw [List.mem_append, List.mem_singleton, ← and_or_left])
    ((SavedWhere.refl s).congr fun j k => by simp)
  exact ⟨t, ht, hsaved.congr fun j k => and_iff_left (List.mem_finRange k)⟩

/-- R211: the 18 addresses; a card that is not live is passed over. -/
theorem saveCards_saved (hc : LiveCardsComplete s) :
    ∃ t, (forEach allCards fun a => do if (← get).live a then forEach allChans fun ch => saveChannelOp a ch) s = .ok ⟨⟩ t ∧
      SavedWhere (fun j _ => s.cards[j].live = true) s t := by
  rw [forEach_allCards]
  obtain ⟨t, ht, hsaved⟩ := forEach_runs (all := List.finRange Config.pb.nCards)
    (body := fun i => do if (← get).live (cardNo i) then forEach allChans fun ch => saveChannelOp (cardNo i) ch)
    (fun done t => SavedWhere (fun j _ => j ∈ done ∧ s.cards[j].live = true) s t)
    (fun done i rest t _ ht => by
      rw [Op.get_bind, State.live, State.card_cardNo, ht.cards]
      by_cases hl : s.cards[i].live = true
      · obtain ⟨u, hu, hsaved⟩ := saveChannels_saved (s := t) (i := i) (by rw [ht.cards]; exact hc i hl)
        refine ⟨u, by rw [if_pos hl, hu], (ht.trans hsaved).congr fun j _ => ?_⟩
        rw [List.mem_append, List.mem_singleton, or_and_right]
        refine or_congr_right (iff_self_and.mpr ?_)
        rintro rfl
        exact hl
      · refine ⟨t, by rw [if_neg hl]; rfl, ht.congr fun j _ => ?_⟩
        rw [List.mem_append, List.mem_singleton, or_and_right]
        refine (or_iff_left ?_).symm
        rintro ⟨rfl, h⟩
        exact hl h)
    ((SavedWhere.refl s).congr fun j _ => by simp)
  exact ⟨t, ht, hsaved.congr fun j _ => and_iff_right (List.mem_finRange j)⟩

/-! ## `SAVE_CONFIG` -/

/-- R211: the records before the first is taken. -/
def State.cleared (s : State) (create : Bool) : State := if create then s.clearCfg else s

theorem cleared_frame (s : State) (create : Bool) : s.cleared create = { s with cfg := (s.cleared create).cfg } := by
  cases create <;> rfl

theorem cleared_cards (s : State) (create : Bool) : (s.cleared create).cards = s.cards := by
  rw [cleared_frame]

theorem cleared_record (s : State) (create : Bool) (i : CardIx) (c : ChanIx) :
    (s.cleared create).cfg[i][c] = if create then CfgEntry.off else s.cfg[i][c] := by
  cases create <;> simp [State.cleared]

theorem saveConfigOp_runs (hc : LiveCardsComplete s) (create : Bool) :
    ∃ t, saveConfigOp create s = .ok .nothing t ∧
      SavedWhere (fun j _ => s.cards[j].live = true) (s.cleared create) t := by
  obtain ⟨t, ht, hsaved⟩ := saveCards_saved (s := s.cleared create) (by rw [LiveCardsComplete, cleared_cards]; exact hc)
  rw [cleared_cards] at hsaved
  refine ⟨t, ?_, hsaved⟩
  cases create
  · exact Op.bind_ok ht
  · exact Op.bind_ok ht

theorem exec_saveConfig (s : State) (create : Bool) :
    exec (.saveConfig (byteOfBool create)) s = runCommand 0xB0#8 true noCardNeeded (saveConfigOp create) s := by
  change execSaveConfig (byteOfBool create) s = _
  rw [execSaveConfig, isFlag_byteOfBool, flagSet_byteOfBool]

/-- R33: between commands there is nothing for the end of a command to drop. -/
theorem BetweenCommands.drop_eq (hb : BetweenCommands s) :
    { s with running := none, acc := none, cnt := none, iter := none, seekLevel := none } = s := by
  obtain ⟨hrun, hacc, hcnt, hiter, hlevel⟩ := hb
  cases s
  cases hrun
  cases hacc
  cases hcnt
  cases hiter
  cases hlevel
  rfl

/-- Settles O58: the records of the live cards are taken one by one, and nothing else of the state is written between the two
boundaries. -/
theorem saveConfigRecordsLiveCards : Obligations.SaveConfigRecordsLiveCards := by
  intro s create hb hc
  obtain ⟨t, ht, hsaved⟩ := saveConfigOp_runs (s := s.beginCommand 0xB0#8) hc create
  have hframe := hsaved.frame
  rw [cleared_frame] at hframe
  refine ⟨_, (exec_saveConfig s create).trans (runCommand_ok hb.1 rfl ht), rfl, fun i c hl => ?_, fun i c hl => ?_, ?_, ?_, ?_, ?_⟩
  · have := hsaved.saved i c hl
    rwa [cleared_cards] at this
  · have := hsaved.kept i c (by rw [State.beginCommand_cards, hl]; decide)
    rwa [cleared_record] at this
  · rw [hframe]
    simp [Response.status]
  · rw [hframe]; rfl
  · rw [hframe]; rfl
  · rw [hframe]
    exact hb.drop_eq

/-! ## `LOAD_CONFIG` after it (R213) -/

/-- R212: `card` is cached as card `i`'s records say. -/
structure Card.RestoredFrom (card : Card) (s : State) (en : Bool) (i : CardIx) : Prop where
  chen : ∃ m, card.chen = some m ∧ ∀ c : ChanIx, m.getLsbD c.val = (s.cfg[i][c].output && en)
  level : ∀ c : ChanIx, card.level[c] = some (s.cfg[i][c].level).toNat

/-- R212: a `LOAD_CONFIG` that answers `Ok` has restored every live card, whatever the environment might have answered. -/
theorem loadConfig_ok_restores {x : Value} (hr : CommandReady s) (ht : exec (.loadConfig (byteOfBool en)) s = .next t)
    (hx : t.response = some (.ok x)) (hl : s.cards[i].live = true) : t.cards[i].RestoredFrom s en i := by
  rw [exec_loadConfig] at ht
  obtain ⟨w, hw, rfl⟩ := runCommand_ok_inv ht hx
  have hready : CommandReady s := hr
  obtain ⟨hm, hv, -, hn, -⟩ := hready
  refine forLiveCards_ok_inv (s := s.beginCommand 0xB1#8) (Q := fun i card => card.RestoredFrom s en i) hm hv hn ?_ hw i hl
  intro i a b hlive hra hca hcfg hrun
  obtain ⟨m, l, hm, hlm⟩ := hr.masks hlive
  have hma : a.cards[i].chen = some m := by rw [hca]; exact hm
  have hla : a.cards[i].tsten = some l := by rw [hca]; exact hlm
  obtain ⟨hb, hrec⟩ := loadChans_ok_inv hra hma hla hrun
  obtain ⟨b', m', hb', hloop, hbits, -⟩ := loadChans_runs en hra hb hma hla hrec
  cases hb'.symm.trans hrun
  rw [show a.cfg = s.cfg from hcfg] at hloop hbits
  exact ⟨16, _, hloop, ⟨m', rfl, hbits⟩, fun c => by simp⟩

/-- R213: a card restored from the records another was saved in. -/
theorem Card.RestoredFrom.of_recorded {card saved : Card} (h : card.RestoredFrom s en i)
    (hsaved : ∀ c, saved.RecordedAs c s.cfg[i][c]) :
    card.level = saved.level ∧ card.chen = if en then saved.chen else some 0x00#8 := by
  refine ⟨Vector.ext fun k hk => ?_, ?_⟩
  · obtain ⟨-, v, hv, hrec⟩ := hsaved ⟨k, hk⟩
    have hlevel := h.level ⟨k, hk⟩
    rw [hrec, Int.toNat_natCast] at hlevel
    exact hlevel.trans hv.symm
  · obtain ⟨m, hm, hbits⟩ := h.chen
    obtain ⟨⟨m', hm', -⟩, -⟩ := hsaved 0
    have hoff : m = if en then m' else 0x00#8 := byte_ext fun c => by
      obtain ⟨⟨b, hb, hout⟩, -⟩ := hsaved c
      obtain rfl := Option.some.inj (hm'.symm.trans hb)
      rw [hbits, hout]
      cases en <;> simp
    rw [hm, hoff, hm']
    cases en <;> rfl

/-- Settles O60: what O58 says was recorded is what `loadConfig_ok_restores` finds in the records. -/
theorem saveThenLoadRestores : Obligations.SaveThenLoadRestores := by
  intro s t u v create en hb hc _ hsave hcfg hready hload hok i hls hlu
  obtain ⟨t', ht', -, hrec, -⟩ := saveConfigRecordsLiveCards s create hb hc
  cases ht'.symm.trans hsave
  refine (loadConfig_ok_restores hready hload hok hlu).of_recorded fun c => ?_
  rw [hcfg]
  exact hrec i c hls

end Sys2Proof.Machine
end
